-- ==== Sys2Proof/Word.lean ====
section
/-!
DEFINITION. The words SADCSEQ handles (spec/00_scope.md section 7: u8, u16, u20, u32, s32, and the 24-bit command word
of spec/30_encoding.md R60). Signedness is not in the type: a rule that reads a word signed reads it with `BitVec.toInt`,
one that reads it unsigned with `BitVec.toNat`.
-/

namespace Sys2Proof

/-- A sensor register, an address, a byte on the bus (spec/20_memory.md R41). -/
abbrev Byte := BitVec 8

/-- A calibration coefficient or the raw temperature count (spec/10_state.md R17, R20). -/
abbrev Half := BitVec 16

/-- The raw pressure count `UP` (spec/10_state.md R21). -/
abbrev Count20 := BitVec 20

/-- A command word `CW` (spec/30_encoding.md R60). -/
abbrev CmdWord := BitVec 24

/-- A staging register of the compensation engine (spec/10_state.md R22). -/
abbrev Word := BitVec 32

/-- An oversampling level, 0 to 3; no other level can be expressed (spec/30_encoding.md R71). -/
abbrev Level := BitVec 2

end Sys2Proof
end

