-- ==== Sys2Proof/Config.lean ====
section
/-!
DEFINITION. What is fixed before the first step: the parameters of spec/00_scope.md R5 (`Params`, and `Config.params`, the
one set the machine runs with), and the free values, which nothing fixes. A free value and an OPEN parameter are opaque
constants with no body: a statement about them holds whatever they are.
-/

namespace Sys2Proof

/-- The answer to one exchange (spec/20_memory.md R40): `Error`, or `Done(nw, rb)` with the number of bytes the device
accepted and the bytes read. -/
inductive Answer where
  | err
  | done (nw : Nat) (rb : List Byte)
  deriving DecidableEq, Repr, Inhabited

/-- `BUSY_POLICY` (spec/00_scope.md R5, spec/44_session.md R162). -/
inductive BusyPolicy where
  | block
  | reject
  deriving DecidableEq, Repr, Inhabited

/-- `DIV_MODE` (spec/43_compensation.md R123). -/
inductive DivMode where
  | trunc
  | floor
  deriving DecidableEq, Repr

/-- The parameters of spec/00_scope.md R5. `tickNum / tickDen` is `TICK_US`, a rational number of microseconds.
`cmdPress`, `pDelayUs` and `b3Shift` are given per oversampling level. Parameters are not state (spec/10_state.md R10). -/
structure Params where
  devAddr    : BitVec 7
  calBase    : Byte
  calLen     : Nat
  ctrlReg    : Byte
  resultReg  : Byte
  cmdTemp    : Byte
  cmdPress   : Level → Byte
  softReset  : Byte
  powerDown  : Byte
  ossSel     : Level
  tDelayUs   : Nat
  pDelayUs   : Level → Nat
  tickNum    : Nat
  tickDen    : Nat
  busyPolicy : BusyPolicy
  divMode    : DivMode
  b3Shift    : Level → Nat

/-- The constraints spec/00_scope.md R5 puts on the parameters; `TICK_US` is positive; `CAL_LEN` is 22; `B3_SHIFT` is one of
the two readings of spec/90_conflicts.md C4, so at most 3. The model refuses other parameters (spec/20_memory.md R46). -/
structure Params.Ok (p : Params) : Prop where
  calLen      : p.calLen = 22
  calRoom     : p.calBase.toNat + 21 ≤ 0xFF
  resultRoom  : p.resultReg.toNat + 2 ≤ 0xFF
  tempNePress : ∀ o, p.cmdTemp ≠ p.cmdPress o
  pressInj    : ∀ o o', p.cmdPress o = p.cmdPress o' → o = o'
  tickPos     : 0 < p.tickNum ∧ 0 < p.tickDen
  shiftSmall  : ∀ o, p.b3Shift o ≤ 3

/-- `P_DELAY_US(oss) = 1500 + 3000 * 2^oss` (spec/42_measurement.md R103). -/
def Params.delayLaw (oss : Level) : Nat := 1500 + 3000 * 2 ^ oss.toNat

namespace Config

/-- OPEN (spec/00_scope.md R5): the oversampling level of `configure` and `read`. Log 7. -/
opaque ossSel : Level

/-- OPEN (spec/00_scope.md R5): the byte `shutdown` and `close` write. Log 7. -/
opaque powerDown : Byte

/-- OPEN (spec/00_scope.md R5): `TICK_US` is `(tickNumPred + 1) / (tickDenPred + 1)`, any positive rational. Log 7. -/
opaque tickNumPred : Nat

/-- OPEN: see `tickNumPred`. Log 7. -/
opaque tickDenPred : Nat

/-- OPEN (spec/00_scope.md R5): `BUSY_POLICY`. Log 7. -/
opaque busyPolicy : BusyPolicy

/-- The parameters the machine runs with: the values spec/00_scope.md R5 gives (those marked there as general knowledge are
in log 8), and the open ones above. -/
def params : Params where
  devAddr    := 0x77
  calBase    := 0xAA
  calLen     := 22
  ctrlReg    := 0xF4
  resultReg  := 0xF6
  cmdTemp    := 0x2E
  cmdPress   := fun oss => 0x34 + (oss.setWidth 8 <<< 6)
  softReset  := 0xB6
  powerDown  := powerDown
  ossSel     := ossSel
  tDelayUs   := 4500
  pDelayUs   := Params.delayLaw
  tickNum    := tickNumPred + 1
  tickDen    := tickDenPred + 1
  busyPolicy := busyPolicy
  divMode    := .trunc
  b3Shift    := fun oss => oss.toNat

/-- FREE VALUE: the answer of the transport to the exchange that draws free value `n`, when the script of answers says
nothing (spec/20_memory.md R55: any answer of the right shape). Log 3. -/
opaque freeAnswer : Nat → Answer

/-- FREE VALUE: whether the sensor took a two-byte write that did not answer `Done(2, _)` (spec/91_not_in_source.md N7,
spec/70_reset_and_hazards.md R219: it may or may not have). Log 4. -/
opaque freeTaken : Nat → Bool

/-- FREE VALUE: which of several pending command words is accepted next (spec/44_session.md R162: the order is not fixed).
Log 5. -/
opaque freePick : Nat → Nat

end Config
end Sys2Proof
end

