-- ==== Sys2Proof/Syntax.lean ====
section
/-!
DEFINITION. The operations of spec/opcode_table.json, one constructor per mnemonic. The eight rows named (invalid) are one
behaviour (spec/30_encoding.md R70) and one constructor, which carries its command code. A field that a command does not
use is kept (`unused`), since any value of it is accepted (R74). Operands that the table gives no bits (`us` of
`issueAndWait`, the byte count `n`) are operands here (log 19).
-/

namespace Sys2Proof

inductive Instr where
  /-- `configure()`, `OP = 0x01` (spec/44_session.md R152) -/
  | configure (unused : Half)
  /-- `shutdown()`, `OP = 0x02` (R157) -/
  | shutdown (unused : Half)
  /-- `reset()`, `OP = 0x03` (R153) -/
  | reset (unused : Half)
  /-- `readRegisterRaw(addr)`, `OP = 0x04` (R155) -/
  | readRegisterRaw (addr unused : Byte)
  /-- `writeRegisterRaw(addr, value)`, `OP = 0x05` (R156) -/
  | writeRegisterRaw (addr value : Byte)
  /-- `readCompensated()`, `OP = 0x06` (R154) -/
  | readCompensated (unused : Half)
  /-- `open()`, `OP = 0x07` (R151) -/
  | openSession (unused : Half)
  /-- `close()`, `OP = 0x08` (R158) -/
  | closeSession (unused : Half)
  /-- a command word whose `OP` is not 1 to 8 (spec/30_encoding.md R70) -/
  | invalid (op : Byte) (unused : Half)
  /-- the control byte `CMD_TEMP` (R66) -/
  | cmdTemp
  /-- the control byte `CMD_PRESS(oss)` (R66) -/
  | cmdPress (oss : Level)
  /-- the control byte `SOFT_RESET_VALUE` (spec/44_session.md R153) -/
  | softResetValue
  /-- the control byte `POWER_DOWN_VALUE`, an open parameter (R157) -/
  | powerDownValue (v : Byte)
  /-- frame `RD1` (spec/30_encoding.md R63) -/
  | rd1 (addr : Byte)
  /-- frame `WR1` (R64) -/
  | wr1 (addr value : Byte)
  /-- frame `RDN` (R65) -/
  | rdn (addr n : Byte)
  /-- `readRegister(addr)` (spec/40_register_io.md R80) -/
  | readRegister (addr : Byte)
  /-- `writeRegister(addr, value)` (R81) -/
  | writeRegister (addr value : Byte)
  /-- `readBlock(addr, n)` (R82) -/
  | readBlock (addr n : Byte)
  /-- `load()` (spec/41_calibration.md R90) -/
  | load
  /-- `acquireRawTemperature()` (spec/42_measurement.md R101); the level bits of its selector are without meaning -/
  | acquireRawTemperature (ignored : Level)
  /-- `acquireRawPressure(oss)` (R102) -/
  | acquireRawPressure (oss : Level)
  /-- `issueAndWait(cmd, us)` (R112) -/
  | issueAndWait (cmd : Byte) (us : Half)
  /-- `wait(us)` (R104) -/
  | wait (us : Half)
  /-- engine step 1 (spec/43_compensation.md R125), and so on to step 18 (R143) -/
  | engineStep1
  | engineStep2
  | engineStep3
  | engineStep4
  | engineStep5
  | engineStep6
  | engineStep7
  | engineStep8
  | engineStep9
  | engineStep10
  | engineStep11
  | engineStep12
  | engineStep13
  | engineStep14
  | engineStep15
  | engineStep16
  | engineStep17
  | engineStep18
  deriving DecidableEq, Repr

end Sys2Proof
end

