-- ==== Sys2Proof/WellFormed.lean ====
section
/-!
DEFINITION. Which operations the spec gives a meaning: the checks an operand must pass.
-/

namespace Sys2Proof

/-- The command codes of spec/30_encoding.md R61: 1 to 8. -/
def isCommandCode (op : Byte) : Bool := 1 ≤ op.toNat && op.toNat ≤ 8

/-- The control bytes with a row of their own: `CMD_TEMP`, the four `CMD_PRESS(oss)`, `SOFT_RESET_VALUE`
(spec/30_encoding.md R66, spec/44_session.md R153). -/
def Params.isNamedControl (p : Params) (b : Byte) : Bool :=
  b = p.cmdTemp || b = p.cmdPress 0 || b = p.cmdPress 1 || b = p.cmdPress 2 || b = p.cmdPress 3 || b = p.softReset

/-- The shape of a block read: `CAL_LEN` bytes, none past address `0xFF` (spec/20_memory.md R46, R47;
spec/30_encoding.md R65). -/
def Params.isBlock (p : Params) (addr n : Byte) : Bool :=
  n.toNat = p.calLen && addr.toNat + n.toNat ≤ 256

/-- An operation is well formed when its operands are ones the spec gives it: an (invalid) word's code is none of the eight
commands'; the power-down byte is not one of the named control bytes, which have rows of their own; a block read has the
one shape the block performs. -/
def Instr.wellFormed : Instr → Bool
  | .invalid op _ => !isCommandCode op
  | .powerDownValue v => !Config.params.isNamedControl v
  | .rdn addr n => Config.params.isBlock addr n
  | .readBlock addr n => Config.params.isBlock addr n
  | .configure _ | .shutdown _ | .reset _ | .readRegisterRaw _ _ | .writeRegisterRaw _ _ | .readCompensated _
  | .openSession _ | .closeSession _ | .cmdTemp | .cmdPress _ | .softResetValue | .rd1 _ | .wr1 _ _
  | .readRegister _ | .writeRegister _ _ | .load | .acquireRawTemperature _ | .acquireRawPressure _
  | .issueAndWait _ _ | .wait _
  | .engineStep1 | .engineStep2 | .engineStep3 | .engineStep4 | .engineStep5 | .engineStep6
  | .engineStep7 | .engineStep8 | .engineStep9 | .engineStep10 | .engineStep11 | .engineStep12
  | .engineStep13 | .engineStep14 | .engineStep15 | .engineStep16 | .engineStep17 | .engineStep18 => true

end Sys2Proof
end

