-- ==== Sys2Proof/Decode.lean ====
section
/-!
DEFINITION. The encodings of spec/30_encoding.md and spec/opcode_table.json. The same bits stand for different operations
in the table's different formats (a command word, a control byte, a frame, the selector of an internal operation, `CSTEP`),
so an encoded operation is its bytes together with the space they are read in (log 19). `decode` is total and rejects by
name; `encode` is written from the same table.
-/

namespace Sys2Proof

/-- The more significant byte of a 16-bit value. -/
def hiByte (h : Half) : Byte := h.extractLsb' 8 8

/-- The less significant byte of a 16-bit value. -/
def loByte (h : Half) : Byte := h.extractLsb' 0 8

/-- `{m, l}`: two bytes big-endian (spec/20_memory.md R45). -/
def be16 (m l : Byte) : Half := m ++ l

/-- `{m, l, x}`: three bytes big-endian (spec/30_encoding.md R69). -/
def be24 (m l x : Byte) : BitVec 24 := m ++ l ++ x

/-- The spaces the table's bits are read in: its formats, and for the rows whose bits are all operand the row itself. -/
inductive Space where
  /-- a 24-bit command word, as the bytes `OP`, `ADDR`, `VALUE` (R60) -/
  | cw24
  /-- a byte for the control register (R66) -/
  | ctrl8
  /-- frame `RD1`: the byte `addr` (R63) -/
  | rd1
  /-- frame `WR1`: the bytes `addr`, `value` (R64) -/
  | wr1
  /-- frame `RDN`: the byte `addr`, then the count (R65) -/
  | rdn
  /-- `readRegister`: the byte `addr` -/
  | readRegister
  /-- `writeRegister`: the bytes `addr`, `value` -/
  | writeRegister
  /-- `readBlock`: the byte `addr`, then the count -/
  | readBlock
  /-- `load`: the address byte of its one frame -/
  | load
  /-- the two acquisitions: `KIND` in bit 2, `OSS` in bits 1 to 0 -/
  | acquire
  /-- `issueAndWait`: the byte `cmd`, then the delay in microseconds, two bytes -/
  | issueAndWait
  /-- `wait`: the delay in microseconds, two bytes -/
  | wait
  /-- an engine step: the value of `CSTEP` -/
  | engine
  deriving DecidableEq, Repr

/-- An encoded operation. -/
structure Encoded where
  space : Space
  bytes : List Byte
  deriving DecidableEq, Repr

/-- Why bits are no operation. -/
inductive DecodeError where
  /-- the space's operations have another number of bytes -/
  | wrongLength
  /-- a block read that is not the one shape the block performs (spec/20_memory.md R46, R47) -/
  | notABlock
  /-- the byte of `load` is the address `CAL_BASE` and no other -/
  | notTheCalibrationBase
  /-- the selector of an acquisition has three bits -/
  | notASelector
  /-- `CSTEP` selects a step only from 1 to 18 (spec/43_compensation.md R124) -/
  | notAStep
  deriving DecidableEq, Repr

/-- Which oversampling level's pressure command the byte is, if any (spec/30_encoding.md R66). -/
def Params.pressLevel (p : Params) (b : Byte) : Option Level :=
  if b = p.cmdPress 0 then some 0
  else if b = p.cmdPress 1 then some 1
  else if b = p.cmdPress 2 then some 2
  else if b = p.cmdPress 3 then some 3
  else none

/-- The command word: every one of the 256 codes is one row (spec/30_encoding.md R61, R70, R74). -/
def decodeCommand (op addr value : Byte) : Instr :=
  match op.toNat with
  | 1 => .configure (be16 addr value)
  | 2 => .shutdown (be16 addr value)
  | 3 => .reset (be16 addr value)
  | 4 => .readRegisterRaw addr value
  | 5 => .writeRegisterRaw addr value
  | 6 => .readCompensated (be16 addr value)
  | 7 => .openSession (be16 addr value)
  | 8 => .closeSession (be16 addr value)
  | _ => .invalid op (be16 addr value)

/-- A command word `{OP, ADDR, VALUE}` (spec/30_encoding.md R60). -/
def decodeWord (cw : CmdWord) : Instr :=
  decodeCommand (cw.extractLsb' 16 8) (cw.extractLsb' 8 8) (cw.extractLsb' 0 8)

/-- A control byte: the named bytes first, any other is a power-down byte (spec/30_encoding.md R66). -/
def decodeControl (p : Params) (b : Byte) : Instr :=
  if b = p.cmdTemp then .cmdTemp
  else match p.pressLevel b with
    | some oss => .cmdPress oss
    | none => if b = p.softReset then .softResetValue else .powerDownValue b

/-- The step `CSTEP` selects (spec/43_compensation.md R124). -/
def decodeStep (n : Nat) : Option Instr :=
  match n with
  | 1 => some .engineStep1
  | 2 => some .engineStep2
  | 3 => some .engineStep3
  | 4 => some .engineStep4
  | 5 => some .engineStep5
  | 6 => some .engineStep6
  | 7 => some .engineStep7
  | 8 => some .engineStep8
  | 9 => some .engineStep9
  | 10 => some .engineStep10
  | 11 => some .engineStep11
  | 12 => some .engineStep12
  | 13 => some .engineStep13
  | 14 => some .engineStep14
  | 15 => some .engineStep15
  | 16 => some .engineStep16
  | 17 => some .engineStep17
  | 18 => some .engineStep18
  | _ => none

/-- The selector of an acquisition, `KIND` and `OSS` (spec/opcode_table.json). -/
def decodeSelector (b : Byte) : Except DecodeError Instr :=
  if b.toNat < 4 then .ok (.acquireRawTemperature (b.setWidth 2))
  else if b.toNat < 8 then .ok (.acquireRawPressure (b.setWidth 2))
  else .error .notASelector

/-- The operation the bits stand for, or why they stand for none. -/
def decode (e : Encoded) : Except DecodeError Instr :=
  match e.space, e.bytes with
  | .cw24, [op, addr, value] => .ok (decodeCommand op addr value)
  | .ctrl8, [b] => .ok (decodeControl Config.params b)
  | .rd1, [addr] => .ok (.rd1 addr)
  | .wr1, [addr, value] => .ok (.wr1 addr value)
  | .rdn, [addr, n] => if Config.params.isBlock addr n then .ok (.rdn addr n) else .error .notABlock
  | .readRegister, [addr] => .ok (.readRegister addr)
  | .writeRegister, [addr, value] => .ok (.writeRegister addr value)
  | .readBlock, [addr, n] => if Config.params.isBlock addr n then .ok (.readBlock addr n) else .error .notABlock
  | .load, [b] => if b = Config.params.calBase then .ok .load else .error .notTheCalibrationBase
  | .acquire, [b] => decodeSelector b
  | .issueAndWait, [cmd, h, l] => .ok (.issueAndWait cmd (be16 h l))
  | .wait, [h, l] => .ok (.wait (be16 h l))
  | .engine, [b] =>
    match decodeStep b.toNat with
    | some i => .ok i
    | none => .error .notAStep
  | _, _ => .error .wrongLength

/-- A command's three bytes. -/
def encodeCommand (op : Byte) (rest : Half) : Encoded := ⟨.cw24, [op, hiByte rest, loByte rest]⟩

/-- The bits of an operation (spec/30_encoding.md R60, R61, R63 to R66; spec/opcode_table.json). -/
def encode : Instr → Encoded
  | .configure u => encodeCommand 0x01 u
  | .shutdown u => encodeCommand 0x02 u
  | .reset u => encodeCommand 0x03 u
  | .readRegisterRaw addr u => ⟨.cw24, [0x04, addr, u]⟩
  | .writeRegisterRaw addr value => ⟨.cw24, [0x05, addr, value]⟩
  | .readCompensated u => encodeCommand 0x06 u
  | .openSession u => encodeCommand 0x07 u
  | .closeSession u => encodeCommand 0x08 u
  | .invalid op u => encodeCommand op u
  | .cmdTemp => ⟨.ctrl8, [Config.params.cmdTemp]⟩
  | .cmdPress oss => ⟨.ctrl8, [Config.params.cmdPress oss]⟩
  | .softResetValue => ⟨.ctrl8, [Config.params.softReset]⟩
  | .powerDownValue v => ⟨.ctrl8, [v]⟩
  | .rd1 addr => ⟨.rd1, [addr]⟩
  | .wr1 addr value => ⟨.wr1, [addr, value]⟩
  | .rdn addr n => ⟨.rdn, [addr, n]⟩
  | .readRegister addr => ⟨.readRegister, [addr]⟩
  | .writeRegister addr value => ⟨.writeRegister, [addr, value]⟩
  | .readBlock addr n => ⟨.readBlock, [addr, n]⟩
  | .load => ⟨.load, [Config.params.calBase]⟩
  | .acquireRawTemperature x => ⟨.acquire, [x.setWidth 8]⟩
  | .acquireRawPressure oss => ⟨.acquire, [4 + oss.setWidth 8]⟩
  | .issueAndWait cmd us => ⟨.issueAndWait, [cmd, hiByte us, loByte us]⟩
  | .wait us => ⟨.wait, [hiByte us, loByte us]⟩
  | .engineStep1 => ⟨.engine, [1]⟩
  | .engineStep2 => ⟨.engine, [2]⟩
  | .engineStep3 => ⟨.engine, [3]⟩
  | .engineStep4 => ⟨.engine, [4]⟩
  | .engineStep5 => ⟨.engine, [5]⟩
  | .engineStep6 => ⟨.engine, [6]⟩
  | .engineStep7 => ⟨.engine, [7]⟩
  | .engineStep8 => ⟨.engine, [8]⟩
  | .engineStep9 => ⟨.engine, [9]⟩
  | .engineStep10 => ⟨.engine, [10]⟩
  | .engineStep11 => ⟨.engine, [11]⟩
  | .engineStep12 => ⟨.engine, [12]⟩
  | .engineStep13 => ⟨.engine, [13]⟩
  | .engineStep14 => ⟨.engine, [14]⟩
  | .engineStep15 => ⟨.engine, [15]⟩
  | .engineStep16 => ⟨.engine, [16]⟩
  | .engineStep17 => ⟨.engine, [17]⟩
  | .engineStep18 => ⟨.engine, [18]⟩

/-- The command word of an encoded command, `{OP, ADDR, VALUE}` (spec/30_encoding.md R60). -/
def Encoded.toWord (e : Encoded) : CmdWord :=
  match e.bytes with
  | [op, addr, value] => be24 op addr value
  | _ => 0

/-- The four delays the block ever loads (spec/60_exceptions.md R197). -/
def isDelay (w : Nat) : Bool := w = 4500 || w = 7500 || w = 13500 || w = 25500

/-- Where the bits of a row of spec/opcode_table.json, read as one number, belong. Bits of 24 are a command word. The table
gives the other rows the same few bits over and over: the rows with fixed bits come first (the control bytes, `load`, the
engine steps), then a byte 0 is the selector of the temperature acquisition, a 16-bit delay is `wait`, and what is left is a
frame (log 19). Operand words above the row's bits are zero. -/
def tableEncoded (nbits w : Nat) : Option Encoded :=
  let b := BitVec.ofNat 8 w
  if nbits = 24 then
    some ⟨.cw24, [BitVec.ofNat 8 (w / 65536), BitVec.ofNat 8 (w / 256), b]⟩
  else if nbits = 16 then
    if isDelay w then some ⟨.wait, [BitVec.ofNat 8 (w / 256), b]⟩
    else some ⟨.wr1, [BitVec.ofNat 8 (w / 256), b]⟩
  else if nbits = 8 then
    if Config.params.isNamedControl b then some ⟨.ctrl8, [b]⟩
    else if b = Config.params.calBase then some ⟨.load, [b]⟩
    else if (decodeStep b.toNat).isSome then some ⟨.engine, [b]⟩
    else if b = 0 then some ⟨.acquire, [b]⟩
    else some ⟨.rd1, [b]⟩
  else none

/-- What the decoder reads from the bits of a table row. -/
def decodeTableWord (nbits w : Nat) : Option Instr :=
  match tableEncoded nbits w with
  | some e =>
    match decode e with
    | .ok i => some i
    | .error _ => none
  | none => none

end Sys2Proof
end

