-- ==== Sys2Proof/Machine/State.lean ====
section
/-!
DEFINITION. Everything the spec gives the machine (spec/10_state.md R10), and the agents around it (spec/00_scope.md R3):
the command port, the transport with its sensor, time, and the trace of what the block did on its ports. Plain data only.
-/

namespace Sys2Proof.Machine

/-- `SS`, the session state (spec/10_state.md R11). -/
inductive SessionState where
  | closed
  | idle
  | configured
  | shuttingDown
  deriving DecidableEq, Repr

/-- `SEQ`, the sequencer state (spec/10_state.md R14). -/
inductive SeqState where
  | idle
  | commandIssued
  | waiting
  | resultReady
  deriving DecidableEq, Repr

/-- `KIND`: 0 for temperature, 1 for pressure (spec/10_state.md R15). -/
inductive Kind where
  | temperature
  | pressure
  deriving DecidableEq, Repr

/-- The nine error kinds (spec/60_exceptions.md R180). -/
inductive ErrKind where
  | transportError
  | invalidCommand
  | bufferTooSmall
  | invalidStateTransition
  | sessionBusy
  | sensorBusy
  | calibrationReadError
  | compensationDomainError
  | compensationOverflow
  deriving DecidableEq, Repr

/-- The coefficient file `CAL[0..10]`, in index order (spec/10_state.md R17). How each is read is in `Operands.lean`. -/
structure Cal where
  ac1 : Half
  ac2 : Half
  ac3 : Half
  ac4 : Half
  ac5 : Half
  ac6 : Half
  b1  : Half
  b2  : Half
  mb  : Half
  mc  : Half
  md  : Half
  deriving DecidableEq, Repr

/-- The engine's staging registers (spec/10_state.md R22) and its two outputs `T` and `P` (spec/43_compensation.md R122; log
12). `b4` and `b7` are read unsigned, all others signed. -/
structure Staging where
  x1 : Word
  x2 : Word
  x3 : Word
  b5 : Word
  b6 : Word
  b3 : Word
  b4 : Word
  b7 : Word
  pw : Word
  t  : Word
  p  : Word
  deriving DecidableEq, Repr

/-- The response record `RSP` (spec/10_state.md R27). A field that a command does not return holds no value after it
(spec/30_encoding.md R62), which is `none` (log 11). -/
structure Response where
  err  : Byte
  data : Option Byte
  t    : Option Word
  p    : Option Word
  deriving DecidableEq, Repr

/-- What an internal operation run on its own gave (log 18). -/
inductive OpResult where
  /-- nothing has run on its own -/
  | nothing
  /-- success without a value -/
  | unit
  /-- the byte of `readRegister` -/
  | byte (b : Byte)
  /-- the bytes of `readBlock` -/
  | bytes (bs : List Byte)
  /-- the count of an acquisition -/
  | count (n : Nat)
  /-- the answer to a frame -/
  | answer (a : Answer)
  /-- the operation raised an error -/
  | raised (k : ErrKind)
  deriving DecidableEq, Repr

/-- One entry of the trace (log 34). -/
inductive Event where
  /-- an exchange: device address, bytes written, bytes asked for, answer (spec/20_memory.md R40, R42) -/
  | exchange (dev : BitVec 7) (w : List Byte) (r : Nat) (a : Answer)
  /-- a response given to the host (spec/44_session.md R163) -/
  | response (r : Response)
  /-- `SS` was written -/
  | session (x : SessionState)
  /-- `SEQ` was written -/
  | sequencer (x : SeqState)
  /-- a hardware reset (spec/70_reset_and_hazards.md R210) -/
  | hardwareReset
  deriving DecidableEq, Repr

/-- An act of the world outside (log 2). A moment takes all the acts up to its end. -/
inductive HostAct where
  /-- nothing more at this moment; in a step with nothing to do, a tick -/
  | quiet
  /-- the host presents a command word (spec/44_session.md R162) -/
  | present (cw : CmdWord)
  /-- time passes, in ticks: a slow exchange, a pause of the host (spec/70_reset_and_hazards.md R225) -/
  | elapse (ticks : Nat)
  /-- a hardware reset (spec/70_reset_and_hazards.md R212) -/
  | hardwareReset
  deriving DecidableEq, Repr

/-- The sensor's hidden state (spec/10_state.md R30; log 16): a conversion is in progress while `left`, counted in ticks, is
not 0; `midWrite` tells whether a write of the control register has ever fallen inside one (spec/20_memory.md R54). -/
structure Sensor where
  kind     : Kind
  left     : Nat
  midWrite : Bool
  deriving DecidableEq, Repr

/-- The agents around the block. -/
@[ext]
structure Env where
  /-- command words presented and not yet accepted -/
  port   : List CmdWord
  /-- internal operations asked for, as encoded words (log 18) -/
  todo   : List Encoded
  /-- what happens outside at the coming moments, act by act; nothing after the last (log 2) -/
  sched  : List HostAct
  /-- the transport's answers to the coming exchanges; free values after the last (log 3) -/
  script : List Answer
  /-- how many free values have been drawn (log 6) -/
  fresh  : Nat
  /-- ticks of `TICK_US` elapsed (log 17) -/
  now    : Nat
  sensor : Sensor
  /-- the trace, newest first, each entry with its time -/
  log    : List (Nat × Event)
  deriving DecidableEq, Repr

/-- Everything the spec gives the machine, one field a register (spec/10_state.md sections 1 and 2), what an internal
operation run on its own gave (log 18), and the agents around the block. -/
@[ext]
structure State where
  ss       : SessionState
  owned    : Bool
  busy     : Bool
  seq      : SeqState
  kind     : Kind
  oss      : Level
  dtimer   : Nat
  cal      : Cal
  calValid : Bool
  rbuf0    : Byte
  rbuf1    : Byte
  rbuf2    : Byte
  ut       : Half
  utValid  : Bool
  up       : Count20
  upValid  : Bool
  stg      : Staging
  b5Valid  : Bool
  cstep    : BitVec 5
  rsp      : Response
  ret      : OpResult
  env      : Env
  deriving DecidableEq, Repr

/-- Faults of the model: states of the engine that no run from reset reaches and for which the spec gives no effect. Both
are safe: the model stops where it cannot say what the hardware does. -/
inductive Fault where
  /-- Raised by the start of the engine when `UT_VALID` or `UP_VALID` is 0: "a fault of the model, not ... a case of the
  hardware" (spec/43_compensation.md R124). Safe. Log 21. -/
  | engineStartWithoutCount
  /-- Raised by engine steps 5 to 18 when `B5_VALID` is 0: they require it and no rule says what happens otherwise
  (spec/43_compensation.md R144). Safe. Log 22. -/
  | engineWithoutB5
  deriving DecidableEq, Repr

/-- Refusals: bits that are no operation. Both are safe. -/
inductive Refusal where
  /-- Raised by `exec` for an operation that has no meaning yet. Safe. No arm of this model does. -/
  | notModelled (mnemonic : String)
  /-- Raised by `step` when an internal request, or the value of `CSTEP`, is no row of the table. Safe: no run from reset
  makes such a request. Log 19, 23. -/
  | undecodable (why : DecodeError)
  deriving DecidableEq, Repr

/-- The coefficient file after reset: the spec gives no value (spec/10_state.md R33); zero is the model's. Log 9. -/
def Cal.reset : Cal := ⟨0, 0, 0, 0, 0, 0, 0, 0, 0, 0, 0⟩

/-- The staging registers after reset: the spec gives no value (spec/10_state.md R33); zero is the model's. Log 9, 12. -/
def Staging.reset : Staging := ⟨0, 0, 0, 0, 0, 0, 0, 0, 0, 0, 0⟩

/-- `RSP` after reset: no command has responded (spec/70_reset_and_hazards.md R211); `ERR` = 0 is the model's. Log 10. -/
def Response.reset : Response := ⟨0, none, none, none⟩

/-- The agents at the start: nothing presented, nothing asked for, nothing scripted, no conversion in progress (log 2, 3, 6,
14, 16, 17, 18). -/
def Env.reset : Env where
  port   := []
  todo   := []
  sched  := []
  script := []
  fresh  := 0
  now    := 0
  sensor := ⟨.temperature, 0, false⟩
  log    := []

/-- The machine right after hardware reset (spec/10_state.md R32, R33; spec/70_reset_and_hazards.md R211). -/
def State.reset : State where
  ss       := .closed
  owned    := false
  busy     := false
  seq      := .idle
  kind     := .temperature
  oss      := 0
  dtimer   := 0
  cal      := Cal.reset
  calValid := false
  rbuf0    := 0
  rbuf1    := 0
  rbuf2    := 0
  ut       := 0
  utValid  := false
  up       := 0
  upValid  := false
  stg      := Staging.reset
  b5Valid  := false
  cstep    := 0
  rsp      := Response.reset
  ret      := .nothing
  env      := Env.reset

end Sys2Proof.Machine
end

