-- ==== Sys2Proof/Machine/Ops.lean ====
section
/-!
DEFINITION. The shared operations. An operation of the block is a function of the state (`Op`) that ends in one of four
ways: it returns, it raises an error kind (spec/60_exceptions.md R190: the block's exception, and there is no return from
one), hardware reset drops it (spec/70_reset_and_hazards.md R212), or the model faults. Every meaning is written with these,
in the order of the spec's pseudocode.
-/

namespace Sys2Proof.Machine

/-- How an operation ends without returning. `φ` is the type of the faults of the model it may have: `Empty` for every
operation but the engine. -/
inductive Stop (φ : Type) where
  /-- `raise K` -/
  | raise (k : ErrKind)
  /-- a hardware reset came -/
  | dropped
  /-- a fault of the model -/
  | fault (f : φ)
  deriving DecidableEq, Repr

/-- An operation of the block. -/
abbrev Op (φ α : Type) := EStateM (Stop φ) State α

/-- The outcomes of one step. -/
abbrev Outcome := Host.Outcome State Fault Refusal

/-- A state-register update (spec/00_scope.md R4). -/
def Op.update {φ : Type} (f : State → State) : Op φ Unit := fun s => .ok () (f s)

/-- Reads registers. -/
def Op.read {φ α : Type} (f : State → α) : Op φ α := fun s => .ok (f s) s

/-- `raise K`: the operation ends at once with this error kind (spec/60_exceptions.md R190). -/
def Op.raise {φ α : Type} (k : ErrKind) : Op φ α := fun s => .error (.raise k) s

/-- A state check, "require ... else raise K" (spec/00_scope.md R4, spec/60_exceptions.md R185). -/
def Op.require {φ : Type} (c : State → Bool) (k : ErrKind) : Op φ Unit := fun s => if c s then .ok () s else .error (.raise k) s

/-- A requirement whose failure the spec gives no effect: a fault of the model. -/
def Op.assert {φ : Type} (c : State → Bool) (f : φ) : Op φ Unit := fun s => if c s then .ok () s else .error (.fault f) s

/-- The "on error" steps of a rule: run when the operation raises, before the error goes on to the caller
(spec/60_exceptions.md R190). -/
def Op.onRaise {φ α : Type} (x : Op φ α) (h : State → State) : Op φ α := fun s =>
  match x s with
  | .error (.raise k) s' => .error (.raise k) (h s')
  | r => r

/-- The "at the end, on success or on any error" steps of a rule (spec/60_exceptions.md R190). -/
def Op.always {φ α : Type} (x : Op φ α) (h : State → State) : Op φ α := fun s =>
  match x s with
  | .ok a s' => .ok a (h s')
  | .error (.raise k) s' => .error (.raise k) (h s')
  | r => r

/-- Surfaces every error of an operation as the kind `k` (spec/60_exceptions.md R190: only `load` does this). -/
def Op.surfaceAs {φ α : Type} (x : Op φ α) (k : ErrKind) : Op φ α := fun s =>
  match x s with
  | .error (.raise _) s' => .error (.raise k) s'
  | r => r

/-- "The outcome of" an operation: the error it raised, if any, as a value (spec/44_session.md R157, R158). -/
def Op.outcome {φ α : Type} (x : Op φ α) : Op φ (Option ErrKind) := fun s =>
  match x s with
  | .ok _ s' => .ok none s'
  | .error (.raise k) s' => .ok (some k) s'
  | .error e s' => .error e s'

/-- The error codes (spec/60_exceptions.md R181). -/
def errCode : ErrKind → Byte
  | .transportError => 1
  | .invalidCommand => 2
  | .bufferTooSmall => 3
  | .invalidStateTransition => 4
  | .sessionBusy => 5
  | .sensorBusy => 6
  | .calibrationReadError => 7
  | .compensationDomainError => 8
  | .compensationOverflow => 9

/-- What a command returns on success (spec/30_encoding.md R62). -/
inductive Payload where
  | unit
  | byte (b : Byte)
  | pair (t p : Word)
  deriving DecidableEq, Repr

/-- The response to a success: `ERR` = 0, and the fields the command returns (spec/30_encoding.md R62). -/
def successResponse : Payload → Response
  | .unit => ⟨0, none, none, none⟩
  | .byte b => ⟨0, some b, none, none⟩
  | .pair t p => ⟨0, none, some t, some p⟩

/-- The response to an error: its code, and no value in any other field (spec/30_encoding.md R62, spec/60_exceptions.md
R203). -/
def errorResponse (k : ErrKind) : Response := ⟨errCode k, none, none, none⟩

/-- Writes an entry of the trace (log 34). -/
def record (e : Event) (s : State) : State := { s with env := { s.env with log := (s.env.now, e) :: s.env.log } }

/-- `SS <- x` (spec/10_state.md R11). -/
def setSession (x : SessionState) (s : State) : State := record (.session x) { s with ss := x }

/-- `SEQ <- x` (spec/10_state.md R14). -/
def setSequencer (x : SeqState) (s : State) : State := record (.sequencer x) { s with seq := x }

/-- `RSP <- r`: the response is given to the host (spec/44_session.md R163). -/
def respond (r : Response) (s : State) : State := record (.response r) { s with rsp := r }

/-- `BUSY <- b` (spec/10_state.md R26). -/
def setBusy (b : Bool) (s : State) : State := { s with busy := b }

/-- `DTIMER <- n` (spec/10_state.md R16). -/
def setTimer (n : Nat) (s : State) : State := { s with dtimer := n }

/-- What an internal operation run on its own returned or raised (log 18). -/
def putRet (r : OpResult) (s : State) : State := { s with ret := r }

/-- Time advances by `n` ticks; the sensor's conversion runs on (spec/00_scope.md R3, spec/10_state.md R30). -/
def elapse (n : Nat) (s : State) : State :=
  { s with env := { s.env with now := s.env.now + n, sensor := { s.env.sensor with left := s.env.sensor.left - n } } }

/-- A command word that is not accepted at once stays pending at the port. -/
def pend (cw : CmdWord) (s : State) : State := { s with env := { s.env with port := s.env.port ++ [cw] } }

/-- The host presents a command word. While `BUSY` = 1 `BUSY_POLICY` decides: it stays pending, or it is answered at once
with `SensorBusy` (spec/44_session.md R162; log 13). -/
def present (p : Params) (cw : CmdWord) (s : State) : State :=
  if s.busy then
    match p.busyPolicy with
    | .block => pend cw s
    | .reject => respond (errorResponse .sensorBusy) s
  else pend cw s

/-- Hardware reset (spec/70_reset_and_hazards.md R210 to R212): the block's registers take their reset values, the command
in flight is dropped without a response, the sensor and the host are not touched (log 14). -/
def hardwareReset (s : State) : State :=
  record .hardwareReset { State.reset with env := { s.env with todo := [] } }

/-- Takes the first entry off the schedule of what happens outside. -/
def dropAct (s : State) : State := { s with env := { s.env with sched := s.env.sched.tail } }

/-- Time passes inside a wait: the delay timer observes every tick of it (spec/00_scope.md R3, spec/42_measurement.md R104,
spec/60_exceptions.md R197), and stops at 0. -/
def runTimer (n : Nat) (s : State) : State := setTimer (s.dtimer - n) (elapse n s)

/-- The acts of one moment, from the front of the schedule on: all of them up to the next `quiet`, which ends the moment, or to the
schedule's end (log 2). `pass` is what time does: `elapse`, or `runTimer` inside a wait. -/
def runActs {φ : Type} (p : Params) (pass : Nat → State → State) (acts : List HostAct) (s : State) :
    EStateM.Result (Stop φ) State Unit :=
  match acts with
  | [] => .ok () s
  | .quiet :: _ => .ok () (dropAct s)
  | .present cw :: rest => runActs p pass rest (present p cw (dropAct s))
  | .elapse n :: rest => runActs p pass rest (pass n (dropAct s))
  | .hardwareReset :: _ => .error .dropped (hardwareReset (dropAct s))

/-- A moment at which the world outside can act on the block: the host may present any number of words, time may pass, in any
order (spec/00_scope.md R3; log 2). The delay timer does not run here (spec/60_exceptions.md R197). -/
def moment {φ : Type} (p : Params) : Op φ Unit := fun s => runActs p elapse s.env.sched s

/-- A moment of a wait: the time that passes in it counts the delay timer down. -/
def waitMoment {φ : Type} (p : Params) : Op φ Unit := fun s => runActs p runTimer s.env.sched s

/-- `ceil(us / TICK_US)` (spec/42_measurement.md R104), for `TICK_US = tickNum / tickDen`. -/
def ticks (p : Params) (us : Nat) : Nat := (us * p.tickDen + (p.tickNum - 1)) / p.tickNum

/-- The conversion a byte written to the control register starts, and how long it lasts at most (spec/20_memory.md R52,
R53). -/
def conversionOf (p : Params) (v : Byte) : Option (Kind × Nat) :=
  if v = p.cmdTemp then some (.temperature, ticks p p.tDelayUs)
  else match p.pressLevel v with
    | some oss => some (.pressure, ticks p (p.pDelayUs oss))
    | none => none

/-- The sensor takes a write of `v` to `addr` (spec/20_memory.md R52, R54; log 16). That a write to any address but the control
register leaves the conversion in progress as it is, is the model's choice (log 35): the spec knows nothing of those addresses
(R49). -/
def sensorWrite (p : Params) (addr v : Byte) (x : Sensor) : Sensor :=
  if addr = p.ctrlReg then
    match conversionOf p v with
    | some (k, n) => ⟨k, n, x.midWrite || decide (0 < x.left)⟩
    | none => { x with midWrite := x.midWrite || decide (0 < x.left) }
  else x

/-- Whether the sensor took a two-byte write: it did when it accepted both bytes; otherwise nobody knows, and `unknown` says
(spec/91_not_in_source.md N7; log 4). -/
def writeTaken (a : Answer) (unknown : Bool) : Bool :=
  match a with
  | .done 2 _ => true
  | _ => unknown

/-- What an exchange does to the sensor's hidden state. That a read leaves it as it is, is the model's choice (log 35): whether a
read has a side effect on the sensor is not in the spec's source (spec/20_memory.md R48, spec/91_not_in_source.md N6). -/
def sensorAfter (p : Params) (w : List Byte) (a : Answer) (unknown : Bool) (x : Sensor) : Sensor :=
  match w with
  | [addr, v] => if writeTaken a unknown then sensorWrite p addr v x else x
  | _ => x

/-- An answer held to the shape of every answer to `exchange(w, r)`: at most as many bytes accepted as sent, at most as many read as
asked for (spec/20_memory.md R40). An answer of that shape is left as it is; what exceeds it is cut off (log 31). -/
def shaped (w : List Byte) (r : Nat) : Answer → Answer
  | .err => .err
  | .done nw rb => .done (min nw w.length) (rb.take r)

/-- The transport's answer to a frame: the script's, else free value `n`; any of the shape and no other (spec/20_memory.md R40, R55;
log 3). -/
def answerAt (w : List Byte) (r : Nat) (script : List Answer) (n : Nat) : Answer :=
  shaped w r (script.headD (Config.freeAnswer n))

/-- The transport's next answer. -/
def nextAnswer (w : List Byte) (r : Nat) (s : State) : Answer := answerAt w r s.env.script s.env.fresh

/-- What an exchange leaves: the script and the free values move on, the sensor has seen it, the trace holds it. No register
of the block changes (spec/40_register_io.md R83, R84). -/
def afterExchange (p : Params) (w : List Byte) (r : Nat) (s : State) : State :=
  record (.exchange p.devAddr w r (nextAnswer w r s))
    { s with env := { s.env with
        script := s.env.script.tail
        fresh  := s.env.fresh + 1
        sensor := sensorAfter p w (nextAnswer w r s) (Config.freeTaken s.env.fresh) s.env.sensor } }

/-- The write phase and the read phase as one step (spec/20_memory.md R40). -/
def transfer {φ : Type} (p : Params) (w : List Byte) (r : Nat) : Op φ Answer := fun s =>
  .ok (nextAnswer w r s) (afterExchange p w r s)

/-- `exchange(w, r)`, the one road to the sensor, addressed to `DEV_ADDR`, atomic as seen from the block
(spec/20_memory.md R40, R42, R50). The moment before it is one at which the world outside can act. -/
def exchange {φ : Type} (p : Params) (w : List Byte) (r : Nat) : Op φ Answer := do
  moment p
  transfer p w r

/-- The coming timer tick, while `DTIMER` is above 0: one tick of time then, none else (spec/42_measurement.md R104). -/
def tick (s : State) : State := runTimer (min 1 s.dtimer) s

/-- `while DTIMER > 0: on each timer tick DTIMER <- DTIMER - 1` (spec/42_measurement.md R104): a moment of the wait and a tick, so
long as `DTIMER` is above 0. Each round takes at least one from it, so `fuel` = `DTIMER` rounds are enough. -/
def countDown {φ : Type} (p : Params) : Nat → Op φ Unit
  | 0 => pure ()
  | fuel + 1 => do
    let left ← Op.read (·.dtimer)
    if left = 0 then pure ()
    else do
      waitMoment p
      Op.update tick
      countDown p fuel

/-- `wait(us)` (spec/42_measurement.md R104, R108): no exchange, and no way out before `DTIMER` is 0. -/
def wait {φ : Type} (p : Params) (us : Nat) : Op φ Unit := do
  Op.update (setTimer (ticks p us))
  countDown p (ticks p us)

/-- A command's operation run to its response: success or the error raised (spec/44_session.md R163, spec/60_exceptions.md
R190). -/
def settle {φ : Type} (x : Op φ Payload) : Op φ Response := fun s =>
  match x s with
  | .ok a s' => .ok (successResponse a) s'
  | .error (.raise k) s' => .ok (errorResponse k) s'
  | .error e s' => .error e s'

/-- An accepted command: `BUSY` is set, the operation runs, the response is written and `BUSY` falls
(spec/44_session.md R162, R163). -/
def accepted {φ : Type} (p : Params) (body : Op φ Payload) : Op φ Unit := do
  Op.update (setBusy true)
  let r ← settle body
  moment p
  Op.update (fun s => setBusy false (respond r s))

/-- How an operation that cannot fault leaves the machine; an error that nobody has taken care of is left in `ret`. -/
def endState : EStateM.Result (Stop Empty) State Unit → State
  | .ok _ s => s
  | .error (.raise k) s => putRet (.raised k) s
  | .error .dropped s => s
  | .error (.fault f) _ => nomatch f

/-- How an operation of the engine leaves the machine: as above, or with a fault of the model. -/
def endOutcome : EStateM.Result (Stop Fault) State Unit → Outcome
  | .ok _ s => .next s
  | .error (.raise k) s => .next (putRet (.raised k) s)
  | .error .dropped s => .next s
  | .error (.fault f) _ => .fault f

/-- A host command presented at the port: accepted when `BUSY` = 0, else handled by `BUSY_POLICY`
(spec/44_session.md R162). -/
def runCommand (p : Params) (i : Instr) (body : Op Empty Payload) (s : State) : Outcome :=
  if s.busy then .next (present p (encode i).toWord s)
  else .next (endState (accepted p body s))

/-- The same for the one command that runs the engine. -/
def runEngineCommand (p : Params) (i : Instr) (body : Op Fault Payload) (s : State) : Outcome :=
  if s.busy then .next (present p (encode i).toWord s)
  else endOutcome (accepted p body s)

/-- What an operation returned is left in `ret` (log 18). -/
def returning {φ : Type} (x : Op φ OpResult) : Op φ Unit := do
  let r ← x
  Op.update (putRet r)

/-- An internal operation run on its own: what it returns or raises is left in `ret` (log 18). -/
def runInternal (x : Op Empty OpResult) (s : State) : Outcome := .next (endState (returning x s))

/-- The same for an engine step that requires a flag. -/
def runEngine (x : Op Fault OpResult) (s : State) : Outcome := endOutcome (returning x s)

/-- What the machine does next. -/
inductive Fetched where
  /-- an internal operation, in its space -/
  | internal (e : Encoded) (s : State)
  /-- a command word taken from the port -/
  | command (cw : CmdWord) (s : State)
  /-- nothing: a moment passes -/
  | idle (s : State)

/-- The words pending at the port. -/
def setPort (words : List CmdWord) (s : State) : State := { s with env := { s.env with port := words } }

/-- The internal operations asked for. -/
def setTodo (todo : List Encoded) (s : State) : State := { s with env := { s.env with todo := todo } }

/-- A free value has been drawn (log 6). -/
def draw (s : State) : State := { s with env := { s.env with fresh := s.env.fresh + 1 } }

/-- Takes one pending command word: the only one, or a free one of several (spec/44_session.md R162; log 5). -/
def takeWord (s : State) : Option (CmdWord × State) :=
  match s.env.port with
  | [] => none
  | [cw] => some (cw, setPort [] s)
  | port =>
    let k := Config.freePick s.env.fresh % port.length
    some (port.getD k 0, draw (setPort (port.eraseIdx k) s))

/-- A step in which the block has nothing to do: a tick passes, or the world outside acts. The model's choice (log 27): it is one
act a step, the presenting of a word takes no time, and a word presented to an idle block is accepted by the very next step, at
the same time, before a next word is presented; the spec gives no delay (spec/44_session.md R162, spec/70_reset_and_hazards.md
R220). -/
def idle (p : Params) (s : State) : State :=
  match s.env.sched with
  | [] => elapse 1 s
  | .quiet :: _ => elapse 1 (dropAct s)
  | .present cw :: _ => present p cw (dropAct s)
  | .elapse n :: _ => elapse n (dropAct s)
  | .hardwareReset :: _ => hardwareReset (dropAct s)

/-- What the machine does next (spec/10_state.md R12): an internal operation asked for; the engine step that `CSTEP` selects
(spec/43_compensation.md R124); a pending command, when `BUSY` = 0 (spec/44_session.md R162); nothing. -/
def fetch (s : State) : Fetched :=
  match s.env.todo with
  | e :: rest => .internal e (setTodo rest s)
  | [] =>
    if s.cstep ≠ 0 then .internal ⟨.engine, [s.cstep.setWidth 8]⟩ s
    else if s.busy then .idle s
    else
      match takeWord s with
      | some (cw, s') => .command cw s'
      | none => .idle s

end Sys2Proof.Machine
end

