-- ==== Sys2Proof/Machine/Arith.lean ====
section
/-!
DEFINITION. The arithmetic laws of the engine (spec/43_compensation.md R120 to R123, R147): exact on the integers, then
range-checked; arithmetic shifts; signed division in one of two modes.
-/

namespace Sys2Proof.Machine

/-- `chk_s32` (spec/43_compensation.md R121): the value when it fits a signed 32-bit register, else `CompensationOverflow`. -/
def chkS32 (v : Int) : Except ErrKind Int :=
  if -2147483648 ≤ v ∧ v ≤ 2147483647 then .ok v else .error .compensationOverflow

/-- `chk_u32` (spec/43_compensation.md R121): the same for an unsigned register. -/
def chkU32 (v : Int) : Except ErrKind Int :=
  if 0 ≤ v ∧ v ≤ 4294967295 then .ok v else .error .compensationOverflow

/-- `v >> n`, that is `floor(v / 2^n)` (spec/43_compensation.md R120). -/
def asr (v : Int) (n : Nat) : Int := v >>> n

/-- `v << n`, that is `v * 2^n`, exact (spec/43_compensation.md R120); the range check is the caller's. -/
def shl (v : Int) (n : Nat) : Int := v * 2 ^ n

/-- `sdiv(a, b)` (spec/43_compensation.md R123): toward zero, or toward minus infinity under `DIV_MODE = floor`. -/
def sdiv (m : DivMode) (a b : Int) : Int :=
  match m with
  | .trunc => a.tdiv b
  | .floor => a.fdiv b

/-- `udiv(a, b)`, that is `floor(a / b)` for values that are not negative (spec/43_compensation.md R123). -/
def udiv (a b : Int) : Int := a / b

/-- A divisor is tested before the division: zero raises `CompensationDomainError` (spec/60_exceptions.md R189, R192). -/
def nonzero (d : Int) : Except ErrKind Int :=
  if d = 0 then .error .compensationDomainError else .ok d

/-- A 32-bit register receives an integer that has passed its range check. -/
def toWord (v : Int) : Word := BitVec.ofInt 32 v

end Sys2Proof.Machine
end

