-- ==== Sys2Proof/Machine/Operands.lean ====
section
/-!
DEFINITION. How operands are read: the coefficients with their fixed signedness (spec/10_state.md R17, spec/41_calibration.md
R92), the decode of the calibration block (R91), the assembly of the raw counts (spec/30_encoding.md R68, R69), and the
widening of every operand of the engine to an integer of unchanged value (spec/43_compensation.md R122).
-/

namespace Sys2Proof.Machine

/-- Field `i` of the calibration block (spec/41_calibration.md R91). The block has 22 bytes wherever this is used. -/
def calField (blk : List Byte) (i : Nat) : Half := be16 (blk.getD (2 * i) 0) (blk.getD (2 * i + 1) 0)

/-- The coefficient file that a calibration block decodes to (spec/30_encoding.md R67, spec/41_calibration.md R91). -/
def decodeCal (blk : List Byte) : Cal where
  ac1 := calField blk 0
  ac2 := calField blk 1
  ac3 := calField blk 2
  ac4 := calField blk 3
  ac5 := calField blk 4
  ac6 := calField blk 5
  b1  := calField blk 6
  b2  := calField blk 7
  mb  := calField blk 8
  mc  := calField blk 9
  md  := calField blk 10

/-- `AC1`, signed (spec/41_calibration.md R92). -/
def ac1 (s : State) : Int := s.cal.ac1.toInt
/-- `AC2`, signed. -/
def ac2 (s : State) : Int := s.cal.ac2.toInt
/-- `AC3`, signed. -/
def ac3 (s : State) : Int := s.cal.ac3.toInt
/-- `AC4`, unsigned. -/
def ac4 (s : State) : Int := s.cal.ac4.toNat
/-- `AC5`, unsigned. -/
def ac5 (s : State) : Int := s.cal.ac5.toNat
/-- `AC6`, unsigned. -/
def ac6 (s : State) : Int := s.cal.ac6.toNat
/-- `B1`, signed. -/
def coefB1 (s : State) : Int := s.cal.b1.toInt
/-- `B2`, signed. -/
def coefB2 (s : State) : Int := s.cal.b2.toInt
/-- `MC`, signed. -/
def mc (s : State) : Int := s.cal.mc.toInt
/-- `MD`, signed. -/
def md (s : State) : Int := s.cal.md.toInt

/-- `UT`, unsigned (spec/43_compensation.md R122). -/
def ut (s : State) : Int := s.ut.toNat
/-- `UP`, unsigned. -/
def up (s : State) : Int := s.up.toNat

/-- `UT = {m, l}` (spec/30_encoding.md R68). -/
def assembleUT (m l : Byte) : Half := be16 m l

/-- `UP = {m, l, x} >> (8 - oss)` (spec/30_encoding.md R69). -/
def assembleUP (oss : Level) (m l x : Byte) : Count20 := (be24 m l x >>> (8 - oss.toNat)).setWidth 20

/-- The address of result byte `k` (spec/20_memory.md R49). -/
def resultAddr (p : Params) (k : Nat) : Byte := p.resultReg + BitVec.ofNat 8 k

end Sys2Proof.Machine
end

