-- ==== Sys2Proof/Machine/Flags.lean ====
section
/-!
DEFINITION. The one-bit status flags and who writes them (spec/10_state.md section 4). `BUSY` is written by `accepted` in
`Ops.lean`; `OWNED`, with `SS`, by the commands.
-/

namespace Sys2Proof.Machine

/-- `CAL_VALID <- 0` (spec/41_calibration.md R93). -/
def clearCalValid (s : State) : State := { s with calValid := false }

/-- The count is fresh: `UT <- v; UT_VALID <- 1` (spec/42_measurement.md R101). -/
def putUT (v : Half) (s : State) : State := { s with ut := v, utValid := true }

/-- `UP <- v; UP_VALID <- 1` (spec/42_measurement.md R102). -/
def putUP (v : Count20) (s : State) : State := { s with up := v, upValid := true }

/-- The end of a read: `UT_VALID <- 0; UP_VALID <- 0; B5_VALID <- 0` (spec/42_measurement.md R109, spec/43_compensation.md
R144, spec/44_session.md R154). -/
def clearReadFlags (s : State) : State := { s with utValid := false, upValid := false, b5Valid := false }

/-- `OWNED` and `SS` agree (spec/10_state.md R13). -/
def sessionLive (s : State) : Bool := s.ss != .closed

end Sys2Proof.Machine
end

