-- ==== Sys2Proof/Machine/RegisterIO.lean ====
section
/-!
DEFINITION. The frames, the control bytes and the three register operations (spec/30_encoding.md section 4 and 5,
spec/40_register_io.md). Each performs exactly one exchange and never retries (R83).
-/

namespace Sys2Proof.Machine

/-- Frame `RD1` (spec/30_encoding.md R63). -/
def frameRd1 {φ : Type} (p : Params) (addr : Byte) : Op φ Answer := exchange p [addr] 1

/-- Frame `WR1` (spec/30_encoding.md R64). -/
def frameWr1 {φ : Type} (p : Params) (addr value : Byte) : Op φ Answer := exchange p [addr, value] 0

/-- Frame `RDN` (spec/30_encoding.md R65). -/
def frameRdn {φ : Type} (p : Params) (addr : Byte) (n : Nat) : Op φ Answer := exchange p [addr] n

/-- `MemRead(addr, n)` (spec/20_memory.md R43): anything but the address accepted and `n` bytes read is `TransportError`. -/
def checkRead {φ : Type} (n : Nat) : Answer → Op φ (List Byte)
  | .err => Op.raise .transportError
  | .done nw rb =>
    if nw ≠ 1 then Op.raise .transportError
    else if rb.length ≠ n then Op.raise .transportError
    else pure rb

/-- `MemWrite(addr, 1, v)` (spec/20_memory.md R44): anything but both bytes accepted is `TransportError`. -/
def checkWrite {φ : Type} : Answer → Op φ Unit
  | .err => Op.raise .transportError
  | .done nw _ => if nw ≠ 2 then Op.raise .transportError else pure ()

/-- `readRegister(addr)` (spec/40_register_io.md R80). -/
def readRegister {φ : Type} (p : Params) (addr : Byte) : Op φ Byte := do
  let a ← frameRd1 p addr
  let rb ← checkRead 1 a
  pure (rb.headD 0)

/-- `writeRegister(addr, value)` (spec/40_register_io.md R81). -/
def writeRegister {φ : Type} (p : Params) (addr value : Byte) : Op φ Unit := do
  let a ← frameWr1 p addr value
  checkWrite a

/-- `readBlock(addr, n)` (spec/40_register_io.md R82). -/
def readBlock {φ : Type} (p : Params) (addr : Byte) (n : Nat) : Op φ (List Byte) := do
  let a ← frameRdn p addr n
  checkRead n a

/-- A byte goes to the control register (spec/20_memory.md R49). -/
def writeControl {φ : Type} (p : Params) (v : Byte) : Op φ Unit := writeRegister p p.ctrlReg v

/-- Frame `RD1` on its own. -/
def execRd1 (addr : Byte) (s : State) : Outcome :=
  runInternal (do let a ← frameRd1 Config.params addr; pure (.answer a)) s

/-- Frame `WR1` on its own. -/
def execWr1 (addr value : Byte) (s : State) : Outcome :=
  runInternal (do let a ← frameWr1 Config.params addr value; pure (.answer a)) s

/-- Frame `RDN` on its own. -/
def execRdn (addr n : Byte) (s : State) : Outcome :=
  runInternal (do let a ← frameRdn Config.params addr n.toNat; pure (.answer a)) s

/-- `readRegister` on its own. -/
def execReadRegister (addr : Byte) (s : State) : Outcome :=
  runInternal (do let b ← readRegister Config.params addr; pure (.byte b)) s

/-- `writeRegister` on its own. -/
def execWriteRegister (addr value : Byte) (s : State) : Outcome :=
  runInternal (do writeRegister Config.params addr value; pure .unit) s

/-- `readBlock` on its own. -/
def execReadBlock (addr n : Byte) (s : State) : Outcome :=
  runInternal (do let bs ← readBlock Config.params addr n.toNat; pure (.bytes bs)) s

/-- The control byte `CMD_TEMP` (spec/30_encoding.md R66): it is written to the control register, and the sensor starts a
temperature conversion (spec/20_memory.md R52). -/
def execCmdTemp (s : State) : Outcome :=
  runInternal (do writeControl Config.params Config.params.cmdTemp; pure .unit) s

/-- The control byte `CMD_PRESS(oss)` (spec/30_encoding.md R66): the sensor starts a pressure conversion (spec/20_memory.md
R52). -/
def execCmdPress (oss : Level) (s : State) : Outcome :=
  runInternal (do writeControl Config.params (Config.params.cmdPress oss); pure .unit) s

/-- The control byte `SOFT_RESET_VALUE` (spec/44_session.md R153). -/
def execSoftResetValue (s : State) : Outcome :=
  runInternal (do writeControl Config.params Config.params.softReset; pure .unit) s

/-- The control byte `POWER_DOWN_VALUE` (spec/44_session.md R157), an open byte. -/
def execPowerDownValue (v : Byte) (s : State) : Outcome :=
  runInternal (do writeControl Config.params v; pure .unit) s

end Sys2Proof.Machine
end

