-- ==== Sys2Proof/Machine/Calibration.lean ====
section
/-!
DEFINITION. The Calibration Manager (spec/41_calibration.md).
-/

namespace Sys2Proof.Machine

/-- The coefficient file receives a block and becomes valid (spec/41_calibration.md R90, R91). -/
def putCal (blk : List Byte) (s : State) : State := { s with cal := decodeCal blk, calValid := true }

/-- `load()` (spec/41_calibration.md R90): every failure of the block read is `CalibrationReadError`, and then neither `CAL`
nor `CAL_VALID` changes. -/
def load {φ : Type} (p : Params) : Op φ Unit := do
  let blk ← (readBlock p p.calBase p.calLen).surfaceAs .calibrationReadError
  Op.update (putCal blk)

/-- `load` on its own. -/
def execLoad (s : State) : Outcome :=
  runInternal (do load Config.params; pure .unit) s

end Sys2Proof.Machine
end

