-- ==== Sys2Proof/Machine/Measurement.lean ====
section
/-!
DEFINITION. The measurement sequencer (spec/42_measurement.md): command issue, delay wait, result capture.
-/

namespace Sys2Proof.Machine

/-- An acquisition or `issueAndWait` starts only when `SEQ = Idle` (spec/42_measurement.md R105). -/
def requireSequencerIdle {φ : Type} : Op φ Unit := Op.require (fun s => s.seq == .idle) .sensorBusy

/-- A temperature acquisition begins: `KIND <- 0` (spec/10_state.md R15). -/
def setTemperature (s : State) : State := { s with kind := .temperature }

/-- A pressure acquisition begins: `KIND <- 1; OSS <- oss` (spec/10_state.md R15). -/
def setPressure (oss : Level) (s : State) : State := { s with kind := .pressure, oss := oss }

/-- `RBUF[0] <- b` (spec/10_state.md R19). -/
def putByte0 (b : Byte) (s : State) : State := { s with rbuf0 := b }

/-- `RBUF[1] <- b`. -/
def putByte1 (b : Byte) (s : State) : State := { s with rbuf1 := b }

/-- `RBUF[2] <- b`. -/
def putByte2 (b : Byte) (s : State) : State := { s with rbuf2 := b }

/-- The phases `CommandIssued` and `Waiting` (spec/42_measurement.md R100). -/
def issue {φ : Type} (p : Params) (cmd : Byte) (us : Nat) : Op φ Unit := do
  Op.update (setSequencer .commandIssued)
  writeControl p cmd
  Op.update (setSequencer .waiting)
  wait p us

/-- The phase `ResultReady`: the result bytes, one exchange each, most significant first; a temperature result has two, a
pressure result three, as `KIND` says (spec/42_measurement.md R107, spec/10_state.md R19). -/
def captureResult {φ : Type} (p : Params) : Op φ Unit := do
  Op.update (setSequencer .resultReady)
  let m ← readRegister p (resultAddr p 0)
  Op.update (putByte0 m)
  let l ← readRegister p (resultAddr p 1)
  Op.update (putByte1 l)
  let kind ← Op.read (·.kind)
  match kind with
  | .temperature => pure ()
  | .pressure =>
    let x ← readRegister p (resultAddr p 2)
    Op.update (putByte2 x)

/-- `acquireRawTemperature()` (spec/42_measurement.md R101; on an error R106). -/
def acquireRawTemperature {φ : Type} (p : Params) : Op φ Half := do
  requireSequencerIdle
  Op.update setTemperature
  (do issue p p.cmdTemp p.tDelayUs
      captureResult p : Op φ Unit).onRaise (setSequencer .idle)
  Op.update (fun s => setSequencer .idle (putUT (assembleUT s.rbuf0 s.rbuf1) s))
  Op.read (·.ut)

/-- `acquireRawPressure(oss)` (spec/42_measurement.md R102; on an error R106). -/
def acquireRawPressure {φ : Type} (p : Params) (oss : Level) : Op φ Count20 := do
  requireSequencerIdle
  Op.update (setPressure oss)
  (do issue p (p.cmdPress oss) (p.pDelayUs oss)
      captureResult p : Op φ Unit).onRaise (setSequencer .idle)
  Op.update (fun s => setSequencer .idle (putUP (assembleUP s.oss s.rbuf0 s.rbuf1 s.rbuf2) s))
  Op.read (·.up)

/-- `issueAndWait(cmd, us)` (spec/42_measurement.md R112; on an error R106). -/
def issueAndWait {φ : Type} (p : Params) (cmd : Byte) (us : Nat) : Op φ Unit := do
  requireSequencerIdle
  (issue p cmd us).onRaise (setSequencer .idle)
  Op.update (setSequencer .idle)

/-- `acquireRawTemperature` on its own. -/
def execAcquireRawTemperature (_ignored : Level) (s : State) : Outcome :=
  runInternal (do let n ← acquireRawTemperature Config.params; pure (.count n.toNat)) s

/-- `acquireRawPressure` on its own. -/
def execAcquireRawPressure (oss : Level) (s : State) : Outcome :=
  runInternal (do let n ← acquireRawPressure Config.params oss; pure (.count n.toNat)) s

/-- `issueAndWait` on its own. -/
def execIssueAndWait (cmd : Byte) (us : Half) (s : State) : Outcome :=
  runInternal (do issueAndWait Config.params cmd us.toNat; pure .unit) s

/-- `wait` on its own. -/
def execWait (us : Half) (s : State) : Outcome :=
  runInternal (do wait Config.params us.toNat; pure .unit) s

end Sys2Proof.Machine
end

