-- ==== Sys2Proof/Machine/Engine.lean ====
section
/-!
DEFINITION. The compensation engine (spec/43_compensation.md): eighteen steps in one order, each an exact computation on the
integers with every sum, difference, product and left shift range-checked (R121), written to one staging register.
-/

namespace Sys2Proof.Machine

/-- Step 1 (spec/43_compensation.md R125): `X1 <- chk_s32((UT - AC6) × AC5) >> 15`. -/
def compute1 (s : State) : Except ErrKind State := do
  let d ← chkS32 (ut s - ac6 s)
  let m ← chkS32 (d * ac5 s)
  pure { s with stg := { s.stg with x1 := toWord (asr m 15) } }

/-- Step 2 (spec/43_compensation.md R126): `d <- chk_s32(X1 + MD); zero test; X2 <- sdiv(chk_s32(MC << 11), d)`. -/
def compute2 (p : Params) (s : State) : Except ErrKind State := do
  let d ← chkS32 (s.stg.x1.toInt + md s)
  let d ← nonzero d
  let n ← chkS32 (shl (mc s) 11)
  pure { s with stg := { s.stg with x2 := toWord (sdiv p.divMode n d) } }

/-- Step 3 (spec/43_compensation.md R127): `B5 <- chk_s32(X1 + X2); B5_VALID <- 1`. -/
def compute3 (s : State) : Except ErrKind State := do
  let v ← chkS32 (s.stg.x1.toInt + s.stg.x2.toInt)
  pure { s with stg := { s.stg with b5 := toWord v }, b5Valid := true }

/-- Step 4 (spec/43_compensation.md R128): `T <- chk_s32(B5 + 8) >> 4`. -/
def compute4 (s : State) : Except ErrKind State := do
  let v ← chkS32 (s.stg.b5.toInt + 8)
  pure { s with stg := { s.stg with t := toWord (asr v 4) } }

/-- Step 5 (spec/43_compensation.md R129): `B6 <- chk_s32(B5 - 4000)`. -/
def compute5 (s : State) : Except ErrKind State := do
  let v ← chkS32 (s.stg.b5.toInt - 4000)
  pure { s with stg := { s.stg with b6 := toWord v } }

/-- Step 6 (spec/43_compensation.md R130): `q <- chk_s32(B6 × B6) >> 12; X1 <- chk_s32(B2 × q) >> 11`. -/
def compute6 (s : State) : Except ErrKind State := do
  let sq ← chkS32 (s.stg.b6.toInt * s.stg.b6.toInt)
  let v ← chkS32 (coefB2 s * asr sq 12)
  pure { s with stg := { s.stg with x1 := toWord (asr v 11) } }

/-- Step 7 (spec/43_compensation.md R131): `X2 <- chk_s32(AC2 × B6) >> 11`. -/
def compute7 (s : State) : Except ErrKind State := do
  let v ← chkS32 (ac2 s * s.stg.b6.toInt)
  pure { s with stg := { s.stg with x2 := toWord (asr v 11) } }

/-- Step 8 (spec/43_compensation.md R132): `X3 <- chk_s32(X1 + X2)`. -/
def compute8 (s : State) : Except ErrKind State := do
  let v ← chkS32 (s.stg.x1.toInt + s.stg.x2.toInt)
  pure { s with stg := { s.stg with x3 := toWord v } }

/-- Step 9 (spec/43_compensation.md R133): `s <- chk_s32(AC1 × 4 + X3); s <- chk_s32(s << B3_SHIFT(OSS)); B3 <- chk_s32(s + 2) >> 2`. -/
def compute9 (p : Params) (s : State) : Except ErrKind State := do
  let m ← chkS32 (ac1 s * 4)
  let a ← chkS32 (m + s.stg.x3.toInt)
  let a ← chkS32 (shl a (p.b3Shift s.oss))
  let v ← chkS32 (a + 2)
  pure { s with stg := { s.stg with b3 := toWord (asr v 2) } }

/-- Step 10 (spec/43_compensation.md R135): `X1 <- chk_s32(AC3 × B6) >> 13`. -/
def compute10 (s : State) : Except ErrKind State := do
  let v ← chkS32 (ac3 s * s.stg.b6.toInt)
  pure { s with stg := { s.stg with x1 := toWord (asr v 13) } }

/-- Step 11 (spec/43_compensation.md R136): `q <- chk_s32(B6 × B6) >> 12; X2 <- chk_s32(B1 × q) >> 16`. -/
def compute11 (s : State) : Except ErrKind State := do
  let sq ← chkS32 (s.stg.b6.toInt * s.stg.b6.toInt)
  let v ← chkS32 (coefB1 s * asr sq 12)
  pure { s with stg := { s.stg with x2 := toWord (asr v 16) } }

/-- Step 12 (spec/43_compensation.md R137): `X3 <- chk_s32(X1 + X2 + 2) >> 2, each sum checked (R121; log 20)`. -/
def compute12 (s : State) : Except ErrKind State := do
  let a ← chkS32 (s.stg.x1.toInt + s.stg.x2.toInt)
  let v ← chkS32 (a + 2)
  pure { s with stg := { s.stg with x3 := toWord (asr v 2) } }

/-- Step 13 (spec/43_compensation.md R138): `u <- chk_u32(X3 + 32768); B4 <- chk_u32(AC4 × u) >> 15`. -/
def compute13 (s : State) : Except ErrKind State := do
  let u ← chkU32 (s.stg.x3.toInt + 32768)
  let v ← chkU32 (ac4 s * u)
  pure { s with stg := { s.stg with b4 := toWord (asr v 15) } }

/-- Step 14 (spec/43_compensation.md R139): `d <- chk_u32(UP - B3); B7 <- chk_u32(d × (50000 >> OSS))`. -/
def compute14 (s : State) : Except ErrKind State := do
  let d ← chkU32 (up s - s.stg.b3.toInt)
  let v ← chkU32 (d * asr 50000 s.oss.toNat)
  pure { s with stg := { s.stg with b7 := toWord v } }

/-- The quotient of step 15, in its two orders: doubled before the division while `B7` has room for it, after it otherwise
(spec/43_compensation.md R140). -/
def doubledQuotient (b7 b4 : Int) : Except ErrKind Int :=
  if b7 < 0x80000000 then
    do let m ← chkU32 (b7 * 2)
       chkS32 (udiv m b4)
  else chkS32 (udiv b7 b4 * 2)

/-- Step 15 (spec/43_compensation.md R140): `zero test of B4; B7 < 0x80000000: PW <- chk_s32(udiv(B7 × 2, B4)), else PW <- chk_s32(udiv(B7, B4) × 2)`. -/
def compute15 (s : State) : Except ErrKind State := do
  let b4 ← nonzero s.stg.b4.toNat
  let v ← doubledQuotient s.stg.b7.toNat b4
  pure { s with stg := { s.stg with pw := toWord v } }

/-- Step 16, its first write (spec/43_compensation.md R141): `h <- PW >> 8; X1 <- chk_s32(h × h)`. -/
def compute16Square (s : State) : Except ErrKind State := do
  let v ← chkS32 (asr s.stg.pw.toInt 8 * asr s.stg.pw.toInt 8)
  pure { s with stg := { s.stg with x1 := toWord v } }

/-- Step 16, its second write (spec/43_compensation.md R141): `X1 <- chk_s32(X1 × 3038) >> 16`. -/
def compute16 (s : State) : Except ErrKind State := do
  let v ← chkS32 (s.stg.x1.toInt * 3038)
  pure { s with stg := { s.stg with x1 := toWord (asr v 16) } }

/-- Step 17 (spec/43_compensation.md R142): `X2 <- chk_s32(-7357 × PW) >> 16`. -/
def compute17 (s : State) : Except ErrKind State := do
  let v ← chkS32 (-7357 * s.stg.pw.toInt)
  pure { s with stg := { s.stg with x2 := toWord (asr v 16) } }

/-- Step 18 (spec/43_compensation.md R143): `P <- chk_s32(PW + (chk_s32(X1 + X2 + 3791) >> 4)), each sum checked (R121; log 20)`. -/
def compute18 (s : State) : Except ErrKind State := do
  let a ← chkS32 (s.stg.x1.toInt + s.stg.x2.toInt)
  let a ← chkS32 (a + 3791)
  let v ← chkS32 (s.stg.pw.toInt + asr a 4)
  pure { s with stg := { s.stg with p := toWord v } }

/-- The value `CSTEP` takes when step `k` has run: `CSTEP + 1`, and 0 after step 18 (spec/43_compensation.md R124). -/
def nextStep (k : Nat) : BitVec 5 := if k = 18 then 0 else BitVec.ofNat 5 (k + 1)

/-- `CSTEP <- k` (spec/10_state.md R25). -/
def setStep (k : BitVec 5) (s : State) : State := { s with cstep := k }

/-- One step of the engine: its registers are written and `CSTEP` moves on; when it raises, nothing else is written and
`CSTEP <- 0` (spec/43_compensation.md R124, R145). -/
def engineStep {φ : Type} (k : Nat) (f : State → Except ErrKind State) : Op φ Unit := fun s =>
  match f s with
  | .ok s' => .ok () (setStep (nextStep k) s')
  | .error e => .error (.raise e) (setStep 0 s)

/-- A register write of the engine before the last of its step (step 16 has two): when it raises, nothing is written and
`CSTEP <- 0`; what it wrote stays when a later check of the step raises (spec/60_exceptions.md R203). -/
def engineWrite {φ : Type} (f : State → Except ErrKind State) : Op φ Unit := fun s =>
  match f s with
  | .ok s' => .ok () s'
  | .error e => .error (.raise e) (setStep 0 s)

/-- Step 1 (R125). -/
def engineStep1 {φ : Type} : Op φ Unit := engineStep 1 compute1

/-- Step 2 (R126). -/
def engineStep2 {φ : Type} (p : Params) : Op φ Unit := engineStep 2 (compute2 p)

/-- Step 3 (R127). -/
def engineStep3 {φ : Type} : Op φ Unit := engineStep 3 compute3

/-- Step 4 (R128). -/
def engineStep4 {φ : Type} : Op φ Unit := engineStep 4 compute4

/-- Step 5 and everything after it require `B5_VALID` = 1 (spec/43_compensation.md R144; log 22). -/
def requireB5 : Op Fault Unit := Op.assert (·.b5Valid) .engineWithoutB5

/-- A step of the pressure half. -/
def pressureStep (k : Nat) (f : State → Except ErrKind State) : Op Fault Unit := do
  requireB5
  engineStep k f

/-- Step 5 (R129). -/
def engineStep5 : Op Fault Unit := pressureStep 5 compute5

/-- Step 6 (R130). -/
def engineStep6 : Op Fault Unit := pressureStep 6 compute6

/-- Step 7 (R131). -/
def engineStep7 : Op Fault Unit := pressureStep 7 compute7

/-- Step 8 (R132). -/
def engineStep8 : Op Fault Unit := pressureStep 8 compute8

/-- Step 9 (R133). -/
def engineStep9 (p : Params) : Op Fault Unit := pressureStep 9 (compute9 p)

/-- Step 10 (R135). -/
def engineStep10 : Op Fault Unit := pressureStep 10 compute10

/-- Step 11 (R136). -/
def engineStep11 : Op Fault Unit := pressureStep 11 compute11

/-- Step 12 (R137). -/
def engineStep12 : Op Fault Unit := pressureStep 12 compute12

/-- Step 13 (R138). -/
def engineStep13 : Op Fault Unit := pressureStep 13 compute13

/-- Step 14 (R139). -/
def engineStep14 : Op Fault Unit := pressureStep 14 compute14

/-- Step 15 (R140). -/
def engineStep15 : Op Fault Unit := pressureStep 15 compute15

/-- Step 16 (R141): `X1` is written twice. -/
def engineStep16 : Op Fault Unit := do
  requireB5
  engineWrite compute16Square
  engineStep 16 compute16

/-- Step 17 (R142). -/
def engineStep17 : Op Fault Unit := pressureStep 17 compute17

/-- Step 18 (R143). -/
def engineStep18 : Op Fault Unit := pressureStep 18 compute18

/-- The start of the engine (spec/43_compensation.md R124): calibration is required; both counts are there at every start,
and a start without one is a fault of the model (log 21). -/
def engineStart : Op Fault Unit := do
  Op.require (·.calValid) .calibrationReadError
  Op.assert (fun s => s.utValid && s.upValid) .engineStartWithoutCount
  Op.update (setStep 1)

/-- The temperature half, steps 1 to 4. -/
def engineTemperature {φ : Type} (p : Params) : Op φ Unit := do
  engineStep1
  engineStep2 p
  engineStep3
  engineStep4

/-- The pressure half, steps 5 to 18. -/
def enginePressure (p : Params) : Op Fault Unit := do
  engineStep5
  engineStep6
  engineStep7
  engineStep8
  engineStep9 p
  engineStep10
  engineStep11
  engineStep12
  engineStep13
  engineStep14
  engineStep15
  engineStep16
  engineStep17
  engineStep18

/-- The engine, steps 1 to 18 in this order and no other (spec/43_compensation.md R124, R134). -/
def engineRun (p : Params) : Op Fault Unit := do
  engineStart
  engineTemperature p
  enginePressure p

/-- Engine step 1 on its own. -/
def execEngineStep1 (s : State) : Outcome := runInternal (do engineStep1; pure .unit) s

/-- Engine step 2 on its own. -/
def execEngineStep2 (s : State) : Outcome := runInternal (do engineStep2 Config.params; pure .unit) s

/-- Engine step 3 on its own. -/
def execEngineStep3 (s : State) : Outcome := runInternal (do engineStep3; pure .unit) s

/-- Engine step 4 on its own. -/
def execEngineStep4 (s : State) : Outcome := runInternal (do engineStep4; pure .unit) s

/-- Engine step 5 on its own. -/
def execEngineStep5 (s : State) : Outcome := runEngine (do engineStep5; pure .unit) s

/-- Engine step 6 on its own. -/
def execEngineStep6 (s : State) : Outcome := runEngine (do engineStep6; pure .unit) s

/-- Engine step 7 on its own. -/
def execEngineStep7 (s : State) : Outcome := runEngine (do engineStep7; pure .unit) s

/-- Engine step 8 on its own. -/
def execEngineStep8 (s : State) : Outcome := runEngine (do engineStep8; pure .unit) s

/-- Engine step 9 on its own. -/
def execEngineStep9 (s : State) : Outcome := runEngine (do engineStep9 Config.params; pure .unit) s

/-- Engine step 10 on its own. -/
def execEngineStep10 (s : State) : Outcome := runEngine (do engineStep10; pure .unit) s

/-- Engine step 11 on its own. -/
def execEngineStep11 (s : State) : Outcome := runEngine (do engineStep11; pure .unit) s

/-- Engine step 12 on its own. -/
def execEngineStep12 (s : State) : Outcome := runEngine (do engineStep12; pure .unit) s

/-- Engine step 13 on its own. -/
def execEngineStep13 (s : State) : Outcome := runEngine (do engineStep13; pure .unit) s

/-- Engine step 14 on its own. -/
def execEngineStep14 (s : State) : Outcome := runEngine (do engineStep14; pure .unit) s

/-- Engine step 15 on its own. -/
def execEngineStep15 (s : State) : Outcome := runEngine (do engineStep15; pure .unit) s

/-- Engine step 16 on its own. -/
def execEngineStep16 (s : State) : Outcome := runEngine (do engineStep16; pure .unit) s

/-- Engine step 17 on its own. -/
def execEngineStep17 (s : State) : Outcome := runEngine (do engineStep17; pure .unit) s

/-- Engine step 18 on its own. -/
def execEngineStep18 (s : State) : Outcome := runEngine (do engineStep18; pure .unit) s

end Sys2Proof.Machine
end

