-- ==== Sys2Proof/Machine/Session.lean ====
section
/-!
DEFINITION. The session controller and the host commands (spec/44_session.md), each in the order of its pseudocode. Every
command is accepted, checked, run and answered through `runCommand`.
-/

namespace Sys2Proof.Machine

/-- `OWNED <- b` (spec/10_state.md R13). -/
def setOwned (b : Bool) (s : State) : State := { s with owned := b }

/-- `open()` (spec/44_session.md R151): the test and the writes are one atomic step (spec/20_memory.md R56). -/
def openSession : Op Empty Payload := do
  Op.require (fun s => !s.owned) .sessionBusy
  Op.update (fun s => setSession .idle (setOwned true s))
  pure .unit

/-- `configure()` (spec/44_session.md R152). -/
def configure (p : Params) : Op Empty Payload := do
  Op.require (fun s => s.ss == .idle) .invalidStateTransition
  load p
  (issueAndWait p p.cmdTemp p.tDelayUs).onRaise clearCalValid
  (issueAndWait p (p.cmdPress p.ossSel) (p.pDelayUs p.ossSel)).onRaise clearCalValid
  Op.update (setSession .configured)
  pure .unit

/-- `reset()` (spec/44_session.md R153): on `TransportError` nothing else changes. -/
def resetSensor (p : Params) : Op Empty Payload := do
  Op.require (fun s => s.ss != .closed) .invalidStateTransition
  writeControl p p.softReset
  Op.update (fun s => setSession .idle (clearCalValid s))
  pure .unit

/-- `readCompensated()` (spec/44_session.md R154): temperature, then pressure, then the engine; at the end, on success or on
any error, the valid flags fall. -/
def readCompensated (p : Params) : Op Fault Payload := do
  Op.require (fun s => s.ss == .configured) .invalidStateTransition
  (do let _ ← acquireRawTemperature p
      let _ ← acquireRawPressure p p.ossSel
      engineRun p : Op Fault Unit).always clearReadFlags
  Op.read (fun s => .pair s.stg.t s.stg.p)

/-- Raw register access is permitted in `Idle` and `Configured` (spec/44_session.md R155, R156). -/
def requireRawAccess : Op Empty Unit :=
  Op.require (fun s => s.ss == .idle || s.ss == .configured) .invalidStateTransition

/-- `readRegisterRaw(addr)` (spec/44_session.md R155). -/
def readRegisterRaw (p : Params) (addr : Byte) : Op Empty Payload := do
  requireRawAccess
  let b ← readRegister p addr
  pure (.byte b)

/-- `writeRegisterRaw(addr, value)` (spec/44_session.md R156): the value is forwarded as given. -/
def writeRegisterRaw (p : Params) (addr value : Byte) : Op Empty Payload := do
  requireRawAccess
  writeRegister p addr value
  pure .unit

/-- The power-down write of `shutdown` and `close`: `SS <- ShuttingDown`, then the outcome of the write
(spec/44_session.md R157). -/
def writePowerDown (p : Params) : Op Empty (Option ErrKind) := do
  Op.update (setSession .shuttingDown)
  (writeControl p p.powerDown).outcome

/-- The session ends: `CAL_VALID <- 0; SS <- Closed; OWNED <- 0`, and an error of the write is still reported
(spec/44_session.md R157, R158). -/
def endSession (e : Option ErrKind) : Op Empty Payload := do
  Op.update (fun s => setOwned false (setSession .closed (clearCalValid s)))
  match e with
  | some k => Op.raise k
  | none => pure .unit

/-- `shutdown()` (spec/44_session.md R157). -/
def shutdown (p : Params) : Op Empty Payload := do
  Op.require (fun s => s.ss != .closed) .invalidStateTransition
  let e ← writePowerDown p
  endSession e

/-- `close()` (spec/44_session.md R158): legal in every state; in `Closed` it issues no exchange. -/
def closeSession (p : Params) : Op Empty Payload := do
  let live ← Op.read sessionLive
  let e ← if live then writePowerDown p else pure none
  endSession e

/-- An invalid command code (spec/30_encoding.md R70, spec/60_exceptions.md R183): checked before the session state. -/
def invalidCommand : Op Empty Payload := Op.raise .invalidCommand

/-- `configure`, `OP = 0x01`. -/
def execConfigure (unused : Half) (s : State) : Outcome :=
  runCommand Config.params (.configure unused) (configure Config.params) s

/-- `shutdown`, `OP = 0x02`. -/
def execShutdown (unused : Half) (s : State) : Outcome :=
  runCommand Config.params (.shutdown unused) (shutdown Config.params) s

/-- `reset`, `OP = 0x03`. -/
def execReset (unused : Half) (s : State) : Outcome :=
  runCommand Config.params (.reset unused) (resetSensor Config.params) s

/-- `read-register`, `OP = 0x04`. -/
def execReadRegisterRaw (addr unused : Byte) (s : State) : Outcome :=
  runCommand Config.params (.readRegisterRaw addr unused) (readRegisterRaw Config.params addr) s

/-- `write-register`, `OP = 0x05`. -/
def execWriteRegisterRaw (addr value : Byte) (s : State) : Outcome :=
  runCommand Config.params (.writeRegisterRaw addr value) (writeRegisterRaw Config.params addr value) s

/-- `read`, `OP = 0x06`. -/
def execReadCompensated (unused : Half) (s : State) : Outcome :=
  runEngineCommand Config.params (.readCompensated unused) (readCompensated Config.params) s

/-- `open`, `OP = 0x07`. -/
def execOpenSession (unused : Half) (s : State) : Outcome :=
  runCommand Config.params (.openSession unused) openSession s

/-- `close`, `OP = 0x08`. -/
def execCloseSession (unused : Half) (s : State) : Outcome :=
  runCommand Config.params (.closeSession unused) (closeSession Config.params) s

/-- Any other code. -/
def execInvalid (op : Byte) (unused : Half) (s : State) : Outcome :=
  runCommand Config.params (.invalid op unused) invalidCommand s

end Sys2Proof.Machine
end

