-- ==== Sys2Proof/Machine/Dispatch.lean ====
section
/-!
DEFINITION. One arm per operation: its meaning.
-/

namespace Sys2Proof.Machine

def exec (i : Instr) (s : State) : Host.Outcome State Fault Refusal :=
  match i with
  | .configure unused => Sys2Proof.Machine.execConfigure unused s
  | .shutdown unused => Sys2Proof.Machine.execShutdown unused s
  | .reset unused => Sys2Proof.Machine.execReset unused s
  | .readRegisterRaw addr unused => Sys2Proof.Machine.execReadRegisterRaw addr unused s
  | .writeRegisterRaw addr value => Sys2Proof.Machine.execWriteRegisterRaw addr value s
  | .readCompensated unused => Sys2Proof.Machine.execReadCompensated unused s
  | .openSession unused => Sys2Proof.Machine.execOpenSession unused s
  | .closeSession unused => Sys2Proof.Machine.execCloseSession unused s
  | .invalid op unused => Sys2Proof.Machine.execInvalid op unused s
  | .cmdTemp => Sys2Proof.Machine.execCmdTemp s
  | .cmdPress oss => Sys2Proof.Machine.execCmdPress oss s
  | .softResetValue => Sys2Proof.Machine.execSoftResetValue s
  | .powerDownValue v => Sys2Proof.Machine.execPowerDownValue v s
  | .rd1 addr => Sys2Proof.Machine.execRd1 addr s
  | .wr1 addr value => Sys2Proof.Machine.execWr1 addr value s
  | .rdn addr n => Sys2Proof.Machine.execRdn addr n s
  | .readRegister addr => Sys2Proof.Machine.execReadRegister addr s
  | .writeRegister addr value => Sys2Proof.Machine.execWriteRegister addr value s
  | .readBlock addr n => Sys2Proof.Machine.execReadBlock addr n s
  | .load => Sys2Proof.Machine.execLoad s
  | .acquireRawTemperature ignored => Sys2Proof.Machine.execAcquireRawTemperature ignored s
  | .acquireRawPressure oss => Sys2Proof.Machine.execAcquireRawPressure oss s
  | .issueAndWait cmd us => Sys2Proof.Machine.execIssueAndWait cmd us s
  | .wait us => Sys2Proof.Machine.execWait us s
  | .engineStep1 => Sys2Proof.Machine.execEngineStep1 s
  | .engineStep2 => Sys2Proof.Machine.execEngineStep2 s
  | .engineStep3 => Sys2Proof.Machine.execEngineStep3 s
  | .engineStep4 => Sys2Proof.Machine.execEngineStep4 s
  | .engineStep5 => Sys2Proof.Machine.execEngineStep5 s
  | .engineStep6 => Sys2Proof.Machine.execEngineStep6 s
  | .engineStep7 => Sys2Proof.Machine.execEngineStep7 s
  | .engineStep8 => Sys2Proof.Machine.execEngineStep8 s
  | .engineStep9 => Sys2Proof.Machine.execEngineStep9 s
  | .engineStep10 => Sys2Proof.Machine.execEngineStep10 s
  | .engineStep11 => Sys2Proof.Machine.execEngineStep11 s
  | .engineStep12 => Sys2Proof.Machine.execEngineStep12 s
  | .engineStep13 => Sys2Proof.Machine.execEngineStep13 s
  | .engineStep14 => Sys2Proof.Machine.execEngineStep14 s
  | .engineStep15 => Sys2Proof.Machine.execEngineStep15 s
  | .engineStep16 => Sys2Proof.Machine.execEngineStep16 s
  | .engineStep17 => Sys2Proof.Machine.execEngineStep17 s
  | .engineStep18 => Sys2Proof.Machine.execEngineStep18 s

end Sys2Proof.Machine
end

