-- ==== Sys2Proof/Machine/Step.lean ====
section
/-!
DEFINITION. One step of the machine: what `fetch` finds is decoded and run; with nothing to do, a moment passes. A program
is a sequence of command words on the port (spec/00_scope.md section 5).
-/

namespace Sys2Proof.Machine

def step (s : State) : Host.Outcome State Fault Refusal :=
  match fetch s with
  | .internal e s' =>
    match decode e with
    | .ok i => exec i s'
    | .error why => .refused (.undecodable why)
  | .command cw s' => exec (decodeWord cw) s'
  | .idle s' => .next (idle Config.params s')

/-- The state in which the very next step runs the operation of a table row's bits: a command word is the one word pending
at a port that is not busy; an engine step is selected by `CSTEP` (and from step 5 on `B5_VALID` = 1, as it is whenever
`CSTEP` stands there: spec/43_compensation.md R144); any other row is the internal operation asked for (log 18, 29). -/
def State.withFetchWord (s : State) (nbits w : Nat) : State :=
  match tableEncoded nbits w with
  | none => s
  | some e =>
    match e.space with
    | .cw24 => { s with busy := false, cstep := 0, env := { s.env with todo := [], port := [e.toWord] } }
    | .engine =>
      { s with cstep := BitVec.ofNat 5 w, b5Valid := s.b5Valid || decide (5 ≤ w), env := { s.env with todo := [] } }
    | _ => { s with env := { s.env with todo := [e] } }

end Sys2Proof.Machine
end

