-- ==== Sys2Proof/Safety.lean ====
section
/-!
DEFINITION. The terms claims are stated in: what happens outside while an operation runs, what an operation leaves alone,
the invariant between commands, the hazard of spec/70_reset_and_hazards.md R215, and the compensation as one pure function.
-/

namespace Sys2Proof.Machine

/-- Nothing happens outside while the operation runs. -/
abbrev Quiet (s : State) : Prop := s.env.sched = []

/-- No hardware reset comes while the operation runs; words may be presented and time may pass. -/
abbrev Calm (s : State) : Prop := HostAct.hardwareReset ∉ s.env.sched

/-- Every register of the block but `RSP` is the same. `RSP` is left out because a command word refused at the port while
another is in flight is answered through it. -/
def SameRegs (s t : State) : Prop := t = { s with rsp := t.rsp, ret := t.ret, env := t.env }

/-- The shape of an answer to `exchange(w, r)` (spec/20_memory.md R40). -/
def HasShape (w : List Byte) (r : Nat) (a : Answer) : Prop :=
  ∀ nw rb, a = .done nw rb → nw ≤ w.length ∧ rb.length ≤ r

/-- The transport's answers to a sequence of frames, the first answer first: the script's, then free ones, each of the shape
(spec/20_memory.md R40, R55; log 3). -/
def answersFor : List (List Byte × Nat) → List Answer → Nat → List Answer
  | [], _, _ => []
  | (w, r) :: fs, script, n => answerAt w r script n :: answersFor fs script.tail (n + 1)

/-- The same, from a state. -/
abbrev answersTo (fs : List (List Byte × Nat)) (s : State) : List Answer := answersFor fs s.env.script s.env.fresh

/-- `t` is reached from `s` by `n` exchanges, with nothing presented and nothing asked for; the trace has grown by `new`. -/
structure EnvStep (s t : State) (n : Nat) (time : Nat) (new : List (Nat × Event)) : Prop where
  port   : t.env.port = s.env.port
  todo   : t.env.todo = s.env.todo
  sched  : t.env.sched = s.env.sched
  script : t.env.script = s.env.script.drop n
  fresh  : t.env.fresh = s.env.fresh + n
  now    : t.env.now = s.env.now + time
  log    : t.env.log = new ++ s.env.log

/-- An answer that completes a one-byte read with the byte `b` (spec/40_register_io.md R80). -/
abbrev readsByte (a : Answer) (b : Byte) : Prop := a = .done 1 [b]

/-- An answer that completes a one-byte write (spec/40_register_io.md R81). -/
abbrev acceptsWrite (a : Answer) : Prop := ∃ rb, a = .done 2 rb

/-- The range of a signed 32-bit register. -/
abbrev InS32 (v : Int) : Prop := -2147483648 ≤ v ∧ v ≤ 2147483647

/-- The range of an unsigned 32-bit register. -/
abbrev InU32 (v : Int) : Prop := 0 ≤ v ∧ v ≤ 4294967295

/-- Engine step `i` writes a signed register with the value `v`, moves `CSTEP` on and changes nothing else when its checks
pass; it raises `CompensationOverflow`, with `CSTEP` = 0 and nothing else written, when one does not. -/
def StepWrites (i : Instr) (s : State) (put : Word → Staging) (next : BitVec 5) (checks : Prop) (v : Int) : Prop :=
  (checks → ∃ w : Word, w.toInt = v ∧ exec i s = .next { s with stg := put w, cstep := next, ret := .unit }) ∧
    (¬ checks → exec i s = .next { s with cstep := 0, ret := .raised .compensationOverflow })

/-- The same for an unsigned register. -/
def StepWritesUnsigned (i : Instr) (s : State) (put : Word → Staging) (next : BitVec 5) (checks : Prop) (v : Int) : Prop :=
  (checks → ∃ w : Word, (w.toNat : Int) = v ∧ exec i s = .next { s with stg := put w, cstep := next, ret := .unit }) ∧
    (¬ checks → exec i s = .next { s with cstep := 0, ret := .raised .compensationOverflow })

/-- The moves of `SEQ` (spec/42_measurement.md R100). -/
def seqMove : SeqState → SeqState → Bool
  | .idle, .commandIssued => true
  | .commandIssued, .waiting => true
  | .commandIssued, .idle => true
  | .waiting, .resultReady => true
  | .waiting, .idle => true
  | .resultReady, .idle => true
  | _, _ => false

/-- A path of `SEQ` from `a` to `b`: the values it was given, newest first, each a move from the one before. -/
def SeqPath (a : SeqState) : List SeqState → SeqState → Prop
  | [], b => b = a
  | x :: older, b => b = x ∧ ∃ y, SeqPath a older y ∧ seqMove y x = true

/-- The moves of `SS` (spec/44_session.md R150); `Closed` to `Closed` is `close` in `Closed`, `Idle` to `Idle` is `reset` in
`Idle`. -/
def sessionMove : SessionState → SessionState → Bool
  | .closed, .idle => true
  | .closed, .closed => true
  | .idle, .configured => true
  | .idle, .idle => true
  | .configured, .idle => true
  | .idle, .shuttingDown => true
  | .configured, .shuttingDown => true
  | .shuttingDown, .closed => true
  | _, _ => false

/-- A path of `SS` from `a` to `b`, newest first. -/
def SessionPath (a : SessionState) : List SessionState → SessionState → Prop
  | [], b => b = a
  | x :: older, b => b = x ∧ ∃ y, SessionPath a older y ∧ sessionMove y x = true

/-- The host commands, the rows of format CW24. -/
def isCommand : Instr → Bool
  | .configure _ | .shutdown _ | .reset _ | .readRegisterRaw _ _ | .writeRegisterRaw _ _ | .readCompensated _
  | .openSession _ | .closeSession _ | .invalid _ _ => true
  | _ => false

/-- The steps of the pressure half of the engine, 5 to 18. -/
def isPressureStep : Instr → Bool
  | .engineStep5 | .engineStep6 | .engineStep7 | .engineStep8 | .engineStep9 | .engineStep10 | .engineStep11
  | .engineStep12 | .engineStep13 | .engineStep14 | .engineStep15 | .engineStep16 | .engineStep17 | .engineStep18 => true
  | _ => false

/-- What holds between commands, whenever `BUSY` = 0 (spec/10_state.md R29), with the range of `UP` (spec/10_state.md R21),
and no internal operation asked for from outside (log 18). -/
structure Inv (s : State) : Prop where
  notBusy     : s.busy = false
  configured  : s.ss = .configured ↔ s.calValid = true
  closed      : s.ss = .closed ↔ s.owned = false
  notShutting : s.ss ≠ .shuttingDown
  seqIdle     : s.seq = .idle
  engineIdle  : s.cstep = 0
  timerZero   : s.dtimer = 0
  noUT        : s.utValid = false
  noUP        : s.upValid = false
  noB5        : s.b5Valid = false
  upRange     : s.up.toNat < 2 ^ 19
  nothingAsked : s.env.todo = []

/-- The exchanges of a trace, in the order of the trace (newest first). -/
def exchangesOf : List (Nat × Event) → List (BitVec 7 × List Byte × Nat × Answer)
  | [] => []
  | (_, .exchange dev w r a) :: rest => (dev, w, r, a) :: exchangesOf rest
  | _ :: rest => exchangesOf rest

/-- The responses of a trace, newest first. -/
def responsesOf : List (Nat × Event) → List Response
  | [] => []
  | (_, .response r) :: rest => r :: responsesOf rest
  | _ :: rest => responsesOf rest

/-- The values `SEQ` was given, newest first. -/
def sequencerOf : List (Nat × Event) → List SeqState
  | [] => []
  | (_, .sequencer x) :: rest => x :: sequencerOf rest
  | _ :: rest => sequencerOf rest

/-- The values `SS` was given, newest first. -/
def sessionOf : List (Nat × Event) → List SessionState
  | [] => []
  | (_, .session x) :: rest => x :: sessionOf rest
  | _ :: rest => sessionOf rest

/-- The three shapes of access (spec/20_memory.md R47), all to the one device (R42). -/
def isAccess (p : Params) (x : BitVec 7 × List Byte × Nat × Answer) : Prop :=
  x.1 = p.devAddr ∧
    ((∃ addr, x.2.1 = [addr] ∧ x.2.2.1 = 1) ∨ (∃ addr v, x.2.1 = [addr, v] ∧ x.2.2.1 = 0) ∨
      (x.2.1 = [p.calBase] ∧ x.2.2.1 = 22))

/-- A read, or a write that the sensor accepted whole. -/
def isFullWrite (x : BitVec 7 × List Byte × Nat × Answer) : Prop :=
  x.2.2.1 = 0 → ∃ rb, x.2.2.2 = .done 2 rb

/-- `POWER_DOWN_VALUE` is open; this says that it is not a conversion command as well. -/
abbrev PowerDownIsNoCommand : Prop := conversionOf Config.params Config.params.powerDown = none

/-- The compensation as a pure function of `(UT, UP, OSS, CAL)` on the integers (spec/43_compensation.md R124 to R143,
R146): the pair `(T, P)`, or the first error. -/
def compensate (p : Params) (c : Cal) (ut up : Nat) (oss : Level) : Except ErrKind (Int × Int) := do
  -- temperature
  let m1 ← chkS32 (((ut : Int) - c.ac6.toNat) * c.ac5.toNat)
  let x1 := asr m1 15
  let d ← nonzero (x1 + c.md.toInt)
  let b5 := x1 + sdiv p.divMode (shl c.mc.toInt 11) d
  let t := asr (b5 + 8) 4
  -- pressure
  let b6 := b5 - 4000
  let sq ← chkS32 (b6 * b6)
  let m6 ← chkS32 (c.b2.toInt * asr sq 12)
  let m7 ← chkS32 (c.ac2.toInt * b6)
  let x3 ← chkS32 (asr m6 11 + asr m7 11)
  let a9 ← chkS32 (c.ac1.toInt * 4 + x3)
  let l9 ← chkS32 (shl a9 (p.b3Shift oss))
  let s9 ← chkS32 (l9 + 2)
  let b3 := asr s9 2
  let m10 ← chkS32 (c.ac3.toInt * b6)
  let m11 ← chkS32 (c.b1.toInt * asr sq 12)
  let x3 := asr (asr m10 13 + asr m11 16 + 2) 2
  let u ← chkU32 (x3 + 32768)
  let m13 ← chkU32 (c.ac4.toNat * u)
  let b4 := asr m13 15
  let d14 ← chkU32 (up - b3)
  let b7 ← chkU32 (d14 * asr 50000 oss.toNat)
  let b4 ← nonzero b4
  let pw ← chkS32 (if b7 < 0x80000000 then udiv (b7 * 2) b4 else udiv b7 b4 * 2)
  let h ← chkS32 (asr pw 8 * asr pw 8)
  let m16 ← chkS32 (h * 3038)
  let m17 ← chkS32 (-7357 * pw)
  let p ← chkS32 (pw + asr (asr m16 16 + asr m17 16 + 3791) 4)
  pure (t, p)

/-- The response of a read whose compensation ended so (spec/30_encoding.md R62). -/
def compensatedResponse : Except ErrKind (Int × Int) → Response
  | .ok (t, p) => successResponse (.pair (toWord t) (toWord p))
  | .error k => errorResponse k

end Sys2Proof.Machine
end

