-- ==== Sys2Proof/Certificates/Slice0/Obligations.lean ====
section
/-!
DEFINITION. What is claimed of the model, one definition a claim; OBLIGATIONS.json says of each which rule it formalises.
A claim about the answers of the transport holds for scripted and for free answers alike.
-/

open Sys2Proof Sys2Proof.Machine Sys2Proof.Config

/-! ### Encodings -/

/-- Decoding the encoding of a well-formed operation gives it back, every operand at every value. -/
def Obligations.WellFormedOperationsRoundTrip : Prop :=
  ∀ i : Instr, i.wellFormed = true → decode (encode i) = .ok i

/-- Every 24-bit word is exactly one command, and no bit of it is lost. -/
def Obligations.EveryWordIsOneCommand : Prop :=
  ∀ cw : CmdWord, isCommand (decodeWord cw) = true ∧ (decodeWord cw).wellFormed = true ∧
    (encode (decodeWord cw)).toWord = cw ∧
    ((∃ op u, decodeWord cw = .invalid op u) ↔ ¬ (1 ≤ (cw.extractLsb' 16 8).toNat ∧ (cw.extractLsb' 16 8).toNat ≤ 8))

/-- Some words written out from the spec's encodings. -/
def Obligations.SpecWordsDecode : Prop :=
  decodeWord 0x010000 = .configure 0 ∧ decodeWord 0x020000 = .shutdown 0 ∧ decodeWord 0x030000 = .reset 0 ∧
  decodeWord 0x04D000 = .readRegisterRaw 0xD0 0 ∧ decodeWord 0x05F42E = .writeRegisterRaw 0xF4 0x2E ∧
  decodeWord 0x060000 = .readCompensated 0 ∧ decodeWord 0x070000 = .openSession 0 ∧
  decodeWord 0x080000 = .closeSession 0 ∧ decodeWord 0x091234 = .invalid 0x09 0x1234 ∧
  decode ⟨.ctrl8, [0x2E]⟩ = .ok .cmdTemp ∧ decode ⟨.ctrl8, [0xB4]⟩ = .ok (.cmdPress 2) ∧
  decode ⟨.wr1, [0xF4, 0x2E]⟩ = .ok (.wr1 0xF4 0x2E) ∧ decode ⟨.load, [0xAA]⟩ = .ok .load ∧
  decode ⟨.acquire, [7]⟩ = .ok (.acquireRawPressure 3) ∧ decode ⟨.engine, [18]⟩ = .ok .engineStep18

/-- A field that a command does not use has no effect on an accepted command; the value of `write-register` is written as
given. -/
def Obligations.UnusedFieldsAreIgnored : Prop :=
  ∀ s : State, s.busy = false →
    (∀ u v : Half, exec (.configure u) s = exec (.configure v) s ∧ exec (.shutdown u) s = exec (.shutdown v) s ∧
      exec (.reset u) s = exec (.reset v) s ∧ exec (.readCompensated u) s = exec (.readCompensated v) s ∧
      exec (.openSession u) s = exec (.openSession v) s ∧ exec (.closeSession u) s = exec (.closeSession v) s) ∧
    (∀ addr u v : Byte, exec (.readRegisterRaw addr u) s = exec (.readRegisterRaw addr v) s) ∧
    (∀ (op op' : Byte) (u v : Half), exec (.invalid op u) s = exec (.invalid op' v) s) ∧
    (∀ addr value : Byte, Quiet s → (s.ss = .idle ∨ s.ss = .configured) →
      ∃ t, exec (.writeRegisterRaw addr value) s = .next t ∧
        ∃ a, exchangesOf t.env.log = (params.devAddr, [addr, value], 0, a) :: exchangesOf s.env.log)

/-! ### The step -/

/-- A step runs the decoded operation: an internal operation asked for, the engine step that `CSTEP` selects, the one
pending command word. That internal operations can be asked for is the model's own (log 18). -/
def Obligations.StepRunsTheDecodedOperation : Prop :=
  (∀ (s : State) (e : Encoded) (rest : List Encoded) (i : Instr), s.env.todo = e :: rest → decode e = .ok i →
    step s = exec i { s with env := { s.env with todo := rest } }) ∧
  (∀ (s : State) (i : Instr), s.env.todo = [] → s.cstep ≠ 0 → decode ⟨.engine, [s.cstep.setWidth 8]⟩ = .ok i →
    step s = exec i s) ∧
  (∀ (s : State) (cw : CmdWord), s.env.todo = [] → s.cstep = 0 → s.busy = false → s.env.port = [cw] →
    step s = exec (decodeWord cw) { s with env := { s.env with port := [] } })

/-- Of several pending words one is accepted, and the others stay pending in their order; the pick is a free value (log 5). -/
def Obligations.OneOfSeveralWordsIsAccepted : Prop :=
  ∀ (s : State), s.env.todo = [] → s.cstep = 0 → s.busy = false → 2 ≤ s.env.port.length →
    ∃ k, ∃ h : k < s.env.port.length,
      step s = exec (decodeWord s.env.port[k])
        { s with env := { s.env with port := s.env.port.eraseIdx k, fresh := s.env.fresh + 1 } }

/-- With nothing to do a tick passes and the block waits; a word presented then, in no time, stays at the port for the next
step. That such a step is one tick, and that the presenting takes no time, is the model's choice (log 27). -/
def Obligations.NothingToDoLetsTimePass : Prop :=
  ∀ (s : State), s.env.todo = [] → s.cstep = 0 → (s.busy = true ∨ s.env.port = []) →
    (s.env.sched = [] → step s = .next (elapse 1 s)) ∧
    (∀ cw rest, s.busy = false → s.env.sched = .present cw :: rest →
      step s = .next { s with env := { s.env with sched := rest, port := [cw] } })

/-- A step is refused only for bits that are no operation (the model's: log 19, 23). -/
def Obligations.OnlyUndecodableBitsAreRefused : Prop :=
  ∀ (s : State) (r : Refusal), step s = .refused r →
    ∃ why, r = .undecodable why ∧
      ((∃ e rest, s.env.todo = e :: rest ∧ decode e = .error why) ∨
        (s.env.todo = [] ∧ 18 < s.cstep.toNat ∧ why = .notAStep))

/-- No operation faults but engine steps 5 to 18 without `B5_VALID`; in particular no host command does. That
this is a fault, the rule saying only "require", is the model's (log 22). -/
def Obligations.OnlyPressureStepsWithoutB5Fault : Prop :=
  ∀ (i : Instr) (s : State) (f : Fault),
    exec i s = .fault f ↔ isPressureStep i = true ∧ s.b5Valid = false ∧ f = .engineWithoutB5

/-! ### Reset and the invariant -/

/-- The state after hardware reset, every register the spec gives a value. -/
def Obligations.ResetLeavesTheControlState : Prop :=
  State.reset.ss = .closed ∧ State.reset.owned = false ∧ State.reset.busy = false ∧ State.reset.seq = .idle ∧
    State.reset.dtimer = 0 ∧ State.reset.calValid = false ∧ State.reset.utValid = false ∧
    State.reset.upValid = false ∧ State.reset.b5Valid = false ∧ State.reset.cstep = 0

/-- The invariant holds after reset. -/
def Obligations.ResetMeetsTheInvariant : Prop := Inv State.reset

/-- Every step from a state that meets the invariant of spec/10_state.md R29 gives one that meets it, whatever the host, the
sensor, time and hardware reset do meanwhile. -/
def Obligations.EveryStepKeepsTheInvariant : Prop :=
  ∀ s t : State, Inv s → step s = .next t → Inv t

/-- From a state that meets the invariant a step always gives a next state. -/
def Obligations.NoStepFromTheInvariantStops : Prop :=
  ∀ s : State, Inv s → ∃ t, step s = .next t

/-- A hardware reset in the middle of a wait drops the operation, leaves the registers as after reset, and touches neither
the host's words nor the sensor. What it leaves in the registers the spec gives no value after reset is the model's choice
(log 9, 10, 14). -/
def Obligations.HardwareResetCutsAWait : Prop :=
  ∀ (us : Half) (s : State) (j : Nat) (rest : List HostAct), j < ticks params us.toNat →
    s.env.sched = List.replicate j .quiet ++ .hardwareReset :: rest →
    exec (.wait us) s = .next { State.reset with env :=
      { s.env with
          todo   := []
          sched  := rest
          now    := s.env.now + j
          sensor := { s.env.sensor with left := s.env.sensor.left - j }
          log    := (s.env.now + j, .hardwareReset) :: s.env.log } }

/-- A hardware reset while nothing is in flight; the registers the spec gives no value are the model's choice (log 9, 10,
14). -/
def Obligations.HardwareResetBetweenCommands : Prop :=
  ∀ (s : State) (rest : List HostAct), s.env.todo = [] → s.cstep = 0 → (s.busy = true ∨ s.env.port = []) →
    s.env.sched = .hardwareReset :: rest →
    step s = .next { State.reset with env :=
      { s.env with sched := rest, log := (s.env.now, .hardwareReset) :: s.env.log } }

/-! ### Frames, control bytes and register operations -/

/-- The three frames: each is one exchange with the device, answered as the transport answers, and no register of the block
changes. An answer has the shape that fits its frame, and every answer of that shape can be given. That a read leaves the sensor's conversion as it is, is the model's choice (log 35). -/
def Obligations.FramesAreOneExchange : Prop :=
  (∀ (w : List Byte) (r : Nat) (script : List Answer) (n : Nat), HasShape w r (answerAt w r script n)) ∧
  (∀ (w : List Byte) (r : Nat) (a : Answer) (rest : List Answer) (n : Nat), HasShape w r a →
    answerAt w r (a :: rest) n = a) ∧
  ∀ (s : State), Quiet s →
    (∀ addr a, answersTo [([addr], 1)] s = [a] →
      ∃ t, exec (.rd1 addr) s = .next t ∧ t = { s with ret := .answer a, env := t.env } ∧
        t.env.sensor = s.env.sensor ∧
        EnvStep s t 1 0 [(s.env.now, .exchange params.devAddr [addr] 1 a)]) ∧
    (∀ addr value a, answersTo [([addr, value], 0)] s = [a] →
      ∃ t, exec (.wr1 addr value) s = .next t ∧ t = { s with ret := .answer a, env := t.env } ∧
        EnvStep s t 1 0 [(s.env.now, .exchange params.devAddr [addr, value] 0 a)]) ∧
    (∀ addr n a, answersTo [([addr], n.toNat)] s = [a] →
      ∃ t, exec (.rdn addr n) s = .next t ∧ t = { s with ret := .answer a, env := t.env } ∧
        t.env.sensor = s.env.sensor ∧
        EnvStep s t 1 0 [(s.env.now, .exchange params.devAddr [addr] n.toNat a)])

/-- `readRegister` returns the one byte of a complete exchange and raises `TransportError` on any other answer; either way
it is one exchange and writes no register. That it leaves the sensor's conversion as it is, is the model's choice (log 35). -/
def Obligations.ReadRegisterReturnsTheByte : Prop :=
  ∀ (addr : Byte) (s : State) (a : Answer), Quiet s → answersTo [([addr], 1)] s = [a] →
    (∀ b, readsByte a b → ∃ t, exec (.readRegister addr) s = .next t ∧ t = { s with ret := .byte b, env := t.env } ∧
      t.env.sensor = s.env.sensor ∧ EnvStep s t 1 0 [(s.env.now, .exchange params.devAddr [addr] 1 a)]) ∧
    ((∀ b, ¬ readsByte a b) → ∃ t, exec (.readRegister addr) s = .next t ∧
      t = { s with ret := .raised .transportError, env := t.env } ∧ t.env.sensor = s.env.sensor ∧
      EnvStep s t 1 0 [(s.env.now, .exchange params.devAddr [addr] 1 a)])

/-- `writeRegister` succeeds when both bytes were accepted and raises `TransportError` otherwise; it is one exchange and
writes no register. -/
def Obligations.WriteRegisterSendsAddressThenValue : Prop :=
  ∀ (addr value : Byte) (s : State) (a : Answer), Quiet s → answersTo [([addr, value], 0)] s = [a] →
    (acceptsWrite a → ∃ t, exec (.writeRegister addr value) s = .next t ∧ t = { s with ret := .unit, env := t.env } ∧
      EnvStep s t 1 0 [(s.env.now, .exchange params.devAddr [addr, value] 0 a)]) ∧
    (¬ acceptsWrite a → ∃ t, exec (.writeRegister addr value) s = .next t ∧
      t = { s with ret := .raised .transportError, env := t.env } ∧
      EnvStep s t 1 0 [(s.env.now, .exchange params.devAddr [addr, value] 0 a)])

/-- `readBlock` returns exactly `n` bytes of a complete exchange and raises `TransportError` on any other answer; for
every address and count, also those with which the operation does not decode (log 30). -/
def Obligations.ReadBlockReturnsAllOrNothing : Prop :=
  ∀ (addr n : Byte) (s : State) (a : Answer), Quiet s → answersTo [([addr], n.toNat)] s = [a] →
    (∀ bs, a = .done 1 bs → bs.length = n.toNat → ∃ t, exec (.readBlock addr n) s = .next t ∧
      t = { s with ret := .bytes bs, env := t.env } ∧
      EnvStep s t 1 0 [(s.env.now, .exchange params.devAddr [addr] n.toNat a)]) ∧
    ((∀ bs, a = .done 1 bs → bs.length ≠ n.toNat) → ∃ t, exec (.readBlock addr n) s = .next t ∧
      t = { s with ret := .raised .transportError, env := t.env } ∧
      EnvStep s t 1 0 [(s.env.now, .exchange params.devAddr [addr] n.toNat a)])

/-- A conversion command byte goes to the control register, and when the sensor accepts it a conversion of that kind is in
progress for its delay. -/
def Obligations.CommandBytesStartConversions : Prop :=
  ∀ (s : State) (a : Answer), Quiet s → acceptsWrite a →
    (answersTo [([params.ctrlReg, params.cmdTemp], 0)] s = [a] →
      ∃ t, exec .cmdTemp s = .next t ∧ t = { s with ret := .unit, env := t.env } ∧
        t.env.sensor = ⟨.temperature, ticks params 4500, s.env.sensor.midWrite || decide (0 < s.env.sensor.left)⟩ ∧
        EnvStep s t 1 0 [(s.env.now, .exchange params.devAddr [params.ctrlReg, params.cmdTemp] 0 a)]) ∧
    (∀ oss : Level, answersTo [([params.ctrlReg, params.cmdPress oss], 0)] s = [a] →
      ∃ t, exec (.cmdPress oss) s = .next t ∧ t = { s with ret := .unit, env := t.env } ∧
        t.env.sensor = ⟨.pressure, ticks params (1500 + 3000 * 2 ^ oss.toNat),
          s.env.sensor.midWrite || decide (0 < s.env.sensor.left)⟩ ∧
        EnvStep s t 1 0 [(s.env.now, .exchange params.devAddr [params.ctrlReg, params.cmdPress oss] 0 a)])

/-- The soft-reset and the power-down byte go to the control register; a write that is not accepted whole is
`TransportError`. -/
def Obligations.OtherControlBytesAreWritten : Prop :=
  ∀ (s : State) (a : Answer), Quiet s →
    (answersTo [([params.ctrlReg, params.softReset], 0)] s = [a] →
      ∃ t, exec .softResetValue s = .next t ∧
        t = { s with ret := t.ret, env := t.env } ∧
        (acceptsWrite a → t.ret = .unit) ∧ (¬ acceptsWrite a → t.ret = .raised .transportError) ∧
        EnvStep s t 1 0 [(s.env.now, .exchange params.devAddr [params.ctrlReg, params.softReset] 0 a)]) ∧
    (∀ v : Byte, answersTo [([params.ctrlReg, v], 0)] s = [a] →
      ∃ t, exec (.powerDownValue v) s = .next t ∧
        t = { s with ret := t.ret, env := t.env } ∧
        (acceptsWrite a → t.ret = .unit) ∧ (¬ acceptsWrite a → t.ret = .raised .transportError) ∧
        EnvStep s t 1 0 [(s.env.now, .exchange params.devAddr [params.ctrlReg, v] 0 a)])

/-- Frame: the register operations, the frames and the control bytes write no register of the block, whatever is answered
and whatever words the host presents meanwhile; `RSP` is written by a word refused at the port and by nothing else (log
13). -/
def Obligations.RegisterAccessWritesNoRegister : Prop :=
  ∀ (i : Instr) (s t : State), Calm s → exec i s = .next t →
    (∃ addr value n : Byte, ∃ oss : Level, i = .rd1 addr ∨ i = .wr1 addr value ∨ i = .rdn addr n ∨
      i = .readRegister addr ∨ i = .writeRegister addr value ∨ i = .readBlock addr n ∨ i = .cmdTemp ∨
      i = .cmdPress oss ∨ i = .softResetValue ∨ i = .powerDownValue value) →
    SameRegs s t ∧
      (t.rsp = s.rsp ∨ (s.busy = true ∧ params.busyPolicy = .reject ∧ t.rsp = errorResponse .sensorBusy))

/-! ### Calibration -/

/-- `load` with a complete answer: field `i` is the big-endian word of bytes `2i` and `2i + 1`, in the fixed order, and
`CAL_VALID` is set; nothing else of the block changes. -/
def Obligations.LoadDecodesTheBlock : Prop :=
  ∀ (s : State) (c0 c1 c2 c3 c4 c5 c6 c7 c8 c9 c10 c11 c12 c13 c14 c15 c16 c17 c18 c19 c20 c21 : Byte) (a : Answer),
    Quiet s → answersTo [([params.calBase], 22)] s = [a] →
    a = .done 1 [c0, c1, c2, c3, c4, c5, c6, c7, c8, c9, c10, c11, c12, c13, c14, c15, c16, c17, c18, c19, c20, c21] →
    ∃ t, exec .load s = .next t ∧
      t = { s with
        cal := ⟨c0 ++ c1, c2 ++ c3, c4 ++ c5, c6 ++ c7, c8 ++ c9, c10 ++ c11, c12 ++ c13, c14 ++ c15, c16 ++ c17,
          c18 ++ c19, c20 ++ c21⟩,
        calValid := true, ret := .unit, env := t.env } ∧
      EnvStep s t 1 0 [(s.env.now, .exchange params.devAddr [params.calBase] 22 a)]

/-- `load` on any other answer raises `CalibrationReadError` and leaves `CAL` and `CAL_VALID` as they were. -/
def Obligations.LoadFailsOnAnyOtherAnswer : Prop :=
  ∀ (s : State) (a : Answer), Quiet s → answersTo [([params.calBase], 22)] s = [a] →
    (∀ bs, a = .done 1 bs → bs.length ≠ 22) →
    ∃ t, exec .load s = .next t ∧ t = { s with ret := .raised .calibrationReadError, env := t.env } ∧
      EnvStep s t 1 0 [(s.env.now, .exchange params.devAddr [params.calBase] 22 a)]

/-- While `CAL_VALID` = 1 no operation but `load` itself writes the coefficient file. That `CAL_VALID` is 0 in `Idle` is part
of the invariant `Inv`. -/
def Obligations.CalibrationIsImmutableWhileValid : Prop :=
  ∀ (i : Instr) (s t : State), (s.ss = .idle → s.calValid = false) → s.calValid = true → Calm s → i ≠ .load →
    exec i s = .next t → t.cal = s.cal

/-! ### The measurement sequencer -/

/-- `wait(us)`: `ceil(us / TICK_US)` ticks pass, that is the least number of ticks that is not shorter than the delay;
`DTIMER` ends at 0, no exchange is issued, nothing else changes. Time that passes at a moment of the wait counts the timer down as
well, so such a wait is as long as the longer of the two. Whatever happens in a wait, words presented and time passing (log 2), it
does not end before its delay has passed. -/
def Obligations.WaitLetsTheDelayPass : Prop :=
  (∀ (us : Half) (s : State), Quiet s →
    (∀ n, us.toNat * params.tickDen ≤ n * params.tickNum ↔ ticks params us.toNat ≤ n) ∧
    exec (.wait us) s = .next { s with dtimer := 0, ret := .unit, env :=
      { s.env with
          now    := s.env.now + ticks params us.toNat
          sensor := { s.env.sensor with left := s.env.sensor.left - ticks params us.toNat } } }) ∧
  (∀ (us : Half) (n : Nat) (s : State), us ≠ 0 → s.env.sched = [.elapse n] →
    exec (.wait us) s = .next { s with dtimer := 0, ret := .unit, env :=
      { s.env with
          sched  := []
          now    := s.env.now + max n (ticks params us.toNat)
          sensor := { s.env.sensor with left := s.env.sensor.left - max n (ticks params us.toNat) } } }) ∧
  (∀ (us : Half) (s : State), Calm s →
    ∃ t n, exec (.wait us) s = .next t ∧ t = { s with dtimer := 0, ret := .unit, rsp := t.rsp, env := t.env } ∧
      ticks params us.toNat ≤ n ∧ t.env.now = s.env.now + n ∧ t.env.sensor.left = s.env.sensor.left - n ∧
      exchangesOf t.env.log = exchangesOf s.env.log)

/-- The delays strictly increase and the amounts by which the result is shifted right strictly decrease with the
oversampling level. -/
def Obligations.OversamplingIsMonotone : Prop :=
  params.tDelayUs = 4500 ∧ params.pDelayUs 0 = 4500 ∧ params.pDelayUs 1 = 7500 ∧ params.pDelayUs 2 = 13500 ∧
    params.pDelayUs 3 = 25500 ∧
    ∃ shift : Level → Nat, shift 0 = 8 ∧ shift 1 = 7 ∧ shift 2 = 6 ∧ shift 3 = 5 ∧
      (∀ (o : Level) (m l x : Byte),
        (assembleUP o m l x).toNat = (m.toNat * 65536 + l.toNat * 256 + x.toNat) / 2 ^ shift o) ∧
      ∀ o o' : Level, o.toNat < o'.toNat → params.pDelayUs o < params.pDelayUs o' ∧ shift o' < shift o

/-- The raw counts: two bytes big-endian; three bytes big-endian shifted right by `8 - oss`, so below `2^(16 + oss)`. -/
def Obligations.RawCountsAreAssembledBigEndian : Prop :=
  ∀ (oss : Level) (m l x : Byte),
    (assembleUT m l).toNat = m.toNat * 256 + l.toNat ∧
    (assembleUP oss m l x).toNat = (m.toNat * 65536 + l.toNat * 256 + x.toNat) / 2 ^ (8 - oss.toNat) ∧
    (assembleUP oss m l x).toNat < 2 ^ (16 + oss.toNat)

/-- `acquireRawTemperature`, all exchanges complete: command, wait, two result bytes in ascending order, the count. -/
def Obligations.AcquireTemperature : Prop :=
  ∀ (ignored : Level) (s : State) (a m' l' : Answer) (m l : Byte), Quiet s → s.seq = .idle →
    answersTo [([params.ctrlReg, params.cmdTemp], 0), ([params.resultReg], 1), ([params.resultReg + 1], 1)] s = [a, m', l'] →
    acceptsWrite a → readsByte m' m → readsByte l' l →
    ∃ t, exec (.acquireRawTemperature ignored) s = .next t ∧
      t = { s with kind := .temperature, dtimer := 0, rbuf0 := m, rbuf1 := l, ut := m ++ l, utValid := true,
                   ret := .count (m ++ l).toNat, env := t.env } ∧
      EnvStep s t 3 (ticks params 4500)
        [(s.env.now + ticks params 4500, .sequencer .idle),
         (s.env.now + ticks params 4500, .exchange params.devAddr [params.resultReg + 1] 1 l'),
         (s.env.now + ticks params 4500, .exchange params.devAddr [params.resultReg] 1 m'),
         (s.env.now + ticks params 4500, .sequencer .resultReady),
         (s.env.now, .sequencer .waiting),
         (s.env.now, .exchange params.devAddr [params.ctrlReg, params.cmdTemp] 0 a),
         (s.env.now, .sequencer .commandIssued)]

/-- `acquireRawPressure(oss)`, all exchanges complete: command, wait, three result bytes in ascending order, the count. -/
def Obligations.AcquirePressure : Prop :=
  ∀ (oss : Level) (s : State) (a m' l' x' : Answer) (m l x : Byte) (d : Nat), Quiet s → s.seq = .idle →
    d = ticks params (1500 + 3000 * 2 ^ oss.toNat) →
    answersTo [([params.ctrlReg, params.cmdPress oss], 0), ([params.resultReg], 1), ([params.resultReg + 1], 1),
      ([params.resultReg + 2], 1)] s = [a, m', l', x'] →
    acceptsWrite a → readsByte m' m → readsByte l' l → readsByte x' x →
    ∃ t, exec (.acquireRawPressure oss) s = .next t ∧
      t = { s with kind := .pressure, oss := oss, dtimer := 0, rbuf0 := m, rbuf1 := l, rbuf2 := x,
                   up := (((m ++ l ++ x : BitVec 24) >>> (8 - oss.toNat)).setWidth 20), upValid := true,
                   ret := .count ((m.toNat * 65536 + l.toNat * 256 + x.toNat) / 2 ^ (8 - oss.toNat)), env := t.env } ∧
      EnvStep s t 4 d
        [(s.env.now + d, .sequencer .idle),
         (s.env.now + d, .exchange params.devAddr [params.resultReg + 2] 1 x'),
         (s.env.now + d, .exchange params.devAddr [params.resultReg + 1] 1 l'),
         (s.env.now + d, .exchange params.devAddr [params.resultReg] 1 m'),
         (s.env.now + d, .sequencer .resultReady),
         (s.env.now, .sequencer .waiting),
         (s.env.now, .exchange params.devAddr [params.ctrlReg, params.cmdPress oss] 0 a),
         (s.env.now, .sequencer .commandIssued)]

/-- `issueAndWait(cmd, us)`: the command write, the wait, no result read. -/
def Obligations.IssueAndWait : Prop :=
  ∀ (cmd : Byte) (us : Half) (s : State) (a : Answer), Quiet s → s.seq = .idle →
    answersTo [([params.ctrlReg, cmd], 0)] s = [a] → acceptsWrite a →
    ∃ t, exec (.issueAndWait cmd us) s = .next t ∧ t = { s with dtimer := 0, ret := .unit, env := t.env } ∧
      EnvStep s t 1 (ticks params us.toNat)
        [(s.env.now + ticks params us.toNat, .sequencer .idle),
         (s.env.now, .sequencer .waiting),
         (s.env.now, .exchange params.devAddr [params.ctrlReg, cmd] 0 a),
         (s.env.now, .sequencer .commandIssued)]

/-- A command write that fails ends the operation at once: no wait, no further exchange, no count, `SEQ` back to `Idle`. -/
def Obligations.FailedCommandWriteEndsTheAcquisition : Prop :=
  ∀ (s : State) (a : Answer), Quiet s → s.seq = .idle → ¬ acceptsWrite a →
    (∀ ignored, answersTo [([params.ctrlReg, params.cmdTemp], 0)] s = [a] →
      ∃ t, exec (.acquireRawTemperature ignored) s = .next t ∧
        t = { s with kind := .temperature, ret := .raised .transportError, env := t.env } ∧
        EnvStep s t 1 0 [(s.env.now, .sequencer .idle),
          (s.env.now, .exchange params.devAddr [params.ctrlReg, params.cmdTemp] 0 a), (s.env.now, .sequencer .commandIssued)]) ∧
    (∀ oss, answersTo [([params.ctrlReg, params.cmdPress oss], 0)] s = [a] →
      ∃ t, exec (.acquireRawPressure oss) s = .next t ∧
        t = { s with kind := .pressure, oss := oss, ret := .raised .transportError, env := t.env } ∧
        EnvStep s t 1 0 [(s.env.now, .sequencer .idle),
          (s.env.now, .exchange params.devAddr [params.ctrlReg, params.cmdPress oss] 0 a),
          (s.env.now, .sequencer .commandIssued)]) ∧
    (∀ cmd us, answersTo [([params.ctrlReg, cmd], 0)] s = [a] →
      ∃ t, exec (.issueAndWait cmd us) s = .next t ∧ t = { s with ret := .raised .transportError, env := t.env } ∧
        EnvStep s t 1 0 [(s.env.now, .sequencer .idle),
          (s.env.now, .exchange params.devAddr [params.ctrlReg, cmd] 0 a), (s.env.now, .sequencer .commandIssued)])

/-- A result byte that fails ends the acquisition: the count and its flag are not written, `SEQ` is `Idle` again. -/
def Obligations.FailedResultReadWritesNoCount : Prop :=
  ∀ (s t : State), Calm s → s.seq = .idle →
    (∀ ignored, exec (.acquireRawTemperature ignored) s = .next t → t.ret = .raised .transportError →
      t.seq = .idle ∧ t.ut = s.ut ∧ t.utValid = s.utValid) ∧
    (∀ oss, exec (.acquireRawPressure oss) s = .next t → t.ret = .raised .transportError →
      t.seq = .idle ∧ t.up = s.up ∧ t.upValid = s.upValid)

/-- An acquisition or `issueAndWait` while `SEQ` is not `Idle` raises `SensorBusy` and changes nothing. -/
def Obligations.SequencerBusyChangesNothing : Prop :=
  ∀ (s : State), s.seq ≠ .idle →
    (∀ ignored, exec (.acquireRawTemperature ignored) s = .next { s with ret := .raised .sensorBusy }) ∧
    (∀ oss, exec (.acquireRawPressure oss) s = .next { s with ret := .raised .sensorBusy }) ∧
    (∀ cmd us, exec (.issueAndWait cmd us) s = .next { s with ret := .raised .sensorBusy })

/-- `SEQ` moves only along its chain, in every operation, whatever the host presents and the transport answers. -/
def Obligations.SequencerFollowsItsChain : Prop :=
  ∀ (i : Instr) (s t : State), Calm s → exec i s = .next t →
    ∃ new, t.env.log = new ++ s.env.log ∧ SeqPath s.seq (sequencerOf new) t.seq

/-- Frame of the sequencer's operations, whatever is answered and presented. -/
def Obligations.SequencerFrame : Prop :=
  ∀ (s t : State), Calm s → s.seq = .idle →
    (∀ ignored, exec (.acquireRawTemperature ignored) s = .next t →
      t = { s with kind := t.kind, dtimer := t.dtimer, rbuf0 := t.rbuf0, rbuf1 := t.rbuf1, ut := t.ut,
                   utValid := t.utValid, rsp := t.rsp, ret := t.ret, env := t.env }) ∧
    (∀ oss, exec (.acquireRawPressure oss) s = .next t →
      t = { s with kind := t.kind, oss := t.oss, dtimer := t.dtimer, rbuf0 := t.rbuf0, rbuf1 := t.rbuf1,
                   rbuf2 := t.rbuf2, up := t.up, upValid := t.upValid, rsp := t.rsp, ret := t.ret, env := t.env }) ∧
    (∀ cmd us, exec (.issueAndWait cmd us) s = .next t →
      t = { s with dtimer := t.dtimer, rsp := t.rsp, ret := t.ret, env := t.env }) ∧
    (∀ us, exec (.wait us) s = .next t →
      t = { s with dtimer := 0, rsp := t.rsp, ret := t.ret, env := t.env }) ∧
    (exec .load s = .next t →
      t = { s with cal := t.cal, calValid := t.calValid, rsp := t.rsp, ret := t.ret, env := t.env })

/-! ### The compensation engine -/

/-- Steps 1 to 4: the temperature. The division of step 2 is that of `DIV_MODE` = trunc, a presumed parameter (log 8). -/
def Obligations.TemperatureSteps : Prop :=
  ∀ s : State,
    StepWrites .engineStep1 s (fun w => { s.stg with x1 := w }) 2
      (InS32 (((s.ut.toNat : Int) - s.cal.ac6.toNat) * s.cal.ac5.toNat))
      ((((s.ut.toNat : Int) - s.cal.ac6.toNat) * s.cal.ac5.toNat) / 2 ^ 15) ∧
    (InS32 (s.stg.x1.toInt + s.cal.md.toInt) → s.stg.x1.toInt + s.cal.md.toInt = 0 →
      exec .engineStep2 s = .next { s with cstep := 0, ret := .raised .compensationDomainError }) ∧
    (s.stg.x1.toInt + s.cal.md.toInt ≠ 0 →
      StepWrites .engineStep2 s (fun w => { s.stg with x2 := w }) 3
        (InS32 (s.stg.x1.toInt + s.cal.md.toInt))
        ((s.cal.mc.toInt * 2048).tdiv (s.stg.x1.toInt + s.cal.md.toInt))) ∧
    (InS32 (s.stg.x1.toInt + s.stg.x2.toInt) → ∃ w : Word, w.toInt = s.stg.x1.toInt + s.stg.x2.toInt ∧
      exec .engineStep3 s =
        .next { s with stg := { s.stg with b5 := w }, b5Valid := true, cstep := 4, ret := .unit }) ∧
    (¬ InS32 (s.stg.x1.toInt + s.stg.x2.toInt) →
      exec .engineStep3 s = .next { s with cstep := 0, ret := .raised .compensationOverflow }) ∧
    StepWrites .engineStep4 s (fun w => { s.stg with t := w }) 5
      (InS32 (s.stg.b5.toInt + 8)) ((s.stg.b5.toInt + 8) / 2 ^ 4)

/-- Steps 5 to 9: the pressure as far as `B3`. Step 5 and everything after it require `B5_VALID` = 1. The
shift of step 9 is that of `B3_SHIFT(oss)` = `oss`, a presumed parameter (log 8). -/
def Obligations.PressureStepsToB3 : Prop :=
  ∀ s : State, s.b5Valid = true →
    StepWrites .engineStep5 s (fun w => { s.stg with b6 := w }) 6
      (InS32 (s.stg.b5.toInt - 4000)) (s.stg.b5.toInt - 4000) ∧
    StepWrites .engineStep6 s (fun w => { s.stg with x1 := w }) 7
      (InS32 (s.stg.b6.toInt * s.stg.b6.toInt) ∧
        InS32 (s.cal.b2.toInt * (s.stg.b6.toInt * s.stg.b6.toInt / 2 ^ 12)))
      (s.cal.b2.toInt * (s.stg.b6.toInt * s.stg.b6.toInt / 2 ^ 12) / 2 ^ 11) ∧
    StepWrites .engineStep7 s (fun w => { s.stg with x2 := w }) 8
      (InS32 (s.cal.ac2.toInt * s.stg.b6.toInt)) (s.cal.ac2.toInt * s.stg.b6.toInt / 2 ^ 11) ∧
    StepWrites .engineStep8 s (fun w => { s.stg with x3 := w }) 9
      (InS32 (s.stg.x1.toInt + s.stg.x2.toInt)) (s.stg.x1.toInt + s.stg.x2.toInt) ∧
    StepWrites .engineStep9 s (fun w => { s.stg with b3 := w }) 10
      (InS32 (s.cal.ac1.toInt * 4 + s.stg.x3.toInt) ∧
        InS32 ((s.cal.ac1.toInt * 4 + s.stg.x3.toInt) * 2 ^ s.oss.toNat) ∧
        InS32 ((s.cal.ac1.toInt * 4 + s.stg.x3.toInt) * 2 ^ s.oss.toNat + 2))
      (((s.cal.ac1.toInt * 4 + s.stg.x3.toInt) * 2 ^ s.oss.toNat + 2) / 2 ^ 2)

/-- Steps 10 to 14: `B4` and `B7`, the two unsigned registers. That both sums of step 12 are checked is deduced (log 20). -/
def Obligations.PressureStepsToB7 : Prop :=
  ∀ s : State, s.b5Valid = true →
    StepWrites .engineStep10 s (fun w => { s.stg with x1 := w }) 11
      (InS32 (s.cal.ac3.toInt * s.stg.b6.toInt)) (s.cal.ac3.toInt * s.stg.b6.toInt / 2 ^ 13) ∧
    StepWrites .engineStep11 s (fun w => { s.stg with x2 := w }) 12
      (InS32 (s.stg.b6.toInt * s.stg.b6.toInt) ∧
        InS32 (s.cal.b1.toInt * (s.stg.b6.toInt * s.stg.b6.toInt / 2 ^ 12)))
      (s.cal.b1.toInt * (s.stg.b6.toInt * s.stg.b6.toInt / 2 ^ 12) / 2 ^ 16) ∧
    StepWrites .engineStep12 s (fun w => { s.stg with x3 := w }) 13
      (InS32 (s.stg.x1.toInt + s.stg.x2.toInt) ∧ InS32 (s.stg.x1.toInt + s.stg.x2.toInt + 2))
      ((s.stg.x1.toInt + s.stg.x2.toInt + 2) / 2 ^ 2) ∧
    StepWritesUnsigned .engineStep13 s (fun w => { s.stg with b4 := w }) 14
      (InU32 (s.stg.x3.toInt + 32768) ∧ InU32 (s.cal.ac4.toNat * (s.stg.x3.toInt + 32768)))
      (s.cal.ac4.toNat * (s.stg.x3.toInt + 32768) / 2 ^ 15) ∧
    StepWritesUnsigned .engineStep14 s (fun w => { s.stg with b7 := w }) 15
      (InU32 ((s.up.toNat : Int) - s.stg.b3.toInt) ∧
        InU32 (((s.up.toNat : Int) - s.stg.b3.toInt) * (50000 / 2 ^ s.oss.toNat)))
      (((s.up.toNat : Int) - s.stg.b3.toInt) * (50000 / 2 ^ s.oss.toNat))

/-- Steps 15 to 18: the pressure. Step 16 writes `X1` twice, and its first write stays when the second check fails. That all
sums of step 18 are checked is deduced (log 20). -/
def Obligations.PressureStepsToP : Prop :=
  ∀ s : State, s.b5Valid = true →
    (s.stg.b4 = 0 → exec .engineStep15 s = .next { s with cstep := 0, ret := .raised .compensationDomainError }) ∧
    (s.stg.b4 ≠ 0 → s.stg.b7.toNat < 0x80000000 →
      StepWrites .engineStep15 s (fun w => { s.stg with pw := w }) 16
        (InS32 (s.stg.b7.toNat * 2 / s.stg.b4.toNat)) (s.stg.b7.toNat * 2 / s.stg.b4.toNat)) ∧
    (s.stg.b4 ≠ 0 → 0x80000000 ≤ s.stg.b7.toNat →
      StepWrites .engineStep15 s (fun w => { s.stg with pw := w }) 16
        (InS32 (s.stg.b7.toNat / s.stg.b4.toNat * 2)) (s.stg.b7.toNat / s.stg.b4.toNat * 2)) ∧
    (∀ sq : Int, sq = (s.stg.pw.toInt / 2 ^ 8) * (s.stg.pw.toInt / 2 ^ 8) →
      (¬ InS32 sq → exec .engineStep16 s = .next { s with cstep := 0, ret := .raised .compensationOverflow }) ∧
      (InS32 sq → ¬ InS32 (sq * 3038) → ∃ w : Word, w.toInt = sq ∧
        exec .engineStep16 s =
          .next { s with stg := { s.stg with x1 := w }, cstep := 0, ret := .raised .compensationOverflow }) ∧
      (InS32 sq → InS32 (sq * 3038) → ∃ w : Word, w.toInt = sq * 3038 / 2 ^ 16 ∧
        exec .engineStep16 s = .next { s with stg := { s.stg with x1 := w }, cstep := 17, ret := .unit })) ∧
    StepWrites .engineStep17 s (fun w => { s.stg with x2 := w }) 18
      (InS32 (-7357 * s.stg.pw.toInt)) (-7357 * s.stg.pw.toInt / 2 ^ 16) ∧
    StepWrites .engineStep18 s (fun w => { s.stg with p := w }) 0
      (InS32 (s.stg.x1.toInt + s.stg.x2.toInt) ∧ InS32 (s.stg.x1.toInt + s.stg.x2.toInt + 3791) ∧
        InS32 (s.stg.pw.toInt + (s.stg.x1.toInt + s.stg.x2.toInt + 3791) / 2 ^ 4))
      (s.stg.pw.toInt + (s.stg.x1.toInt + s.stg.x2.toInt + 3791) / 2 ^ 4)

/-! ### The host commands -/

/-- `open` in `Closed` takes the session; while one is live it answers `SessionBusy` and disturbs nothing. -/
def Obligations.OpenTakesTheSession : Prop :=
  ∀ (u : Half) (s : State), Quiet s → s.busy = false →
    (s.owned = false → exec (.openSession u) s = .next { s with ss := .idle, owned := true, rsp := ⟨0, none, none, none⟩, env :=
      { s.env with log := (s.env.now, .response ⟨0, none, none, none⟩) :: (s.env.now, .session .idle) :: s.env.log } }) ∧
    (s.owned = true → exec (.openSession u) s = .next { s with rsp := ⟨5, none, none, none⟩, env :=
      { s.env with log := (s.env.now, .response ⟨5, none, none, none⟩) :: s.env.log } })

/-- `configure` in `Idle`, all exchanges complete: the calibration block, the two commands each with its full delay, then
`Configured`. -/
def Obligations.ConfigureLoadsAndWaits : Prop :=
  ∀ (u : Half) (s : State) (c a b : Answer) (blk : List Byte) (d e : Nat), Quiet s → s.busy = false → s.ss = .idle →
    s.seq = .idle → d = ticks params 4500 → e = ticks params (1500 + 3000 * 2 ^ params.ossSel.toNat) →
    answersTo [([params.calBase], 22), ([params.ctrlReg, params.cmdTemp], 0),
      ([params.ctrlReg, params.cmdPress params.ossSel], 0)] s = [c, a, b] →
    c = .done 1 blk → blk.length = 22 → acceptsWrite a → acceptsWrite b →
    ∃ t, exec (.configure u) s = .next t ∧
      t = { s with ss := .configured, cal := decodeCal blk, calValid := true, dtimer := 0, rsp := ⟨0, none, none, none⟩,
                   env := t.env } ∧
      EnvStep s t 3 (d + e)
        [(s.env.now + d + e, .response ⟨0, none, none, none⟩),
         (s.env.now + d + e, .session .configured),
         (s.env.now + d + e, .sequencer .idle),
         (s.env.now + d, .sequencer .waiting),
         (s.env.now + d, .exchange params.devAddr [params.ctrlReg, params.cmdPress params.ossSel] 0 b),
         (s.env.now + d, .sequencer .commandIssued),
         (s.env.now + d, .sequencer .idle),
         (s.env.now, .sequencer .waiting),
         (s.env.now, .exchange params.devAddr [params.ctrlReg, params.cmdTemp] 0 a),
         (s.env.now, .sequencer .commandIssued),
         (s.env.now, .exchange params.devAddr [params.calBase] 22 c)]

/-- `configure` in `Idle` that fails leaves the session `Idle` and the calibration not valid. -/
def Obligations.ConfigureFailureLeavesIdle : Prop :=
  ∀ (u : Half) (s t : State), Calm s → s.busy = false → s.ss = .idle → s.seq = .idle → s.calValid = false →
    exec (.configure u) s = .next t → t.rsp.err ≠ 0 →
    t.ss = .idle ∧ t.owned = s.owned ∧ t.calValid = false ∧ t.seq = .idle ∧ t.busy = false ∧
      (t.rsp = errorResponse .calibrationReadError ∧ t.cal = s.cal ∨ t.rsp = errorResponse .transportError)

/-- `reset` outside `Closed`: the soft-reset value goes to the control register; then `Idle` and no valid calibration, or,
when the write fails, nothing changes. -/
def Obligations.ResetDropsTheCalibration : Prop :=
  ∀ (u : Half) (s : State) (a : Answer), Quiet s → s.busy = false → s.ss ≠ .closed →
    answersTo [([params.ctrlReg, params.softReset], 0)] s = [a] →
    (acceptsWrite a → ∃ t, exec (.reset u) s = .next t ∧
      t = { s with ss := .idle, calValid := false, rsp := ⟨0, none, none, none⟩, env := t.env } ∧
      EnvStep s t 1 0 [(s.env.now, .response ⟨0, none, none, none⟩), (s.env.now, .session .idle),
        (s.env.now, .exchange params.devAddr [params.ctrlReg, params.softReset] 0 a)]) ∧
    (¬ acceptsWrite a → ∃ t, exec (.reset u) s = .next t ∧ t = { s with rsp := ⟨1, none, none, none⟩, env := t.env } ∧
      EnvStep s t 1 0 [(s.env.now, .response ⟨1, none, none, none⟩),
        (s.env.now, .exchange params.devAddr [params.ctrlReg, params.softReset] 0 a)])

/-- `read-register` in `Idle` or `Configured`: the byte in `DATA`, or `TransportError` and no byte. -/
def Obligations.ReadRegisterRawAnswersTheByte : Prop :=
  ∀ (addr v : Byte) (s : State) (a : Answer), Quiet s → s.busy = false → (s.ss = .idle ∨ s.ss = .configured) →
    answersTo [([addr], 1)] s = [a] →
    (∀ b, readsByte a b → ∃ t, exec (.readRegisterRaw addr v) s = .next t ∧
      t = { s with rsp := ⟨0, some b, none, none⟩, env := t.env } ∧
      EnvStep s t 1 0 [(s.env.now, .response ⟨0, some b, none, none⟩), (s.env.now, .exchange params.devAddr [addr] 1 a)]) ∧
    ((∀ b, ¬ readsByte a b) → ∃ t, exec (.readRegisterRaw addr v) s = .next t ∧
      t = { s with rsp := ⟨1, none, none, none⟩, env := t.env } ∧
      EnvStep s t 1 0 [(s.env.now, .response ⟨1, none, none, none⟩), (s.env.now, .exchange params.devAddr [addr] 1 a)])

/-- `write-register` in `Idle` or `Configured`: address and value as given, any address. -/
def Obligations.WriteRegisterRawForwardsTheValue : Prop :=
  ∀ (addr value : Byte) (s : State) (a : Answer), Quiet s → s.busy = false → (s.ss = .idle ∨ s.ss = .configured) →
    answersTo [([addr, value], 0)] s = [a] →
    (acceptsWrite a → ∃ t, exec (.writeRegisterRaw addr value) s = .next t ∧
      t = { s with rsp := ⟨0, none, none, none⟩, env := t.env } ∧
      EnvStep s t 1 0 [(s.env.now, .response ⟨0, none, none, none⟩),
        (s.env.now, .exchange params.devAddr [addr, value] 0 a)]) ∧
    (¬ acceptsWrite a → ∃ t, exec (.writeRegisterRaw addr value) s = .next t ∧
      t = { s with rsp := ⟨1, none, none, none⟩, env := t.env } ∧
      EnvStep s t 1 0 [(s.env.now, .response ⟨1, none, none, none⟩),
        (s.env.now, .exchange params.devAddr [addr, value] 0 a)])

/-- `shutdown` and `close` outside `Closed`: the power-down value goes to the control register, and the session ends even
when the write fails, which is still reported; `close` in `Closed` issues no exchange and succeeds. -/
def Obligations.ShutdownAndCloseEndTheSession : Prop :=
  ∀ (u : Half) (s : State), Quiet s → s.busy = false →
    (∀ (i : Instr) (a : Answer), s.ss ≠ .closed → (i = .shutdown u ∨ i = .closeSession u) →
      answersTo [([params.ctrlReg, params.powerDown], 0)] s = [a] →
      ∃ t r, exec i s = .next t ∧ (acceptsWrite a → r = ⟨0, none, none, none⟩) ∧ (¬ acceptsWrite a → r = ⟨1, none, none, none⟩) ∧
        t = { s with ss := .closed, owned := false, calValid := false, rsp := r, env := t.env } ∧
        EnvStep s t 1 0 [(s.env.now, .response r), (s.env.now, .session .closed),
          (s.env.now, .exchange params.devAddr [params.ctrlReg, params.powerDown] 0 a), (s.env.now, .session .shuttingDown)]) ∧
    (s.ss = .closed → ∃ t, exec (.closeSession u) s = .next t ∧
      t = { s with owned := false, calValid := false, rsp := ⟨0, none, none, none⟩, env := t.env } ∧
      EnvStep s t 0 0 [(s.env.now, .response ⟨0, none, none, none⟩), (s.env.now, .session .closed)])

/-- A command whose `OP` is 0 or 9 to 255 is answered `InvalidCommand` in every session state, changes no state and starts
no exchange. -/
def Obligations.InvalidCommandChangesNothing : Prop :=
  (∀ (op : Byte) (u : Half) (s : State), Quiet s → s.busy = false →
    exec (.invalid op u) s = .next { s with rsp := ⟨2, none, none, none⟩, env :=
      { s.env with log := (s.env.now, .response ⟨2, none, none, none⟩) :: s.env.log } }) ∧
  (∀ op addr value : Byte, op.toNat = 0 ∨ 9 ≤ op.toNat → ∃ u, decodeWord (be24 op addr value) = .invalid op u)

/-- A command in a session state that does not allow it is answered `InvalidStateTransition`, before any exchange and with
no change of state; `open` and `close` never are. -/
def Obligations.WrongStateIsRefusedBeforeAnyExchange : Prop :=
  (∀ (i : Instr) (s : State), Quiet s → s.busy = false →
    (∃ (u : Half) (addr value : Byte),
      (i = .configure u ∧ s.ss ≠ .idle) ∨ (i = .reset u ∧ s.ss = .closed) ∨ (i = .shutdown u ∧ s.ss = .closed) ∨
      (i = .readRegisterRaw addr value ∧ s.ss = .closed) ∨ (i = .writeRegisterRaw addr value ∧ s.ss = .closed) ∨
      (i = .readCompensated u ∧ s.ss ≠ .configured)) →
    exec i s = .next { s with rsp := ⟨4, none, none, none⟩, env :=
      { s.env with log := (s.env.now, .response ⟨4, none, none, none⟩) :: s.env.log } }) ∧
  (∀ (u : Half) (s t : State), Calm s → s.busy = false →
    (exec (.openSession u) s = .next t ∨ exec (.closeSession u) s = .next t) → t.rsp.err ≠ 4)

/-- `read` in `Configured`, all seven exchanges complete: temperature first, then pressure, each with its command and its
full delay; the answer is the pair that the compensation of `(UT, UP, OSS, CAL)` gives, or its error and no pair; the
session, the coefficients and the flags are as before. -/
def Obligations.ReadAnswersTheCompensatedPair : Prop :=
  ∀ (u : Half) (s : State) (a m' l' b m2' l2' x2' : Answer) (m l m2 l2 x2 : Byte) (d e : Nat) (r : Response),
    Quiet s → s.busy = false → s.ss = .configured → s.calValid = true → s.seq = .idle →
    d = ticks params 4500 → e = ticks params (1500 + 3000 * 2 ^ params.ossSel.toNat) →
    answersTo [([params.ctrlReg, params.cmdTemp], 0), ([params.resultReg], 1), ([params.resultReg + 1], 1),
      ([params.ctrlReg, params.cmdPress params.ossSel], 0), ([params.resultReg], 1), ([params.resultReg + 1], 1),
      ([params.resultReg + 2], 1)] s = [a, m', l', b, m2', l2', x2'] →
    acceptsWrite a → readsByte m' m → readsByte l' l → acceptsWrite b → readsByte m2' m2 → readsByte l2' l2 →
    readsByte x2' x2 →
    r = compensatedResponse (compensate params s.cal (m.toNat * 256 + l.toNat)
      ((m2.toNat * 65536 + l2.toNat * 256 + x2.toNat) / 2 ^ (8 - params.ossSel.toNat)) params.ossSel) →
    ∃ t, exec (.readCompensated u) s = .next t ∧
      t = { s with kind := .pressure, oss := params.ossSel, dtimer := 0, rbuf0 := m2, rbuf1 := l2, rbuf2 := x2,
                   ut := t.ut, utValid := false, up := t.up, upValid := false, stg := t.stg, b5Valid := false, cstep := 0,
                   rsp := r, env := t.env } ∧
      EnvStep s t 7 (d + e)
        [(s.env.now + d + e, .response r),
         (s.env.now + d + e, .sequencer .idle),
         (s.env.now + d + e, .exchange params.devAddr [params.resultReg + 2] 1 x2'),
         (s.env.now + d + e, .exchange params.devAddr [params.resultReg + 1] 1 l2'),
         (s.env.now + d + e, .exchange params.devAddr [params.resultReg] 1 m2'),
         (s.env.now + d + e, .sequencer .resultReady),
         (s.env.now + d, .sequencer .waiting),
         (s.env.now + d, .exchange params.devAddr [params.ctrlReg, params.cmdPress params.ossSel] 0 b),
         (s.env.now + d, .sequencer .commandIssued),
         (s.env.now + d, .sequencer .idle),
         (s.env.now + d, .exchange params.devAddr [params.resultReg + 1] 1 l'),
         (s.env.now + d, .exchange params.devAddr [params.resultReg] 1 m'),
         (s.env.now + d, .sequencer .resultReady),
         (s.env.now, .sequencer .waiting),
         (s.env.now, .exchange params.devAddr [params.ctrlReg, params.cmdTemp] 0 a),
         (s.env.now, .sequencer .commandIssued)]

/-- A `read` that ends with an error, whichever it is, leaves the session, the coefficients and their validity as they were
and no count, no `B5` and no pair behind. -/
def Obligations.FailedReadLeavesTheSession : Prop :=
  ∀ (u : Half) (s t : State), Calm s → s.busy = false → s.seq = .idle → s.ss = .configured → s.calValid = true →
    exec (.readCompensated u) s = .next t → t.rsp.err ≠ 0 →
    t.ss = .configured ∧ t.owned = s.owned ∧ t.cal = s.cal ∧ t.calValid = true ∧ t.seq = .idle ∧ t.busy = false ∧
      t.utValid = false ∧ t.upValid = false ∧ t.b5Valid = false ∧ t.rsp.t = none ∧ t.rsp.p = none ∧
      (t.rsp = errorResponse .transportError ∨ t.rsp = errorResponse .compensationDomainError ∨
        t.rsp = errorResponse .compensationOverflow)

/-- A command word presented while `BUSY` = 1: under `block` it stays pending, under `reject` it is answered `SensorBusy`;
under either nothing else changes and no exchange is started. It is presented at a moment of the operation in flight, as
the second clause says of every moment outside a wait and the third of every moment of a wait, after which what else the world
outside does at this moment follows; the fourth says it of one word at any tick of a wait, the fifth of one at the moment before
a command's response, and the last of any number of them there, after a lapse of time. That `exec` of a command at `BUSY` = 1 is the same presenting is the model's choice (log 28), and no step
takes that road. That the refusal is written to `RSP` is deduced (log 13). -/
def Obligations.BusyPortFollowsThePolicy : Prop :=
  (∀ (i : Instr) (s : State), isCommand i = true → s.busy = true →
    exec i s = .next (match params.busyPolicy with
      | .block => { s with env := { s.env with port := s.env.port ++ [(encode i).toWord] } }
      | .reject => { s with rsp := ⟨6, none, none, none⟩, env :=
          { s.env with log := (s.env.now, .response ⟨6, none, none, none⟩) :: s.env.log } })) ∧
  (∀ (φ : Type) (cw : CmdWord) (rest : List HostAct) (s : State), s.busy = true → s.env.sched = .present cw :: rest →
    (moment params : Op φ Unit) s = (moment params : Op φ Unit) (match params.busyPolicy with
      | .block => { s with env := { s.env with sched := rest, port := s.env.port ++ [cw] } }
      | .reject => { s with rsp := ⟨6, none, none, none⟩, env :=
          { s.env with sched := rest, log := (s.env.now, .response ⟨6, none, none, none⟩) :: s.env.log } })) ∧
  (∀ (φ : Type) (cw : CmdWord) (rest : List HostAct) (s : State), s.busy = true → s.env.sched = .present cw :: rest →
    (waitMoment params : Op φ Unit) s = (waitMoment params : Op φ Unit) (match params.busyPolicy with
      | .block => { s with env := { s.env with sched := rest, port := s.env.port ++ [cw] } }
      | .reject => { s with rsp := ⟨6, none, none, none⟩, env :=
          { s.env with sched := rest, log := (s.env.now, .response ⟨6, none, none, none⟩) :: s.env.log } })) ∧
  (∀ (us : Half) (j : Nat) (cw : CmdWord) (s : State), j < ticks params us.toNat → s.busy = true →
    s.env.sched = List.replicate j .quiet ++ [.present cw] →
    ∃ t, exec (.wait us) s = .next t ∧ t = { s with dtimer := 0, ret := .unit, rsp := t.rsp, env := t.env } ∧
      t.env.now = s.env.now + ticks params us.toNat ∧ t.env.sched = [] ∧
      match params.busyPolicy with
      | .block => t.rsp = s.rsp ∧ t.env.port = s.env.port ++ [cw] ∧ t.env.log = s.env.log
      | .reject => t.rsp = ⟨6, none, none, none⟩ ∧ t.env.port = s.env.port ∧
          t.env.log = (s.env.now + j, .response ⟨6, none, none, none⟩) :: s.env.log) ∧
  (∀ (op : Byte) (u : Half) (cw : CmdWord) (s : State), s.busy = false → s.env.sched = [.present cw] →
    ∃ t, exec (.invalid op u) s = .next t ∧ t = { s with rsp := ⟨2, none, none, none⟩, env := t.env } ∧
      match params.busyPolicy with
      | .block => t.env.port = s.env.port ++ [cw] ∧ t.env.log = (s.env.now, .response ⟨2, none, none, none⟩) :: s.env.log
      | .reject => t.env.port = s.env.port ∧
          t.env.log = (s.env.now, .response ⟨2, none, none, none⟩) :: (s.env.now, .response ⟨6, none, none, none⟩) ::
            s.env.log) ∧
  (∀ (op : Byte) (u : Half) (n : Nat) (words : List CmdWord) (s : State), s.busy = false →
    s.env.sched = .elapse n :: words.map .present →
    ∃ t, exec (.invalid op u) s = .next t ∧ t = { s with rsp := ⟨2, none, none, none⟩, env := t.env } ∧
      t.env.now = s.env.now + n ∧ t.env.sched = [] ∧
      match params.busyPolicy with
      | .block => t.env.port = s.env.port ++ words ∧
          t.env.log = (s.env.now + n, .response ⟨2, none, none, none⟩) :: s.env.log
      | .reject => t.env.port = s.env.port ∧
          t.env.log = (s.env.now + n, .response ⟨2, none, none, none⟩) ::
            (List.replicate words.length (s.env.now + n, .response ⟨6, none, none, none⟩) ++ s.env.log))

/-- An accepted command that no hardware reset drops answers exactly once, as its last act: the newest entry of the trace is its
response, at the time it ends. What else is answered meanwhile are the words refused at the port under `reject` (log 13). -/
def Obligations.EveryCommandRespondsOnce : Prop :=
  ∀ (i : Instr) (s t : State), isCommand i = true → Calm s → s.busy = false → exec i s = .next t →
    t.busy = false ∧ ∃ before, t.env.log = (t.env.now, .response t.rsp) :: (before ++ s.env.log) ∧
      (∀ r ∈ responsesOf before, r = errorResponse .sensorBusy) ∧
      (params.busyPolicy = .block → responsesOf before = [])

/-- An error response carries nothing but its code, the codes are those of the error kinds, and 3 is never produced. -/
def Obligations.ErrorResponsesCarryNoData : Prop :=
  ∀ (i : Instr) (s t : State), isCommand i = true → Calm s → s.busy = false → exec i s = .next t →
    t.rsp.err.toNat ≤ 9 ∧ t.rsp.err ≠ 3 ∧
      (t.rsp.err ≠ 0 → t.rsp.data = none ∧ t.rsp.t = none ∧ t.rsp.p = none) ∧
      (t.rsp.data ≠ none → ∃ addr u, i = .readRegisterRaw addr u) ∧
      (t.rsp.t ≠ none ∨ t.rsp.p ≠ none → ∃ u, i = .readCompensated u)

/-- `SS` moves only along its chain. -/
def Obligations.SessionFollowsItsChain : Prop :=
  ∀ (i : Instr) (s t : State), Inv s → Calm s → exec i s = .next t →
    ∃ new, t.env.log = new ++ s.env.log ∧ SessionPath s.ss (sessionOf new) t.ss

/-- Frame of the host commands: the registers each may write. -/
def Obligations.CommandFrames : Prop :=
  ∀ (s t : State), Calm s → s.busy = false →
    (∀ u, exec (.openSession u) s = .next t →
      t = { s with ss := t.ss, owned := t.owned, rsp := t.rsp, env := t.env }) ∧
    (∀ u, s.seq = .idle → exec (.configure u) s = .next t →
      t = { s with ss := t.ss, cal := t.cal, calValid := t.calValid, dtimer := t.dtimer, rsp := t.rsp, env := t.env }) ∧
    (∀ u, exec (.reset u) s = .next t →
      t = { s with ss := t.ss, calValid := t.calValid, rsp := t.rsp, env := t.env }) ∧
    (∀ u, exec (.shutdown u) s = .next t →
      t = { s with ss := t.ss, owned := t.owned, calValid := t.calValid, rsp := t.rsp, env := t.env }) ∧
    (∀ u, exec (.closeSession u) s = .next t →
      t = { s with ss := t.ss, owned := t.owned, calValid := t.calValid, rsp := t.rsp, env := t.env }) ∧
    (∀ addr u, exec (.readRegisterRaw addr u) s = .next t → t = { s with rsp := t.rsp, env := t.env }) ∧
    (∀ addr value, exec (.writeRegisterRaw addr value) s = .next t → t = { s with rsp := t.rsp, env := t.env }) ∧
    (∀ op u, exec (.invalid op u) s = .next t → t = { s with rsp := t.rsp, env := t.env }) ∧
    (∀ u, s.seq = .idle → exec (.readCompensated u) s = .next t →
      t = { s with kind := t.kind, oss := t.oss, dtimer := t.dtimer, rbuf0 := t.rbuf0, rbuf1 := t.rbuf1,
                   rbuf2 := t.rbuf2, ut := t.ut, utValid := t.utValid, up := t.up, upValid := t.upValid, stg := t.stg,
                   b5Valid := t.b5Valid, cstep := t.cstep, rsp := t.rsp, env := t.env })

/-- `close` and then `open` bring the block to a fresh session from every state, whatever the power-down write answers. -/
def Obligations.CloseThenOpenRecovers : Prop :=
  ∀ (u v : Half) (s : State), Quiet s → s.busy = false →
    ∃ t t', exec (.closeSession u) s = .next t ∧ exec (.openSession v) t = .next t' ∧
      t'.ss = .idle ∧ t'.owned = true ∧ t'.calValid = false ∧ t'.busy = false ∧ t'.rsp = ⟨0, none, none, none⟩

/-! ### The bus and the hazards -/

/-- Every exchange of every host command is one of the three shapes, to the one device, with an answer of the shape that fits. -/
def Obligations.CommandsUseThreeAccessShapes : Prop :=
  ∀ (i : Instr) (s t : State), isCommand i = true → Calm s → exec i s = .next t →
    ∃ new, t.env.log = new ++ s.env.log ∧ ∀ x ∈ exchangesOf new, isAccess params x ∧ HasShape x.2.1 x.2.2.1 x.2.2.2

/-- No control-register write of a host command falls inside a conversion the block started: from a state with no
conversion in progress, when no write fails and the command is no raw write to the control register, none does; and none is
in progress afterwards unless hardware reset came, or the power-down byte of `shutdown` and `close`, an open parameter, is a
conversion command as well. What the sensor's record takes for a conversion, and for the end of one, is the model's choice (log
16, 35). -/
def Obligations.NoWriteInsideAConversion : Prop :=
  ∀ (i : Instr) (s t : State) (new : List (Nat × Event)), isCommand i = true →
    (∀ value, i ≠ .writeRegisterRaw params.ctrlReg value) → s.busy = false → s.seq = .idle → s.env.sensor.left = 0 →
    exec i s = .next t → t.env.log = new ++ s.env.log → (∀ x ∈ exchangesOf new, isFullWrite x) →
    t.env.sensor.midWrite = s.env.sensor.midWrite ∧
      (Calm s → (PowerDownIsNoCommand ∨ ∀ u, i ≠ .shutdown u ∧ i ≠ .closeSession u) → t.env.sensor.left = 0)

/-- What a host command answers and does on the bus does not depend on the registers that hold no value after reset: two
states that agree on the control state, on the coefficients while they are valid and on what the world outside does give
the same responses, the same trace and again such states. -/
def Obligations.StaleRegistersAreNeverRead : Prop :=
  ∀ (i : Instr) (s s' : State), isCommand i = true → Inv s → Inv s' →
    s'.ss = s.ss → (s.calValid = true → s'.cal = s.cal) → s'.env = s.env → s'.rsp = s.rsp →
    ∃ t t', exec i s = .next t ∧ exec i s' = .next t' ∧ Inv t ∧ Inv t' ∧
      t'.ss = t.ss ∧ (t.calValid = true → t'.cal = t.cal) ∧ t'.env = t.env ∧ t'.rsp = t.rsp
end

