-- ==== Sys2Proof/Laws/State.lean ====
section
/-!
SUPPORT. One lemma per field per named update of the state, each true by definition, so that no later proof unfolds a
record update.
-/

namespace Sys2Proof.Machine

section
variable (e : Event) (s : State)
@[simp] theorem record_ss : (record e s).ss = s.ss := rfl
@[simp] theorem record_owned : (record e s).owned = s.owned := rfl
@[simp] theorem record_busy : (record e s).busy = s.busy := rfl
@[simp] theorem record_seq : (record e s).seq = s.seq := rfl
@[simp] theorem record_kind : (record e s).kind = s.kind := rfl
@[simp] theorem record_oss : (record e s).oss = s.oss := rfl
@[simp] theorem record_dtimer : (record e s).dtimer = s.dtimer := rfl
@[simp] theorem record_cal : (record e s).cal = s.cal := rfl
@[simp] theorem record_calValid : (record e s).calValid = s.calValid := rfl
@[simp] theorem record_rbuf0 : (record e s).rbuf0 = s.rbuf0 := rfl
@[simp] theorem record_rbuf1 : (record e s).rbuf1 = s.rbuf1 := rfl
@[simp] theorem record_rbuf2 : (record e s).rbuf2 = s.rbuf2 := rfl
@[simp] theorem record_ut : (record e s).ut = s.ut := rfl
@[simp] theorem record_utValid : (record e s).utValid = s.utValid := rfl
@[simp] theorem record_up : (record e s).up = s.up := rfl
@[simp] theorem record_upValid : (record e s).upValid = s.upValid := rfl
@[simp] theorem record_stg : (record e s).stg = s.stg := rfl
@[simp] theorem record_b5Valid : (record e s).b5Valid = s.b5Valid := rfl
@[simp] theorem record_cstep : (record e s).cstep = s.cstep := rfl
@[simp] theorem record_rsp : (record e s).rsp = s.rsp := rfl
@[simp] theorem record_ret : (record e s).ret = s.ret := rfl
@[simp] theorem record_port : (record e s).env.port = s.env.port := rfl
@[simp] theorem record_todo : (record e s).env.todo = s.env.todo := rfl
@[simp] theorem record_sched : (record e s).env.sched = s.env.sched := rfl
@[simp] theorem record_script : (record e s).env.script = s.env.script := rfl
@[simp] theorem record_fresh : (record e s).env.fresh = s.env.fresh := rfl
@[simp] theorem record_now : (record e s).env.now = s.env.now := rfl
@[simp] theorem record_sensor : (record e s).env.sensor = s.env.sensor := rfl
@[simp] theorem record_log : (record e s).env.log = (s.env.now, e) :: s.env.log := rfl
end

section
variable (x : SessionState) (s : State)
@[simp] theorem setSession_ss : (setSession x s).ss = x := rfl
@[simp] theorem setSession_owned : (setSession x s).owned = s.owned := rfl
@[simp] theorem setSession_busy : (setSession x s).busy = s.busy := rfl
@[simp] theorem setSession_seq : (setSession x s).seq = s.seq := rfl
@[simp] theorem setSession_kind : (setSession x s).kind = s.kind := rfl
@[simp] theorem setSession_oss : (setSession x s).oss = s.oss := rfl
@[simp] theorem setSession_dtimer : (setSession x s).dtimer = s.dtimer := rfl
@[simp] theorem setSession_cal : (setSession x s).cal = s.cal := rfl
@[simp] theorem setSession_calValid : (setSession x s).calValid = s.calValid := rfl
@[simp] theorem setSession_rbuf0 : (setSession x s).rbuf0 = s.rbuf0 := rfl
@[simp] theorem setSession_rbuf1 : (setSession x s).rbuf1 = s.rbuf1 := rfl
@[simp] theorem setSession_rbuf2 : (setSession x s).rbuf2 = s.rbuf2 := rfl
@[simp] theorem setSession_ut : (setSession x s).ut = s.ut := rfl
@[simp] theorem setSession_utValid : (setSession x s).utValid = s.utValid := rfl
@[simp] theorem setSession_up : (setSession x s).up = s.up := rfl
@[simp] theorem setSession_upValid : (setSession x s).upValid = s.upValid := rfl
@[simp] theorem setSession_stg : (setSession x s).stg = s.stg := rfl
@[simp] theorem setSession_b5Valid : (setSession x s).b5Valid = s.b5Valid := rfl
@[simp] theorem setSession_cstep : (setSession x s).cstep = s.cstep := rfl
@[simp] theorem setSession_rsp : (setSession x s).rsp = s.rsp := rfl
@[simp] theorem setSession_ret : (setSession x s).ret = s.ret := rfl
@[simp] theorem setSession_port : (setSession x s).env.port = s.env.port := rfl
@[simp] theorem setSession_todo : (setSession x s).env.todo = s.env.todo := rfl
@[simp] theorem setSession_sched : (setSession x s).env.sched = s.env.sched := rfl
@[simp] theorem setSession_script : (setSession x s).env.script = s.env.script := rfl
@[simp] theorem setSession_fresh : (setSession x s).env.fresh = s.env.fresh := rfl
@[simp] theorem setSession_now : (setSession x s).env.now = s.env.now := rfl
@[simp] theorem setSession_sensor : (setSession x s).env.sensor = s.env.sensor := rfl
@[simp] theorem setSession_log : (setSession x s).env.log = (s.env.now, .session x) :: s.env.log := rfl
end

section
variable (x : SeqState) (s : State)
@[simp] theorem setSequencer_ss : (setSequencer x s).ss = s.ss := rfl
@[simp] theorem setSequencer_owned : (setSequencer x s).owned = s.owned := rfl
@[simp] theorem setSequencer_busy : (setSequencer x s).busy = s.busy := rfl
@[simp] theorem setSequencer_seq : (setSequencer x s).seq = x := rfl
@[simp] theorem setSequencer_kind : (setSequencer x s).kind = s.kind := rfl
@[simp] theorem setSequencer_oss : (setSequencer x s).oss = s.oss := rfl
@[simp] theorem setSequencer_dtimer : (setSequencer x s).dtimer = s.dtimer := rfl
@[simp] theorem setSequencer_cal : (setSequencer x s).cal = s.cal := rfl
@[simp] theorem setSequencer_calValid : (setSequencer x s).calValid = s.calValid := rfl
@[simp] theorem setSequencer_rbuf0 : (setSequencer x s).rbuf0 = s.rbuf0 := rfl
@[simp] theorem setSequencer_rbuf1 : (setSequencer x s).rbuf1 = s.rbuf1 := rfl
@[simp] theorem setSequencer_rbuf2 : (setSequencer x s).rbuf2 = s.rbuf2 := rfl
@[simp] theorem setSequencer_ut : (setSequencer x s).ut = s.ut := rfl
@[simp] theorem setSequencer_utValid : (setSequencer x s).utValid = s.utValid := rfl
@[simp] theorem setSequencer_up : (setSequencer x s).up = s.up := rfl
@[simp] theorem setSequencer_upValid : (setSequencer x s).upValid = s.upValid := rfl
@[simp] theorem setSequencer_stg : (setSequencer x s).stg = s.stg := rfl
@[simp] theorem setSequencer_b5Valid : (setSequencer x s).b5Valid = s.b5Valid := rfl
@[simp] theorem setSequencer_cstep : (setSequencer x s).cstep = s.cstep := rfl
@[simp] theorem setSequencer_rsp : (setSequencer x s).rsp = s.rsp := rfl
@[simp] theorem setSequencer_ret : (setSequencer x s).ret = s.ret := rfl
@[simp] theorem setSequencer_port : (setSequencer x s).env.port = s.env.port := rfl
@[simp] theorem setSequencer_todo : (setSequencer x s).env.todo = s.env.todo := rfl
@[simp] theorem setSequencer_sched : (setSequencer x s).env.sched = s.env.sched := rfl
@[simp] theorem setSequencer_script : (setSequencer x s).env.script = s.env.script := rfl
@[simp] theorem setSequencer_fresh : (setSequencer x s).env.fresh = s.env.fresh := rfl
@[simp] theorem setSequencer_now : (setSequencer x s).env.now = s.env.now := rfl
@[simp] theorem setSequencer_sensor : (setSequencer x s).env.sensor = s.env.sensor := rfl
@[simp] theorem setSequencer_log : (setSequencer x s).env.log = (s.env.now, .sequencer x) :: s.env.log := rfl
end

section
variable (r : Response) (s : State)
@[simp] theorem respond_ss : (respond r s).ss = s.ss := rfl
@[simp] theorem respond_owned : (respond r s).owned = s.owned := rfl
@[simp] theorem respond_busy : (respond r s).busy = s.busy := rfl
@[simp] theorem respond_seq : (respond r s).seq = s.seq := rfl
@[simp] theorem respond_kind : (respond r s).kind = s.kind := rfl
@[simp] theorem respond_oss : (respond r s).oss = s.oss := rfl
@[simp] theorem respond_dtimer : (respond r s).dtimer = s.dtimer := rfl
@[simp] theorem respond_cal : (respond r s).cal = s.cal := rfl
@[simp] theorem respond_calValid : (respond r s).calValid = s.calValid := rfl
@[simp] theorem respond_rbuf0 : (respond r s).rbuf0 = s.rbuf0 := rfl
@[simp] theorem respond_rbuf1 : (respond r s).rbuf1 = s.rbuf1 := rfl
@[simp] theorem respond_rbuf2 : (respond r s).rbuf2 = s.rbuf2 := rfl
@[simp] theorem respond_ut : (respond r s).ut = s.ut := rfl
@[simp] theorem respond_utValid : (respond r s).utValid = s.utValid := rfl
@[simp] theorem respond_up : (respond r s).up = s.up := rfl
@[simp] theorem respond_upValid : (respond r s).upValid = s.upValid := rfl
@[simp] theorem respond_stg : (respond r s).stg = s.stg := rfl
@[simp] theorem respond_b5Valid : (respond r s).b5Valid = s.b5Valid := rfl
@[simp] theorem respond_cstep : (respond r s).cstep = s.cstep := rfl
@[simp] theorem respond_rsp : (respond r s).rsp = r := rfl
@[simp] theorem respond_ret : (respond r s).ret = s.ret := rfl
@[simp] theorem respond_port : (respond r s).env.port = s.env.port := rfl
@[simp] theorem respond_todo : (respond r s).env.todo = s.env.todo := rfl
@[simp] theorem respond_sched : (respond r s).env.sched = s.env.sched := rfl
@[simp] theorem respond_script : (respond r s).env.script = s.env.script := rfl
@[simp] theorem respond_fresh : (respond r s).env.fresh = s.env.fresh := rfl
@[simp] theorem respond_now : (respond r s).env.now = s.env.now := rfl
@[simp] theorem respond_sensor : (respond r s).env.sensor = s.env.sensor := rfl
@[simp] theorem respond_log : (respond r s).env.log = (s.env.now, .response r) :: s.env.log := rfl
end

section
variable (b : Bool) (s : State)
@[simp] theorem setBusy_ss : (setBusy b s).ss = s.ss := rfl
@[simp] theorem setBusy_owned : (setBusy b s).owned = s.owned := rfl
@[simp] theorem setBusy_busy : (setBusy b s).busy = b := rfl
@[simp] theorem setBusy_seq : (setBusy b s).seq = s.seq := rfl
@[simp] theorem setBusy_kind : (setBusy b s).kind = s.kind := rfl
@[simp] theorem setBusy_oss : (setBusy b s).oss = s.oss := rfl
@[simp] theorem setBusy_dtimer : (setBusy b s).dtimer = s.dtimer := rfl
@[simp] theorem setBusy_cal : (setBusy b s).cal = s.cal := rfl
@[simp] theorem setBusy_calValid : (setBusy b s).calValid = s.calValid := rfl
@[simp] theorem setBusy_rbuf0 : (setBusy b s).rbuf0 = s.rbuf0 := rfl
@[simp] theorem setBusy_rbuf1 : (setBusy b s).rbuf1 = s.rbuf1 := rfl
@[simp] theorem setBusy_rbuf2 : (setBusy b s).rbuf2 = s.rbuf2 := rfl
@[simp] theorem setBusy_ut : (setBusy b s).ut = s.ut := rfl
@[simp] theorem setBusy_utValid : (setBusy b s).utValid = s.utValid := rfl
@[simp] theorem setBusy_up : (setBusy b s).up = s.up := rfl
@[simp] theorem setBusy_upValid : (setBusy b s).upValid = s.upValid := rfl
@[simp] theorem setBusy_stg : (setBusy b s).stg = s.stg := rfl
@[simp] theorem setBusy_b5Valid : (setBusy b s).b5Valid = s.b5Valid := rfl
@[simp] theorem setBusy_cstep : (setBusy b s).cstep = s.cstep := rfl
@[simp] theorem setBusy_rsp : (setBusy b s).rsp = s.rsp := rfl
@[simp] theorem setBusy_ret : (setBusy b s).ret = s.ret := rfl
@[simp] theorem setBusy_port : (setBusy b s).env.port = s.env.port := rfl
@[simp] theorem setBusy_todo : (setBusy b s).env.todo = s.env.todo := rfl
@[simp] theorem setBusy_sched : (setBusy b s).env.sched = s.env.sched := rfl
@[simp] theorem setBusy_script : (setBusy b s).env.script = s.env.script := rfl
@[simp] theorem setBusy_fresh : (setBusy b s).env.fresh = s.env.fresh := rfl
@[simp] theorem setBusy_now : (setBusy b s).env.now = s.env.now := rfl
@[simp] theorem setBusy_sensor : (setBusy b s).env.sensor = s.env.sensor := rfl
@[simp] theorem setBusy_log : (setBusy b s).env.log = s.env.log := rfl
end

section
variable (n : Nat) (s : State)
@[simp] theorem setTimer_ss : (setTimer n s).ss = s.ss := rfl
@[simp] theorem setTimer_owned : (setTimer n s).owned = s.owned := rfl
@[simp] theorem setTimer_busy : (setTimer n s).busy = s.busy := rfl
@[simp] theorem setTimer_seq : (setTimer n s).seq = s.seq := rfl
@[simp] theorem setTimer_kind : (setTimer n s).kind = s.kind := rfl
@[simp] theorem setTimer_oss : (setTimer n s).oss = s.oss := rfl
@[simp] theorem setTimer_dtimer : (setTimer n s).dtimer = n := rfl
@[simp] theorem setTimer_cal : (setTimer n s).cal = s.cal := rfl
@[simp] theorem setTimer_calValid : (setTimer n s).calValid = s.calValid := rfl
@[simp] theorem setTimer_rbuf0 : (setTimer n s).rbuf0 = s.rbuf0 := rfl
@[simp] theorem setTimer_rbuf1 : (setTimer n s).rbuf1 = s.rbuf1 := rfl
@[simp] theorem setTimer_rbuf2 : (setTimer n s).rbuf2 = s.rbuf2 := rfl
@[simp] theorem setTimer_ut : (setTimer n s).ut = s.ut := rfl
@[simp] theorem setTimer_utValid : (setTimer n s).utValid = s.utValid := rfl
@[simp] theorem setTimer_up : (setTimer n s).up = s.up := rfl
@[simp] theorem setTimer_upValid : (setTimer n s).upValid = s.upValid := rfl
@[simp] theorem setTimer_stg : (setTimer n s).stg = s.stg := rfl
@[simp] theorem setTimer_b5Valid : (setTimer n s).b5Valid = s.b5Valid := rfl
@[simp] theorem setTimer_cstep : (setTimer n s).cstep = s.cstep := rfl
@[simp] theorem setTimer_rsp : (setTimer n s).rsp = s.rsp := rfl
@[simp] theorem setTimer_ret : (setTimer n s).ret = s.ret := rfl
@[simp] theorem setTimer_port : (setTimer n s).env.port = s.env.port := rfl
@[simp] theorem setTimer_todo : (setTimer n s).env.todo = s.env.todo := rfl
@[simp] theorem setTimer_sched : (setTimer n s).env.sched = s.env.sched := rfl
@[simp] theorem setTimer_script : (setTimer n s).env.script = s.env.script := rfl
@[simp] theorem setTimer_fresh : (setTimer n s).env.fresh = s.env.fresh := rfl
@[simp] theorem setTimer_now : (setTimer n s).env.now = s.env.now := rfl
@[simp] theorem setTimer_sensor : (setTimer n s).env.sensor = s.env.sensor := rfl
@[simp] theorem setTimer_log : (setTimer n s).env.log = s.env.log := rfl
end

section
variable (r : OpResult) (s : State)
@[simp] theorem putRet_ss : (putRet r s).ss = s.ss := rfl
@[simp] theorem putRet_owned : (putRet r s).owned = s.owned := rfl
@[simp] theorem putRet_busy : (putRet r s).busy = s.busy := rfl
@[simp] theorem putRet_seq : (putRet r s).seq = s.seq := rfl
@[simp] theorem putRet_kind : (putRet r s).kind = s.kind := rfl
@[simp] theorem putRet_oss : (putRet r s).oss = s.oss := rfl
@[simp] theorem putRet_dtimer : (putRet r s).dtimer = s.dtimer := rfl
@[simp] theorem putRet_cal : (putRet r s).cal = s.cal := rfl
@[simp] theorem putRet_calValid : (putRet r s).calValid = s.calValid := rfl
@[simp] theorem putRet_rbuf0 : (putRet r s).rbuf0 = s.rbuf0 := rfl
@[simp] theorem putRet_rbuf1 : (putRet r s).rbuf1 = s.rbuf1 := rfl
@[simp] theorem putRet_rbuf2 : (putRet r s).rbuf2 = s.rbuf2 := rfl
@[simp] theorem putRet_ut : (putRet r s).ut = s.ut := rfl
@[simp] theorem putRet_utValid : (putRet r s).utValid = s.utValid := rfl
@[simp] theorem putRet_up : (putRet r s).up = s.up := rfl
@[simp] theorem putRet_upValid : (putRet r s).upValid = s.upValid := rfl
@[simp] theorem putRet_stg : (putRet r s).stg = s.stg := rfl
@[simp] theorem putRet_b5Valid : (putRet r s).b5Valid = s.b5Valid := rfl
@[simp] theorem putRet_cstep : (putRet r s).cstep = s.cstep := rfl
@[simp] theorem putRet_rsp : (putRet r s).rsp = s.rsp := rfl
@[simp] theorem putRet_ret : (putRet r s).ret = r := rfl
@[simp] theorem putRet_port : (putRet r s).env.port = s.env.port := rfl
@[simp] theorem putRet_todo : (putRet r s).env.todo = s.env.todo := rfl
@[simp] theorem putRet_sched : (putRet r s).env.sched = s.env.sched := rfl
@[simp] theorem putRet_script : (putRet r s).env.script = s.env.script := rfl
@[simp] theorem putRet_fresh : (putRet r s).env.fresh = s.env.fresh := rfl
@[simp] theorem putRet_now : (putRet r s).env.now = s.env.now := rfl
@[simp] theorem putRet_sensor : (putRet r s).env.sensor = s.env.sensor := rfl
@[simp] theorem putRet_log : (putRet r s).env.log = s.env.log := rfl
end

section
variable (n : Nat) (s : State)
@[simp] theorem elapse_ss : (elapse n s).ss = s.ss := rfl
@[simp] theorem elapse_owned : (elapse n s).owned = s.owned := rfl
@[simp] theorem elapse_busy : (elapse n s).busy = s.busy := rfl
@[simp] theorem elapse_seq : (elapse n s).seq = s.seq := rfl
@[simp] theorem elapse_kind : (elapse n s).kind = s.kind := rfl
@[simp] theorem elapse_oss : (elapse n s).oss = s.oss := rfl
@[simp] theorem elapse_dtimer : (elapse n s).dtimer = s.dtimer := rfl
@[simp] theorem elapse_cal : (elapse n s).cal = s.cal := rfl
@[simp] theorem elapse_calValid : (elapse n s).calValid = s.calValid := rfl
@[simp] theorem elapse_rbuf0 : (elapse n s).rbuf0 = s.rbuf0 := rfl
@[simp] theorem elapse_rbuf1 : (elapse n s).rbuf1 = s.rbuf1 := rfl
@[simp] theorem elapse_rbuf2 : (elapse n s).rbuf2 = s.rbuf2 := rfl
@[simp] theorem elapse_ut : (elapse n s).ut = s.ut := rfl
@[simp] theorem elapse_utValid : (elapse n s).utValid = s.utValid := rfl
@[simp] theorem elapse_up : (elapse n s).up = s.up := rfl
@[simp] theorem elapse_upValid : (elapse n s).upValid = s.upValid := rfl
@[simp] theorem elapse_stg : (elapse n s).stg = s.stg := rfl
@[simp] theorem elapse_b5Valid : (elapse n s).b5Valid = s.b5Valid := rfl
@[simp] theorem elapse_cstep : (elapse n s).cstep = s.cstep := rfl
@[simp] theorem elapse_rsp : (elapse n s).rsp = s.rsp := rfl
@[simp] theorem elapse_ret : (elapse n s).ret = s.ret := rfl
@[simp] theorem elapse_port : (elapse n s).env.port = s.env.port := rfl
@[simp] theorem elapse_todo : (elapse n s).env.todo = s.env.todo := rfl
@[simp] theorem elapse_sched : (elapse n s).env.sched = s.env.sched := rfl
@[simp] theorem elapse_script : (elapse n s).env.script = s.env.script := rfl
@[simp] theorem elapse_fresh : (elapse n s).env.fresh = s.env.fresh := rfl
@[simp] theorem elapse_now : (elapse n s).env.now = s.env.now + n := rfl
@[simp] theorem elapse_sensor : (elapse n s).env.sensor = { s.env.sensor with left := s.env.sensor.left - n } := rfl
@[simp] theorem elapse_log : (elapse n s).env.log = s.env.log := rfl
end

section
variable (n : Nat) (s : State)
@[simp] theorem runTimer_ss : (runTimer n s).ss = s.ss := rfl
@[simp] theorem runTimer_owned : (runTimer n s).owned = s.owned := rfl
@[simp] theorem runTimer_busy : (runTimer n s).busy = s.busy := rfl
@[simp] theorem runTimer_seq : (runTimer n s).seq = s.seq := rfl
@[simp] theorem runTimer_kind : (runTimer n s).kind = s.kind := rfl
@[simp] theorem runTimer_oss : (runTimer n s).oss = s.oss := rfl
@[simp] theorem runTimer_dtimer : (runTimer n s).dtimer = s.dtimer - n := rfl
@[simp] theorem runTimer_cal : (runTimer n s).cal = s.cal := rfl
@[simp] theorem runTimer_calValid : (runTimer n s).calValid = s.calValid := rfl
@[simp] theorem runTimer_rbuf0 : (runTimer n s).rbuf0 = s.rbuf0 := rfl
@[simp] theorem runTimer_rbuf1 : (runTimer n s).rbuf1 = s.rbuf1 := rfl
@[simp] theorem runTimer_rbuf2 : (runTimer n s).rbuf2 = s.rbuf2 := rfl
@[simp] theorem runTimer_ut : (runTimer n s).ut = s.ut := rfl
@[simp] theorem runTimer_utValid : (runTimer n s).utValid = s.utValid := rfl
@[simp] theorem runTimer_up : (runTimer n s).up = s.up := rfl
@[simp] theorem runTimer_upValid : (runTimer n s).upValid = s.upValid := rfl
@[simp] theorem runTimer_stg : (runTimer n s).stg = s.stg := rfl
@[simp] theorem runTimer_b5Valid : (runTimer n s).b5Valid = s.b5Valid := rfl
@[simp] theorem runTimer_cstep : (runTimer n s).cstep = s.cstep := rfl
@[simp] theorem runTimer_rsp : (runTimer n s).rsp = s.rsp := rfl
@[simp] theorem runTimer_ret : (runTimer n s).ret = s.ret := rfl
@[simp] theorem runTimer_port : (runTimer n s).env.port = s.env.port := rfl
@[simp] theorem runTimer_todo : (runTimer n s).env.todo = s.env.todo := rfl
@[simp] theorem runTimer_sched : (runTimer n s).env.sched = s.env.sched := rfl
@[simp] theorem runTimer_script : (runTimer n s).env.script = s.env.script := rfl
@[simp] theorem runTimer_fresh : (runTimer n s).env.fresh = s.env.fresh := rfl
@[simp] theorem runTimer_now : (runTimer n s).env.now = s.env.now + n := rfl
@[simp] theorem runTimer_sensor : (runTimer n s).env.sensor = { s.env.sensor with left := s.env.sensor.left - n } := rfl
@[simp] theorem runTimer_log : (runTimer n s).env.log = s.env.log := rfl
end

section
variable (cw : CmdWord) (s : State)
@[simp] theorem pend_ss : (pend cw s).ss = s.ss := rfl
@[simp] theorem pend_owned : (pend cw s).owned = s.owned := rfl
@[simp] theorem pend_busy : (pend cw s).busy = s.busy := rfl
@[simp] theorem pend_seq : (pend cw s).seq = s.seq := rfl
@[simp] theorem pend_kind : (pend cw s).kind = s.kind := rfl
@[simp] theorem pend_oss : (pend cw s).oss = s.oss := rfl
@[simp] theorem pend_dtimer : (pend cw s).dtimer = s.dtimer := rfl
@[simp] theorem pend_cal : (pend cw s).cal = s.cal := rfl
@[simp] theorem pend_calValid : (pend cw s).calValid = s.calValid := rfl
@[simp] theorem pend_rbuf0 : (pend cw s).rbuf0 = s.rbuf0 := rfl
@[simp] theorem pend_rbuf1 : (pend cw s).rbuf1 = s.rbuf1 := rfl
@[simp] theorem pend_rbuf2 : (pend cw s).rbuf2 = s.rbuf2 := rfl
@[simp] theorem pend_ut : (pend cw s).ut = s.ut := rfl
@[simp] theorem pend_utValid : (pend cw s).utValid = s.utValid := rfl
@[simp] theorem pend_up : (pend cw s).up = s.up := rfl
@[simp] theorem pend_upValid : (pend cw s).upValid = s.upValid := rfl
@[simp] theorem pend_stg : (pend cw s).stg = s.stg := rfl
@[simp] theorem pend_b5Valid : (pend cw s).b5Valid = s.b5Valid := rfl
@[simp] theorem pend_cstep : (pend cw s).cstep = s.cstep := rfl
@[simp] theorem pend_rsp : (pend cw s).rsp = s.rsp := rfl
@[simp] theorem pend_ret : (pend cw s).ret = s.ret := rfl
@[simp] theorem pend_port : (pend cw s).env.port = s.env.port ++ [cw] := rfl
@[simp] theorem pend_todo : (pend cw s).env.todo = s.env.todo := rfl
@[simp] theorem pend_sched : (pend cw s).env.sched = s.env.sched := rfl
@[simp] theorem pend_script : (pend cw s).env.script = s.env.script := rfl
@[simp] theorem pend_fresh : (pend cw s).env.fresh = s.env.fresh := rfl
@[simp] theorem pend_now : (pend cw s).env.now = s.env.now := rfl
@[simp] theorem pend_sensor : (pend cw s).env.sensor = s.env.sensor := rfl
@[simp] theorem pend_log : (pend cw s).env.log = s.env.log := rfl
end

section
variable (s : State)
@[simp] theorem dropAct_ss : (dropAct s).ss = s.ss := rfl
@[simp] theorem dropAct_owned : (dropAct s).owned = s.owned := rfl
@[simp] theorem dropAct_busy : (dropAct s).busy = s.busy := rfl
@[simp] theorem dropAct_seq : (dropAct s).seq = s.seq := rfl
@[simp] theorem dropAct_kind : (dropAct s).kind = s.kind := rfl
@[simp] theorem dropAct_oss : (dropAct s).oss = s.oss := rfl
@[simp] theorem dropAct_dtimer : (dropAct s).dtimer = s.dtimer := rfl
@[simp] theorem dropAct_cal : (dropAct s).cal = s.cal := rfl
@[simp] theorem dropAct_calValid : (dropAct s).calValid = s.calValid := rfl
@[simp] theorem dropAct_rbuf0 : (dropAct s).rbuf0 = s.rbuf0 := rfl
@[simp] theorem dropAct_rbuf1 : (dropAct s).rbuf1 = s.rbuf1 := rfl
@[simp] theorem dropAct_rbuf2 : (dropAct s).rbuf2 = s.rbuf2 := rfl
@[simp] theorem dropAct_ut : (dropAct s).ut = s.ut := rfl
@[simp] theorem dropAct_utValid : (dropAct s).utValid = s.utValid := rfl
@[simp] theorem dropAct_up : (dropAct s).up = s.up := rfl
@[simp] theorem dropAct_upValid : (dropAct s).upValid = s.upValid := rfl
@[simp] theorem dropAct_stg : (dropAct s).stg = s.stg := rfl
@[simp] theorem dropAct_b5Valid : (dropAct s).b5Valid = s.b5Valid := rfl
@[simp] theorem dropAct_cstep : (dropAct s).cstep = s.cstep := rfl
@[simp] theorem dropAct_rsp : (dropAct s).rsp = s.rsp := rfl
@[simp] theorem dropAct_ret : (dropAct s).ret = s.ret := rfl
@[simp] theorem dropAct_port : (dropAct s).env.port = s.env.port := rfl
@[simp] theorem dropAct_todo : (dropAct s).env.todo = s.env.todo := rfl
@[simp] theorem dropAct_sched : (dropAct s).env.sched = s.env.sched.tail := rfl
@[simp] theorem dropAct_script : (dropAct s).env.script = s.env.script := rfl
@[simp] theorem dropAct_fresh : (dropAct s).env.fresh = s.env.fresh := rfl
@[simp] theorem dropAct_now : (dropAct s).env.now = s.env.now := rfl
@[simp] theorem dropAct_sensor : (dropAct s).env.sensor = s.env.sensor := rfl
@[simp] theorem dropAct_log : (dropAct s).env.log = s.env.log := rfl
end

section
variable (p : Params) (w : List Byte) (r : Nat) (s : State)
@[simp] theorem afterExchange_ss : (afterExchange p w r s).ss = s.ss := rfl
@[simp] theorem afterExchange_owned : (afterExchange p w r s).owned = s.owned := rfl
@[simp] theorem afterExchange_busy : (afterExchange p w r s).busy = s.busy := rfl
@[simp] theorem afterExchange_seq : (afterExchange p w r s).seq = s.seq := rfl
@[simp] theorem afterExchange_kind : (afterExchange p w r s).kind = s.kind := rfl
@[simp] theorem afterExchange_oss : (afterExchange p w r s).oss = s.oss := rfl
@[simp] theorem afterExchange_dtimer : (afterExchange p w r s).dtimer = s.dtimer := rfl
@[simp] theorem afterExchange_cal : (afterExchange p w r s).cal = s.cal := rfl
@[simp] theorem afterExchange_calValid : (afterExchange p w r s).calValid = s.calValid := rfl
@[simp] theorem afterExchange_rbuf0 : (afterExchange p w r s).rbuf0 = s.rbuf0 := rfl
@[simp] theorem afterExchange_rbuf1 : (afterExchange p w r s).rbuf1 = s.rbuf1 := rfl
@[simp] theorem afterExchange_rbuf2 : (afterExchange p w r s).rbuf2 = s.rbuf2 := rfl
@[simp] theorem afterExchange_ut : (afterExchange p w r s).ut = s.ut := rfl
@[simp] theorem afterExchange_utValid : (afterExchange p w r s).utValid = s.utValid := rfl
@[simp] theorem afterExchange_up : (afterExchange p w r s).up = s.up := rfl
@[simp] theorem afterExchange_upValid : (afterExchange p w r s).upValid = s.upValid := rfl
@[simp] theorem afterExchange_stg : (afterExchange p w r s).stg = s.stg := rfl
@[simp] theorem afterExchange_b5Valid : (afterExchange p w r s).b5Valid = s.b5Valid := rfl
@[simp] theorem afterExchange_cstep : (afterExchange p w r s).cstep = s.cstep := rfl
@[simp] theorem afterExchange_rsp : (afterExchange p w r s).rsp = s.rsp := rfl
@[simp] theorem afterExchange_ret : (afterExchange p w r s).ret = s.ret := rfl
@[simp] theorem afterExchange_port : (afterExchange p w r s).env.port = s.env.port := rfl
@[simp] theorem afterExchange_todo : (afterExchange p w r s).env.todo = s.env.todo := rfl
@[simp] theorem afterExchange_sched : (afterExchange p w r s).env.sched = s.env.sched := rfl
@[simp] theorem afterExchange_script : (afterExchange p w r s).env.script = s.env.script.tail := rfl
@[simp] theorem afterExchange_fresh : (afterExchange p w r s).env.fresh = s.env.fresh + 1 := rfl
@[simp] theorem afterExchange_now : (afterExchange p w r s).env.now = s.env.now := rfl
@[simp] theorem afterExchange_sensor : (afterExchange p w r s).env.sensor = sensorAfter p w (nextAnswer w r s) (Config.freeTaken s.env.fresh) s.env.sensor := rfl
@[simp] theorem afterExchange_log : (afterExchange p w r s).env.log = (s.env.now, .exchange p.devAddr w r (nextAnswer w r s)) :: s.env.log := rfl
end

section
variable (s : State)
@[simp] theorem hardwareReset_ss : (hardwareReset s).ss = State.reset.ss := rfl
@[simp] theorem hardwareReset_owned : (hardwareReset s).owned = State.reset.owned := rfl
@[simp] theorem hardwareReset_busy : (hardwareReset s).busy = State.reset.busy := rfl
@[simp] theorem hardwareReset_seq : (hardwareReset s).seq = State.reset.seq := rfl
@[simp] theorem hardwareReset_kind : (hardwareReset s).kind = State.reset.kind := rfl
@[simp] theorem hardwareReset_oss : (hardwareReset s).oss = State.reset.oss := rfl
@[simp] theorem hardwareReset_dtimer : (hardwareReset s).dtimer = State.reset.dtimer := rfl
@[simp] theorem hardwareReset_cal : (hardwareReset s).cal = State.reset.cal := rfl
@[simp] theorem hardwareReset_calValid : (hardwareReset s).calValid = State.reset.calValid := rfl
@[simp] theorem hardwareReset_rbuf0 : (hardwareReset s).rbuf0 = State.reset.rbuf0 := rfl
@[simp] theorem hardwareReset_rbuf1 : (hardwareReset s).rbuf1 = State.reset.rbuf1 := rfl
@[simp] theorem hardwareReset_rbuf2 : (hardwareReset s).rbuf2 = State.reset.rbuf2 := rfl
@[simp] theorem hardwareReset_ut : (hardwareReset s).ut = State.reset.ut := rfl
@[simp] theorem hardwareReset_utValid : (hardwareReset s).utValid = State.reset.utValid := rfl
@[simp] theorem hardwareReset_up : (hardwareReset s).up = State.reset.up := rfl
@[simp] theorem hardwareReset_upValid : (hardwareReset s).upValid = State.reset.upValid := rfl
@[simp] theorem hardwareReset_stg : (hardwareReset s).stg = State.reset.stg := rfl
@[simp] theorem hardwareReset_b5Valid : (hardwareReset s).b5Valid = State.reset.b5Valid := rfl
@[simp] theorem hardwareReset_cstep : (hardwareReset s).cstep = State.reset.cstep := rfl
@[simp] theorem hardwareReset_rsp : (hardwareReset s).rsp = State.reset.rsp := rfl
@[simp] theorem hardwareReset_ret : (hardwareReset s).ret = State.reset.ret := rfl
@[simp] theorem hardwareReset_port : (hardwareReset s).env.port = s.env.port := rfl
@[simp] theorem hardwareReset_todo : (hardwareReset s).env.todo = [] := rfl
@[simp] theorem hardwareReset_sched : (hardwareReset s).env.sched = s.env.sched := rfl
@[simp] theorem hardwareReset_script : (hardwareReset s).env.script = s.env.script := rfl
@[simp] theorem hardwareReset_fresh : (hardwareReset s).env.fresh = s.env.fresh := rfl
@[simp] theorem hardwareReset_now : (hardwareReset s).env.now = s.env.now := rfl
@[simp] theorem hardwareReset_sensor : (hardwareReset s).env.sensor = s.env.sensor := rfl
@[simp] theorem hardwareReset_log : (hardwareReset s).env.log = (s.env.now, .hardwareReset) :: s.env.log := rfl
end

section
variable (s : State)
@[simp] theorem clearCalValid_ss : (clearCalValid s).ss = s.ss := rfl
@[simp] theorem clearCalValid_owned : (clearCalValid s).owned = s.owned := rfl
@[simp] theorem clearCalValid_busy : (clearCalValid s).busy = s.busy := rfl
@[simp] theorem clearCalValid_seq : (clearCalValid s).seq = s.seq := rfl
@[simp] theorem clearCalValid_kind : (clearCalValid s).kind = s.kind := rfl
@[simp] theorem clearCalValid_oss : (clearCalValid s).oss = s.oss := rfl
@[simp] theorem clearCalValid_dtimer : (clearCalValid s).dtimer = s.dtimer := rfl
@[simp] theorem clearCalValid_cal : (clearCalValid s).cal = s.cal := rfl
@[simp] theorem clearCalValid_calValid : (clearCalValid s).calValid = false := rfl
@[simp] theorem clearCalValid_rbuf0 : (clearCalValid s).rbuf0 = s.rbuf0 := rfl
@[simp] theorem clearCalValid_rbuf1 : (clearCalValid s).rbuf1 = s.rbuf1 := rfl
@[simp] theorem clearCalValid_rbuf2 : (clearCalValid s).rbuf2 = s.rbuf2 := rfl
@[simp] theorem clearCalValid_ut : (clearCalValid s).ut = s.ut := rfl
@[simp] theorem clearCalValid_utValid : (clearCalValid s).utValid = s.utValid := rfl
@[simp] theorem clearCalValid_up : (clearCalValid s).up = s.up := rfl
@[simp] theorem clearCalValid_upValid : (clearCalValid s).upValid = s.upValid := rfl
@[simp] theorem clearCalValid_stg : (clearCalValid s).stg = s.stg := rfl
@[simp] theorem clearCalValid_b5Valid : (clearCalValid s).b5Valid = s.b5Valid := rfl
@[simp] theorem clearCalValid_cstep : (clearCalValid s).cstep = s.cstep := rfl
@[simp] theorem clearCalValid_rsp : (clearCalValid s).rsp = s.rsp := rfl
@[simp] theorem clearCalValid_ret : (clearCalValid s).ret = s.ret := rfl
@[simp] theorem clearCalValid_port : (clearCalValid s).env.port = s.env.port := rfl
@[simp] theorem clearCalValid_todo : (clearCalValid s).env.todo = s.env.todo := rfl
@[simp] theorem clearCalValid_sched : (clearCalValid s).env.sched = s.env.sched := rfl
@[simp] theorem clearCalValid_script : (clearCalValid s).env.script = s.env.script := rfl
@[simp] theorem clearCalValid_fresh : (clearCalValid s).env.fresh = s.env.fresh := rfl
@[simp] theorem clearCalValid_now : (clearCalValid s).env.now = s.env.now := rfl
@[simp] theorem clearCalValid_sensor : (clearCalValid s).env.sensor = s.env.sensor := rfl
@[simp] theorem clearCalValid_log : (clearCalValid s).env.log = s.env.log := rfl
end

section
variable (v : Half) (s : State)
@[simp] theorem putUT_ss : (putUT v s).ss = s.ss := rfl
@[simp] theorem putUT_owned : (putUT v s).owned = s.owned := rfl
@[simp] theorem putUT_busy : (putUT v s).busy = s.busy := rfl
@[simp] theorem putUT_seq : (putUT v s).seq = s.seq := rfl
@[simp] theorem putUT_kind : (putUT v s).kind = s.kind := rfl
@[simp] theorem putUT_oss : (putUT v s).oss = s.oss := rfl
@[simp] theorem putUT_dtimer : (putUT v s).dtimer = s.dtimer := rfl
@[simp] theorem putUT_cal : (putUT v s).cal = s.cal := rfl
@[simp] theorem putUT_calValid : (putUT v s).calValid = s.calValid := rfl
@[simp] theorem putUT_rbuf0 : (putUT v s).rbuf0 = s.rbuf0 := rfl
@[simp] theorem putUT_rbuf1 : (putUT v s).rbuf1 = s.rbuf1 := rfl
@[simp] theorem putUT_rbuf2 : (putUT v s).rbuf2 = s.rbuf2 := rfl
@[simp] theorem putUT_ut : (putUT v s).ut = v := rfl
@[simp] theorem putUT_utValid : (putUT v s).utValid = true := rfl
@[simp] theorem putUT_up : (putUT v s).up = s.up := rfl
@[simp] theorem putUT_upValid : (putUT v s).upValid = s.upValid := rfl
@[simp] theorem putUT_stg : (putUT v s).stg = s.stg := rfl
@[simp] theorem putUT_b5Valid : (putUT v s).b5Valid = s.b5Valid := rfl
@[simp] theorem putUT_cstep : (putUT v s).cstep = s.cstep := rfl
@[simp] theorem putUT_rsp : (putUT v s).rsp = s.rsp := rfl
@[simp] theorem putUT_ret : (putUT v s).ret = s.ret := rfl
@[simp] theorem putUT_port : (putUT v s).env.port = s.env.port := rfl
@[simp] theorem putUT_todo : (putUT v s).env.todo = s.env.todo := rfl
@[simp] theorem putUT_sched : (putUT v s).env.sched = s.env.sched := rfl
@[simp] theorem putUT_script : (putUT v s).env.script = s.env.script := rfl
@[simp] theorem putUT_fresh : (putUT v s).env.fresh = s.env.fresh := rfl
@[simp] theorem putUT_now : (putUT v s).env.now = s.env.now := rfl
@[simp] theorem putUT_sensor : (putUT v s).env.sensor = s.env.sensor := rfl
@[simp] theorem putUT_log : (putUT v s).env.log = s.env.log := rfl
end

section
variable (v : Count20) (s : State)
@[simp] theorem putUP_ss : (putUP v s).ss = s.ss := rfl
@[simp] theorem putUP_owned : (putUP v s).owned = s.owned := rfl
@[simp] theorem putUP_busy : (putUP v s).busy = s.busy := rfl
@[simp] theorem putUP_seq : (putUP v s).seq = s.seq := rfl
@[simp] theorem putUP_kind : (putUP v s).kind = s.kind := rfl
@[simp] theorem putUP_oss : (putUP v s).oss = s.oss := rfl
@[simp] theorem putUP_dtimer : (putUP v s).dtimer = s.dtimer := rfl
@[simp] theorem putUP_cal : (putUP v s).cal = s.cal := rfl
@[simp] theorem putUP_calValid : (putUP v s).calValid = s.calValid := rfl
@[simp] theorem putUP_rbuf0 : (putUP v s).rbuf0 = s.rbuf0 := rfl
@[simp] theorem putUP_rbuf1 : (putUP v s).rbuf1 = s.rbuf1 := rfl
@[simp] theorem putUP_rbuf2 : (putUP v s).rbuf2 = s.rbuf2 := rfl
@[simp] theorem putUP_ut : (putUP v s).ut = s.ut := rfl
@[simp] theorem putUP_utValid : (putUP v s).utValid = s.utValid := rfl
@[simp] theorem putUP_up : (putUP v s).up = v := rfl
@[simp] theorem putUP_upValid : (putUP v s).upValid = true := rfl
@[simp] theorem putUP_stg : (putUP v s).stg = s.stg := rfl
@[simp] theorem putUP_b5Valid : (putUP v s).b5Valid = s.b5Valid := rfl
@[simp] theorem putUP_cstep : (putUP v s).cstep = s.cstep := rfl
@[simp] theorem putUP_rsp : (putUP v s).rsp = s.rsp := rfl
@[simp] theorem putUP_ret : (putUP v s).ret = s.ret := rfl
@[simp] theorem putUP_port : (putUP v s).env.port = s.env.port := rfl
@[simp] theorem putUP_todo : (putUP v s).env.todo = s.env.todo := rfl
@[simp] theorem putUP_sched : (putUP v s).env.sched = s.env.sched := rfl
@[simp] theorem putUP_script : (putUP v s).env.script = s.env.script := rfl
@[simp] theorem putUP_fresh : (putUP v s).env.fresh = s.env.fresh := rfl
@[simp] theorem putUP_now : (putUP v s).env.now = s.env.now := rfl
@[simp] theorem putUP_sensor : (putUP v s).env.sensor = s.env.sensor := rfl
@[simp] theorem putUP_log : (putUP v s).env.log = s.env.log := rfl
end

section
variable (s : State)
@[simp] theorem clearReadFlags_ss : (clearReadFlags s).ss = s.ss := rfl
@[simp] theorem clearReadFlags_owned : (clearReadFlags s).owned = s.owned := rfl
@[simp] theorem clearReadFlags_busy : (clearReadFlags s).busy = s.busy := rfl
@[simp] theorem clearReadFlags_seq : (clearReadFlags s).seq = s.seq := rfl
@[simp] theorem clearReadFlags_kind : (clearReadFlags s).kind = s.kind := rfl
@[simp] theorem clearReadFlags_oss : (clearReadFlags s).oss = s.oss := rfl
@[simp] theorem clearReadFlags_dtimer : (clearReadFlags s).dtimer = s.dtimer := rfl
@[simp] theorem clearReadFlags_cal : (clearReadFlags s).cal = s.cal := rfl
@[simp] theorem clearReadFlags_calValid : (clearReadFlags s).calValid = s.calValid := rfl
@[simp] theorem clearReadFlags_rbuf0 : (clearReadFlags s).rbuf0 = s.rbuf0 := rfl
@[simp] theorem clearReadFlags_rbuf1 : (clearReadFlags s).rbuf1 = s.rbuf1 := rfl
@[simp] theorem clearReadFlags_rbuf2 : (clearReadFlags s).rbuf2 = s.rbuf2 := rfl
@[simp] theorem clearReadFlags_ut : (clearReadFlags s).ut = s.ut := rfl
@[simp] theorem clearReadFlags_utValid : (clearReadFlags s).utValid = false := rfl
@[simp] theorem clearReadFlags_up : (clearReadFlags s).up = s.up := rfl
@[simp] theorem clearReadFlags_upValid : (clearReadFlags s).upValid = false := rfl
@[simp] theorem clearReadFlags_stg : (clearReadFlags s).stg = s.stg := rfl
@[simp] theorem clearReadFlags_b5Valid : (clearReadFlags s).b5Valid = false := rfl
@[simp] theorem clearReadFlags_cstep : (clearReadFlags s).cstep = s.cstep := rfl
@[simp] theorem clearReadFlags_rsp : (clearReadFlags s).rsp = s.rsp := rfl
@[simp] theorem clearReadFlags_ret : (clearReadFlags s).ret = s.ret := rfl
@[simp] theorem clearReadFlags_port : (clearReadFlags s).env.port = s.env.port := rfl
@[simp] theorem clearReadFlags_todo : (clearReadFlags s).env.todo = s.env.todo := rfl
@[simp] theorem clearReadFlags_sched : (clearReadFlags s).env.sched = s.env.sched := rfl
@[simp] theorem clearReadFlags_script : (clearReadFlags s).env.script = s.env.script := rfl
@[simp] theorem clearReadFlags_fresh : (clearReadFlags s).env.fresh = s.env.fresh := rfl
@[simp] theorem clearReadFlags_now : (clearReadFlags s).env.now = s.env.now := rfl
@[simp] theorem clearReadFlags_sensor : (clearReadFlags s).env.sensor = s.env.sensor := rfl
@[simp] theorem clearReadFlags_log : (clearReadFlags s).env.log = s.env.log := rfl
end

section
variable (blk : List Byte) (s : State)
@[simp] theorem putCal_ss : (putCal blk s).ss = s.ss := rfl
@[simp] theorem putCal_owned : (putCal blk s).owned = s.owned := rfl
@[simp] theorem putCal_busy : (putCal blk s).busy = s.busy := rfl
@[simp] theorem putCal_seq : (putCal blk s).seq = s.seq := rfl
@[simp] theorem putCal_kind : (putCal blk s).kind = s.kind := rfl
@[simp] theorem putCal_oss : (putCal blk s).oss = s.oss := rfl
@[simp] theorem putCal_dtimer : (putCal blk s).dtimer = s.dtimer := rfl
@[simp] theorem putCal_cal : (putCal blk s).cal = decodeCal blk := rfl
@[simp] theorem putCal_calValid : (putCal blk s).calValid = true := rfl
@[simp] theorem putCal_rbuf0 : (putCal blk s).rbuf0 = s.rbuf0 := rfl
@[simp] theorem putCal_rbuf1 : (putCal blk s).rbuf1 = s.rbuf1 := rfl
@[simp] theorem putCal_rbuf2 : (putCal blk s).rbuf2 = s.rbuf2 := rfl
@[simp] theorem putCal_ut : (putCal blk s).ut = s.ut := rfl
@[simp] theorem putCal_utValid : (putCal blk s).utValid = s.utValid := rfl
@[simp] theorem putCal_up : (putCal blk s).up = s.up := rfl
@[simp] theorem putCal_upValid : (putCal blk s).upValid = s.upValid := rfl
@[simp] theorem putCal_stg : (putCal blk s).stg = s.stg := rfl
@[simp] theorem putCal_b5Valid : (putCal blk s).b5Valid = s.b5Valid := rfl
@[simp] theorem putCal_cstep : (putCal blk s).cstep = s.cstep := rfl
@[simp] theorem putCal_rsp : (putCal blk s).rsp = s.rsp := rfl
@[simp] theorem putCal_ret : (putCal blk s).ret = s.ret := rfl
@[simp] theorem putCal_port : (putCal blk s).env.port = s.env.port := rfl
@[simp] theorem putCal_todo : (putCal blk s).env.todo = s.env.todo := rfl
@[simp] theorem putCal_sched : (putCal blk s).env.sched = s.env.sched := rfl
@[simp] theorem putCal_script : (putCal blk s).env.script = s.env.script := rfl
@[simp] theorem putCal_fresh : (putCal blk s).env.fresh = s.env.fresh := rfl
@[simp] theorem putCal_now : (putCal blk s).env.now = s.env.now := rfl
@[simp] theorem putCal_sensor : (putCal blk s).env.sensor = s.env.sensor := rfl
@[simp] theorem putCal_log : (putCal blk s).env.log = s.env.log := rfl
end

section
variable (s : State)
@[simp] theorem setTemperature_ss : (setTemperature s).ss = s.ss := rfl
@[simp] theorem setTemperature_owned : (setTemperature s).owned = s.owned := rfl
@[simp] theorem setTemperature_busy : (setTemperature s).busy = s.busy := rfl
@[simp] theorem setTemperature_seq : (setTemperature s).seq = s.seq := rfl
@[simp] theorem setTemperature_kind : (setTemperature s).kind = .temperature := rfl
@[simp] theorem setTemperature_oss : (setTemperature s).oss = s.oss := rfl
@[simp] theorem setTemperature_dtimer : (setTemperature s).dtimer = s.dtimer := rfl
@[simp] theorem setTemperature_cal : (setTemperature s).cal = s.cal := rfl
@[simp] theorem setTemperature_calValid : (setTemperature s).calValid = s.calValid := rfl
@[simp] theorem setTemperature_rbuf0 : (setTemperature s).rbuf0 = s.rbuf0 := rfl
@[simp] theorem setTemperature_rbuf1 : (setTemperature s).rbuf1 = s.rbuf1 := rfl
@[simp] theorem setTemperature_rbuf2 : (setTemperature s).rbuf2 = s.rbuf2 := rfl
@[simp] theorem setTemperature_ut : (setTemperature s).ut = s.ut := rfl
@[simp] theorem setTemperature_utValid : (setTemperature s).utValid = s.utValid := rfl
@[simp] theorem setTemperature_up : (setTemperature s).up = s.up := rfl
@[simp] theorem setTemperature_upValid : (setTemperature s).upValid = s.upValid := rfl
@[simp] theorem setTemperature_stg : (setTemperature s).stg = s.stg := rfl
@[simp] theorem setTemperature_b5Valid : (setTemperature s).b5Valid = s.b5Valid := rfl
@[simp] theorem setTemperature_cstep : (setTemperature s).cstep = s.cstep := rfl
@[simp] theorem setTemperature_rsp : (setTemperature s).rsp = s.rsp := rfl
@[simp] theorem setTemperature_ret : (setTemperature s).ret = s.ret := rfl
@[simp] theorem setTemperature_port : (setTemperature s).env.port = s.env.port := rfl
@[simp] theorem setTemperature_todo : (setTemperature s).env.todo = s.env.todo := rfl
@[simp] theorem setTemperature_sched : (setTemperature s).env.sched = s.env.sched := rfl
@[simp] theorem setTemperature_script : (setTemperature s).env.script = s.env.script := rfl
@[simp] theorem setTemperature_fresh : (setTemperature s).env.fresh = s.env.fresh := rfl
@[simp] theorem setTemperature_now : (setTemperature s).env.now = s.env.now := rfl
@[simp] theorem setTemperature_sensor : (setTemperature s).env.sensor = s.env.sensor := rfl
@[simp] theorem setTemperature_log : (setTemperature s).env.log = s.env.log := rfl
end

section
variable (o : Level) (s : State)
@[simp] theorem setPressure_ss : (setPressure o s).ss = s.ss := rfl
@[simp] theorem setPressure_owned : (setPressure o s).owned = s.owned := rfl
@[simp] theorem setPressure_busy : (setPressure o s).busy = s.busy := rfl
@[simp] theorem setPressure_seq : (setPressure o s).seq = s.seq := rfl
@[simp] theorem setPressure_kind : (setPressure o s).kind = .pressure := rfl
@[simp] theorem setPressure_oss : (setPressure o s).oss = o := rfl
@[simp] theorem setPressure_dtimer : (setPressure o s).dtimer = s.dtimer := rfl
@[simp] theorem setPressure_cal : (setPressure o s).cal = s.cal := rfl
@[simp] theorem setPressure_calValid : (setPressure o s).calValid = s.calValid := rfl
@[simp] theorem setPressure_rbuf0 : (setPressure o s).rbuf0 = s.rbuf0 := rfl
@[simp] theorem setPressure_rbuf1 : (setPressure o s).rbuf1 = s.rbuf1 := rfl
@[simp] theorem setPressure_rbuf2 : (setPressure o s).rbuf2 = s.rbuf2 := rfl
@[simp] theorem setPressure_ut : (setPressure o s).ut = s.ut := rfl
@[simp] theorem setPressure_utValid : (setPressure o s).utValid = s.utValid := rfl
@[simp] theorem setPressure_up : (setPressure o s).up = s.up := rfl
@[simp] theorem setPressure_upValid : (setPressure o s).upValid = s.upValid := rfl
@[simp] theorem setPressure_stg : (setPressure o s).stg = s.stg := rfl
@[simp] theorem setPressure_b5Valid : (setPressure o s).b5Valid = s.b5Valid := rfl
@[simp] theorem setPressure_cstep : (setPressure o s).cstep = s.cstep := rfl
@[simp] theorem setPressure_rsp : (setPressure o s).rsp = s.rsp := rfl
@[simp] theorem setPressure_ret : (setPressure o s).ret = s.ret := rfl
@[simp] theorem setPressure_port : (setPressure o s).env.port = s.env.port := rfl
@[simp] theorem setPressure_todo : (setPressure o s).env.todo = s.env.todo := rfl
@[simp] theorem setPressure_sched : (setPressure o s).env.sched = s.env.sched := rfl
@[simp] theorem setPressure_script : (setPressure o s).env.script = s.env.script := rfl
@[simp] theorem setPressure_fresh : (setPressure o s).env.fresh = s.env.fresh := rfl
@[simp] theorem setPressure_now : (setPressure o s).env.now = s.env.now := rfl
@[simp] theorem setPressure_sensor : (setPressure o s).env.sensor = s.env.sensor := rfl
@[simp] theorem setPressure_log : (setPressure o s).env.log = s.env.log := rfl
end

section
variable (b : Byte) (s : State)
@[simp] theorem putByte0_ss : (putByte0 b s).ss = s.ss := rfl
@[simp] theorem putByte0_owned : (putByte0 b s).owned = s.owned := rfl
@[simp] theorem putByte0_busy : (putByte0 b s).busy = s.busy := rfl
@[simp] theorem putByte0_seq : (putByte0 b s).seq = s.seq := rfl
@[simp] theorem putByte0_kind : (putByte0 b s).kind = s.kind := rfl
@[simp] theorem putByte0_oss : (putByte0 b s).oss = s.oss := rfl
@[simp] theorem putByte0_dtimer : (putByte0 b s).dtimer = s.dtimer := rfl
@[simp] theorem putByte0_cal : (putByte0 b s).cal = s.cal := rfl
@[simp] theorem putByte0_calValid : (putByte0 b s).calValid = s.calValid := rfl
@[simp] theorem putByte0_rbuf0 : (putByte0 b s).rbuf0 = b := rfl
@[simp] theorem putByte0_rbuf1 : (putByte0 b s).rbuf1 = s.rbuf1 := rfl
@[simp] theorem putByte0_rbuf2 : (putByte0 b s).rbuf2 = s.rbuf2 := rfl
@[simp] theorem putByte0_ut : (putByte0 b s).ut = s.ut := rfl
@[simp] theorem putByte0_utValid : (putByte0 b s).utValid = s.utValid := rfl
@[simp] theorem putByte0_up : (putByte0 b s).up = s.up := rfl
@[simp] theorem putByte0_upValid : (putByte0 b s).upValid = s.upValid := rfl
@[simp] theorem putByte0_stg : (putByte0 b s).stg = s.stg := rfl
@[simp] theorem putByte0_b5Valid : (putByte0 b s).b5Valid = s.b5Valid := rfl
@[simp] theorem putByte0_cstep : (putByte0 b s).cstep = s.cstep := rfl
@[simp] theorem putByte0_rsp : (putByte0 b s).rsp = s.rsp := rfl
@[simp] theorem putByte0_ret : (putByte0 b s).ret = s.ret := rfl
@[simp] theorem putByte0_port : (putByte0 b s).env.port = s.env.port := rfl
@[simp] theorem putByte0_todo : (putByte0 b s).env.todo = s.env.todo := rfl
@[simp] theorem putByte0_sched : (putByte0 b s).env.sched = s.env.sched := rfl
@[simp] theorem putByte0_script : (putByte0 b s).env.script = s.env.script := rfl
@[simp] theorem putByte0_fresh : (putByte0 b s).env.fresh = s.env.fresh := rfl
@[simp] theorem putByte0_now : (putByte0 b s).env.now = s.env.now := rfl
@[simp] theorem putByte0_sensor : (putByte0 b s).env.sensor = s.env.sensor := rfl
@[simp] theorem putByte0_log : (putByte0 b s).env.log = s.env.log := rfl
end

section
variable (b : Byte) (s : State)
@[simp] theorem putByte1_ss : (putByte1 b s).ss = s.ss := rfl
@[simp] theorem putByte1_owned : (putByte1 b s).owned = s.owned := rfl
@[simp] theorem putByte1_busy : (putByte1 b s).busy = s.busy := rfl
@[simp] theorem putByte1_seq : (putByte1 b s).seq = s.seq := rfl
@[simp] theorem putByte1_kind : (putByte1 b s).kind = s.kind := rfl
@[simp] theorem putByte1_oss : (putByte1 b s).oss = s.oss := rfl
@[simp] theorem putByte1_dtimer : (putByte1 b s).dtimer = s.dtimer := rfl
@[simp] theorem putByte1_cal : (putByte1 b s).cal = s.cal := rfl
@[simp] theorem putByte1_calValid : (putByte1 b s).calValid = s.calValid := rfl
@[simp] theorem putByte1_rbuf0 : (putByte1 b s).rbuf0 = s.rbuf0 := rfl
@[simp] theorem putByte1_rbuf1 : (putByte1 b s).rbuf1 = b := rfl
@[simp] theorem putByte1_rbuf2 : (putByte1 b s).rbuf2 = s.rbuf2 := rfl
@[simp] theorem putByte1_ut : (putByte1 b s).ut = s.ut := rfl
@[simp] theorem putByte1_utValid : (putByte1 b s).utValid = s.utValid := rfl
@[simp] theorem putByte1_up : (putByte1 b s).up = s.up := rfl
@[simp] theorem putByte1_upValid : (putByte1 b s).upValid = s.upValid := rfl
@[simp] theorem putByte1_stg : (putByte1 b s).stg = s.stg := rfl
@[simp] theorem putByte1_b5Valid : (putByte1 b s).b5Valid = s.b5Valid := rfl
@[simp] theorem putByte1_cstep : (putByte1 b s).cstep = s.cstep := rfl
@[simp] theorem putByte1_rsp : (putByte1 b s).rsp = s.rsp := rfl
@[simp] theorem putByte1_ret : (putByte1 b s).ret = s.ret := rfl
@[simp] theorem putByte1_port : (putByte1 b s).env.port = s.env.port := rfl
@[simp] theorem putByte1_todo : (putByte1 b s).env.todo = s.env.todo := rfl
@[simp] theorem putByte1_sched : (putByte1 b s).env.sched = s.env.sched := rfl
@[simp] theorem putByte1_script : (putByte1 b s).env.script = s.env.script := rfl
@[simp] theorem putByte1_fresh : (putByte1 b s).env.fresh = s.env.fresh := rfl
@[simp] theorem putByte1_now : (putByte1 b s).env.now = s.env.now := rfl
@[simp] theorem putByte1_sensor : (putByte1 b s).env.sensor = s.env.sensor := rfl
@[simp] theorem putByte1_log : (putByte1 b s).env.log = s.env.log := rfl
end

section
variable (b : Byte) (s : State)
@[simp] theorem putByte2_ss : (putByte2 b s).ss = s.ss := rfl
@[simp] theorem putByte2_owned : (putByte2 b s).owned = s.owned := rfl
@[simp] theorem putByte2_busy : (putByte2 b s).busy = s.busy := rfl
@[simp] theorem putByte2_seq : (putByte2 b s).seq = s.seq := rfl
@[simp] theorem putByte2_kind : (putByte2 b s).kind = s.kind := rfl
@[simp] theorem putByte2_oss : (putByte2 b s).oss = s.oss := rfl
@[simp] theorem putByte2_dtimer : (putByte2 b s).dtimer = s.dtimer := rfl
@[simp] theorem putByte2_cal : (putByte2 b s).cal = s.cal := rfl
@[simp] theorem putByte2_calValid : (putByte2 b s).calValid = s.calValid := rfl
@[simp] theorem putByte2_rbuf0 : (putByte2 b s).rbuf0 = s.rbuf0 := rfl
@[simp] theorem putByte2_rbuf1 : (putByte2 b s).rbuf1 = s.rbuf1 := rfl
@[simp] theorem putByte2_rbuf2 : (putByte2 b s).rbuf2 = b := rfl
@[simp] theorem putByte2_ut : (putByte2 b s).ut = s.ut := rfl
@[simp] theorem putByte2_utValid : (putByte2 b s).utValid = s.utValid := rfl
@[simp] theorem putByte2_up : (putByte2 b s).up = s.up := rfl
@[simp] theorem putByte2_upValid : (putByte2 b s).upValid = s.upValid := rfl
@[simp] theorem putByte2_stg : (putByte2 b s).stg = s.stg := rfl
@[simp] theorem putByte2_b5Valid : (putByte2 b s).b5Valid = s.b5Valid := rfl
@[simp] theorem putByte2_cstep : (putByte2 b s).cstep = s.cstep := rfl
@[simp] theorem putByte2_rsp : (putByte2 b s).rsp = s.rsp := rfl
@[simp] theorem putByte2_ret : (putByte2 b s).ret = s.ret := rfl
@[simp] theorem putByte2_port : (putByte2 b s).env.port = s.env.port := rfl
@[simp] theorem putByte2_todo : (putByte2 b s).env.todo = s.env.todo := rfl
@[simp] theorem putByte2_sched : (putByte2 b s).env.sched = s.env.sched := rfl
@[simp] theorem putByte2_script : (putByte2 b s).env.script = s.env.script := rfl
@[simp] theorem putByte2_fresh : (putByte2 b s).env.fresh = s.env.fresh := rfl
@[simp] theorem putByte2_now : (putByte2 b s).env.now = s.env.now := rfl
@[simp] theorem putByte2_sensor : (putByte2 b s).env.sensor = s.env.sensor := rfl
@[simp] theorem putByte2_log : (putByte2 b s).env.log = s.env.log := rfl
end

section
variable (k : BitVec 5) (s : State)
@[simp] theorem setStep_ss : (setStep k s).ss = s.ss := rfl
@[simp] theorem setStep_owned : (setStep k s).owned = s.owned := rfl
@[simp] theorem setStep_busy : (setStep k s).busy = s.busy := rfl
@[simp] theorem setStep_seq : (setStep k s).seq = s.seq := rfl
@[simp] theorem setStep_kind : (setStep k s).kind = s.kind := rfl
@[simp] theorem setStep_oss : (setStep k s).oss = s.oss := rfl
@[simp] theorem setStep_dtimer : (setStep k s).dtimer = s.dtimer := rfl
@[simp] theorem setStep_cal : (setStep k s).cal = s.cal := rfl
@[simp] theorem setStep_calValid : (setStep k s).calValid = s.calValid := rfl
@[simp] theorem setStep_rbuf0 : (setStep k s).rbuf0 = s.rbuf0 := rfl
@[simp] theorem setStep_rbuf1 : (setStep k s).rbuf1 = s.rbuf1 := rfl
@[simp] theorem setStep_rbuf2 : (setStep k s).rbuf2 = s.rbuf2 := rfl
@[simp] theorem setStep_ut : (setStep k s).ut = s.ut := rfl
@[simp] theorem setStep_utValid : (setStep k s).utValid = s.utValid := rfl
@[simp] theorem setStep_up : (setStep k s).up = s.up := rfl
@[simp] theorem setStep_upValid : (setStep k s).upValid = s.upValid := rfl
@[simp] theorem setStep_stg : (setStep k s).stg = s.stg := rfl
@[simp] theorem setStep_b5Valid : (setStep k s).b5Valid = s.b5Valid := rfl
@[simp] theorem setStep_cstep : (setStep k s).cstep = k := rfl
@[simp] theorem setStep_rsp : (setStep k s).rsp = s.rsp := rfl
@[simp] theorem setStep_ret : (setStep k s).ret = s.ret := rfl
@[simp] theorem setStep_port : (setStep k s).env.port = s.env.port := rfl
@[simp] theorem setStep_todo : (setStep k s).env.todo = s.env.todo := rfl
@[simp] theorem setStep_sched : (setStep k s).env.sched = s.env.sched := rfl
@[simp] theorem setStep_script : (setStep k s).env.script = s.env.script := rfl
@[simp] theorem setStep_fresh : (setStep k s).env.fresh = s.env.fresh := rfl
@[simp] theorem setStep_now : (setStep k s).env.now = s.env.now := rfl
@[simp] theorem setStep_sensor : (setStep k s).env.sensor = s.env.sensor := rfl
@[simp] theorem setStep_log : (setStep k s).env.log = s.env.log := rfl
end

section
variable (l : List CmdWord) (s : State)
@[simp] theorem setPort_ss : (setPort l s).ss = s.ss := rfl
@[simp] theorem setPort_owned : (setPort l s).owned = s.owned := rfl
@[simp] theorem setPort_busy : (setPort l s).busy = s.busy := rfl
@[simp] theorem setPort_seq : (setPort l s).seq = s.seq := rfl
@[simp] theorem setPort_kind : (setPort l s).kind = s.kind := rfl
@[simp] theorem setPort_oss : (setPort l s).oss = s.oss := rfl
@[simp] theorem setPort_dtimer : (setPort l s).dtimer = s.dtimer := rfl
@[simp] theorem setPort_cal : (setPort l s).cal = s.cal := rfl
@[simp] theorem setPort_calValid : (setPort l s).calValid = s.calValid := rfl
@[simp] theorem setPort_rbuf0 : (setPort l s).rbuf0 = s.rbuf0 := rfl
@[simp] theorem setPort_rbuf1 : (setPort l s).rbuf1 = s.rbuf1 := rfl
@[simp] theorem setPort_rbuf2 : (setPort l s).rbuf2 = s.rbuf2 := rfl
@[simp] theorem setPort_ut : (setPort l s).ut = s.ut := rfl
@[simp] theorem setPort_utValid : (setPort l s).utValid = s.utValid := rfl
@[simp] theorem setPort_up : (setPort l s).up = s.up := rfl
@[simp] theorem setPort_upValid : (setPort l s).upValid = s.upValid := rfl
@[simp] theorem setPort_stg : (setPort l s).stg = s.stg := rfl
@[simp] theorem setPort_b5Valid : (setPort l s).b5Valid = s.b5Valid := rfl
@[simp] theorem setPort_cstep : (setPort l s).cstep = s.cstep := rfl
@[simp] theorem setPort_rsp : (setPort l s).rsp = s.rsp := rfl
@[simp] theorem setPort_ret : (setPort l s).ret = s.ret := rfl
@[simp] theorem setPort_port : (setPort l s).env.port = l := rfl
@[simp] theorem setPort_todo : (setPort l s).env.todo = s.env.todo := rfl
@[simp] theorem setPort_sched : (setPort l s).env.sched = s.env.sched := rfl
@[simp] theorem setPort_script : (setPort l s).env.script = s.env.script := rfl
@[simp] theorem setPort_fresh : (setPort l s).env.fresh = s.env.fresh := rfl
@[simp] theorem setPort_now : (setPort l s).env.now = s.env.now := rfl
@[simp] theorem setPort_sensor : (setPort l s).env.sensor = s.env.sensor := rfl
@[simp] theorem setPort_log : (setPort l s).env.log = s.env.log := rfl
end

section
variable (l : List Encoded) (s : State)
@[simp] theorem setTodo_ss : (setTodo l s).ss = s.ss := rfl
@[simp] theorem setTodo_owned : (setTodo l s).owned = s.owned := rfl
@[simp] theorem setTodo_busy : (setTodo l s).busy = s.busy := rfl
@[simp] theorem setTodo_seq : (setTodo l s).seq = s.seq := rfl
@[simp] theorem setTodo_kind : (setTodo l s).kind = s.kind := rfl
@[simp] theorem setTodo_oss : (setTodo l s).oss = s.oss := rfl
@[simp] theorem setTodo_dtimer : (setTodo l s).dtimer = s.dtimer := rfl
@[simp] theorem setTodo_cal : (setTodo l s).cal = s.cal := rfl
@[simp] theorem setTodo_calValid : (setTodo l s).calValid = s.calValid := rfl
@[simp] theorem setTodo_rbuf0 : (setTodo l s).rbuf0 = s.rbuf0 := rfl
@[simp] theorem setTodo_rbuf1 : (setTodo l s).rbuf1 = s.rbuf1 := rfl
@[simp] theorem setTodo_rbuf2 : (setTodo l s).rbuf2 = s.rbuf2 := rfl
@[simp] theorem setTodo_ut : (setTodo l s).ut = s.ut := rfl
@[simp] theorem setTodo_utValid : (setTodo l s).utValid = s.utValid := rfl
@[simp] theorem setTodo_up : (setTodo l s).up = s.up := rfl
@[simp] theorem setTodo_upValid : (setTodo l s).upValid = s.upValid := rfl
@[simp] theorem setTodo_stg : (setTodo l s).stg = s.stg := rfl
@[simp] theorem setTodo_b5Valid : (setTodo l s).b5Valid = s.b5Valid := rfl
@[simp] theorem setTodo_cstep : (setTodo l s).cstep = s.cstep := rfl
@[simp] theorem setTodo_rsp : (setTodo l s).rsp = s.rsp := rfl
@[simp] theorem setTodo_ret : (setTodo l s).ret = s.ret := rfl
@[simp] theorem setTodo_port : (setTodo l s).env.port = s.env.port := rfl
@[simp] theorem setTodo_todo : (setTodo l s).env.todo = l := rfl
@[simp] theorem setTodo_sched : (setTodo l s).env.sched = s.env.sched := rfl
@[simp] theorem setTodo_script : (setTodo l s).env.script = s.env.script := rfl
@[simp] theorem setTodo_fresh : (setTodo l s).env.fresh = s.env.fresh := rfl
@[simp] theorem setTodo_now : (setTodo l s).env.now = s.env.now := rfl
@[simp] theorem setTodo_sensor : (setTodo l s).env.sensor = s.env.sensor := rfl
@[simp] theorem setTodo_log : (setTodo l s).env.log = s.env.log := rfl
end

section
variable (s : State)
@[simp] theorem draw_ss : (draw s).ss = s.ss := rfl
@[simp] theorem draw_owned : (draw s).owned = s.owned := rfl
@[simp] theorem draw_busy : (draw s).busy = s.busy := rfl
@[simp] theorem draw_seq : (draw s).seq = s.seq := rfl
@[simp] theorem draw_kind : (draw s).kind = s.kind := rfl
@[simp] theorem draw_oss : (draw s).oss = s.oss := rfl
@[simp] theorem draw_dtimer : (draw s).dtimer = s.dtimer := rfl
@[simp] theorem draw_cal : (draw s).cal = s.cal := rfl
@[simp] theorem draw_calValid : (draw s).calValid = s.calValid := rfl
@[simp] theorem draw_rbuf0 : (draw s).rbuf0 = s.rbuf0 := rfl
@[simp] theorem draw_rbuf1 : (draw s).rbuf1 = s.rbuf1 := rfl
@[simp] theorem draw_rbuf2 : (draw s).rbuf2 = s.rbuf2 := rfl
@[simp] theorem draw_ut : (draw s).ut = s.ut := rfl
@[simp] theorem draw_utValid : (draw s).utValid = s.utValid := rfl
@[simp] theorem draw_up : (draw s).up = s.up := rfl
@[simp] theorem draw_upValid : (draw s).upValid = s.upValid := rfl
@[simp] theorem draw_stg : (draw s).stg = s.stg := rfl
@[simp] theorem draw_b5Valid : (draw s).b5Valid = s.b5Valid := rfl
@[simp] theorem draw_cstep : (draw s).cstep = s.cstep := rfl
@[simp] theorem draw_rsp : (draw s).rsp = s.rsp := rfl
@[simp] theorem draw_ret : (draw s).ret = s.ret := rfl
@[simp] theorem draw_port : (draw s).env.port = s.env.port := rfl
@[simp] theorem draw_todo : (draw s).env.todo = s.env.todo := rfl
@[simp] theorem draw_sched : (draw s).env.sched = s.env.sched := rfl
@[simp] theorem draw_script : (draw s).env.script = s.env.script := rfl
@[simp] theorem draw_fresh : (draw s).env.fresh = s.env.fresh + 1 := rfl
@[simp] theorem draw_now : (draw s).env.now = s.env.now := rfl
@[simp] theorem draw_sensor : (draw s).env.sensor = s.env.sensor := rfl
@[simp] theorem draw_log : (draw s).env.log = s.env.log := rfl
end

section
variable (b : Bool) (s : State)
@[simp] theorem setOwned_ss : (setOwned b s).ss = s.ss := rfl
@[simp] theorem setOwned_owned : (setOwned b s).owned = b := rfl
@[simp] theorem setOwned_busy : (setOwned b s).busy = s.busy := rfl
@[simp] theorem setOwned_seq : (setOwned b s).seq = s.seq := rfl
@[simp] theorem setOwned_kind : (setOwned b s).kind = s.kind := rfl
@[simp] theorem setOwned_oss : (setOwned b s).oss = s.oss := rfl
@[simp] theorem setOwned_dtimer : (setOwned b s).dtimer = s.dtimer := rfl
@[simp] theorem setOwned_cal : (setOwned b s).cal = s.cal := rfl
@[simp] theorem setOwned_calValid : (setOwned b s).calValid = s.calValid := rfl
@[simp] theorem setOwned_rbuf0 : (setOwned b s).rbuf0 = s.rbuf0 := rfl
@[simp] theorem setOwned_rbuf1 : (setOwned b s).rbuf1 = s.rbuf1 := rfl
@[simp] theorem setOwned_rbuf2 : (setOwned b s).rbuf2 = s.rbuf2 := rfl
@[simp] theorem setOwned_ut : (setOwned b s).ut = s.ut := rfl
@[simp] theorem setOwned_utValid : (setOwned b s).utValid = s.utValid := rfl
@[simp] theorem setOwned_up : (setOwned b s).up = s.up := rfl
@[simp] theorem setOwned_upValid : (setOwned b s).upValid = s.upValid := rfl
@[simp] theorem setOwned_stg : (setOwned b s).stg = s.stg := rfl
@[simp] theorem setOwned_b5Valid : (setOwned b s).b5Valid = s.b5Valid := rfl
@[simp] theorem setOwned_cstep : (setOwned b s).cstep = s.cstep := rfl
@[simp] theorem setOwned_rsp : (setOwned b s).rsp = s.rsp := rfl
@[simp] theorem setOwned_ret : (setOwned b s).ret = s.ret := rfl
@[simp] theorem setOwned_port : (setOwned b s).env.port = s.env.port := rfl
@[simp] theorem setOwned_todo : (setOwned b s).env.todo = s.env.todo := rfl
@[simp] theorem setOwned_sched : (setOwned b s).env.sched = s.env.sched := rfl
@[simp] theorem setOwned_script : (setOwned b s).env.script = s.env.script := rfl
@[simp] theorem setOwned_fresh : (setOwned b s).env.fresh = s.env.fresh := rfl
@[simp] theorem setOwned_now : (setOwned b s).env.now = s.env.now := rfl
@[simp] theorem setOwned_sensor : (setOwned b s).env.sensor = s.env.sensor := rfl
@[simp] theorem setOwned_log : (setOwned b s).env.log = s.env.log := rfl
end

end Sys2Proof.Machine
end

