-- ==== Sys2Proof/Laws/Ops.lean ====
section
/-!
SUPPORT. For each shared operation, what it does: how operations are put together, what a moment can bring, what an exchange,
a wait, a command and a fetch leave. Provers cite these instead of unfolding the operations.
-/

namespace Sys2Proof.Machine

section
variable {φ α β : Type} {x : Op φ α} {f : α → Op φ β} {s s' : State}

theorem bind_ok {a : α} (h : x s = .ok a s') : (x >>= f) s = f a s' := by
  show EStateM.bind x f s = _
  simp [EStateM.bind, h]

theorem bind_error {e : Stop φ} (h : x s = .error e s') : (x >>= f) s = .error e s' := by
  show EStateM.bind x f s = _
  simp [EStateM.bind, h]

/-- Everything a sequence can do. -/
theorem bind_cases (x : Op φ α) (f : α → Op φ β) (s : State) :
    (∃ a s', x s = .ok a s' ∧ (x >>= f) s = f a s') ∨
      ∃ e s', x s = .error e s' ∧ (x >>= f) s = .error e s' := by
  cases h : x s with
  | ok a s' => exact .inl ⟨a, s', rfl, bind_ok h⟩
  | error e s' => exact .inr ⟨e, s', rfl, bind_error h⟩

@[simp] theorem pure_apply (a : α) : (pure a : Op φ α) s = .ok a s := rfl

@[simp] theorem update_apply (g : State → State) : (Op.update g : Op φ Unit) s = .ok () (g s) := rfl

@[simp] theorem update_bind (g : State → State) (f : Unit → Op φ β) : ((Op.update g : Op φ Unit) >>= f) s = f () (g s) := rfl

@[simp] theorem read_apply (g : State → α) : (Op.read g : Op φ α) s = .ok (g s) s := rfl

@[simp] theorem read_bind (g : State → α) : ((Op.read g : Op φ α) >>= f) s = f (g s) s := rfl

@[simp] theorem raise_apply (k : ErrKind) : (Op.raise k : Op φ α) s = .error (.raise k) s := rfl

theorem require_apply (c : State → Bool) (k : ErrKind) :
    (Op.require c k : Op φ Unit) s = if c s then .ok () s else .error (.raise k) s := rfl

theorem require_true {c : State → Bool} {k : ErrKind} (h : c s = true) : (Op.require c k : Op φ Unit) s = .ok () s := by
  simp [require_apply, h]

theorem require_false {c : State → Bool} {k : ErrKind} (h : c s = false) :
    (Op.require c k : Op φ Unit) s = .error (.raise k) s := by
  simp [require_apply, h]

theorem onRaise_ok {g : State → State} {a : α} (h : x s = .ok a s') : x.onRaise g s = .ok a s' := by
  simp [Op.onRaise, h]

theorem onRaise_raise {g : State → State} {k : ErrKind} (h : x s = .error (.raise k) s') :
    x.onRaise g s = .error (.raise k) (g s') := by
  simp [Op.onRaise, h]

theorem always_ok {g : State → State} {a : α} (h : x s = .ok a s') : x.always g s = .ok a (g s') := by
  simp [Op.always, h]

theorem always_raise {g : State → State} {k : ErrKind} (h : x s = .error (.raise k) s') :
    x.always g s = .error (.raise k) (g s') := by
  simp [Op.always, h]

theorem outcome_ok {a : α} (h : x s = .ok a s') : x.outcome s = .ok none s' := by
  simp [Op.outcome, h]

theorem outcome_raise {k : ErrKind} (h : x s = .error (.raise k) s') : x.outcome s = .ok (some k) s' := by
  simp [Op.outcome, h]

theorem surfaceAs_ok {k : ErrKind} {a : α} (h : x s = .ok a s') : x.surfaceAs k s = .ok a s' := by
  simp [Op.surfaceAs, h]

theorem surfaceAs_raise {k j : ErrKind} (h : x s = .error (.raise j) s') : x.surfaceAs k s = .error (.raise k) s' := by
  simp [Op.surfaceAs, h]

end

section
variable {φ : Type} {p : Params} {s t : State}

/-- What acts of the world outside, but a hardware reset, can change: the port, the response record, time, the schedule and the
trace. The trace gains the answers to the words refused while `BUSY` = 1 under `reject`, and nothing else. -/
structure Acted (p : Params) (s t : State) : Prop where
  regs   : SameRegs s t
  ret    : t.ret = s.ret
  todo   : t.env.todo = s.env.todo
  sched  : t.env.sched <:+ s.env.sched
  script : t.env.script = s.env.script
  fresh  : t.env.fresh = s.env.fresh
  kind   : t.env.sensor.kind = s.env.sensor.kind
  mid    : t.env.sensor.midWrite = s.env.sensor.midWrite
  left   : t.env.sensor.left ≤ s.env.sensor.left
  now    : s.env.now ≤ t.env.now
  log    : ∃ refused, t.env.log = refused ++ s.env.log ∧ (∀ e ∈ refused, e.2 = .response (errorResponse .sensorBusy)) ∧
    (refused = [] ∧ t.rsp = s.rsp ∨ s.busy = true ∧ p.busyPolicy = .reject ∧ t.rsp = errorResponse .sensorBusy)

theorem Acted.refl : Acted p s s :=
  ⟨rfl, rfl, rfl, List.suffix_rfl, rfl, rfl, rfl, rfl, le_rfl, le_rfl, [], rfl, by simp, .inl ⟨rfl, rfl⟩⟩

theorem Acted.busy (h : Acted p s t) : t.busy = s.busy := by
  have := h.regs
  unfold SameRegs at this
  rw [this]

theorem Acted.trans {u : State} (h : Acted p s t) (g : Acted p t u) : Acted p s u := by
  refine ⟨?_, g.ret.trans h.ret, g.todo.trans h.todo, g.sched.trans h.sched, g.script.trans h.script,
    g.fresh.trans h.fresh, g.kind.trans h.kind, g.mid.trans h.mid, g.left.trans h.left, h.now.trans g.now, ?_⟩
  · have h1 := h.regs
    have h2 := g.regs
    unfold SameRegs at *
    rw [h2, h1]
  · obtain ⟨old, ho, hro, hcase⟩ := h.log
    obtain ⟨new, hn, hrn, gcase⟩ := g.log
    refine ⟨new ++ old, by rw [hn, ho, List.append_assoc], by
      intro e he
      rcases List.mem_append.mp he with he | he
      · exact hrn e he
      · exact hro e he, ?_⟩
    rcases gcase with ⟨rfl, gr⟩ | ⟨gb, gp, gr⟩
    · rcases hcase with ⟨rfl, hr⟩ | ⟨hb, hp, hr⟩
      · exact .inl ⟨rfl, gr.trans hr⟩
      · exact .inr ⟨hb, hp, gr.trans hr⟩
    · exact .inr ⟨h.busy ▸ gb, gp, gr⟩

/-- Acts leave the timer as it is, so they are acts also at another value of it. -/
theorem Acted.setTimer (h : Acted p s t) (k : Nat) : Acted p (setTimer k s) (setTimer k t) := by
  refine ⟨?_, h.ret, h.todo, h.sched, h.script, h.fresh, h.kind, h.mid, h.left, h.now, h.log⟩
  have := h.regs
  unfold SameRegs at *
  rw [this]
  rfl

/-- No act of the world outside is an exchange. -/
theorem Acted.exchanges (h : Acted p s t) : exchangesOf t.env.log = exchangesOf s.env.log := by
  obtain ⟨refused, hl, hr, -⟩ := h.log
  rw [hl]
  clear hl
  induction refused with
  | nil => rfl
  | cons e l ih =>
    obtain ⟨time, event⟩ := e
    obtain rfl : event = .response (errorResponse .sensorBusy) := hr _ List.mem_cons_self
    exact ih fun x hx => hr x (List.mem_cons_of_mem _ hx)

theorem dropAct_acted : Acted p s (dropAct s) :=
  ⟨rfl, rfl, rfl, List.tail_suffix _, rfl, rfl, rfl, rfl, le_rfl, le_rfl, [], rfl, by simp, .inl ⟨rfl, rfl⟩⟩

theorem elapse_acted (n : Nat) : Acted p s (elapse n s) :=
  ⟨rfl, rfl, rfl, List.suffix_rfl, rfl, rfl, rfl, rfl, Nat.sub_le _ _, Nat.le_add_right _ _, [], rfl, by simp,
    .inl ⟨rfl, rfl⟩⟩

theorem present_free {cw : CmdWord} (hb : s.busy = false) : present p cw s = pend cw s := by
  simp [present, hb]

theorem present_block {cw : CmdWord} (hp : p.busyPolicy = .block) : present p cw s = pend cw s := by
  simp [present, hp]

theorem present_reject {cw : CmdWord} (hb : s.busy = true) (hp : p.busyPolicy = .reject) :
    present p cw s = respond (errorResponse .sensorBusy) s := by
  simp [present, hb, hp]

theorem present_acted (cw : CmdWord) : Acted p s (present p cw s) := by
  have hp : Acted p s (pend cw s) :=
    ⟨rfl, rfl, rfl, List.suffix_rfl, rfl, rfl, rfl, rfl, le_rfl, le_rfl, [], rfl, by simp, .inl ⟨rfl, rfl⟩⟩
  unfold present
  split
  · rename_i hb
    split
    · exact hp
    · rename_i hp
      exact ⟨rfl, rfl, rfl, List.suffix_rfl, rfl, rfl, rfl, rfl, le_rfl, le_rfl,
        [(s.env.now, .response (errorResponse .sensorBusy))], rfl, by simp, .inr ⟨hb, hp, rfl⟩⟩
  · exact hp

@[simp] theorem present_sched (cw : CmdWord) : (present p cw s).env.sched = s.env.sched := by
  unfold present
  split
  · split <;> rfl
  · rfl

/-- Everything the acts of a moment can do, for a relation that each of them keeps: they are all performed, or a hardware reset
among them drops the operation. -/
theorem runActs_cases {pass : Nat → State → State} {R : State → State → Prop} (hr : ∀ s, R s s)
    (ht : ∀ s t u, R s t → R t u → R s u) (hd : ∀ s, R s (dropAct s)) (hp : ∀ cw s, R s (present p cw s))
    (he : ∀ n s, R s (pass n s)) (hs : ∀ n s, (pass n s).env.sched = s.env.sched) :
    ∀ (l : List HostAct) (s : State), s.env.sched = l →
      (∃ t, (runActs p pass l : Op φ Unit) s = .ok () t ∧ R s t) ∨
        ∃ u, R s u ∧ u.env.sched.head? = some .hardwareReset ∧
          (runActs p pass l : Op φ Unit) s = .error .dropped (hardwareReset (dropAct u))
  | [], s, _ => .inl ⟨s, rfl, hr s⟩
  | .quiet :: _, s, _ => .inl ⟨_, rfl, hd s⟩
  | .hardwareReset :: _, s, h => .inr ⟨s, hr s, by rw [h]; rfl, rfl⟩
  | .present cw :: rest, s, h => by
    have hR := ht _ _ _ (hd s) (hp cw _)
    rcases runActs_cases hr ht hd hp he hs rest (present p cw (dropAct s)) (by simp [dropAct, h]) with
      ⟨t, hx, hy⟩ | ⟨u, hx, hh, hy⟩
    · exact .inl ⟨t, hx, ht _ _ _ hR hy⟩
    · exact .inr ⟨u, ht _ _ _ hR hx, hh, hy⟩
  | .elapse n :: rest, s, h => by
    have hR := ht _ _ _ (hd s) (he n _)
    rcases runActs_cases hr ht hd hp he hs rest (pass n (dropAct s)) (by simp [hs, dropAct, h]) with
      ⟨t, hx, hy⟩ | ⟨u, hx, hh, hy⟩
    · exact .inl ⟨t, hx, ht _ _ _ hR hy⟩
    · exact .inr ⟨u, ht _ _ _ hR hx, hh, hy⟩

/-- A moment at which the host presents a word: what comes after it at this moment still happens. -/
theorem moment_present {cw : CmdWord} {rest : List HostAct} (h : s.env.sched = .present cw :: rest) :
    (moment p : Op φ Unit) s = (moment p : Op φ Unit) (present p cw (dropAct s)) := by
  unfold moment
  simp [h, runActs, dropAct]

/-- A moment at which time passes. -/
theorem moment_elapse {n : Nat} {rest : List HostAct} (h : s.env.sched = .elapse n :: rest) :
    (moment p : Op φ Unit) s = (moment p : Op φ Unit) (elapse n (dropAct s)) := by
  unfold moment
  simp [h, runActs, dropAct]

/-- A moment at which nothing more happens. -/
theorem moment_end {rest : List HostAct} (h : s.env.sched = .quiet :: rest) :
    (moment p : Op φ Unit) s = .ok () (dropAct s) := by
  unfold moment
  simp [h, runActs]

/-- A moment of a wait at which the host presents a word. -/
theorem waitMoment_present {cw : CmdWord} {rest : List HostAct} (h : s.env.sched = .present cw :: rest) :
    (waitMoment p : Op φ Unit) s = (waitMoment p : Op φ Unit) (present p cw (dropAct s)) := by
  unfold waitMoment
  simp [h, runActs, dropAct]

/-- A moment of a wait at which time passes. -/
theorem waitMoment_elapse {n : Nat} {rest : List HostAct} (h : s.env.sched = .elapse n :: rest) :
    (waitMoment p : Op φ Unit) s = (waitMoment p : Op φ Unit) (runTimer n (dropAct s)) := by
  unfold waitMoment
  simp [h, runActs, dropAct]

/-- A moment of a wait at which nothing more happens. -/
theorem waitMoment_end {rest : List HostAct} (h : s.env.sched = .quiet :: rest) :
    (waitMoment p : Op φ Unit) s = .ok () (dropAct s) := by
  unfold waitMoment
  simp [h, runActs]

@[simp] theorem waitMoment_quiet (h : Quiet s) : (waitMoment p : Op φ Unit) s = .ok () s := by
  unfold waitMoment
  rw [h]
  rfl

/-- Everything a moment can do. -/
theorem moment_cases (p : Params) (s : State) :
    (∃ t, (moment p : Op φ Unit) s = .ok () t ∧ Acted p s t) ∨
      ∃ u, Acted p s u ∧ u.env.sched.head? = some .hardwareReset ∧
        (moment p : Op φ Unit) s = .error .dropped (hardwareReset (dropAct u)) :=
  runActs_cases (fun _ => Acted.refl) (fun _ _ _ => Acted.trans) (fun _ => dropAct_acted)
    (fun cw _ => present_acted cw) (fun n _ => elapse_acted n) (fun _ _ => rfl) s.env.sched s rfl

theorem Acted.calm (h : Acted p s t) (hc : Calm s) : Calm t := fun hm => hc (h.sched.subset hm)

theorem moment_calm (p : Params) (h : Calm s) : ∃ t, (moment p : Op φ Unit) s = .ok () t ∧ Acted p s t := by
  rcases moment_cases (φ := φ) p s with ht | ⟨u, ha, hr, -⟩
  · exact ht
  · exact absurd (List.mem_of_head? hr) (ha.calm h)

@[simp] theorem moment_quiet (h : Quiet s) : (moment p : Op φ Unit) s = .ok () s := by
  unfold moment
  rw [h]
  rfl

/-- Every answer has the shape of spec/20_memory.md R40. -/
theorem shaped_hasShape (w : List Byte) (r : Nat) (a : Answer) : HasShape w r (shaped w r a) := by
  intro nw rb h
  cases a with
  | err => cases h
  | done n bs =>
    cases h
    exact ⟨Nat.min_le_right _ _, List.length_take_le _ _⟩

/-- An answer of the shape is taken as it stands. -/
theorem shaped_eq {w : List Byte} {r : Nat} {a : Answer} (h : HasShape w r a) : shaped w r a = a := by
  cases a with
  | err => rfl
  | done nw rb =>
    obtain ⟨hn, hr⟩ := h nw rb rfl
    simp [shaped, Nat.min_eq_left hn, List.take_of_length_le hr]

theorem answerAt_hasShape (w : List Byte) (r : Nat) (script : List Answer) (n : Nat) : HasShape w r (answerAt w r script n) :=
  shaped_hasShape w r _

theorem nextAnswer_hasShape (w : List Byte) (r : Nat) (s : State) : HasShape w r (nextAnswer w r s) :=
  shaped_hasShape w r _

/-- Every answer of the shape can be given. -/
theorem answerAt_cons {w : List Byte} {r : Nat} {a : Answer} (rest : List Answer) (n : Nat) (h : HasShape w r a) :
    answerAt w r (a :: rest) n = a :=
  shaped_eq h

/-- An exchange with nothing happening outside. -/
theorem exchange_quiet (w : List Byte) (r : Nat) (h : Quiet s) :
    (exchange p w r : Op φ Answer) s = .ok (nextAnswer w r s) (afterExchange p w r s) := by
  unfold exchange
  rw [bind_ok (moment_quiet h)]
  rfl

/-- An exchange when no hardware reset comes. -/
theorem exchange_calm (w : List Byte) (r : Nat) (h : Calm s) :
    ∃ t, Acted p s t ∧ (exchange p w r : Op φ Answer) s = .ok (nextAnswer w r t) (afterExchange p w r t) := by
  obtain ⟨t, ht, ha⟩ := moment_calm (φ := φ) p h
  exact ⟨t, ha, by unfold exchange; rw [bind_ok ht]; rfl⟩

@[simp] theorem afterExchange_regs (w : List Byte) (r : Nat) : SameRegs s (afterExchange p w r s) := rfl

@[simp] theorem elapse_zero : elapse 0 s = s := rfl

theorem elapse_elapse (m n : Nat) : elapse m (elapse n s) = elapse (n + m) s := by
  simp [elapse, Nat.sub_sub, Nat.add_assoc]

/-- What a wait can do while `n` ticks of it pass: the timer and the sensor's conversion have run on by just these. -/
structure Waited (p : Params) (n : Nat) (s t : State) : Prop where
  acted : Acted p s (setTimer s.dtimer t)
  timer : t.dtimer = s.dtimer - n
  left  : t.env.sensor.left = s.env.sensor.left - n
  now   : t.env.now = s.env.now + n

theorem Waited.of_acted (h : Acted p s t) (hl : t.env.sensor.left = s.env.sensor.left) (hn : t.env.now = s.env.now) :
    Waited p 0 s t := by
  have hd : t.dtimer = s.dtimer := by
    have := h.regs
    unfold SameRegs at this
    rw [this]
  exact ⟨by rw [← hd]; exact h, hd, hl, hn⟩

theorem Waited.refl : Waited p 0 s s := .of_acted .refl rfl rfl

theorem Waited.trans {m n : Nat} {u : State} (h : Waited p m s t) (g : Waited p n t u) : Waited p (m + n) s u where
  acted := h.acted.trans (g.acted.setTimer s.dtimer)
  timer := by rw [g.timer, h.timer, Nat.sub_sub]
  left  := by rw [g.left, h.left, Nat.sub_sub]
  now   := by rw [g.now, h.now, Nat.add_assoc]

theorem runTimer_waited (n : Nat) : Waited p n s (runTimer n s) := ⟨elapse_acted n, rfl, rfl, rfl⟩

theorem Waited.calm {n : Nat} (h : Waited p n s t) (hc : Calm s) : Calm t := h.acted.calm hc

/-- Everything a moment of a wait can do. -/
theorem waitMoment_cases (p : Params) (s : State) :
    (∃ n t, (waitMoment p : Op φ Unit) s = .ok () t ∧ Waited p n s t) ∨
      ∃ n u, Waited p n s u ∧ u.env.sched.head? = some .hardwareReset ∧
        (waitMoment p : Op φ Unit) s = .error .dropped (hardwareReset (dropAct u)) := by
  have hp : ∀ cw s, ∃ n, Waited p n s (present p cw s) := fun cw s => by
    refine ⟨0, .of_acted (present_acted cw) ?_ ?_⟩ <;>
    · unfold present
      split
      · split <;> rfl
      · rfl
  rcases runActs_cases (φ := φ) (p := p) (pass := runTimer) (R := fun s t => ∃ n, Waited p n s t) (fun _ => ⟨0, .refl⟩)
      (fun _ _ _ ⟨m, h⟩ ⟨n, g⟩ => ⟨m + n, h.trans g⟩) (fun _ => ⟨0, .of_acted dropAct_acted rfl rfl⟩) hp
      (fun n _ => ⟨n, runTimer_waited n⟩) (fun _ _ => rfl) s.env.sched s rfl with ⟨t, ht, n, hw⟩ | ⟨u, ⟨n, hw⟩, hh, hu⟩
  · exact .inl ⟨n, t, ht, hw⟩
  · exact .inr ⟨n, u, hw, hh, hu⟩

theorem tick_waited (s : State) : Waited p (min 1 s.dtimer) s (tick s) := runTimer_waited _

theorem countDown_zero {fuel : Nat} (h : s.dtimer = 0) : (countDown p fuel : Op φ Unit) s = .ok () s := by
  cases fuel with
  | zero => rfl
  | succ k =>
    unfold countDown
    rw [read_bind]
    simp [h]

theorem countDown_succ {k : Nat} (h : s.dtimer ≠ 0) :
    (countDown p (k + 1) : Op φ Unit) s =
      (do waitMoment p; Op.update tick; countDown p k : Op φ Unit) s := by
  conv_lhs => unfold countDown
  rw [read_bind, if_neg h]

/-- Everything the count-down can do: it ends with `DTIMER` = 0, or a hardware reset in it drops the operation. -/
theorem countDown_cases (p : Params) (fuel : Nat) (s : State) (hf : s.dtimer ≤ fuel) :
    (∃ n t, (countDown p fuel : Op φ Unit) s = .ok () t ∧ Waited p n s t ∧ t.dtimer = 0) ∨
      ∃ n u, Waited p n s u ∧ u.env.sched.head? = some .hardwareReset ∧
        (countDown p fuel : Op φ Unit) s = .error .dropped (hardwareReset (dropAct u)) := by
  induction fuel generalizing s with
  | zero => exact .inl ⟨0, s, rfl, .refl, Nat.le_zero.mp hf⟩
  | succ k ih =>
    by_cases h : s.dtimer = 0
    · exact .inl ⟨0, s, countDown_zero h, .refl, h⟩
    rw [countDown_succ h]
    rcases waitMoment_cases (φ := φ) p s with ⟨m, t, ht, hw⟩ | ⟨m, u, hw, hh, hu⟩
    · rw [bind_ok ht, update_bind]
      have ht := hw.trans (tick_waited t)
      have := hw.timer
      have := (tick_waited (p := p) t).timer
      have hk : (tick t).dtimer ≤ k := by omega
      rcases ih (tick t) hk with ⟨n, v, hv, hx, h0⟩ | ⟨n, v, hx, hh, hv⟩
      · exact .inl ⟨_, v, hv, ht.trans hx, h0⟩
      · exact .inr ⟨_, v, ht.trans hx, hh, hv⟩
    · exact .inr ⟨m, u, hw, hh, bind_error hu⟩

/-- Everything `wait(us)` can do: at least its delay has passed at its end, whatever else happened in it; or a hardware reset in it
drops the operation (spec/42_measurement.md R104, R108). -/
theorem wait_cases (p : Params) (us : Nat) (s : State) :
    (∃ n t, (wait p us : Op φ Unit) s = .ok () t ∧ Waited p n (setTimer (ticks p us) s) t ∧ t.dtimer = 0 ∧
        ticks p us ≤ n) ∨
      ∃ n u, Waited p n (setTimer (ticks p us) s) u ∧ u.env.sched.head? = some .hardwareReset ∧
        (wait p us : Op φ Unit) s = .error .dropped (hardwareReset (dropAct u)) := by
  unfold wait
  rw [update_bind]
  rcases countDown_cases (φ := φ) p (ticks p us) (setTimer (ticks p us) s) le_rfl with ⟨n, t, ht, hw, h0⟩ | h
  · exact .inl ⟨n, t, ht, hw, h0, Nat.sub_eq_zero_iff_le.mp (hw.timer.symm.trans h0)⟩
  · exact .inr h

/-- The count-down with nothing happening outside: `DTIMER` ticks pass, nothing else. -/
theorem countDown_quiet {fuel : Nat} (h : Quiet s) (hf : s.dtimer ≤ fuel) :
    (countDown p fuel : Op φ Unit) s = .ok () (setTimer 0 (elapse s.dtimer s)) := by
  have done : ∀ t : State, t.dtimer = 0 → t = setTimer 0 (elapse t.dtimer t) := fun t ht => by
    cases t
    obtain rfl : _ = 0 := ht
    rfl
  induction fuel generalizing s with
  | zero => exact congrArg _ (done s (Nat.le_zero.mp hf))
  | succ n ih =>
    by_cases h0 : s.dtimer = 0
    · rw [countDown_zero h0, ← done s h0]
    have ht : tick s = runTimer 1 s := by
      unfold tick
      rw [show min 1 s.dtimer = 1 by omega]
    have hq : Quiet (runTimer 1 s) := h
    rw [countDown_succ h0, bind_ok (waitMoment_quiet h), update_bind, ht, ih hq (by simp [runTimer]; omega)]
    have := elapse_elapse (s := s) (s.dtimer - 1) 1
    rw [show 1 + (s.dtimer - 1) = s.dtimer by omega] at this
    rw [← this]
    rfl

/-- `wait(us)` with nothing happening outside (spec/42_measurement.md R104). -/
theorem wait_quiet (us : Nat) (h : Quiet s) :
    (wait p us : Op φ Unit) s = .ok () (setTimer 0 (elapse (ticks p us) s)) := by
  unfold wait
  have hq : Quiet (setTimer (ticks p us) s) := h
  rw [update_bind]
  exact countDown_quiet hq le_rfl

/-- The wait is never shorter than the delay (spec/42_measurement.md R104). -/
theorem ticks_covers (h : 0 < p.tickNum) (us : Nat) : us * p.tickDen ≤ ticks p us * p.tickNum := by
  unfold ticks
  have := Nat.div_add_mod (us * p.tickDen + (p.tickNum - 1)) p.tickNum
  have := Nat.mod_lt (us * p.tickDen + (p.tickNum - 1)) h
  rw [Nat.mul_comm p.tickNum] at *
  omega

/-- The timer is loaded with no more ticks than the delay needs (spec/42_measurement.md R104). -/
theorem ticks_tight (h : 0 < p.tickNum) (us n : Nat) (hn : us * p.tickDen ≤ n * p.tickNum) : ticks p us ≤ n := by
  unfold ticks
  have : (us * p.tickDen + (p.tickNum - 1)) / p.tickNum < n + 1 := by
    rw [Nat.div_lt_iff_lt_mul h, Nat.add_mul]
    omega
  omega

theorem settle_ok {x : Op φ Payload} {a : Payload} (h : x s = .ok a t) : settle x s = .ok (successResponse a) t := by
  simp [settle, h]

theorem settle_raise {x : Op φ Payload} {k : ErrKind} (h : x s = .error (.raise k) t) :
    settle x s = .ok (errorResponse k) t := by
  simp [settle, h]

theorem settle_dropped {x : Op φ Payload} (h : x s = .error .dropped t) : settle x s = .error .dropped t := by
  simp [settle, h]

/-- An accepted command whose operation succeeded, nothing happening outside before the response. -/
theorem accepted_ok {x : Op φ Payload} {a : Payload} (h : x (setBusy true s) = .ok a t) (hq : Quiet t) :
    accepted p x s = .ok () (setBusy false (respond (successResponse a) t)) := by
  unfold accepted
  rw [update_bind, bind_ok (settle_ok h), bind_ok (moment_quiet hq)]
  rfl

/-- An accepted command whose operation raised an error, nothing happening outside before the response. -/
theorem accepted_raise {x : Op φ Payload} {k : ErrKind} (h : x (setBusy true s) = .error (.raise k) t)
    (hq : Quiet t) : accepted p x s = .ok () (setBusy false (respond (errorResponse k) t)) := by
  unfold accepted
  rw [update_bind, bind_ok (settle_raise h), bind_ok (moment_quiet hq)]
  rfl

/-- Everything an accepted command can do. -/
theorem accepted_cases (p : Params) (x : Op φ Payload) (s : State) :
    (∃ r t u, settle x (setBusy true s) = .ok r t ∧ Acted p t u ∧
        accepted p x s = .ok () (setBusy false (respond r u))) ∨
      (∃ r t u, settle x (setBusy true s) = .ok r t ∧ Acted p t u ∧ u.env.sched.head? = some .hardwareReset ∧
        accepted p x s = .error .dropped (hardwareReset (dropAct u))) ∨
      ∃ e t, settle x (setBusy true s) = .error e t ∧ accepted p x s = .error e t := by
  unfold accepted
  rw [update_bind]
  rcases bind_cases (settle x) _ (setBusy true s) with ⟨r, t, h, hb⟩ | ⟨e, t, h, hb⟩
  · rw [hb]
    rcases moment_cases (φ := φ) p t with ⟨u, hu, ha⟩ | ⟨u, ha, hh, hu⟩
    · exact .inl ⟨r, t, u, h, ha, by rw [bind_ok hu]; rfl⟩
    · exact .inr (.inl ⟨r, t, u, h, ha, hh, by rw [bind_error hu]⟩)
  · exact .inr (.inr ⟨e, t, h, hb⟩)

/-- A command presented while `BUSY` = 1. -/
theorem runCommand_busy {i : Instr} {x : Op Empty Payload} (h : s.busy = true) :
    runCommand p i x s = .next (present p (encode i).toWord s) := by
  simp [runCommand, h]

/-- A command accepted, succeeding. -/
theorem runCommand_ok {i : Instr} {x : Op Empty Payload} {a : Payload} (h : s.busy = false)
    (hx : x (setBusy true s) = .ok a t) (hq : Quiet t) :
    runCommand p i x s = .next (setBusy false (respond (successResponse a) t)) := by
  simp [runCommand, h, accepted_ok hx hq, endState]

/-- A command accepted, ending with an error. -/
theorem runCommand_raise {i : Instr} {x : Op Empty Payload} {k : ErrKind} (h : s.busy = false)
    (hx : x (setBusy true s) = .error (.raise k) t) (hq : Quiet t) :
    runCommand p i x s = .next (setBusy false (respond (errorResponse k) t)) := by
  simp [runCommand, h, accepted_raise hx hq, endState]

theorem runEngineCommand_busy {i : Instr} {x : Op Fault Payload} (h : s.busy = true) :
    runEngineCommand p i x s = .next (present p (encode i).toWord s) := by
  simp [runEngineCommand, h]

theorem runEngineCommand_ok {i : Instr} {x : Op Fault Payload} {a : Payload} (h : s.busy = false)
    (hx : x (setBusy true s) = .ok a t) (hq : Quiet t) :
    runEngineCommand p i x s = .next (setBusy false (respond (successResponse a) t)) := by
  simp [runEngineCommand, h, accepted_ok hx hq, endOutcome]

theorem runEngineCommand_raise {i : Instr} {x : Op Fault Payload} {k : ErrKind} (h : s.busy = false)
    (hx : x (setBusy true s) = .error (.raise k) t) (hq : Quiet t) :
    runEngineCommand p i x s = .next (setBusy false (respond (errorResponse k) t)) := by
  simp [runEngineCommand, h, accepted_raise hx hq, endOutcome]

/-- An internal operation on its own, returning. -/
theorem runInternal_ok {x : Op Empty OpResult} {a : OpResult} (h : x s = .ok a t) :
    runInternal x s = .next (putRet a t) := by
  simp [runInternal, returning, bind_ok h, endState]

/-- An internal operation on its own, raising. -/
theorem runInternal_raise {x : Op Empty OpResult} {k : ErrKind} (h : x s = .error (.raise k) t) :
    runInternal x s = .next (putRet (.raised k) t) := by
  simp [runInternal, returning, bind_error h, endState]

/-- An internal operation on its own, dropped by a hardware reset. -/
theorem runInternal_dropped {x : Op Empty OpResult} (h : x s = .error .dropped t) : runInternal x s = .next t := by
  simp [runInternal, returning, bind_error h, endState]

/-- A step of the engine that requires a flag, on its own, returning. -/
theorem runEngine_ok {x : Op Fault OpResult} {a : OpResult} (h : x s = .ok a t) : runEngine x s = .next (putRet a t) := by
  simp [runEngine, returning, bind_ok h, endOutcome]

/-- The same, raising. -/
theorem runEngine_raise {x : Op Fault OpResult} {k : ErrKind} (h : x s = .error (.raise k) t) :
    runEngine x s = .next (putRet (.raised k) t) := by
  simp [runEngine, returning, bind_error h, endOutcome]

/-- The same, without the flag. -/
theorem runEngine_fault {x : Op Fault OpResult} {f : Fault} (h : x s = .error (.fault f) t) : runEngine x s = .fault f := by
  simp [runEngine, returning, bind_error h, endOutcome]

end

end Sys2Proof.Machine
end

