-- ==== Sys2Proof/Laws/Arith.lean ====
section
/-!
SUPPORT. The range checks, the registers that receive what passed them, shifts and divisions as they are on the integers, and
one step of the engine.
-/

namespace Sys2Proof.Machine

section
variable {α β : Type} {v d : Int}

@[simp] theorem except_bind_ok (a : α) (f : α → Except ErrKind β) : (Except.ok a >>= f) = f a := rfl

@[simp] theorem except_bind_error (e : ErrKind) (f : α → Except ErrKind β) : (Except.error e >>= f) = .error e := rfl

theorem chkS32_ok (h : InS32 v) : chkS32 v = .ok v := if_pos h

theorem chkS32_fail (h : ¬ InS32 v) : chkS32 v = .error .compensationOverflow := if_neg h

theorem chkU32_ok (h : InU32 v) : chkU32 v = .ok v := if_pos h

theorem chkU32_fail (h : ¬ InU32 v) : chkU32 v = .error .compensationOverflow := if_neg h

theorem nonzero_ok (h : d ≠ 0) : nonzero d = .ok d := if_neg h

@[simp] theorem nonzero_zero : nonzero 0 = .error .compensationDomainError := rfl

theorem asr_eq (v : Int) (n : Nat) : asr v n = v / 2 ^ n := by
  simp [asr, Int.shiftRight_eq_div_pow]

theorem shl_eq (v : Int) (n : Nat) : shl v n = v * 2 ^ n := rfl

/-- A signed register holds what passed the signed check. -/
theorem toWord_toInt (h : InS32 v) : (toWord v).toInt = v := by
  simp only [InS32] at h
  rw [toWord, BitVec.toInt_ofInt, Int.bmod_eq_of_le] <;> omega

/-- An unsigned register holds what passed the unsigned check. -/
theorem toWord_toNat (h : InU32 v) : ((toWord v).toNat : Int) = v := by
  simp only [InU32] at h
  rw [toWord, BitVec.toNat_ofInt]
  omega

/-- A shift to the right keeps a signed value in range. -/
theorem inS32_div {n : Nat} (h : InS32 v) : InS32 (v / 2 ^ n) := by
  have hp : (1 : Int) ≤ 2 ^ n := by exact_mod_cast Nat.one_le_two_pow
  obtain ⟨h1, h2⟩ := h
  constructor
  · rw [Int.le_ediv_iff_mul_le (by omega)]
    nlinarith
  · have := Int.ediv_lt_of_lt_mul (a := v) (b := 2147483648) (c := 2 ^ n) (by omega) (by nlinarith)
    omega

/-- A shift to the right keeps an unsigned value in range. -/
theorem inU32_div {n : Nat} (h : InU32 v) : InU32 (v / 2 ^ n) := by
  have hp : (1 : Int) ≤ 2 ^ n := by exact_mod_cast Nat.one_le_two_pow
  obtain ⟨h1, h2⟩ := h
  constructor
  · exact Int.ediv_nonneg h1 (by omega)
  · have := Int.ediv_lt_of_lt_mul (a := v) (b := 4294967296) (c := 2 ^ n) (by omega) (by nlinarith)
    omega

end

section
variable {φ : Type} {s t : State} {k : Nat} {f : State → Except ErrKind State} {e : ErrKind}

/-- A step of the engine that passes its checks. -/
theorem engineStep_ok (h : f s = .ok t) : (engineStep k f : Op φ Unit) s = .ok () (setStep (nextStep k) t) := by
  simp [engineStep, h]

/-- A step of the engine that does not. -/
theorem engineStep_raise (h : f s = .error e) : (engineStep k f : Op φ Unit) s = .error (.raise e) (setStep 0 s) := by
  simp [engineStep, h]

/-- A write before the last of a step that passes its check. -/
theorem engineWrite_ok (h : f s = .ok t) : (engineWrite f : Op φ Unit) s = .ok () t := by
  simp [engineWrite, h]

/-- A write before the last of a step that does not. -/
theorem engineWrite_raise (h : f s = .error e) : (engineWrite f : Op φ Unit) s = .error (.raise e) (setStep 0 s) := by
  simp [engineWrite, h]

/-- A step on its own that passes its checks. -/
theorem runEngineStep_ok (h : f s = .ok t) :
    runInternal (do engineStep k f; pure .unit) s = .next (putRet .unit (setStep (nextStep k) t)) :=
  runInternal_ok ((bind_ok (engineStep_ok h)).trans rfl)

/-- A step on its own that does not. -/
theorem runEngineStep_raise (h : f s = .error e) :
    runInternal (do engineStep k f; pure .unit) s = .next (putRet (.raised e) (setStep 0 s)) :=
  runInternal_raise (bind_error (engineStep_raise h))

end

end Sys2Proof.Machine
end

