-- ==== Sys2Proof/Laws/Bytes.lean ====
section
/-!
SUPPORT. Bytes put together and taken apart, and the raw counts as natural numbers.
-/

namespace Sys2Proof

@[simp] theorem be16_toNat (m l : Byte) : (be16 m l).toNat = m.toNat * 256 + l.toNat := by
  have h : (be16 m l).toNat = m.toNat <<< 8 ||| l.toNat := BitVec.toNat_append m l
  rw [h, Nat.shiftLeft_eq, Nat.mul_comm, ← Nat.two_pow_add_eq_or_of_lt l.isLt]

@[simp] theorem be24_toNat (m l x : Byte) : (be24 m l x).toNat = m.toNat * 65536 + l.toNat * 256 + x.toNat := by
  have h : (be24 m l x).toNat = (be16 m l).toNat <<< 8 ||| x.toNat := BitVec.toNat_append (be16 m l) x
  rw [h, be16_toNat, Nat.shiftLeft_eq, Nat.mul_comm, ← Nat.two_pow_add_eq_or_of_lt x.isLt]
  omega

theorem hiByte_toNat (u : Half) : (hiByte u).toNat = u.toNat / 256 := by
  have := u.isLt
  simp only [hiByte, BitVec.extractLsb'_toNat, Nat.shiftRight_eq_div_pow]
  omega

theorem loByte_toNat (u : Half) : (loByte u).toNat = u.toNat % 256 := by
  simp only [loByte, BitVec.extractLsb'_toNat, Nat.shiftRight_eq_div_pow]
  simp

@[simp] theorem hiByte_be16 (m l : Byte) : hiByte (be16 m l) = m := by
  have := l.isLt
  apply BitVec.eq_of_toNat_eq
  rw [hiByte_toNat, be16_toNat]
  omega

@[simp] theorem loByte_be16 (m l : Byte) : loByte (be16 m l) = l := by
  have := l.isLt
  apply BitVec.eq_of_toNat_eq
  rw [loByte_toNat, be16_toNat]
  omega

@[simp] theorem be16_hiByte_loByte (u : Half) : be16 (hiByte u) (loByte u) = u := by
  apply BitVec.eq_of_toNat_eq
  rw [be16_toNat, hiByte_toNat, loByte_toNat]
  omega

namespace Machine

/-- `UT` as a number (spec/30_encoding.md R68). -/
theorem assembleUT_toNat (m l : Byte) : (assembleUT m l).toNat = m.toNat * 256 + l.toNat := be16_toNat m l

/-- `UP` as a number: nothing is lost in the 20 bits of the register (spec/30_encoding.md R69). -/
theorem assembleUP_toNat (o : Level) (m l x : Byte) :
    (assembleUP o m l x).toNat = (m.toNat * 65536 + l.toNat * 256 + x.toNat) / 2 ^ (8 - o.toNat) := by
  have hm := m.isLt
  have hl := l.isLt
  have hx := x.isLt
  have ho := o.isLt
  simp only [assembleUP, BitVec.toNat_setWidth, BitVec.toNat_ushiftRight, be24_toNat, Nat.shiftRight_eq_div_pow]
  apply Nat.mod_eq_of_lt
  rw [Nat.div_lt_iff_lt_mul (by positivity)]
  have : 2 ^ 5 ≤ 2 ^ (8 - o.toNat) := Nat.pow_le_pow_right (by omega) (by omega)
  omega

end Machine
end Sys2Proof
end

