-- ==== Sys2Proof/Laws/Engine.lean ====
section
/-!
SUPPORT. What the registers of the engine can hold, and how a step's computation becomes the claim `StepWrites`.
-/

namespace Sys2Proof.Machine

/-- A signed coefficient is a 16-bit value. -/
theorem half_toInt_bounds (h : Half) : -32768 ≤ h.toInt ∧ h.toInt ≤ 32767 := by
  have h1 := BitVec.toInt_lt (x := h)
  have h2 := BitVec.le_toInt (x := h)
  simp only [Nat.add_one_sub_one] at h1 h2
  omega

/-- A signed staging register is a 32-bit value. -/
theorem word_toInt_inS32 (w : Word) : InS32 w.toInt := by
  have h1 := BitVec.toInt_lt (x := w)
  have h2 := BitVec.le_toInt (x := w)
  simp only [Nat.add_one_sub_one] at h1 h2
  constructor <;> omega

section
variable {i : Instr} {s : State} {put : Word → Staging} {next : BitVec 5} {checks : Prop} {v : Int}
  {f : State → Except ErrKind State} {k : Nat}

theorem stepWrites_of (he : exec i s = runInternal (do engineStep k f; pure .unit) s) (hk : nextStep k = next)
    (hv : checks → InS32 v) (hok : checks → f s = .ok { s with stg := put (toWord v) })
    (hfail : ¬ checks → f s = .error .compensationOverflow) : StepWrites i s put next checks v := by
  refine ⟨fun hc => ⟨toWord v, toWord_toInt (hv hc), ?_⟩, fun hc => ?_⟩
  · rw [he, runEngineStep_ok (hok hc), hk]
    rfl
  · rw [he, runEngineStep_raise (hfail hc)]
    rfl

theorem stepWritesUnsigned_of (he : exec i s = runInternal (do engineStep k f; pure .unit) s) (hk : nextStep k = next)
    (hv : checks → InU32 v) (hok : checks → f s = .ok { s with stg := put (toWord v) })
    (hfail : ¬ checks → f s = .error .compensationOverflow) : StepWritesUnsigned i s put next checks v := by
  refine ⟨fun hc => ⟨toWord v, toWord_toNat (hv hc), ?_⟩, fun hc => ?_⟩
  · rw [he, runEngineStep_ok (hok hc), hk]
    rfl
  · rw [he, runEngineStep_raise (hfail hc)]
    rfl

end

/-- The state after a computation of the engine: staging registers and `B5_VALID` may have changed, nothing else. -/
abbrev EngineRegs (s t : State) : Prop := t = { s with stg := t.stg, b5Valid := t.b5Valid }

theorem except_bind_inv {α β : Type} {x : Except ErrKind α} {f : α → Except ErrKind β} {b : β} (h : (x >>= f) = .ok b) :
    ∃ a, x = .ok a ∧ f a = .ok b := by
  cases x with
  | ok a => exact ⟨a, rfl, h⟩
  | error e => cases h

section
variable {s t : State}

theorem compute1_regs (h : compute1 s = .ok t) : EngineRegs s t ∧ t.b5Valid = s.b5Valid := by
  obtain ⟨_, -, h⟩ := except_bind_inv h
  obtain ⟨_, -, h⟩ := except_bind_inv h
  cases h
  exact ⟨rfl, rfl⟩

theorem compute2_regs {p : Params} (h : compute2 p s = .ok t) : EngineRegs s t ∧ t.b5Valid = s.b5Valid := by
  obtain ⟨_, -, h⟩ := except_bind_inv h
  obtain ⟨_, -, h⟩ := except_bind_inv h
  obtain ⟨_, -, h⟩ := except_bind_inv h
  cases h
  exact ⟨rfl, rfl⟩

theorem compute3_regs (h : compute3 s = .ok t) : EngineRegs s t ∧ t.b5Valid = true := by
  obtain ⟨_, -, h⟩ := except_bind_inv h
  cases h
  exact ⟨rfl, rfl⟩

theorem compute4_regs (h : compute4 s = .ok t) : EngineRegs s t ∧ t.b5Valid = s.b5Valid := by
  obtain ⟨_, -, h⟩ := except_bind_inv h
  cases h
  exact ⟨rfl, rfl⟩

theorem compute5_regs (h : compute5 s = .ok t) : EngineRegs s t ∧ t.b5Valid = s.b5Valid := by
  obtain ⟨_, -, h⟩ := except_bind_inv h
  cases h
  exact ⟨rfl, rfl⟩

theorem compute6_regs (h : compute6 s = .ok t) : EngineRegs s t ∧ t.b5Valid = s.b5Valid := by
  obtain ⟨_, -, h⟩ := except_bind_inv h
  obtain ⟨_, -, h⟩ := except_bind_inv h
  cases h
  exact ⟨rfl, rfl⟩

theorem compute7_regs (h : compute7 s = .ok t) : EngineRegs s t ∧ t.b5Valid = s.b5Valid := by
  obtain ⟨_, -, h⟩ := except_bind_inv h
  cases h
  exact ⟨rfl, rfl⟩

theorem compute8_regs (h : compute8 s = .ok t) : EngineRegs s t ∧ t.b5Valid = s.b5Valid := by
  obtain ⟨_, -, h⟩ := except_bind_inv h
  cases h
  exact ⟨rfl, rfl⟩

theorem compute9_regs {p : Params} (h : compute9 p s = .ok t) : EngineRegs s t ∧ t.b5Valid = s.b5Valid := by
  obtain ⟨_, -, h⟩ := except_bind_inv h
  obtain ⟨_, -, h⟩ := except_bind_inv h
  obtain ⟨_, -, h⟩ := except_bind_inv h
  obtain ⟨_, -, h⟩ := except_bind_inv h
  cases h
  exact ⟨rfl, rfl⟩

theorem compute10_regs (h : compute10 s = .ok t) : EngineRegs s t ∧ t.b5Valid = s.b5Valid := by
  obtain ⟨_, -, h⟩ := except_bind_inv h
  cases h
  exact ⟨rfl, rfl⟩

theorem compute11_regs (h : compute11 s = .ok t) : EngineRegs s t ∧ t.b5Valid = s.b5Valid := by
  obtain ⟨_, -, h⟩ := except_bind_inv h
  obtain ⟨_, -, h⟩ := except_bind_inv h
  cases h
  exact ⟨rfl, rfl⟩

theorem compute12_regs (h : compute12 s = .ok t) : EngineRegs s t ∧ t.b5Valid = s.b5Valid := by
  obtain ⟨_, -, h⟩ := except_bind_inv h
  obtain ⟨_, -, h⟩ := except_bind_inv h
  cases h
  exact ⟨rfl, rfl⟩

theorem compute13_regs (h : compute13 s = .ok t) : EngineRegs s t ∧ t.b5Valid = s.b5Valid := by
  obtain ⟨_, -, h⟩ := except_bind_inv h
  obtain ⟨_, -, h⟩ := except_bind_inv h
  cases h
  exact ⟨rfl, rfl⟩

theorem compute14_regs (h : compute14 s = .ok t) : EngineRegs s t ∧ t.b5Valid = s.b5Valid := by
  obtain ⟨_, -, h⟩ := except_bind_inv h
  obtain ⟨_, -, h⟩ := except_bind_inv h
  cases h
  exact ⟨rfl, rfl⟩

theorem compute15_regs (h : compute15 s = .ok t) : EngineRegs s t ∧ t.b5Valid = s.b5Valid := by
  obtain ⟨_, -, h⟩ := except_bind_inv h
  obtain ⟨_, -, h⟩ := except_bind_inv h
  cases h
  exact ⟨rfl, rfl⟩

theorem compute16Square_regs (h : compute16Square s = .ok t) : EngineRegs s t ∧ t.b5Valid = s.b5Valid := by
  obtain ⟨_, -, h⟩ := except_bind_inv h
  cases h
  exact ⟨rfl, rfl⟩

theorem compute16_regs (h : compute16 s = .ok t) : EngineRegs s t ∧ t.b5Valid = s.b5Valid := by
  obtain ⟨_, -, h⟩ := except_bind_inv h
  cases h
  exact ⟨rfl, rfl⟩

theorem compute17_regs (h : compute17 s = .ok t) : EngineRegs s t ∧ t.b5Valid = s.b5Valid := by
  obtain ⟨_, -, h⟩ := except_bind_inv h
  cases h
  exact ⟨rfl, rfl⟩

theorem compute18_regs (h : compute18 s = .ok t) : EngineRegs s t ∧ t.b5Valid = s.b5Valid := by
  obtain ⟨_, -, h⟩ := except_bind_inv h
  obtain ⟨_, -, h⟩ := except_bind_inv h
  obtain ⟨_, -, h⟩ := except_bind_inv h
  cases h
  exact ⟨rfl, rfl⟩

end

theorem requireB5_ok {s : State} (h : s.b5Valid = true) : requireB5 s = .ok () s := by simp [requireB5, Op.assert, h]

theorem requireB5_fault {s : State} (h : s.b5Valid = false) : requireB5 s = .error (.fault .engineWithoutB5) s := by
  simp [requireB5, Op.assert, h]

/-- A step of the pressure half in a state with `B5_VALID` = 1. -/
theorem pressureStep_apply {k : Nat} {f : State → Except ErrKind State} {s : State} (h : s.b5Valid = true) :
    pressureStep k f s = engineStep k f s := bind_ok (requireB5_ok h)

/-- A step of the pressure half in a state with `B5_VALID` = 0. -/
theorem pressureStep_fault {k : Nat} {f : State → Except ErrKind State} {s : State} (h : s.b5Valid = false) :
    pressureStep k f s = .error (.fault .engineWithoutB5) s :=
  bind_error (requireB5_fault h)

/-- A step of the pressure half on its own: with `B5_VALID` = 1 it is run like any step of the engine. -/
theorem runEngine_pressureStep {k : Nat} {f : State → Except ErrKind State} {s : State} (h : s.b5Valid = true) :
    runEngine (do pressureStep k f; pure .unit) s = runInternal (do engineStep k f; pure .unit) s := by
  cases hf : f s with
  | ok t =>
    rw [runEngineStep_ok hf]
    have := bind_ok (f := fun _ => (pure OpResult.unit : Op Fault OpResult))
      ((pressureStep_apply (f := f) h).trans (engineStep_ok (k := k) hf))
    exact runEngine_ok (this.trans rfl)
  | error e =>
    rw [runEngineStep_raise hf]
    exact runEngine_raise (bind_error ((pressureStep_apply h).trans (engineStep_raise hf)))

/-- Step 16 in a state with `B5_VALID` = 1: its two writes. -/
theorem engineStep16_apply {s : State} (h : s.b5Valid = true) :
    engineStep16 s = (do engineWrite compute16Square; engineStep 16 compute16 : Op Fault Unit) s := bind_ok (requireB5_ok h)

/-- Step 16 with both checks passed. -/
theorem engineStep16_ok {s t u : State} (h : s.b5Valid = true) (h1 : compute16Square s = .ok t) (h2 : compute16 t = .ok u) :
    engineStep16 s = .ok () (setStep 17 u) :=
  (engineStep16_apply h).trans ((bind_ok (engineWrite_ok h1)).trans (engineStep_ok h2))

/-- Step 16 with its first check failed. -/
theorem engineStep16_raise {s : State} {e : ErrKind} (h : s.b5Valid = true) (h1 : compute16Square s = .error e) :
    engineStep16 s = .error (.raise e) (setStep 0 s) :=
  (engineStep16_apply h).trans (bind_error (engineWrite_raise h1))

/-- Step 16 with its second check failed: the first write stays. -/
theorem engineStep16_raise_second {s t : State} {e : ErrKind} (h : s.b5Valid = true) (h1 : compute16Square s = .ok t)
    (h2 : compute16 t = .error e) : engineStep16 s = .error (.raise e) (setStep 0 t) :=
  (engineStep16_apply h).trans ((bind_ok (engineWrite_ok h1)).trans (engineStep_raise h2))

/-- Step 16 in a state with `B5_VALID` = 0. -/
theorem engineStep16_fault {s : State} (h : s.b5Valid = false) : engineStep16 s = .error (.fault .engineWithoutB5) s :=
  bind_error (requireB5_fault h)

/-- A step of the pressure half on its own with `B5_VALID` = 0. -/
theorem runEngine_pressureStep_fault {k : Nat} {f : State → Except ErrKind State} {s : State} (h : s.b5Valid = false) :
    runEngine (do pressureStep k f; pure .unit) s = .fault .engineWithoutB5 :=
  runEngine_fault (bind_error (pressureStep_fault h))

end Sys2Proof.Machine
end

