-- ==== Sys2Proof/Laws/RegisterIO.lean ====
section
/-!
SUPPORT. The register operations, `load` and the sequencer with nothing happening outside: what each returns or raises and
the state it leaves, written with the named updates.
-/

namespace Sys2Proof.Machine

section
variable {φ : Type} {p : Params} {s t : State} {w : List Byte} {r : Nat}

/-- The coming answers, one at a time. -/
theorem answersTo_cons {fs : List (List Byte × Nat)} {a : Answer} {as : List Answer} :
    answersFor ((w, r) :: fs) s.env.script s.env.fresh = a :: as ↔
      nextAnswer w r s = a ∧ answersFor fs s.env.script.tail (s.env.fresh + 1) = as := by
  simp [answersFor, nextAnswer]

/-- The next answer depends on the script and the free values drawn alone. -/
theorem nextAnswer_congr (h : t.env.script = s.env.script) (h' : t.env.fresh = s.env.fresh) :
    nextAnswer w r t = nextAnswer w r s := by
  simp [nextAnswer, h, h']

theorem checkRead_ok {n : Nat} {bs : List Byte} (h : bs.length = n) :
    (checkRead n (.done 1 bs) : Op φ (List Byte)) s = .ok bs s := by
  simp [checkRead, h]

theorem checkRead_fail {n : Nat} {a : Answer} (h : ∀ bs, a = .done 1 bs → bs.length ≠ n) :
    (checkRead n a : Op φ (List Byte)) s = .error (.raise .transportError) s := by
  cases a with
  | err => rfl
  | done nw rb =>
    by_cases hn : nw = 1
    · simp [checkRead, hn, h rb (by rw [hn])]
    · simp [checkRead, hn]

theorem checkWrite_ok {a : Answer} (h : acceptsWrite a) : (checkWrite a : Op φ Unit) s = .ok () s := by
  obtain ⟨rb, rfl⟩ := h
  simp [checkWrite]

theorem checkWrite_fail {a : Answer} (h : ¬ acceptsWrite a) :
    (checkWrite a : Op φ Unit) s = .error (.raise .transportError) s := by
  cases a with
  | err => rfl
  | done nw rb =>
    have hn : nw ≠ 2 := fun hn => h ⟨rb, by rw [hn]⟩
    simp [checkWrite, hn]

theorem readRegister_ok {addr b : Byte} (hq : Quiet s) (h : readsByte (nextAnswer [addr] 1 s) b) :
    (readRegister p addr : Op φ Byte) s = .ok b (afterExchange p [addr] 1 s) := by
  unfold readRegister frameRd1
  rw [bind_ok (exchange_quiet _ _ hq), show nextAnswer [addr] 1 s = .done 1 [b] from h, bind_ok (checkRead_ok (n := 1) (bs := [b]) rfl)]
  rfl

theorem readRegister_fail {addr : Byte} (hq : Quiet s) (h : ∀ b, ¬ readsByte (nextAnswer [addr] 1 s) b) :
    (readRegister p addr : Op φ Byte) s = .error (.raise .transportError) (afterExchange p [addr] 1 s) := by
  unfold readRegister frameRd1
  rw [bind_ok (exchange_quiet _ _ hq), bind_error (checkRead_fail ?_)]
  intro bs hbs hlen
  obtain ⟨b, rfl⟩ := List.length_eq_one_iff.mp hlen
  exact h b hbs

theorem writeRegister_ok {addr v : Byte} (hq : Quiet s) (h : acceptsWrite (nextAnswer [addr, v] 0 s)) :
    (writeRegister p addr v : Op φ Unit) s = .ok () (afterExchange p [addr, v] 0 s) := by
  unfold writeRegister frameWr1
  rw [bind_ok (exchange_quiet _ _ hq), checkWrite_ok h]

theorem writeRegister_fail {addr v : Byte} (hq : Quiet s) (h : ¬ acceptsWrite (nextAnswer [addr, v] 0 s)) :
    (writeRegister p addr v : Op φ Unit) s = .error (.raise .transportError) (afterExchange p [addr, v] 0 s) := by
  unfold writeRegister frameWr1
  rw [bind_ok (exchange_quiet _ _ hq), checkWrite_fail h]

theorem readBlock_ok {addr : Byte} {n : Nat} {bs : List Byte} (hq : Quiet s) (h : nextAnswer [addr] n s = .done 1 bs)
    (hn : bs.length = n) : (readBlock p addr n : Op φ (List Byte)) s = .ok bs (afterExchange p [addr] n s) := by
  unfold readBlock frameRdn
  rw [bind_ok (exchange_quiet _ _ hq), h, checkRead_ok hn]

theorem readBlock_fail {addr : Byte} {n : Nat} (hq : Quiet s)
    (h : ∀ bs, nextAnswer [addr] n s = .done 1 bs → bs.length ≠ n) :
    (readBlock p addr n : Op φ (List Byte)) s = .error (.raise .transportError) (afterExchange p [addr] n s) := by
  unfold readBlock frameRdn
  rw [bind_ok (exchange_quiet _ _ hq), checkRead_fail h]

theorem load_ok {bs : List Byte} (hq : Quiet s) (h : nextAnswer [p.calBase] p.calLen s = .done 1 bs)
    (hn : bs.length = p.calLen) :
    (load p : Op φ Unit) s = .ok () (putCal bs (afterExchange p [p.calBase] p.calLen s)) := by
  unfold load
  rw [bind_ok (surfaceAs_ok (readBlock_ok hq h hn))]
  rfl

theorem load_fail (hq : Quiet s) (h : ∀ bs, nextAnswer [p.calBase] p.calLen s = .done 1 bs → bs.length ≠ p.calLen) :
    (load p : Op φ Unit) s =
      .error (.raise .calibrationReadError) (afterExchange p [p.calBase] p.calLen s) := by
  unfold load
  rw [bind_error (surfaceAs_raise (readBlock_fail hq h))]

/-- The state after a command has been issued and its delay has passed. -/
def issued (p : Params) (cmd : Byte) (us : Nat) (s : State) : State :=
  setTimer 0 (elapse (ticks p us) (setSequencer .waiting
    (afterExchange p [p.ctrlReg, cmd] 0 (setSequencer .commandIssued s))))

theorem issue_ok {cmd : Byte} {us : Nat} (hq : Quiet s) (h : acceptsWrite (nextAnswer [p.ctrlReg, cmd] 0 s)) :
    (issue p cmd us : Op φ Unit) s =
      .ok () (issued p cmd us s) := by
  unfold issue writeControl
  have hq1 : Quiet (setSequencer .commandIssued s) := hq
  have h1 : acceptsWrite (nextAnswer [p.ctrlReg, cmd] 0 (setSequencer .commandIssued s)) := h
  have hq2 : Quiet (setSequencer .waiting (afterExchange p [p.ctrlReg, cmd] 0 (setSequencer .commandIssued s))) := hq
  rw [update_bind, bind_ok (writeRegister_ok hq1 h1), update_bind, wait_quiet us hq2, issued]

theorem issue_fail {cmd : Byte} {us : Nat} (hq : Quiet s) (h : ¬ acceptsWrite (nextAnswer [p.ctrlReg, cmd] 0 s)) :
    (issue p cmd us : Op φ Unit) s =
      .error (.raise .transportError) (afterExchange p [p.ctrlReg, cmd] 0 (setSequencer .commandIssued s)) := by
  unfold issue writeControl
  have hq1 : Quiet (setSequencer .commandIssued s) := hq
  have h1 : ¬ acceptsWrite (nextAnswer [p.ctrlReg, cmd] 0 (setSequencer .commandIssued s)) := h
  rw [update_bind, bind_error (writeRegister_fail hq1 h1)]

theorem issueAndWait_ok {cmd : Byte} {us : Nat} (hq : Quiet s) (hs : s.seq = .idle)
    (h : acceptsWrite (nextAnswer [p.ctrlReg, cmd] 0 s)) :
    (issueAndWait p cmd us : Op φ Unit) s =
      .ok () (setSequencer .idle (issued p cmd us s)) := by
  unfold issueAndWait requireSequencerIdle
  rw [bind_ok (require_true (by simp [hs])), bind_ok (onRaise_ok (issue_ok hq h))]
  rfl

theorem issueAndWait_fail {cmd : Byte} {us : Nat} (hq : Quiet s) (hs : s.seq = .idle)
    (h : ¬ acceptsWrite (nextAnswer [p.ctrlReg, cmd] 0 s)) :
    (issueAndWait p cmd us : Op φ Unit) s =
      .error (.raise .transportError) (setSequencer .idle
        (afterExchange p [p.ctrlReg, cmd] 0 (setSequencer .commandIssued s))) := by
  unfold issueAndWait requireSequencerIdle
  rw [bind_ok (require_true (by simp [hs])), bind_error (onRaise_raise (issue_fail hq h))]

/-- The state after the result bytes of a temperature have been captured. -/
def captured2 (p : Params) (m l : Byte) (s : State) : State :=
  putByte1 l (afterExchange p [resultAddr p 1] 1
    (putByte0 m (afterExchange p [resultAddr p 0] 1 (setSequencer .resultReady s))))

/-- The state after the result bytes of a pressure have been captured. -/
def captured3 (p : Params) (m l x : Byte) (s : State) : State :=
  putByte2 x (afterExchange p [resultAddr p 2] 1 (captured2 p m l s))

theorem captureResult_temperature {m l : Byte} {m' l' : Answer} (hq : Quiet s) (hk : s.kind = .temperature)
    (h : answersFor [([resultAddr p 0], 1), ([resultAddr p 1], 1)] s.env.script s.env.fresh = [m', l'])
    (hm : readsByte m' m) (hl : readsByte l' l) :
    (captureResult p : Op φ Unit) s = .ok () (captured2 p m l s) := by
  unfold captureResult
  rw [answersTo_cons] at h
  obtain ⟨h0, h⟩ := h
  have hq1 : Quiet (setSequencer .resultReady s) := hq
  have h1 : readsByte (nextAnswer [resultAddr p 0] 1 (setSequencer .resultReady s)) m := h0.trans hm
  have hq2 : Quiet (putByte0 m (afterExchange p [resultAddr p 0] 1 (setSequencer .resultReady s))) := hq
  have h2 := (answersTo_cons (s := putByte0 m (afterExchange p [resultAddr p 0] 1 (setSequencer .resultReady s)))).mp h
  rw [update_bind, bind_ok (readRegister_ok hq1 h1), update_bind, bind_ok (readRegister_ok hq2 (h2.1.trans hl)),
    update_bind, read_bind]
  simp [hk, captured2]

theorem captureResult_pressure {m l x : Byte} {m' l' x' : Answer} (hq : Quiet s) (hk : s.kind = .pressure)
    (h : answersFor [([resultAddr p 0], 1), ([resultAddr p 1], 1), ([resultAddr p 2], 1)] s.env.script s.env.fresh =
      [m', l', x'])
    (hm : readsByte m' m) (hl : readsByte l' l) (hx : readsByte x' x) :
    (captureResult p : Op φ Unit) s = .ok () (captured3 p m l x s) := by
  unfold captureResult
  rw [answersTo_cons] at h
  obtain ⟨h0, h⟩ := h
  have hq1 : Quiet (setSequencer .resultReady s) := hq
  have h1 : readsByte (nextAnswer [resultAddr p 0] 1 (setSequencer .resultReady s)) m := h0.trans hm
  have hq2 : Quiet (putByte0 m (afterExchange p [resultAddr p 0] 1 (setSequencer .resultReady s))) := hq
  have h2 := (answersTo_cons (s := putByte0 m (afterExchange p [resultAddr p 0] 1 (setSequencer .resultReady s)))).mp h
  have hq3 : Quiet (captured2 p m l s) := hq
  have h3 := (answersTo_cons (s := captured2 p m l s)).mp h2.2
  rw [update_bind, bind_ok (readRegister_ok hq1 h1), update_bind, bind_ok (readRegister_ok hq2 (h2.1.trans hl)),
    update_bind, read_bind]
  have hk' : (putByte1 l (afterExchange p [resultAddr p 1] 1
    (putByte0 m (afterExchange p [resultAddr p 0] 1 (setSequencer .resultReady s))))).kind = .pressure := hk
  rw [hk']
  show ((readRegister p (resultAddr p 2) : Op φ Byte) >>= _) (captured2 p m l s) = _
  rw [bind_ok (readRegister_ok hq3 (h3.1.trans hx))]
  rfl

/-- An acquisition of a temperature whose exchanges all succeed (spec/42_measurement.md R101). -/
theorem acquireRawTemperature_ok {m l : Byte} {a m' l' : Answer} (hq : Quiet s) (hs : s.seq = .idle)
    (h : answersTo [([p.ctrlReg, p.cmdTemp], 0), ([resultAddr p 0], 1), ([resultAddr p 1], 1)] s = [a, m', l'])
    (ha : acceptsWrite a) (hm : readsByte m' m) (hl : readsByte l' l) :
    (acquireRawTemperature p : Op φ Half) s =
      .ok (assembleUT m l) (setSequencer .idle (putUT (assembleUT m l)
        (captured2 p m l (issued p p.cmdTemp p.tDelayUs (setTemperature s))))) := by
  unfold acquireRawTemperature requireSequencerIdle
  obtain ⟨h0, h⟩ := answersTo_cons.mp h
  have hq1 : Quiet (setTemperature s) := hq
  have h1 : acceptsWrite (nextAnswer [p.ctrlReg, p.cmdTemp] 0 (setTemperature s)) := by
    rw [← h0] at ha
    exact ha
  have hq2 : Quiet (issued p p.cmdTemp p.tDelayUs (setTemperature s)) := hq
  have h2 := captureResult_temperature (φ := φ) (p := p) hq2 rfl h hm hl
  rw [bind_ok (require_true (by simp [hs])), update_bind,
    bind_ok (onRaise_ok ((bind_ok (issue_ok hq1 h1)).trans h2)), update_bind]
  rfl

/-- An acquisition of a pressure whose exchanges all succeed (spec/42_measurement.md R102). -/
theorem acquireRawPressure_ok {o : Level} {m l x : Byte} {a m' l' x' : Answer} (hq : Quiet s) (hs : s.seq = .idle)
    (h : answersTo [([p.ctrlReg, p.cmdPress o], 0), ([resultAddr p 0], 1), ([resultAddr p 1], 1),
      ([resultAddr p 2], 1)] s = [a, m', l', x'])
    (ha : acceptsWrite a) (hm : readsByte m' m) (hl : readsByte l' l) (hx : readsByte x' x) :
    (acquireRawPressure p o : Op φ Count20) s =
      .ok (assembleUP o m l x) (setSequencer .idle (putUP (assembleUP o m l x)
        (captured3 p m l x (issued p (p.cmdPress o) (p.pDelayUs o) (setPressure o s))))) := by
  unfold acquireRawPressure requireSequencerIdle
  obtain ⟨h0, h⟩ := answersTo_cons.mp h
  have hq1 : Quiet (setPressure o s) := hq
  have h1 : acceptsWrite (nextAnswer [p.ctrlReg, p.cmdPress o] 0 (setPressure o s)) := by
    rw [← h0] at ha
    exact ha
  have hq2 : Quiet (issued p (p.cmdPress o) (p.pDelayUs o) (setPressure o s)) := hq
  have h2 := captureResult_pressure (φ := φ) (p := p) hq2 rfl h hm hl hx
  rw [bind_ok (require_true (by simp [hs])), update_bind,
    bind_ok (onRaise_ok ((bind_ok (issue_ok hq1 h1)).trans h2)), update_bind]
  rfl

/-- The command write of an acquisition of a temperature fails (spec/42_measurement.md R106). -/
theorem acquireRawTemperature_fail (hq : Quiet s) (hs : s.seq = .idle)
    (h : ¬ acceptsWrite (nextAnswer [p.ctrlReg, p.cmdTemp] 0 s)) :
    (acquireRawTemperature p : Op φ Half) s =
      .error (.raise .transportError) (setSequencer .idle (afterExchange p [p.ctrlReg, p.cmdTemp] 0
        (setSequencer .commandIssued (setTemperature s)))) := by
  unfold acquireRawTemperature requireSequencerIdle
  have hq1 : Quiet (setTemperature s) := hq
  rw [bind_ok (require_true (by simp [hs])), update_bind,
    bind_error (onRaise_raise (bind_error (issue_fail hq1 h)))]

/-- The command write of an acquisition of a pressure fails (spec/42_measurement.md R106). -/
theorem acquireRawPressure_fail {o : Level} (hq : Quiet s) (hs : s.seq = .idle)
    (h : ¬ acceptsWrite (nextAnswer [p.ctrlReg, p.cmdPress o] 0 s)) :
    (acquireRawPressure p o : Op φ Count20) s =
      .error (.raise .transportError) (setSequencer .idle (afterExchange p [p.ctrlReg, p.cmdPress o] 0
        (setSequencer .commandIssued (setPressure o s)))) := by
  unfold acquireRawPressure requireSequencerIdle
  have hq1 : Quiet (setPressure o s) := hq
  rw [bind_ok (require_true (by simp [hs])), update_bind,
    bind_error (onRaise_raise (bind_error (issue_fail hq1 h)))]

end

end Sys2Proof.Machine
end

