-- ==== Sys2Proof/Laws/Keeps.lean ====
section
/-!
SUPPORT. How to show that an operation keeps a relation between the state it starts in and every state it can end in,
whatever happens outside meanwhile. A frame, a growing trace, a path of `SEQ` are such relations.
-/

namespace Sys2Proof.Machine

/-- The operation ends well with `ok`, or stops with `bad`. -/
def Ends {φ α : Type} (x : Op φ α) (s : State) (ok : α → State → Prop) (bad : Stop φ → State → Prop) : Prop :=
  match x s with
  | .ok a t => ok a t
  | .error e t => bad e t

/-- A stop that keeps relations to the start: an error, in a state related to the start by `R`; or a fault of the model or a
hardware reset, in a state related to it by `D`, whose schedule says so in the case of the reset. -/
def Stopped {φ : Type} (R D : State → State → Prop) (s : State) : Stop φ → State → Prop
  | .raise _, t => R s t
  | .fault _, t => D s t
  | .dropped, t => ∃ u, D s u ∧ u.env.sched.head? = some .hardwareReset ∧ t = hardwareReset (dropAct u)

/-- From every state that meets `P` the operation ends in a state that is related to it by `R`, or by `D` as it stood when a
hardware reset came. -/
def Keeps {φ α : Type} (P : State → Prop) (R D : State → State → Prop) (x : Op φ α) : Prop :=
  ∀ s, P s → Ends x s (fun _ t => R s t) (Stopped R D s)

/-- Relations that every moment without a hardware reset keeps; `D` is the weaker of the two. -/
structure Tolerates (p : Params) (R D : State → State → Prop) : Prop where
  refl   : ∀ s, R s s
  trans  : ∀ s t u, R s t → R t u → R s u
  acted  : ∀ s t, Acted p s t → R s t
  weaken : ∀ s t, R s t → D s t
  after  : ∀ s t u, R s t → D t u → D s u

section
variable {φ α β : Type} {p : Params} {P Q : State → Prop} {R R' D D' : State → State → Prop} {s t : State}
  {ok : α → State → Prop} {bad : Stop φ → State → Prop} {x : Op φ α} {f : α → Op φ β}

theorem ends_ok {a : α} (h : x s = .ok a t) : Ends x s ok bad ↔ ok a t := by simp [Ends, h]

theorem ends_error {e : Stop φ} (h : x s = .error e t) : Ends x s ok bad ↔ bad e t := by simp [Ends, h]

theorem Ends.mono {ok' : α → State → Prop} {bad' : Stop φ → State → Prop} (h : Ends x s ok bad)
    (hok : ∀ a t, ok a t → ok' a t) (hbad : ∀ e t, bad e t → bad' e t) : Ends x s ok' bad' := by
  unfold Ends at *
  cases hx : x s with
  | ok a t => rw [hx] at h; exact hok a t h
  | error e t => rw [hx] at h; exact hbad e t h

theorem ends_bind {ok : β → State → Prop} :
    Ends (x >>= f) s ok bad ↔ Ends x s (fun a t => Ends (f a) t ok bad) bad := by
  rcases bind_cases x f s with ⟨a, t, hx, hb⟩ | ⟨e, t, hx, hb⟩
  · rw [ends_ok hx]
    unfold Ends
    rw [hb]
  · rw [ends_error hx, ends_error hb]

theorem Stopped.mono (hR : ∀ s t, R s t → R' s t) (hD : ∀ s t, D s t → D' s t) (e : Stop φ) (h : Stopped R D s e t) :
    Stopped R' D' s e t := by
  cases e with
  | raise k => exact hR _ _ h
  | fault f => exact hD _ _ h
  | dropped => exact h.imp fun u hu => ⟨hD _ _ hu.1, hu.2⟩

/-- What stops in a state reached before stops from the start. -/
theorem Stopped.after (hT : Tolerates p R D) {u : State} (h : R s t) {e : Stop φ} (hs : Stopped R D t e u) :
    Stopped R D s e u := by
  cases e with
  | raise k => exact hT.trans _ _ _ h hs
  | fault f => exact hT.after _ _ _ h hs
  | dropped => exact hs.imp fun v hv => ⟨hT.after _ _ _ h hv.1, hv.2⟩

theorem Keeps.mono (h : Keeps P R D x) (hP : ∀ s, Q s → P s) (hR : ∀ s t, R s t → R' s t)
    (hD : ∀ s t, D s t → D' s t) : Keeps Q R' D' x :=
  fun s hs => (h s (hP s hs)).mono (fun _ _ => hR _ _) fun e _ => Stopped.mono hR hD e

theorem keeps_bind (hT : Tolerates p R D) (hx : Keeps P R D x)
    (hQ : ∀ s t, P s → R s t → Q t) (hf : ∀ a, Keeps Q R D (f a)) : Keeps P R D (x >>= f) := by
  intro s hs
  rw [ends_bind]
  exact (hx s hs).mono
    (fun a t ht => (hf a t (hQ _ _ hs ht)).mono (fun _ _ => hT.trans _ _ _ ht) fun _ _ => Stopped.after hT ht)
    fun _ _ h => h

theorem keeps_pure (hr : ∀ s, R s s) (a : α) : Keeps P R D (pure a : Op φ α) := fun s _ => hr s

theorem keeps_update {g : State → State} (h : ∀ s, P s → R s (g s)) : Keeps P R D (Op.update g : Op φ Unit) :=
  fun s hs => h s hs

theorem keeps_read (hr : ∀ s, R s s) (g : State → α) : Keeps P R D (Op.read g : Op φ α) := fun s _ => hr s

theorem keeps_raise (hr : ∀ s, R s s) (k : ErrKind) : Keeps P R D (Op.raise k : Op φ α) := fun s _ => hr s

theorem keeps_require (hr : ∀ s, R s s) (c : State → Bool) (k : ErrKind) : Keeps P R D (Op.require c k : Op φ Unit) := by
  intro s _
  cases hc : c s with
  | true => rw [ends_ok (require_true hc)]; exact hr s
  | false => rw [ends_error (require_false hc)]; exact hr s

theorem keeps_assert (hr : ∀ s, R s s) (hd : ∀ s, D s s) (c : State → Bool) (k : φ) : Keeps P R D (Op.assert c k : Op φ Unit) := by
  intro s _
  cases hc : c s <;> simp [Ends, Op.assert, hc, Stopped, hr, hd]

theorem Keeps.onRaise {g : State → State} (hx : Keeps P R D x) (hg : ∀ s t, P s → R s t → R s (g t)) :
    Keeps P R D (x.onRaise g) := by
  intro s hs
  have := hx s hs
  unfold Ends Op.onRaise at *
  cases h : x s with
  | ok a t => rw [h] at this; exact this
  | error e t =>
    rw [h] at this
    cases e with
    | raise k => exact hg _ _ hs this
    | dropped => exact this
    | fault f => exact this

theorem Keeps.always {g : State → State} (hx : Keeps P R D x) (hg : ∀ s t, P s → R s t → R s (g t)) :
    Keeps P R D (x.always g) := by
  intro s hs
  have := hx s hs
  unfold Ends Op.always at *
  cases h : x s with
  | ok a t => rw [h] at this; exact hg _ _ hs this
  | error e t =>
    rw [h] at this
    cases e with
    | raise k => exact hg _ _ hs this
    | dropped => exact this
    | fault f => exact this

theorem Keeps.surfaceAs {k : ErrKind} (hx : Keeps P R D x) : Keeps P R D (x.surfaceAs k) := by
  intro s hs
  have := hx s hs
  unfold Ends Op.surfaceAs at *
  cases h : x s with
  | ok a t => rw [h] at this; exact this
  | error e t =>
    rw [h] at this
    cases e <;> exact this

theorem Keeps.outcome (hx : Keeps P R D x) : Keeps P R D x.outcome := by
  intro s hs
  have := hx s hs
  unfold Ends Op.outcome at *
  cases h : x s with
  | ok a t => rw [h] at this; exact this
  | error e t =>
    rw [h] at this
    cases e <;> exact this

theorem keeps_moment (h : Tolerates p R D) : Keeps P R D (moment p : Op φ Unit) := by
  intro s _
  rcases moment_cases (φ := φ) p s with ⟨t, ht, ha⟩ | ⟨u, ha, hh, hr⟩
  · rw [ends_ok ht]; exact h.acted _ _ ha
  · rw [ends_error hr]; exact ⟨u, h.weaken _ _ (h.acted _ _ ha), hh, rfl⟩

theorem keeps_exchange (h : Tolerates p R D) {w : List Byte} {r : Nat} (hx : ∀ s, R s (afterExchange p w r s)) :
    Keeps P R D (exchange p w r : Op φ Answer) :=
  keeps_bind (Q := fun _ => True) h (keeps_moment h) (fun _ _ _ _ => trivial) fun _ s _ => hx s

theorem keeps_checkRead (hr : ∀ s, R s s) (n : Nat) (a : Answer) : Keeps P R D (checkRead n a : Op φ (List Byte)) := by
  intro s _
  by_cases h : ∃ bs, a = .done 1 bs ∧ bs.length = n
  · obtain ⟨bs, rfl, hn⟩ := h
    rw [ends_ok (checkRead_ok hn)]
    exact hr s
  · rw [ends_error (checkRead_fail fun bs hb hn => h ⟨bs, hb, hn⟩)]
    exact hr s

theorem keeps_checkWrite (hr : ∀ s, R s s) (a : Answer) : Keeps P R D (checkWrite a : Op φ Unit) := by
  intro s _
  by_cases h : acceptsWrite a
  · rw [ends_ok (checkWrite_ok h)]; exact hr s
  · rw [ends_error (checkWrite_fail h)]; exact hr s

theorem keeps_readRegister (h : Tolerates p R D) {addr : Byte} (hx : ∀ s, R s (afterExchange p [addr] 1 s)) :
    Keeps P R D (readRegister p addr : Op φ Byte) :=
  keeps_bind (Q := fun _ => True) h (keeps_exchange h hx) (fun _ _ _ _ => trivial) fun a =>
    keeps_bind (Q := fun _ => True) h (keeps_checkRead h.refl 1 a) (fun _ _ _ _ => trivial) fun _ =>
      keeps_pure h.refl _

theorem keeps_writeRegister (h : Tolerates p R D) {addr v : Byte} (hx : ∀ s, R s (afterExchange p [addr, v] 0 s)) :
    Keeps P R D (writeRegister p addr v : Op φ Unit) :=
  keeps_bind (Q := fun _ => True) h (keeps_exchange h hx) (fun _ _ _ _ => trivial) fun a =>
    keeps_checkWrite h.refl a

theorem keeps_readBlock (h : Tolerates p R D) {addr : Byte} {n : Nat} (hx : ∀ s, R s (afterExchange p [addr] n s)) :
    Keeps P R D (readBlock p addr n : Op φ (List Byte)) :=
  keeps_bind (Q := fun _ => True) h (keeps_exchange h hx) (fun _ _ _ _ => trivial) fun a =>
    keeps_checkRead h.refl n a

theorem keeps_load (h : Tolerates p R D) (hx : ∀ s, R s (afterExchange p [p.calBase] p.calLen s))
    (hc : ∀ blk s, R s (putCal blk s)) : Keeps P R D (load p : Op φ Unit) :=
  keeps_bind (Q := fun _ => True) h (keeps_readBlock h hx).surfaceAs (fun _ _ _ _ => trivial) fun blk =>
    keeps_update fun s _ => hc blk s

/-- A relation that keeps the timer's writes keeps what happens in a wait. -/
theorem Waited.keeps {n : Nat} (h : Waited p n s t) (hT : Tolerates p R D) (hs : ∀ k s, R s (setTimer k s)) : R s t :=
  hT.trans _ _ _ (hT.acted _ _ h.acted) (hs t.dtimer _)

theorem keeps_wait (h : Tolerates p R D) (hs : ∀ n s, R s (setTimer n s)) (us : Nat) :
    Keeps P R D (wait p us : Op φ Unit) := by
  intro s _
  rcases wait_cases (φ := φ) p us s with ⟨n, t, ht, hw, -⟩ | ⟨n, u, hw, hh, hu⟩
  · rw [ends_ok ht]
    exact h.trans _ _ _ (hs _ s) (hw.keeps h hs)
  · rw [ends_error hu]
    exact ⟨u, h.weaken _ _ (h.trans _ _ _ (hs _ s) (hw.keeps h hs)), hh, rfl⟩

/-- A relation that every act of the measurement sequencer keeps, but for what it writes into `KIND`, `OSS`, `RBUF`, `UT` and
`UP`. -/
structure Measures (p : Params) (R D : State → State → Prop) : Prop extends Tolerates p R D where
  exchange  : ∀ w r s, R s (afterExchange p w r s)
  sequencer : ∀ x s, R s (setSequencer x s)
  timer     : ∀ n s, R s (setTimer n s)

/-- One that all of an acquisition of a temperature keeps. -/
structure AcquiresT (p : Params) (R D : State → State → Prop) : Prop extends Measures p R D where
  temperature : ∀ s, R s (setTemperature s)
  byte0       : ∀ b s, R s (putByte0 b s)
  byte1       : ∀ b s, R s (putByte1 b s)
  ut          : ∀ v s, R s (putUT v s)

/-- One that all of an acquisition of a pressure keeps. -/
structure AcquiresP (p : Params) (R D : State → State → Prop) : Prop extends Measures p R D where
  pressure    : ∀ o s, R s (setPressure o s)
  byte0       : ∀ b s, R s (putByte0 b s)
  byte1       : ∀ b s, R s (putByte1 b s)
  byte2       : ∀ b s, R s (putByte2 b s)
  up          : ∀ v s, R s (putUP v s)

/-- The bind of two operations that keep a relation from every state. -/
theorem keeps_seq (hT : Tolerates p R D) (hx : Keeps P R D x) (hf : ∀ a, Keeps (fun _ => True) R D (f a)) : Keeps P R D (x >>= f) :=
  keeps_bind (Q := fun _ => True) hT hx (fun _ _ _ _ => trivial) hf

theorem keeps_issue (h : Measures p R D) (cmd : Byte) (us : Nat) : Keeps P R D (issue p cmd us : Op φ Unit) :=
  keeps_seq h.toTolerates (keeps_update fun s _ => h.sequencer _ s) fun _ =>
    keeps_seq h.toTolerates (keeps_writeRegister h.toTolerates fun s => h.exchange _ _ s) fun _ =>
      keeps_seq h.toTolerates (keeps_update fun s _ => h.sequencer _ s) fun _ =>
        keeps_wait h.toTolerates h.timer us

theorem keeps_issueAndWait (h : Measures p R D) (cmd : Byte) (us : Nat) : Keeps P R D (issueAndWait p cmd us : Op φ Unit) :=
  keeps_seq h.toTolerates (keeps_require h.refl _ _) fun _ =>
    keeps_seq h.toTolerates
      ((keeps_issue h cmd us).onRaise fun _ t _ ht => h.trans _ _ _ ht (h.sequencer _ t)) fun _ =>
      keeps_update fun s _ => h.sequencer _ s

/-- `R`, and `KIND` is held (spec/10_state.md R15). -/
abbrev SameKind (R : State → State → Prop) (s t : State) : Prop := R s t ∧ t.kind = s.kind

theorem Acted.sameKind (h : Acted p s t) : t.kind = s.kind := by
  have := h.regs
  unfold SameRegs at this
  rw [this]

theorem Measures.sameKind (h : Measures p R D) : Measures p (SameKind R) D where
  refl s := ⟨h.refl s, rfl⟩
  trans _ _ _ h1 h2 := ⟨h.trans _ _ _ h1.1 h2.1, h2.2.trans h1.2⟩
  acted _ _ ha := ⟨h.acted _ _ ha, ha.sameKind⟩
  weaken _ _ hr := h.weaken _ _ hr.1
  after _ _ _ hr hd := h.after _ _ _ hr.1 hd
  exchange w r s := ⟨h.exchange w r s, rfl⟩
  sequencer x s := ⟨h.sequencer x s, rfl⟩
  timer n s := ⟨h.timer n s, rfl⟩

/-- The result bytes of a temperature: two of them. -/
theorem keeps_captureTemperature (h : Measures p R D) (h0 : ∀ b s, R s (putByte0 b s)) (h1 : ∀ b s, R s (putByte1 b s)) :
    Keeps (fun s => s.kind = .temperature) (SameKind R) D (captureResult p : Op φ Unit) := by
  have T := h.sameKind.toTolerates
  have hk : ∀ s t, s.kind = .temperature → SameKind R s t → t.kind = .temperature := fun _ _ hs ht => ht.2.trans hs
  have hr : ∀ {P : State → Prop} (k : Nat), Keeps P (SameKind R) D (readRegister p (resultAddr p k) : Op φ Byte) :=
    fun k => keeps_readRegister T fun s => h.sameKind.exchange _ _ s
  refine keeps_bind T (keeps_update fun s _ => h.sameKind.sequencer _ s) hk fun _ => keeps_bind T (hr 0) hk fun m => ?_
  refine keeps_bind T (keeps_update fun s _ => ⟨h0 m s, rfl⟩) hk fun _ => keeps_bind T (hr 1) hk fun l => ?_
  refine keeps_bind T (keeps_update fun s _ => ⟨h1 l s, rfl⟩) hk fun _ s hs => ?_
  rw [ends_bind, ends_ok (read_apply _), hs]
  exact T.refl s

theorem keeps_capturePressure (h : Measures p R D) (h0 : ∀ b s, R s (putByte0 b s)) (h1 : ∀ b s, R s (putByte1 b s))
    (h2 : ∀ b s, R s (putByte2 b s)) : Keeps P R D (captureResult p : Op φ Unit) := by
  have T := h.toTolerates
  have hr : ∀ {P : State → Prop} (k : Nat), Keeps P R D (readRegister p (resultAddr p k) : Op φ Byte) :=
    fun k => keeps_readRegister T fun s => h.exchange _ _ s
  refine keeps_seq T (keeps_update fun s _ => h.sequencer _ s) fun _ => keeps_seq T (hr 0) fun m => ?_
  refine keeps_seq T (keeps_update fun s _ => h0 m s) fun _ => keeps_seq T (hr 1) fun l => ?_
  refine keeps_seq T (keeps_update fun s _ => h1 l s) fun _ => keeps_seq T (keeps_read h.refl _) fun kind => ?_
  cases kind with
  | temperature => exact keeps_pure h.refl ()
  | pressure => exact keeps_seq T (hr 2) fun b => keeps_update fun s _ => h2 b s

/-- What an acquisition of a temperature does between its check and its end. -/
theorem keeps_measureTemperature (h : Measures p R D) (h0 : ∀ b s, R s (putByte0 b s)) (h1 : ∀ b s, R s (putByte1 b s)) :
    Keeps (fun s => s.kind = .temperature) (SameKind R) D
      (do issue p p.cmdTemp p.tDelayUs; captureResult p : Op φ Unit) :=
  keeps_bind h.sameKind.toTolerates (keeps_issue h.sameKind _ _) (fun _ _ hs ht => ht.2.trans hs) fun _ =>
    keeps_captureTemperature h h0 h1

/-- `R`, and `SEQ` is `Idle` at the end. -/
abbrev ToIdle (R : State → State → Prop) (s t : State) : Prop := R s t ∧ t.seq = .idle

/-- `R`, and `SEQ` is `Idle` at the end if it was at the start. -/
abbrev BackToIdle (R : State → State → Prop) (s t : State) : Prop := R s t ∧ (s.seq = .idle → t.seq = .idle)

theorem Acted.seq (h : Acted p s t) : t.seq = s.seq := by
  have := h.regs
  unfold SameRegs at this
  rw [this]

theorem Tolerates.backToIdle (h : Tolerates p R D) : Tolerates p (BackToIdle R) D where
  refl s := ⟨h.refl s, id⟩
  trans _ _ _ h1 h2 := ⟨h.trans _ _ _ h1.1 h2.1, h2.2 ∘ h1.2⟩
  acted _ _ ha := ⟨h.acted _ _ ha, fun hs => ha.seq.trans hs⟩
  weaken _ _ hr := h.weaken _ _ hr.1
  after _ _ _ hr hd := h.after _ _ _ hr.1 hd

/-- What an operation of the sequencer does after its check: an error puts `SEQ` to `Idle`, success goes on to do so. -/
theorem keeps_toIdle {y : Op φ α} {g : α → Op φ β} (hT : Tolerates p R D) (hs : ∀ s, R s (setSequencer .idle s))
    (hy : Keeps P R D y) (hg : ∀ a, Keeps (fun _ => True) (ToIdle R) D (g a)) :
    Keeps P (ToIdle R) D ((y.onRaise (setSequencer .idle)) >>= g) := by
  intro s h
  have := hy s h
  rw [ends_bind]
  unfold Ends Op.onRaise at *
  cases hx : y s with
  | ok a t =>
    rw [hx] at this
    refine (hg a t trivial).mono (fun _ u hu => ⟨hT.trans _ _ _ this hu.1, hu.2⟩) fun e u hu => ?_
    cases e with
    | raise k => exact ⟨hT.trans _ _ _ this hu.1, hu.2⟩
    | fault f => exact hT.after _ _ _ this hu
    | dropped => exact hu.imp fun v hv => ⟨hT.after _ _ _ this hv.1, hv.2⟩
  | error e t =>
    rw [hx] at this
    cases e with
    | raise k => exact ⟨hT.trans _ _ _ this (hs t), rfl⟩
    | fault f => exact this
    | dropped => exact this

/-- An operation that checks for `SEQ` = `Idle` and then ends with it. -/
theorem keeps_checkedIdle {g : Unit → Op φ α} (hT : Tolerates p R D) (hg : Keeps (fun _ => True) (ToIdle R) D (g ())) :
    Keeps P (BackToIdle R) D (requireSequencerIdle >>= g) := by
  intro s h
  rw [ends_bind]
  by_cases hi : s.seq = .idle
  · rw [ends_ok (show (requireSequencerIdle : Op φ Unit) s = .ok () s from require_true (by simp [hi]))]
    exact (hg s trivial).mono (fun _ u hu => ⟨hu.1, fun _ => hu.2⟩) fun e u hu => by
      cases e with
      | raise k => exact ⟨hu.1, fun _ => hu.2⟩
      | fault f => exact hu
      | dropped => exact hu
  · rw [ends_error (show (requireSequencerIdle : Op φ Unit) s = .error (.raise .sensorBusy) s from
      require_false (by simpa using hi))]
    exact ⟨hT.refl s, id⟩

theorem keeps_thenIdle {y : Op φ α} {g : α → Op φ β} (hT : Tolerates p R D) (hy : Keeps P R D y)
    (hr : ∀ s k t, y s ≠ .error (.raise k) t) (hg : ∀ a, Keeps (fun _ => True) (ToIdle R) D (g a)) :
    Keeps P (ToIdle R) D (y >>= g) := by
  intro s h
  have := hy s h
  rw [ends_bind]
  unfold Ends at *
  cases hx : y s with
  | ok a t =>
    rw [hx] at this
    refine (hg a t trivial).mono (fun _ u hu => ⟨hT.trans _ _ _ this hu.1, hu.2⟩) fun e u hu => ?_
    cases e with
    | raise k => exact ⟨hT.trans _ _ _ this hu.1, hu.2⟩
    | fault f => exact hT.after _ _ _ this hu
    | dropped => exact hu.imp fun v hv => ⟨hT.after _ _ _ this hv.1, hv.2⟩
  | error e t =>
    rw [hx] at this
    cases e with
    | raise k => exact absurd hx (hr s k t)
    | fault f => exact this
    | dropped => exact this

theorem keeps_issueAndWait_idle (h : Measures p R D) (cmd : Byte) (us : Nat) :
    Keeps P (BackToIdle R) D (issueAndWait p cmd us : Op φ Unit) :=
  keeps_checkedIdle h.toTolerates
    (keeps_toIdle h.toTolerates (h.sequencer _) (keeps_issue h cmd us) fun _ s _ => ⟨h.sequencer _ s, rfl⟩)

theorem keeps_acquireRawTemperature (h : AcquiresT p R D) :
    Keeps P (BackToIdle R) D (acquireRawTemperature p : Op φ Half) := by
  refine keeps_checkedIdle h.toTolerates ?_
  intro s _
  rw [ends_bind, ends_ok (update_apply _)]
  refine (keeps_toIdle (P := fun s => s.kind = .temperature) h.toTolerates (h.sequencer _)
    ((keeps_measureTemperature h.toMeasures h.byte0 h.byte1).mono (fun _ hs => hs) (fun _ _ hr => hr.1) fun _ _ hd => hd)
    (fun _ u _ => ?_) (setTemperature s) rfl).mono (fun _ u hu => ⟨h.trans _ _ _ (h.temperature s) hu.1, hu.2⟩)
    fun e u hu => ?_
  · exact ⟨h.trans _ _ _ (h.ut _ u) (h.sequencer _ _), rfl⟩
  · cases e with
    | raise k => exact ⟨h.trans _ _ _ (h.temperature s) hu.1, hu.2⟩
    | fault f => exact h.after _ _ _ (h.temperature s) hu
    | dropped => exact hu.imp fun v hv => ⟨h.after _ _ _ (h.temperature s) hv.1, hv.2⟩

theorem keeps_acquireRawPressure (h : AcquiresP p R D) (o : Level) :
    Keeps P (BackToIdle R) D (acquireRawPressure p o : Op φ Count20) := by
  refine keeps_checkedIdle h.toTolerates ?_
  refine keeps_thenIdle h.toTolerates (keeps_update fun s _ => h.pressure o s) (by simp) fun _ => ?_
  refine keeps_toIdle h.toTolerates (h.sequencer _) (keeps_seq h.toTolerates (keeps_issue h.toMeasures _ _) fun _ =>
    keeps_capturePressure h.toMeasures h.byte0 h.byte1 h.byte2) fun _ s _ => ?_
  exact ⟨h.trans _ _ _ (h.up _ s) (h.sequencer _ _), rfl⟩

/-- A step of the engine keeps what its computation keeps. -/
theorem keeps_engineStep (k : Nat) (g : State → Except ErrKind State)
    (hk : ∀ s t, P s → g s = .ok t → R s (setStep (nextStep k) t)) (h0 : ∀ s, P s → R s (setStep 0 s)) :
    Keeps P R D (engineStep k g : Op φ Unit) := by
  intro s hs
  unfold Ends engineStep
  cases hg : g s with
  | ok t => exact hk s t hs hg
  | error e => exact h0 s hs

/-- A write before the last of a step keeps what its computation keeps. -/
theorem keeps_engineWrite (g : State → Except ErrKind State) (hk : ∀ s t, P s → g s = .ok t → R s t)
    (h0 : ∀ s, P s → R s (setStep 0 s)) : Keeps P R D (engineWrite g : Op φ Unit) := by
  intro s hs
  unfold Ends engineWrite
  cases hg : g s with
  | ok t => exact hk s t hs hg
  | error e => exact h0 s hs

/-- No hardware reset stops an operation that starts with none scheduled. -/
theorem Stopped.calm (hc : Calm s) (hs : ∀ t, D s t → t.env.sched <:+ s.env.sched) (h : Stopped R D s (.dropped : Stop φ) t) :
    False := by
  obtain ⟨u, hu, hh, -⟩ := h
  exact hc ((hs u hu).subset (List.mem_of_head? hh))

/-- How an internal operation leaves the machine, by what its operation keeps. -/
theorem runInternal_keeps {x : Op Empty OpResult} {P : State → Prop} (h : Keeps P R D x) (hs : P s)
    (hn : runInternal x s = .next t) :
    (∃ u r, R s u ∧ t = putRet r u) ∨
      ∃ u, D s u ∧ u.env.sched.head? = some .hardwareReset ∧ t = hardwareReset (dropAct u) := by
  have := h s hs
  unfold Ends at this
  cases hx : x s with
  | ok a u =>
    rw [hx] at this
    rw [runInternal_ok hx] at hn
    exact .inl ⟨u, a, this, (by simpa using hn.symm)⟩
  | error e u =>
    rw [hx] at this
    cases e with
    | raise k =>
      rw [runInternal_raise hx] at hn
      exact .inl ⟨u, _, this, (by simpa using hn.symm)⟩
    | dropped =>
      rw [runInternal_dropped hx] at hn
      obtain ⟨v, hv, hh, rfl⟩ := this
      exact .inr ⟨v, hv, hh, (by simpa using hn.symm)⟩
    | fault f => exact nomatch f

end

end Sys2Proof.Machine
end

