-- ==== Sys2Proof/Laws/Commands.lean ====
section
/-!
SUPPORT. What the engine and the host commands keep, and how a command leaves the machine by what its operation keeps.
-/

namespace Sys2Proof.Machine

/-- A relation that every step of the engine keeps. -/
structure Computes (p : Params) (R D : State → State → Prop) : Prop extends Tolerates p R D where
  engine : ∀ s t, EngineRegs s t → R s t
  cstep  : ∀ k s, R s (setStep k s)

section
variable {φ α : Type} {p : Params} {P : State → Prop} {R D : State → State → Prop} {s t : State}

theorem Computes.step (h : Computes p R D) {s t : State} (ht : EngineRegs s t) (k : BitVec 5) : R s (setStep k t) :=
  h.trans _ _ _ (h.engine s t ht) (h.cstep k t)

theorem keeps_engineTemperature (h : Computes p R D) : Keeps P R D (engineTemperature p : Op φ Unit) := by
  have h0 : ∀ s, R s (setStep 0 s) := h.cstep 0
  refine keeps_seq h.toTolerates (keeps_engineStep _ _ (fun s t _ hg => h.step (compute1_regs hg).1 _) fun s _ => h0 s) fun _ => ?_
  refine keeps_seq h.toTolerates (keeps_engineStep _ _ (fun s t _ hg => h.step (compute2_regs hg).1 _) fun s _ => h0 s) fun _ => ?_
  refine keeps_seq h.toTolerates (keeps_engineStep _ _ (fun s t _ hg => h.step (compute3_regs hg).1 _) fun s _ => h0 s) fun _ => ?_
  exact keeps_engineStep _ _ (fun s t _ hg => h.step (compute4_regs hg).1 _) fun s _ => h0 s

theorem keeps_requireB5 (h : Tolerates p R D) : Keeps P R D requireB5 :=
  keeps_assert h.refl (fun s => h.weaken _ _ (h.refl s)) _ _

theorem keeps_pressureStep (h : Computes p R D) (k : Nat) (f : State → Except ErrKind State)
    (hf : ∀ {s t}, f s = .ok t → EngineRegs s t ∧ t.b5Valid = s.b5Valid) : Keeps P R D (pressureStep k f) :=
  keeps_seq h.toTolerates (keeps_requireB5 h.toTolerates) fun _ =>
    keeps_engineStep _ _ (fun _ _ _ hg => h.step (hf hg).1 _) fun s _ => h.cstep 0 s

theorem keeps_engineStep16 (h : Computes p R D) : Keeps P R D engineStep16 :=
  keeps_seq h.toTolerates (keeps_requireB5 h.toTolerates) fun _ =>
    keeps_seq h.toTolerates
      (keeps_engineWrite _ (fun s t _ hg => h.engine s t (compute16Square_regs hg).1) fun s _ => h.cstep 0 s) fun _ =>
      keeps_engineStep _ _ (fun _ _ _ hg => h.step (compute16_regs hg).1 _) fun s _ => h.cstep 0 s

theorem keeps_enginePressure (h : Computes p R D) : Keeps P R D (enginePressure p) := by
  refine keeps_seq h.toTolerates (keeps_pressureStep h _ _ compute5_regs) fun _ => ?_
  refine keeps_seq h.toTolerates (keeps_pressureStep h _ _ compute6_regs) fun _ => ?_
  refine keeps_seq h.toTolerates (keeps_pressureStep h _ _ compute7_regs) fun _ => ?_
  refine keeps_seq h.toTolerates (keeps_pressureStep h _ _ compute8_regs) fun _ => ?_
  refine keeps_seq h.toTolerates (keeps_pressureStep h _ _ compute9_regs) fun _ => ?_
  refine keeps_seq h.toTolerates (keeps_pressureStep h _ _ compute10_regs) fun _ => ?_
  refine keeps_seq h.toTolerates (keeps_pressureStep h _ _ compute11_regs) fun _ => ?_
  refine keeps_seq h.toTolerates (keeps_pressureStep h _ _ compute12_regs) fun _ => ?_
  refine keeps_seq h.toTolerates (keeps_pressureStep h _ _ compute13_regs) fun _ => ?_
  refine keeps_seq h.toTolerates (keeps_pressureStep h _ _ compute14_regs) fun _ => ?_
  refine keeps_seq h.toTolerates (keeps_pressureStep h _ _ compute15_regs) fun _ => ?_
  refine keeps_seq h.toTolerates (keeps_engineStep16 h) fun _ => ?_
  refine keeps_seq h.toTolerates (keeps_pressureStep h _ _ compute17_regs) fun _ => ?_
  exact keeps_pressureStep h _ _ compute18_regs

theorem keeps_engineRun (h : Computes p R D) : Keeps P R D (engineRun p) := by
  refine keeps_seq h.toTolerates ?_ fun _ =>
    keeps_seq h.toTolerates (keeps_engineTemperature h) fun _ => keeps_enginePressure h
  exact keeps_seq h.toTolerates (keeps_require h.refl _ _) fun _ =>
    keeps_seq h.toTolerates (keeps_assert h.refl (fun s => h.weaken _ _ (h.refl s)) _ _) fun _ => keeps_update fun s _ => h.cstep 1 s

theorem keeps_readCompensated (h : Tolerates p R D)
    (ht : Keeps (fun _ => True) R D (acquireRawTemperature p : Op Fault Half))
    (hp : Keeps (fun _ => True) R D (acquireRawPressure p p.ossSel : Op Fault Count20))
    (he : Keeps (fun _ => True) R D (engineRun p)) (hf : ∀ s, R s (clearReadFlags s)) : Keeps P R D (readCompensated p) := by
  refine keeps_seq h (keeps_require h.refl _ _) fun _ => ?_
  refine keeps_seq h (Keeps.always ?_ fun s t _ ht => h.trans _ _ _ ht (hf t)) fun _ => keeps_read h.refl _
  exact keeps_seq h ht fun _ => keeps_seq h hp fun _ => he

theorem keeps_openSession (h : Tolerates p R D) (ho : ∀ s, R s (setSession .idle (setOwned true s))) :
    Keeps P R D openSession :=
  keeps_seq h (keeps_require h.refl _ _) fun _ =>
    keeps_seq h (keeps_update fun s _ => ho s) fun _ => keeps_pure h.refl _

theorem keeps_configure (h : Tolerates p R D) (hx : ∀ s, R s (afterExchange p [p.calBase] p.calLen s))
    (hi : ∀ cmd us, Keeps (fun _ => True) R D (issueAndWait p cmd us : Op Empty Unit))
    (hp : ∀ blk s, R s (putCal blk s)) (hc : ∀ s, R s (clearCalValid s)) (hs : ∀ s, R s (setSession .configured s)) :
    Keeps P R D (configure p) := by
  have hi' : ∀ (cmd : Byte) (us : Nat),
      Keeps (fun _ => True) R D ((issueAndWait p cmd us : Op Empty Unit).onRaise clearCalValid) :=
    fun cmd us => (hi cmd us).onRaise fun _ t _ ht => h.trans _ _ _ ht (hc t)
  refine keeps_seq h (keeps_require h.refl _ _) fun _ => keeps_seq h (keeps_load h hx hp) fun _ => ?_
  refine keeps_seq h (hi' _ _) fun _ => keeps_seq h (hi' _ _) fun _ => ?_
  exact keeps_seq h (keeps_update fun s _ => hs s) fun _ => keeps_pure h.refl _

theorem keeps_resetSensor (h : Tolerates p R D) (hx : ∀ v s, R s (afterExchange p [p.ctrlReg, v] 0 s))
    (hs : ∀ s, R s (setSession .idle (clearCalValid s))) : Keeps P R D (resetSensor p) :=
  keeps_seq h (keeps_require h.refl _ _) fun _ =>
    keeps_seq h (keeps_writeRegister h fun s => hx _ s) fun _ =>
      keeps_seq h (keeps_update fun s _ => hs s) fun _ => keeps_pure h.refl _

theorem keeps_readRegisterRaw (h : Tolerates p R D) {addr : Byte} (hx : ∀ s, R s (afterExchange p [addr] 1 s)) :
    Keeps P R D (readRegisterRaw p addr) :=
  keeps_seq h (keeps_require h.refl _ _) fun _ =>
    keeps_seq h (keeps_readRegister h hx) fun _ => keeps_pure h.refl _

theorem keeps_writeRegisterRaw (h : Tolerates p R D) {addr v : Byte} (hx : ∀ s, R s (afterExchange p [addr, v] 0 s)) :
    Keeps P R D (writeRegisterRaw p addr v) :=
  keeps_seq h (keeps_require h.refl _ _) fun _ =>
    keeps_seq h (keeps_writeRegister h hx) fun _ => keeps_pure h.refl _

theorem keeps_writePowerDown (h : Tolerates p R D) (hx : ∀ v s, R s (afterExchange p [p.ctrlReg, v] 0 s))
    (hs : ∀ s, R s (setSession .shuttingDown s)) : Keeps P R D (writePowerDown p) :=
  keeps_seq h (keeps_update fun s _ => hs s) fun _ => (keeps_writeRegister h fun s => hx _ s).outcome

theorem keeps_endSession (h : Tolerates p R D) (hs : ∀ s, R s (setOwned false (setSession .closed (clearCalValid s))))
    (e : Option ErrKind) : Keeps P R D (endSession e) :=
  keeps_seq h (keeps_update fun s _ => hs s) fun _ => by
    cases e with
    | none => exact keeps_pure h.refl _
    | some k => exact keeps_raise h.refl k

theorem keeps_shutdown (h : Tolerates p R D) (hx : ∀ v s, R s (afterExchange p [p.ctrlReg, v] 0 s))
    (hd : ∀ s, R s (setSession .shuttingDown s))
    (hs : ∀ s, R s (setOwned false (setSession .closed (clearCalValid s)))) : Keeps P R D (shutdown p) :=
  keeps_seq h (keeps_require h.refl _ _) fun _ =>
    keeps_seq h (keeps_writePowerDown h hx hd) fun e => keeps_endSession h hs e

theorem keeps_closeSession (h : Tolerates p R D) (hx : ∀ v s, R s (afterExchange p [p.ctrlReg, v] 0 s))
    (hd : ∀ s, R s (setSession .shuttingDown s))
    (hs : ∀ s, R s (setOwned false (setSession .closed (clearCalValid s)))) : Keeps P R D (closeSession p) := by
  refine keeps_seq h (keeps_read h.refl _) fun live => ?_
  cases live with
  | true => exact keeps_seq h (keeps_writePowerDown h hx hd) fun e => keeps_endSession h hs e
  | false => exact keeps_seq h (keeps_pure h.refl _) fun e => keeps_endSession h hs e

theorem keeps_invalidCommand (hr : ∀ s, R s s) : Keeps P R D invalidCommand := keeps_raise hr _

/-- An accepted command, by what its operation keeps: it has responded, in a state related to the start; or hardware reset has
dropped it in one. -/
theorem accepted_keeps {x : Op φ Payload} (hT : Tolerates p R D) (h : Keeps P R D x) (hs : P (setBusy true s)) :
    Ends (accepted p x) s (fun _ t => ∃ r u, R (setBusy true s) u ∧ t = setBusy false (respond r u))
      (fun e t => Stopped R D (setBusy true s) e t ∧ ∀ k, e ≠ .raise k) := by
  have hx := h _ hs
  unfold Ends at hx
  unfold accepted
  rw [ends_bind, ends_ok (update_apply _), ends_bind]
  have settled : ∀ r t, R (setBusy true s) t →
      Ends ((do moment p; Op.update (fun s => setBusy false (respond r s))) : Op φ Unit) t
        (fun _ t => ∃ r u, R (setBusy true s) u ∧ t = setBusy false (respond r u))
        (fun e t => Stopped R D (setBusy true s) e t ∧ ∀ k, e ≠ .raise k) := by
    intro r t ht
    rw [ends_bind]
    rcases moment_cases (φ := φ) p t with ⟨u, hu, ha⟩ | ⟨u, ha, hh, hr⟩
    · rw [ends_ok hu, ends_ok (update_apply _)]
      exact ⟨r, u, hT.trans _ _ _ ht (hT.acted _ _ ha), rfl⟩
    · rw [ends_error hr]
      exact ⟨⟨u, hT.weaken _ _ (hT.trans _ _ _ ht (hT.acted _ _ ha)), hh, rfl⟩, by simp⟩
  cases hr : x (setBusy true s) with
  | ok a t =>
    rw [hr] at hx
    rw [ends_ok (settle_ok hr)]
    exact settled _ _ hx
  | error e t =>
    rw [hr] at hx
    cases e with
    | raise k =>
      rw [ends_ok (settle_raise hr)]
      exact settled _ _ hx
    | dropped =>
      rw [ends_error (settle_dropped hr)]
      exact ⟨hx, by simp⟩
    | fault f =>
      rw [ends_error (show settle x (setBusy true s) = .error (.fault f) t by simp [settle, hr])]
      exact ⟨hx, by simp⟩

/-- How an accepted command leaves the machine, by what its operation keeps. -/
theorem runCommand_keeps {i : Instr} {x : Op Empty Payload} (hT : Tolerates p R D) (h : Keeps P R D x)
    (hs : P (setBusy true s)) (hb : s.busy = false) (hn : runCommand p i x s = .next t) :
    (∃ r u, R (setBusy true s) u ∧ t = setBusy false (respond r u)) ∨
      ∃ u, D (setBusy true s) u ∧ u.env.sched.head? = some .hardwareReset ∧ t = hardwareReset (dropAct u) := by
  have hx := accepted_keeps hT h hs
  unfold Ends at hx
  simp only [runCommand, hb, Bool.false_eq_true, if_false, Host.Outcome.next.injEq] at hn
  cases hr : accepted p x s with
  | ok a u =>
    rw [hr] at hx hn
    exact .inl (hn ▸ hx)
  | error e u =>
    rw [hr] at hx hn
    cases e with
    | raise k => exact absurd rfl (hx.2 k)
    | dropped => exact .inr (hn ▸ hx.1)
    | fault f => exact nomatch f

/-- The same for the one command that runs the engine. -/
theorem runEngineCommand_keeps {i : Instr} {x : Op Fault Payload} (hT : Tolerates p R D) (h : Keeps P R D x)
    (hs : P (setBusy true s)) (hb : s.busy = false) (hn : runEngineCommand p i x s = .next t) :
    (∃ r u, R (setBusy true s) u ∧ t = setBusy false (respond r u)) ∨
      ∃ u, D (setBusy true s) u ∧ u.env.sched.head? = some .hardwareReset ∧ t = hardwareReset (dropAct u) := by
  have hx := accepted_keeps hT h hs
  unfold Ends at hx
  simp only [runEngineCommand, hb, Bool.false_eq_true, if_false] at hn
  cases hr : accepted p x s with
  | ok a u =>
    rw [hr] at hx hn
    simp only [endOutcome, Host.Outcome.next.injEq] at hn
    exact .inl (hn ▸ hx)
  | error e u =>
    rw [hr] at hx hn
    cases e with
    | raise k => exact absurd rfl (hx.2 k)
    | dropped =>
      simp only [endOutcome, Host.Outcome.next.injEq] at hn
      exact .inr (hn ▸ hx.1)
    | fault f => simp [endOutcome] at hn

end

end Sys2Proof.Machine
end

