-- ==== Sys2Proof/Laws/Compensation.lean ====
section
/-!
SUPPORT. The eighteen steps of the engine, each with its own checks on its own registers, compute the pure function
`compensate`, whose only checks are those that can fail (spec/43_compensation.md R146).
-/

namespace Sys2Proof.Machine

/-- A state of an engine run from `base`: the staging registers, `B5_VALID` and `CSTEP` are its own. -/
abbrev During (base : State) (g : Staging) (b : Bool) (c : BitVec 5) : State := { base with stg := g, b5Valid := b, cstep := c }

/-- An engine run ends as the compensation `r` says: with its pair in `T` and `P`, or with its error. -/
def Runs (base : State) (x : Op Fault Unit) (s : State) : Except ErrKind (Int × Int) → Prop
  | .ok (t, q) => ∃ g, x s = .ok () (During base g true 0) ∧ g.t = toWord t ∧ g.p = toWord q
  | .error k => ∃ g b, x s = .error (.raise k) (During base g b 0)

section
variable {base : State} {g g' g'' : Staging} {b b' : Bool} {c : BitVec 5} {x y : Op Fault Unit}
  {r : Except ErrKind (Int × Int)} {k : Nat} {f : State → Except ErrKind State} {e : ErrKind}

/-- An engine run that goes on as another. -/
theorem Runs.of_eq {s s' : State} (h : x s = y s') (hr : Runs base y s' r) : Runs base x s r := by
  unfold Runs at *
  rw [h]
  exact hr

/-- A step of the temperature half passes its checks, and the run goes on. -/
theorem Runs.pass (h : f (During base g b c) = .ok (During base g' b' c))
    (hr : Runs base y (During base g' b' (nextStep k)) r) : Runs base (do engineStep k f; y) (During base g b c) r :=
  hr.of_eq (bind_ok (engineStep_ok h))

/-- A step of the temperature half raises. -/
theorem Runs.stop (h : f (During base g b c) = .error e) : Runs base (do engineStep k f; y) (During base g b c) (.error e) :=
  ⟨g, b, bind_error (engineStep_raise h)⟩

/-- A step of the pressure half passes its checks. -/
theorem Runs.passP (h : f (During base g true c) = .ok (During base g' true c))
    (hr : Runs base y (During base g' true (nextStep k)) r) : Runs base (do pressureStep k f; y) (During base g true c) r :=
  hr.of_eq (bind_ok ((pressureStep_apply rfl).trans (engineStep_ok h)))

/-- A step of the pressure half raises. -/
theorem Runs.stopP (h : f (During base g true c) = .error e) :
    Runs base (do pressureStep k f; y) (During base g true c) (.error e) :=
  ⟨g, true, bind_error ((pressureStep_apply rfl).trans (engineStep_raise h))⟩

/-- Step 16 passes both checks. -/
theorem Runs.pass16 (h1 : compute16Square (During base g true c) = .ok (During base g' true c))
    (h2 : compute16 (During base g' true c) = .ok (During base g'' true c)) (hr : Runs base y (During base g'' true 17) r) :
    Runs base (do engineStep16; y) (During base g true c) r :=
  hr.of_eq (bind_ok (engineStep16_ok rfl h1 h2))

/-- Step 16 raises at its first check. -/
theorem Runs.stop16 (h : compute16Square (During base g true c) = .error e) :
    Runs base (do engineStep16; y) (During base g true c) (.error e) :=
  ⟨g, true, bind_error (engineStep16_raise rfl h)⟩

/-- Step 16 raises at its second check. -/
theorem Runs.stop16_second (h1 : compute16Square (During base g true c) = .ok (During base g' true c))
    (h2 : compute16 (During base g' true c) = .error e) : Runs base (do engineStep16; y) (During base g true c) (.error e) :=
  ⟨g', true, bind_error (engineStep16_raise_second rfl h1 h2)⟩

/-- What passed the signed check is in range. -/
theorem chkS32_inv {v w : Int} (h : chkS32 v = .ok w) : InS32 w := by
  by_cases hv : InS32 v
  · rw [chkS32_ok hv] at h
    cases h
    exact hv
  · rw [chkS32_fail hv] at h
    cases h

/-- The quotient of step 2 is no larger than its dividend, `MC << 11`. -/
theorem tdiv_bounds {n d : Int} (h : -67108864 ≤ n ∧ n ≤ 67108864) : -67108864 ≤ n.tdiv d ∧ n.tdiv d ≤ 67108864 := by
  have : (n.tdiv d).natAbs ≤ n.natAbs := by rw [Int.natAbs_tdiv]; exact Nat.div_le_self _ _
  omega

/-- The temperature half, and what it hands on. -/
theorem engineTemperature_runs {p : Params} (hd : p.divMode = .trunc) {F : Int → Except ErrKind (Int × Int)}
    (hy : ∀ g b5, -67174400 ≤ b5 ∧ b5 ≤ 67174400 → g.b5.toInt = b5 → g.t = toWord (asr (b5 + 8) 4) →
      Runs base y (During base g true 5) (F b5)) :
    Runs base (do engineTemperature p; y) (During base g b 1) (do
      let m1 ← chkS32 (((base.ut.toNat : Int) - base.cal.ac6.toNat) * base.cal.ac5.toNat)
      let d ← nonzero (asr m1 15 + base.cal.md.toInt)
      F (asr m1 15 + sdiv p.divMode (shl base.cal.mc.toInt 11) d)) := by
  have hu := base.ut.isLt
  have h6 := base.cal.ac6.isLt
  have hmc := half_toInt_bounds base.cal.mc
  have hmd := half_toInt_bounds base.cal.md
  simp only [engineTemperature, engineStep1, engineStep2, engineStep3, engineStep4, bind_assoc]
  have h0 : InS32 ((base.ut.toNat : Int) - base.cal.ac6.toNat) := by
    simp only [InS32]; omega
  by_cases h1 : InS32 (((base.ut.toNat : Int) - base.cal.ac6.toNat) * base.cal.ac5.toNat)
  swap
  · rw [chkS32_fail h1]
    exact Runs.stop (by simp only [compute1, ut, ac6, ac5, chkS32_ok h0, except_bind_ok, chkS32_fail h1]; rfl)
  rw [chkS32_ok h1, except_bind_ok]
  refine Runs.pass (by simp only [compute1, ut, ac6, ac5, chkS32_ok h0, except_bind_ok, chkS32_ok h1]; rfl) ?_
  have hx : InS32 (asr ((((base.ut.toNat : Int) - base.cal.ac6.toNat) * base.cal.ac5.toNat)) 15) := by
    rw [asr_eq]; exact inS32_div h1
  have hxb : -65536 ≤ asr ((((base.ut.toNat : Int) - base.cal.ac6.toNat) * base.cal.ac5.toNat)) 15 ∧
      asr ((((base.ut.toNat : Int) - base.cal.ac6.toNat) * base.cal.ac5.toNat)) 15 ≤ 65535 := by
    rw [asr_eq]; simp only [InS32] at h1; omega
  generalize asr ((((base.ut.toNat : Int) - base.cal.ac6.toNat) * base.cal.ac5.toNat)) 15 = x1 at hx hxb
  have h2 : InS32 (x1 + base.cal.md.toInt) := by simp only [InS32]; omega
  have hn : InS32 (shl base.cal.mc.toInt 11) := by simp only [InS32, shl]; omega
  by_cases hz : x1 + base.cal.md.toInt = 0
  · rw [hz, nonzero_zero]
    exact Runs.stop (by simp only [compute2, md, toWord_toInt hx, hz]; rfl)
  rw [nonzero_ok hz, except_bind_ok]
  refine Runs.pass (by
    simp only [compute2, md, mc, toWord_toInt hx, chkS32_ok h2, except_bind_ok, nonzero_ok hz, chkS32_ok hn]; rfl) ?_
  have hq : -67108864 ≤ sdiv p.divMode (shl base.cal.mc.toInt 11) (x1 + base.cal.md.toInt) ∧
      sdiv p.divMode (shl base.cal.mc.toInt 11) (x1 + base.cal.md.toInt) ≤ 67108864 := by
    rw [hd]; exact tdiv_bounds (by simp only [shl]; omega)
  generalize sdiv p.divMode (shl base.cal.mc.toInt 11) (x1 + base.cal.md.toInt) = x2 at hq
  have hx2 : InS32 x2 := by simp only [InS32]; omega
  have h3 : InS32 (x1 + x2) := by simp only [InS32]; omega
  refine Runs.pass (b' := true) (by
    simp only [compute3, toWord_toInt hx, toWord_toInt hx2, chkS32_ok h3, except_bind_ok]; rfl) ?_
  have h4 : InS32 (x1 + x2 + 8) := by simp only [InS32]; omega
  refine Runs.pass (by simp only [compute4, toWord_toInt h3, chkS32_ok h4, except_bind_ok]; rfl) ?_
  exact hy _ _ (by omega) (toWord_toInt h3) rfl

/-- The pressure half, from the `B5` and the `T` it is handed. -/
theorem enginePressure_runs {p : Params} {b5 : Int} (tt : Int) (hb : -67174400 ≤ b5 ∧ b5 ≤ 67174400) (h5 : g.b5.toInt = b5)
    (ht : g.t = toWord tt) : Runs base (enginePressure p) (During base g true 5) (do
      let b6 := b5 - 4000
      let sq ← chkS32 (b6 * b6)
      let m6 ← chkS32 (base.cal.b2.toInt * asr sq 12)
      let m7 ← chkS32 (base.cal.ac2.toInt * b6)
      let x3 ← chkS32 (asr m6 11 + asr m7 11)
      let a9 ← chkS32 (base.cal.ac1.toInt * 4 + x3)
      let l9 ← chkS32 (shl a9 (p.b3Shift base.oss))
      let s9 ← chkS32 (l9 + 2)
      let b3 := asr s9 2
      let m10 ← chkS32 (base.cal.ac3.toInt * b6)
      let m11 ← chkS32 (base.cal.b1.toInt * asr sq 12)
      let x3 := asr (asr m10 13 + asr m11 16 + 2) 2
      let u ← chkU32 (x3 + 32768)
      let m13 ← chkU32 (base.cal.ac4.toNat * u)
      let b4 := asr m13 15
      let d14 ← chkU32 (base.up.toNat - b3)
      let b7 ← chkU32 (d14 * asr 50000 base.oss.toNat)
      let b4 ← nonzero b4
      let pw ← chkS32 (if b7 < 0x80000000 then udiv (b7 * 2) b4 else udiv b7 b4 * 2)
      let h ← chkS32 (asr pw 8 * asr pw 8)
      let m16 ← chkS32 (h * 3038)
      let m17 ← chkS32 (-7357 * pw)
      let q ← chkS32 (pw + asr (asr m16 16 + asr m17 16 + 3791) 4)
      pure (tt, q)) := by
  simp only [enginePressure, engineStep5, engineStep6, engineStep7, engineStep8, engineStep9, engineStep10, engineStep11,
    engineStep12, engineStep13, engineStep14, engineStep15, engineStep17, engineStep18]
  have c5 : InS32 (b5 - 4000) := by simp only [InS32]; omega
  refine Runs.passP (by simp only [compute5, h5, chkS32_ok c5, except_bind_ok]; rfl) ?_
  have hb6 : -67178400 ≤ b5 - 4000 ∧ b5 - 4000 ≤ 67170400 := by omega
  generalize b5 - 4000 = b6 at c5 hb6
  -- step 6
  by_cases hsq : InS32 (b6 * b6)
  swap
  · rw [chkS32_fail hsq]
    exact Runs.stopP (by simp only [compute6, toWord_toInt c5, chkS32_fail hsq]; rfl)
  rw [chkS32_ok hsq, except_bind_ok]
  by_cases h6 : InS32 (base.cal.b2.toInt * asr (b6 * b6) 12)
  swap
  · rw [chkS32_fail h6]
    exact Runs.stopP (by simp only [compute6, coefB2, toWord_toInt c5, chkS32_ok hsq, except_bind_ok, chkS32_fail h6]; rfl)
  rw [chkS32_ok h6, except_bind_ok]
  refine Runs.passP (by
    simp only [compute6, coefB2, toWord_toInt c5, chkS32_ok hsq, except_bind_ok, chkS32_ok h6]; rfl) ?_
  -- step 7
  by_cases h7 : InS32 (base.cal.ac2.toInt * b6)
  swap
  · rw [chkS32_fail h7]
    exact Runs.stopP (by simp only [compute7, ac2, toWord_toInt c5, chkS32_fail h7]; rfl)
  rw [chkS32_ok h7, except_bind_ok]
  refine Runs.passP (by simp only [compute7, ac2, toWord_toInt c5, chkS32_ok h7, except_bind_ok]; rfl) ?_
  -- step 8
  have r6 : InS32 (asr (base.cal.b2.toInt * asr (b6 * b6) 12) 11) := by rw [asr_eq _ 11]; exact inS32_div h6
  have r7 : InS32 (asr (base.cal.ac2.toInt * b6) 11) := by rw [asr_eq]; exact inS32_div h7
  by_cases h8 : InS32 (asr (base.cal.b2.toInt * asr (b6 * b6) 12) 11 + asr (base.cal.ac2.toInt * b6) 11)
  swap
  · rw [chkS32_fail h8]
    exact Runs.stopP (by simp only [compute8, toWord_toInt r6, toWord_toInt r7, chkS32_fail h8]; rfl)
  rw [chkS32_ok h8, except_bind_ok]
  refine Runs.passP (by simp only [compute8, toWord_toInt r6, toWord_toInt r7, chkS32_ok h8, except_bind_ok]; rfl) ?_
  generalize asr (base.cal.b2.toInt * asr (b6 * b6) 12) 11 + asr (base.cal.ac2.toInt * b6) 11 = x3 at h8
  -- step 9
  have hac1 := half_toInt_bounds base.cal.ac1
  have h9 : InS32 (base.cal.ac1.toInt * 4) := by simp only [InS32]; omega
  by_cases h9a : InS32 (base.cal.ac1.toInt * 4 + x3)
  swap
  · rw [chkS32_fail h9a]
    exact Runs.stopP (by simp only [compute9, ac1, toWord_toInt h8, chkS32_ok h9, except_bind_ok, chkS32_fail h9a]; rfl)
  rw [chkS32_ok h9a, except_bind_ok]
  by_cases h9b : InS32 (shl (base.cal.ac1.toInt * 4 + x3) (p.b3Shift base.oss))
  swap
  · rw [chkS32_fail h9b]
    exact Runs.stopP (by
      simp only [compute9, ac1, toWord_toInt h8, chkS32_ok h9, except_bind_ok, chkS32_ok h9a, chkS32_fail h9b]; rfl)
  rw [chkS32_ok h9b, except_bind_ok]
  by_cases h9c : InS32 (shl (base.cal.ac1.toInt * 4 + x3) (p.b3Shift base.oss) + 2)
  swap
  · rw [chkS32_fail h9c]
    exact Runs.stopP (by
      simp only [compute9, ac1, toWord_toInt h8, chkS32_ok h9, except_bind_ok, chkS32_ok h9a, chkS32_ok h9b,
        chkS32_fail h9c]; rfl)
  rw [chkS32_ok h9c, except_bind_ok]
  refine Runs.passP (by
    simp only [compute9, ac1, toWord_toInt h8, chkS32_ok h9, except_bind_ok, chkS32_ok h9a, chkS32_ok h9b, chkS32_ok h9c]
    rfl) ?_
  have r9 : InS32 (asr (shl (base.cal.ac1.toInt * 4 + x3) (p.b3Shift base.oss) + 2) 2) := by rw [asr_eq]; exact inS32_div h9c
  generalize asr (shl (base.cal.ac1.toInt * 4 + x3) (p.b3Shift base.oss) + 2) 2 = b3 at r9
  -- step 10
  by_cases h10 : InS32 (base.cal.ac3.toInt * b6)
  swap
  · rw [chkS32_fail h10]
    exact Runs.stopP (by simp only [compute10, ac3, toWord_toInt c5, chkS32_fail h10]; rfl)
  rw [chkS32_ok h10, except_bind_ok]
  refine Runs.passP (by simp only [compute10, ac3, toWord_toInt c5, chkS32_ok h10, except_bind_ok]; rfl) ?_
  -- step 11
  by_cases h11 : InS32 (base.cal.b1.toInt * asr (b6 * b6) 12)
  swap
  · rw [chkS32_fail h11]
    exact Runs.stopP (by simp only [compute11, coefB1, toWord_toInt c5, chkS32_ok hsq, except_bind_ok, chkS32_fail h11]; rfl)
  rw [chkS32_ok h11, except_bind_ok]
  refine Runs.passP (by
    simp only [compute11, coefB1, toWord_toInt c5, chkS32_ok hsq, except_bind_ok, chkS32_ok h11]; rfl) ?_
  -- step 12
  have r10 : -262144 ≤ asr (base.cal.ac3.toInt * b6) 13 ∧ asr (base.cal.ac3.toInt * b6) 13 ≤ 262144 := by
    rw [asr_eq]; simp only [InS32] at h10; omega
  have r11 : -32768 ≤ asr (base.cal.b1.toInt * asr (b6 * b6) 12) 16 ∧
      asr (base.cal.b1.toInt * asr (b6 * b6) 12) 16 ≤ 32768 := by
    rw [asr_eq _ 16]; simp only [InS32] at h11; omega
  generalize asr (base.cal.ac3.toInt * b6) 13 = x10 at r10
  generalize asr (base.cal.b1.toInt * asr (b6 * b6) 12) 16 = x11 at r11
  have i10 : InS32 x10 := by simp only [InS32]; omega
  have i11 : InS32 x11 := by simp only [InS32]; omega
  have h12 : InS32 (x10 + x11) := by simp only [InS32]; omega
  have h12' : InS32 (x10 + x11 + 2) := by simp only [InS32]; omega
  refine Runs.passP (by
    simp only [compute12, toWord_toInt i10, toWord_toInt i11, chkS32_ok h12, chkS32_ok h12', except_bind_ok]; rfl) ?_
  have r12 : InS32 (asr (x10 + x11 + 2) 2) := by rw [asr_eq]; exact inS32_div h12'
  generalize asr (x10 + x11 + 2) 2 = y3 at r12
  -- step 13
  by_cases h13 : InU32 (y3 + 32768)
  swap
  · rw [chkU32_fail h13]
    exact Runs.stopP (by simp only [compute13, toWord_toInt r12, chkU32_fail h13]; rfl)
  rw [chkU32_ok h13, except_bind_ok]
  by_cases h13' : InU32 (base.cal.ac4.toNat * (y3 + 32768))
  swap
  · rw [chkU32_fail h13']
    exact Runs.stopP (by simp only [compute13, ac4, toWord_toInt r12, chkU32_ok h13, except_bind_ok, chkU32_fail h13']; rfl)
  rw [chkU32_ok h13', except_bind_ok]
  refine Runs.passP (by
    simp only [compute13, ac4, toWord_toInt r12, chkU32_ok h13, except_bind_ok, chkU32_ok h13']; rfl) ?_
  have r13 : InU32 (asr (base.cal.ac4.toNat * (y3 + 32768)) 15) := by rw [asr_eq]; exact inU32_div h13'
  generalize asr (base.cal.ac4.toNat * (y3 + 32768)) 15 = b4 at r13
  -- step 14
  by_cases h14 : InU32 (base.up.toNat - b3)
  swap
  · rw [chkU32_fail h14]
    exact Runs.stopP (by simp only [compute14, up, toWord_toInt r9, chkU32_fail h14]; rfl)
  rw [chkU32_ok h14, except_bind_ok]
  by_cases h14' : InU32 ((base.up.toNat - b3) * asr 50000 base.oss.toNat)
  swap
  · rw [chkU32_fail h14']
    exact Runs.stopP (by simp only [compute14, up, toWord_toInt r9, chkU32_ok h14, except_bind_ok, chkU32_fail h14']; rfl)
  rw [chkU32_ok h14', except_bind_ok]
  refine Runs.passP (by
    simp only [compute14, up, toWord_toInt r9, chkU32_ok h14, except_bind_ok, chkU32_ok h14']; rfl) ?_
  generalize (base.up.toNat - b3) * asr 50000 base.oss.toNat = b7 at h14'
  -- step 15
  by_cases hz : b4 = 0
  · rw [hz, nonzero_zero]
    exact Runs.stopP (by simp only [compute15]; rfl)
  rw [nonzero_ok hz, except_bind_ok]
  have hq : doubledQuotient b7 b4 = chkS32 (if b7 < 0x80000000 then udiv (b7 * 2) b4 else udiv b7 b4 * 2) := by
    unfold doubledQuotient
    split
    · have h2 : InU32 (b7 * 2) := by simp only [InU32] at *; omega
      rw [chkU32_ok h2, except_bind_ok]
    · rfl
  rw [← hq]
  cases hw : doubledQuotient b7 b4 with
  | error e =>
    exact Runs.stopP (by
      simp only [compute15, toWord_toNat r13, toWord_toNat h14', nonzero_ok hz, except_bind_ok, hw]; rfl)
  | ok pw =>
  have hpw : InS32 pw := chkS32_inv (hq ▸ hw)
  rw [except_bind_ok]
  refine Runs.passP (by
    simp only [compute15, toWord_toNat r13, toWord_toNat h14', nonzero_ok hz, except_bind_ok, hw]; rfl) ?_
  -- step 16
  by_cases h16 : InS32 (asr pw 8 * asr pw 8)
  swap
  · rw [chkS32_fail h16]
    exact Runs.stop16 (by simp only [compute16Square, toWord_toInt hpw, chkS32_fail h16]; rfl)
  rw [chkS32_ok h16, except_bind_ok]
  by_cases h16' : InS32 (asr pw 8 * asr pw 8 * 3038)
  swap
  · rw [chkS32_fail h16']
    exact Runs.stop16_second (by simp only [compute16Square, toWord_toInt hpw, chkS32_ok h16, except_bind_ok]; rfl)
      (by simp only [compute16, toWord_toInt h16, chkS32_fail h16']; rfl)
  rw [chkS32_ok h16', except_bind_ok]
  refine Runs.pass16 (by simp only [compute16Square, toWord_toInt hpw, chkS32_ok h16, except_bind_ok]; rfl)
    (by simp only [compute16, toWord_toInt h16, chkS32_ok h16', except_bind_ok]; rfl) ?_
  -- step 17
  by_cases h17 : InS32 (-7357 * pw)
  swap
  · rw [chkS32_fail h17]
    exact Runs.stopP (by simp only [compute17, toWord_toInt hpw, chkS32_fail h17]; rfl)
  rw [chkS32_ok h17, except_bind_ok]
  refine Runs.passP (by simp only [compute17, toWord_toInt hpw, chkS32_ok h17, except_bind_ok]; rfl) ?_
  -- step 18
  have r16 : -32768 ≤ asr (asr pw 8 * asr pw 8 * 3038) 16 ∧ asr (asr pw 8 * asr pw 8 * 3038) 16 ≤ 32768 := by
    rw [asr_eq _ 16]; simp only [InS32] at h16'; omega
  have r17 : -32768 ≤ asr (-7357 * pw) 16 ∧ asr (-7357 * pw) 16 ≤ 32768 := by
    rw [asr_eq]; simp only [InS32] at h17; omega
  generalize asr (asr pw 8 * asr pw 8 * 3038) 16 = x16 at r16
  generalize asr (-7357 * pw) 16 = x17 at r17
  have i16 : InS32 x16 := by simp only [InS32]; omega
  have i17 : InS32 x17 := by simp only [InS32]; omega
  have h18 : InS32 (x16 + x17) := by simp only [InS32]; omega
  have h18' : InS32 (x16 + x17 + 3791) := by simp only [InS32]; omega
  by_cases hp : InS32 (pw + asr (x16 + x17 + 3791) 4)
  swap
  · rw [chkS32_fail hp]
    refine ⟨_, true, (pressureStep_apply rfl).trans (engineStep_raise ?_)⟩
    simp only [compute18, toWord_toInt hpw, toWord_toInt i16, toWord_toInt i17, chkS32_ok h18, chkS32_ok h18', except_bind_ok,
      chkS32_fail hp]
    rfl
  rw [chkS32_ok hp]
  refine ⟨⟨toWord x16, toWord x17, toWord y3, g.b5, toWord b6, toWord b3, toWord b4, toWord b7, toWord pw, g.t,
    toWord (pw + asr (x16 + x17 + 3791) 4)⟩, ?_, ht, rfl⟩
  refine (pressureStep_apply rfl).trans ((engineStep_ok (t := During base _ true 18) ?_).trans rfl)
  simp only [compute18, toWord_toInt hpw, toWord_toInt i16, toWord_toInt i17, chkS32_ok h18, chkS32_ok h18', except_bind_ok,
    chkS32_ok hp]
  rfl

/-- The engine computes the compensation. -/
theorem engineRun_runs {p : Params} {s : State} (hd : p.divMode = .trunc) (hc : s.calValid = true) (hu : s.utValid = true)
    (hv : s.upValid = true) : Runs s (engineRun p) s (compensate p s.cal s.ut.toNat s.up.toNat s.oss) := by
  have hs : (engineRun p : Op Fault Unit) s = (do engineTemperature p; enginePressure p : Op Fault Unit) (During s s.stg s.b5Valid 1) := by
    unfold engineRun engineStart
    rw [bind_ok (a := ()) (s' := setStep 1 s)]
    · rfl
    · rw [bind_ok (require_true hc)]
      rw [bind_ok (show (Op.assert (fun s => s.utValid && s.upValid) Fault.engineStartWithoutCount : Op Fault Unit) s = .ok () s by
        simp [Op.assert, hu, hv])]
      rfl
  refine Runs.of_eq hs ?_
  unfold compensate
  exact engineTemperature_runs hd fun g b5 hb h5 ht => enginePressure_runs _ hb h5 ht
end

end Sys2Proof.Machine
end

