-- ==== Sys2Proof/Laws/Params.lean ====
section
/-!
SUPPORT. The parameters the machine runs with meet the constraints of spec/00_scope.md R5, whatever the open ones are.
-/

namespace Sys2Proof

theorem Config.params_ok : Config.params.Ok where
  calLen      := rfl
  calRoom     := by decide
  resultRoom  := by decide
  tempNePress := by decide
  pressInj    := by decide
  tickPos     := ⟨Nat.succ_pos _, Nat.succ_pos _⟩
  shiftSmall  := by decide

end Sys2Proof
end

