-- ==== Sys2Proof/Laws/PerInstr.lean ====
section
/-!
SUPPORT. A fact about every operation as syntax: its encoding has as many bytes as operations of its space have, so that the
decoder never rejects an encoded operation for its length.
-/

namespace Sys2Proof

/-- How many bytes the operations of a space have (spec/30_encoding.md R60, R63 to R66; spec/opcode_table.json). -/
def Space.length : Space → Nat
  | .cw24 => 3
  | .ctrl8 => 1
  | .rd1 => 1
  | .wr1 => 2
  | .rdn => 2
  | .readRegister => 1
  | .writeRegister => 2
  | .readBlock => 2
  | .load => 1
  | .acquire => 1
  | .issueAndWait => 3
  | .wait => 2
  | .engine => 1

namespace Laws.Sized

/-- The encoding of `i` has the length of its space. -/
def Statement (i : Instr) : Prop := (encode i).bytes.length = (encode i).space.length

theorem configure (unused : Half) : Statement (.configure unused) := rfl

theorem shutdown (unused : Half) : Statement (.shutdown unused) := rfl

theorem reset (unused : Half) : Statement (.reset unused) := rfl

theorem readRegisterRaw (addr unused : Byte) : Statement (.readRegisterRaw addr unused) := rfl

theorem writeRegisterRaw (addr value : Byte) : Statement (.writeRegisterRaw addr value) := rfl

theorem readCompensated (unused : Half) : Statement (.readCompensated unused) := rfl

theorem openSession (unused : Half) : Statement (.openSession unused) := rfl

theorem closeSession (unused : Half) : Statement (.closeSession unused) := rfl

theorem invalid (op : Byte) (unused : Half) : Statement (.invalid op unused) := rfl

theorem cmdTemp : Statement .cmdTemp := rfl

theorem cmdPress (oss : Level) : Statement (.cmdPress oss) := rfl

theorem softResetValue : Statement .softResetValue := rfl

theorem powerDownValue (v : Byte) : Statement (.powerDownValue v) := rfl

theorem rd1 (addr : Byte) : Statement (.rd1 addr) := rfl

theorem wr1 (addr value : Byte) : Statement (.wr1 addr value) := rfl

theorem rdn (addr n : Byte) : Statement (.rdn addr n) := rfl

theorem readRegister (addr : Byte) : Statement (.readRegister addr) := rfl

theorem writeRegister (addr value : Byte) : Statement (.writeRegister addr value) := rfl

theorem readBlock (addr n : Byte) : Statement (.readBlock addr n) := rfl

theorem load : Statement .load := rfl

theorem acquireRawTemperature (ignored : Level) : Statement (.acquireRawTemperature ignored) := rfl

theorem acquireRawPressure (oss : Level) : Statement (.acquireRawPressure oss) := rfl

theorem issueAndWait (cmd : Byte) (us : Half) : Statement (.issueAndWait cmd us) := rfl

theorem wait (us : Half) : Statement (.wait us) := rfl

theorem engineStep1 : Statement .engineStep1 := rfl

theorem engineStep2 : Statement .engineStep2 := rfl

theorem engineStep3 : Statement .engineStep3 := rfl

theorem engineStep4 : Statement .engineStep4 := rfl

theorem engineStep5 : Statement .engineStep5 := rfl

theorem engineStep6 : Statement .engineStep6 := rfl

theorem engineStep7 : Statement .engineStep7 := rfl

theorem engineStep8 : Statement .engineStep8 := rfl

theorem engineStep9 : Statement .engineStep9 := rfl

theorem engineStep10 : Statement .engineStep10 := rfl

theorem engineStep11 : Statement .engineStep11 := rfl

theorem engineStep12 : Statement .engineStep12 := rfl

theorem engineStep13 : Statement .engineStep13 := rfl

theorem engineStep14 : Statement .engineStep14 := rfl

theorem engineStep15 : Statement .engineStep15 := rfl

theorem engineStep16 : Statement .engineStep16 := rfl

theorem engineStep17 : Statement .engineStep17 := rfl

theorem engineStep18 : Statement .engineStep18 := rfl

end Laws.Sized
end Sys2Proof
end

