-- ==== Sys2Proof/Laws/Step.lean ====
section
/-!
SUPPORT. What `fetch` finds, and what is left when it has.
-/

namespace Sys2Proof.Machine

section
variable {s : State}

theorem fetch_todo {e : Encoded} {rest : List Encoded} (h : s.env.todo = e :: rest) :
    fetch s = .internal e (setTodo rest s) := by
  unfold fetch
  rw [h]

theorem fetch_engine (h : s.env.todo = []) (hc : s.cstep ≠ 0) : fetch s = .internal ⟨.engine, [s.cstep.setWidth 8]⟩ s := by
  unfold fetch
  rw [h]
  exact if_pos hc

theorem fetch_idle (h : s.env.todo = []) (hc : s.cstep = 0) (hi : s.busy = true ∨ s.env.port = []) : fetch s = .idle s := by
  unfold fetch
  rw [h]
  refine (if_neg (not_not.mpr hc)).trans ?_
  cases hb : s.busy with
  | true => rfl
  | false =>
    have hp : s.env.port = [] := hi.resolve_left (by simp [hb])
    have : takeWord s = none := by
      unfold takeWord
      rw [hp]
    rw [this]
    rfl

/-- The one word pending. -/
theorem takeWord_one {cw : CmdWord} (h : s.env.port = [cw]) :
    takeWord s = some (cw, setPort [] s) := by
  unfold takeWord
  rw [h]

/-- One of several words pending. -/
theorem takeWord_several (h : 2 ≤ s.env.port.length) :
    ∃ k, ∃ hk : k < s.env.port.length, takeWord s = some (s.env.port[k], draw (setPort (s.env.port.eraseIdx k) s)) := by
  have hk : Config.freePick s.env.fresh % s.env.port.length < s.env.port.length := Nat.mod_lt _ (by omega)
  refine ⟨_, hk, ?_⟩
  rw [← List.getD_eq_getElem s.env.port 0 hk]
  unfold takeWord
  split
  · rename_i hp; rw [hp] at h; simp at h
  · rename_i hp; rw [hp] at h; simp at h
  · rfl

theorem fetch_command {cw : CmdWord} {s' : State} (h : s.env.todo = []) (hc : s.cstep = 0) (hb : s.busy = false)
    (hw : takeWord s = some (cw, s')) : fetch s = .command cw s' := by
  unfold fetch
  rw [h]
  refine (if_neg (not_not.mpr hc)).trans ?_
  rw [hb, hw]
  rfl

/-- Everything `fetch` can find: in each case the state it leaves differs from `s` in the port, the internal requests and
the count of free values alone. -/
theorem fetch_cases (s : State) :
    (∃ e rest, s.env.todo = e :: rest ∧ fetch s = .internal e (setTodo rest s)) ∨
    (s.env.todo = [] ∧ s.cstep ≠ 0 ∧ fetch s = .internal ⟨.engine, [s.cstep.setWidth 8]⟩ s) ∨
    (s.env.todo = [] ∧ s.cstep = 0 ∧ s.busy = false ∧
      ∃ cw port, fetch s = .command cw (setPort port s) ∨ fetch s = .command cw (draw (setPort port s))) ∨
    (s.env.todo = [] ∧ s.cstep = 0 ∧ fetch s = .idle s) := by
  rcases h : s.env.todo with _ | ⟨e, rest⟩
  · by_cases hc : s.cstep = 0
    · cases hb : s.busy with
      | true => exact .inr (.inr (.inr ⟨rfl, hc, fetch_idle h hc (.inl hb)⟩))
      | false =>
        rcases hp : s.env.port with _ | ⟨a, _ | ⟨b, tail⟩⟩
        · exact .inr (.inr (.inr ⟨rfl, hc, fetch_idle h hc (.inr hp)⟩))
        · exact .inr (.inr (.inl ⟨rfl, hc, rfl, a, [], .inl (fetch_command h hc hb (takeWord_one hp))⟩))
        · obtain ⟨k, hk, hw⟩ := takeWord_several (s := s) (by simp [hp])
          exact .inr (.inr (.inl ⟨rfl, hc, rfl, _, _, .inr (fetch_command h hc hb hw)⟩))
    · exact .inr (.inl ⟨rfl, hc, fetch_engine h hc⟩)
  · exact .inl ⟨e, rest, rfl, fetch_todo h⟩

end

end Sys2Proof.Machine
end

