-- ==== Sys2Proof/Tests/Slice0.lean ====
section
/-!
SUPPORT. Tests of the model. Every expected value is taken from spec/95_test_vectors.md (the vector is named) or from the rule
named; none from the model. At the end, for every claim with hypotheses, states and operands that meet them.
-/

namespace Sys2Proof.Tests

open Sys2Proof.Machine Sys2Proof.Config

/-! ### Well-formedness: an ill-formed term for each check -/

/-- The code of an (invalid) word is none of the eight commands' (R70). -/
theorem test_invalid_code_ill_formed :
    (Instr.invalid 1 0).wellFormed = false ∧ (Instr.invalid 8 0).wellFormed = false ∧
      (Instr.invalid 0 0).wellFormed = true ∧ (Instr.invalid 9 0).wellFormed = true := by decide

/-- The named control bytes have rows of their own (R66, R153). -/
theorem test_power_down_ill_formed :
    (Instr.powerDownValue 0x2E).wellFormed = false ∧ (Instr.powerDownValue 0x34).wellFormed = false ∧
      (Instr.powerDownValue 0xF4).wellFormed = false ∧ (Instr.powerDownValue 0xB6).wellFormed = false ∧
      (Instr.powerDownValue 0).wellFormed = true := by decide

/-- A block read has 22 bytes and none past address 0xFF (R46, R47, R65). -/
theorem test_block_ill_formed :
    (Instr.rdn 0xAA 21).wellFormed = false ∧ (Instr.readBlock 0xAA 23).wellFormed = false ∧
      (Instr.rdn 0xEB 22).wellFormed = false ∧ (Instr.readBlock 0xEB 22).wellFormed = false ∧
      (Instr.readBlock 0xEA 22).wellFormed = true := by decide

/-! ### Decoding: words written out from the spec's encodings -/

/-- V1: the command words. -/
theorem test_decode_commands :
    decodeWord 0x010000 = .configure 0 ∧ decodeWord 0x020000 = .shutdown 0 ∧ decodeWord 0x030000 = .reset 0 ∧
      decodeWord 0x04D000 = .readRegisterRaw 0xD0 0 ∧ decodeWord 0x05F42E = .writeRegisterRaw 0xF4 0x2E ∧
      decodeWord 0x060000 = .readCompensated 0 ∧ decodeWord 0x070000 = .openSession 0 ∧
      decodeWord 0x080000 = .closeSession 0 ∧ decodeWord 0x01FFFF = .configure 0xFFFF := by decide

/-- V1: the invalid words, one in each row of the table. -/
theorem test_decode_invalid :
    decodeWord 0x000000 = .invalid 0 0 ∧ decodeWord 0x091234 = .invalid 9 0x1234 ∧ decodeWord 0x0B0000 = .invalid 0x0B 0 ∧
      decodeWord 0x0F0000 = .invalid 0x0F 0 ∧ decodeWord 0x1F0000 = .invalid 0x1F 0 ∧ decodeWord 0x3F0000 = .invalid 0x3F 0 ∧
      decodeWord 0x7F0000 = .invalid 0x7F 0 ∧ decodeWord 0xFF0000 = .invalid 0xFF 0 := by decide

/-- V1b: the control bytes. -/
theorem test_decode_control :
    decode ⟨.ctrl8, [0x2E]⟩ = .ok .cmdTemp ∧ decode ⟨.ctrl8, [0x34]⟩ = .ok (.cmdPress 0) ∧
      decode ⟨.ctrl8, [0x74]⟩ = .ok (.cmdPress 1) ∧ decode ⟨.ctrl8, [0xB4]⟩ = .ok (.cmdPress 2) ∧
      decode ⟨.ctrl8, [0xF4]⟩ = .ok (.cmdPress 3) ∧ decode ⟨.ctrl8, [0xB6]⟩ = .ok .softResetValue ∧
      decode ⟨.ctrl8, [0x00]⟩ = .ok (.powerDownValue 0) := by decide

/-- R63 to R65 and the register operations: the address byte first, then the value or the count. -/
theorem test_decode_frames :
    decode ⟨.rd1, [0xF6]⟩ = .ok (.rd1 0xF6) ∧ decode ⟨.wr1, [0xF4, 0x2E]⟩ = .ok (.wr1 0xF4 0x2E) ∧
      decode ⟨.rdn, [0xAA, 22]⟩ = .ok (.rdn 0xAA 22) ∧ decode ⟨.readRegister, [0xFF]⟩ = .ok (.readRegister 0xFF) ∧
      decode ⟨.writeRegister, [0x10, 0]⟩ = .ok (.writeRegister 0x10 0) ∧
      decode ⟨.readBlock, [0xAA, 22]⟩ = .ok (.readBlock 0xAA 22) ∧
      decode ⟨.rdn, [0xAA, 21]⟩ = .error .notABlock := by decide

/-- The internal operations: `load` is `10101010`, the selectors are `0xx` and `1ss`. -/
theorem test_decode_internal :
    decode ⟨.load, [0b10101010]⟩ = .ok .load ∧ decode ⟨.load, [0xAB]⟩ = .error .notTheCalibrationBase ∧
      decode ⟨.acquire, [0b011]⟩ = .ok (.acquireRawTemperature 3) ∧
      decode ⟨.acquire, [0b110]⟩ = .ok (.acquireRawPressure 2) ∧ decode ⟨.acquire, [8]⟩ = .error .notASelector ∧
      decode ⟨.issueAndWait, [0x2E, 0x11, 0x94]⟩ = .ok (.issueAndWait 0x2E 4500) ∧
      decode ⟨.wait, [0x63, 0x9C]⟩ = .ok (.wait 25500) := by decide

/-- The engine steps: `CSTEP` from `00001` to `10010`. -/
theorem test_decode_engine :
    decode ⟨.engine, [0b00001]⟩ = .ok .engineStep1 ∧ decode ⟨.engine, [0b00010]⟩ = .ok .engineStep2 ∧
      decode ⟨.engine, [0b00011]⟩ = .ok .engineStep3 ∧ decode ⟨.engine, [0b00100]⟩ = .ok .engineStep4 ∧
      decode ⟨.engine, [0b00101]⟩ = .ok .engineStep5 ∧ decode ⟨.engine, [0b00110]⟩ = .ok .engineStep6 ∧
      decode ⟨.engine, [0b00111]⟩ = .ok .engineStep7 ∧ decode ⟨.engine, [0b01000]⟩ = .ok .engineStep8 ∧
      decode ⟨.engine, [0b01001]⟩ = .ok .engineStep9 ∧ decode ⟨.engine, [0b01010]⟩ = .ok .engineStep10 ∧
      decode ⟨.engine, [0b01011]⟩ = .ok .engineStep11 ∧ decode ⟨.engine, [0b01100]⟩ = .ok .engineStep12 ∧
      decode ⟨.engine, [0b01101]⟩ = .ok .engineStep13 ∧ decode ⟨.engine, [0b01110]⟩ = .ok .engineStep14 ∧
      decode ⟨.engine, [0b01111]⟩ = .ok .engineStep15 ∧ decode ⟨.engine, [0b10000]⟩ = .ok .engineStep16 ∧
      decode ⟨.engine, [0b10001]⟩ = .ok .engineStep17 ∧ decode ⟨.engine, [0b10010]⟩ = .ok .engineStep18 ∧
      decode ⟨.engine, [0]⟩ = .error .notAStep ∧ decode ⟨.engine, [19]⟩ = .error .notAStep := by decide

/-- The host's numbering: a command word, a control byte, a frame of two bytes, an engine step. -/
theorem test_decode_table_words :
    decodeTableWord 24 0x05F42E = some (.writeRegisterRaw 0xF4 0x2E) ∧ decodeTableWord 8 0x74 = some (.cmdPress 1) ∧
      decodeTableWord 16 0xF42E = some (.wr1 0xF4 0x2E) ∧ decodeTableWord 16 4500 = some (.wait 4500) ∧
      decodeTableWord 8 18 = some .engineStep18 ∧ decodeTableWord 8 0xAA = some .load ∧
      decodeTableWord 7 1 = none := by decide

/-! ### States to run on -/

/-- The state with these answers of the transport to come. -/
def answering (as : List Answer) (s : State) : State := { s with env := { s.env with script := as } }

/-- The state with these acts of the world outside to come. -/
def acting (acts : List HostAct) (s : State) : State := { s with env := { s.env with sched := acts } }

/-- A session that is live, not configured. -/
def live : State := { State.reset with ss := .idle, owned := true }

/-- The sample block of V2. -/
def blockK : List Byte :=
  [0x01, 0x98, 0xFF, 0xB8, 0xC7, 0xD1, 0x7F, 0xE5, 0x7F, 0xF5, 0x5A, 0x71, 0x18, 0x2E, 0x00, 0x04, 0x80, 0x00, 0xDD, 0xF9,
    0x0B, 0x34]

/-- The calibration set `K` of spec/95_test_vectors.md. -/
def calK : Cal :=
  ⟨408, BitVec.ofInt 16 (-72), BitVec.ofInt 16 (-14383), 32741, 32757, 23153, 6190, 4, BitVec.ofInt 16 (-32768),
    BitVec.ofInt 16 (-8711), 2868⟩

/-- A session that is configured with `K`. -/
def ready : State := { live with ss := .configured, cal := calK, calValid := true }

/-- The parameters with the open ones chosen, and a timer of one tick a conversion at level 0. -/
def testParams (policy : BusyPolicy) : Params :=
  { params with powerDown := 0, ossSel := 0, tickNum := 4500, tickDen := 1, busyPolicy := policy }

/-- What a test looks at in an outcome. -/
def after {α : Type} (o : Outcome) (f : State → α) : Option α :=
  match o with
  | .next t => some (f t)
  | _ => none

/-- What an operation leaves, looked at. -/
def left {φ α β : Type} (r : EStateM.Result (Stop φ) State α) (f : State → β) : β :=
  match r with
  | .ok _ t => f t
  | .error _ t => f t

/-- What an operation returns, if it does. -/
def returned {φ α : Type} (r : EStateM.Result (Stop φ) State α) : Option α :=
  match r with
  | .ok a _ => some a
  | .error _ _ => none

/-- The frames of a trace, newest first: the bytes written and how many were asked for. -/
def frames (t : State) : List (List Byte × Nat) := (exchangesOf t.env.log).map fun x => (x.2.1, x.2.2.1)

/-- The error an operation raises, if it does. -/
def raised {φ α : Type} (r : EStateM.Result (Stop φ) State α) : Option ErrKind :=
  match r with
  | .error (.raise k) _ => some k
  | _ => none

/-! ### Reset (V21) -/

theorem test_reset :
    State.reset.ss = .closed ∧ State.reset.owned = false ∧ State.reset.busy = false ∧ State.reset.seq = .idle ∧
      State.reset.dtimer = 0 ∧ State.reset.cstep = 0 ∧ State.reset.calValid = false ∧ State.reset.utValid = false ∧
      State.reset.upValid = false ∧ State.reset.b5Valid = false := by decide

/-- A word at the port is accepted by the next step. -/
theorem test_step_accepts_a_word :
    after (step (State.reset.withFetchWord 24 0x070000)) (fun t => (t.ss, t.env.port)) = some (.idle, []) := by decide

/-! ### Register I/O (V3, V4) -/

theorem test_readRegister_returns_the_byte :
    after (exec (.readRegister 0xF6) (answering [.done 1 [0x6C]] State.reset)) (fun t => (t.ret, frames t)) =
      some (.byte 0x6C, [([0xF6], 1)]) := by decide

/-- Every exchange goes to the one device (R42). -/
theorem test_device_address :
    after (exec (.rd1 0xF6) (answering [.err] State.reset)) (fun t => (exchangesOf t.env.log).map (·.1)) = some [0x77] := by
  decide

/-- A short read is no zero. -/
theorem test_readRegister_short_read :
    after (exec (.readRegister 0xF6) (answering [.done 1 []] State.reset)) (·.ret) = some (.raised .transportError) := by
  decide

theorem test_writeRegister_sends_both_bytes :
    after (exec (.writeRegister 0xF4 0x2E) (answering [.done 2 []] State.reset)) (fun t => (t.ret, frames t)) =
      some (.unit, [([0xF4, 0x2E], 0)]) := by decide

theorem test_writeRegister_partial_write :
    after (exec (.writeRegister 0xF4 0x2E) (answering [.done 1 []] State.reset)) (·.ret) = some (.raised .transportError) := by
  decide

theorem test_readBlock_returns_all :
    after (exec (.readBlock 0xAA 22) (answering [.done 1 blockK] State.reset)) (·.ret) = some (.bytes blockK) := by decide

/-- A block with the address byte not taken. -/
theorem test_readBlock_address_not_taken :
    after (exec (.readBlock 0xAA 22) (answering [.done 0 blockK] State.reset)) (·.ret) = some (.raised .transportError) := by
  decide

/-- R40: no answer has more bytes accepted than sent or more read than asked for, whatever the script holds. -/
theorem test_answers_have_the_shape :
    after (exec (.wr1 0x10 0) (answering [.done 3 [1]] State.reset)) (·.ret) = some (.answer (.done 2 [])) ∧
      after (exec (.rd1 0xF6) (answering [.done 2 [1, 2]] State.reset)) (·.ret) = some (.answer (.done 1 [1])) := by decide

/-- A frame gives the transport's answer as it is. -/
theorem test_frames_give_the_answer :
    after (exec (.rd1 0xF6) (answering [.done 1 []] State.reset)) (·.ret) = some (.answer (.done 1 [])) ∧
      after (exec (.wr1 0x10 0) (answering [.err] State.reset)) (·.ret) = some (.answer .err) ∧
      after (exec (.rdn 0xAA 22) (answering [.done 1 blockK] State.reset)) (·.ret) = some (.answer (.done 1 blockK)) := by
  decide

/-- The control bytes go to register 0xF4 (R49). -/
theorem test_control_bytes_go_to_the_control_register :
    after (exec .cmdTemp (answering [.done 2 []] State.reset)) frames =
        some [([0xF4, 0x2E], 0)] ∧
      after (exec (.cmdPress 2) (answering [.done 2 []] State.reset)) frames =
        some [([0xF4, 0xB4], 0)] ∧
      after (exec .softResetValue (answering [.done 2 []] State.reset)) frames =
        some [([0xF4, 0xB6], 0)] ∧
      after (exec (.powerDownValue 0) (answering [.done 2 []] State.reset)) frames =
        some [([0xF4, 0x00], 0)] := by decide

/-! ### Calibration (V2) -/

theorem test_load_decodes_the_block :
    after (exec .load (answering [.done 1 blockK] State.reset)) (fun t => (t.cal, t.calValid)) = some (calK, true) := by
  decide

theorem test_load_short_block :
    after (exec .load (answering [.done 1 (blockK.take 21)] ready)) (fun t => (t.ret, t.cal, t.calValid)) =
      some (.raised .calibrationReadError, calK, true) := by decide

/-- The signedness check of V2: a block of 0xFF reads -1 in the signed fields and 65535 in `AC4` to `AC6`. -/
theorem test_signedness :
    let s := { State.reset with cal := decodeCal (List.replicate 22 0xFF) }
    ac1 s = -1 ∧ ac2 s = -1 ∧ ac3 s = -1 ∧ ac4 s = 65535 ∧ ac5 s = 65535 ∧ ac6 s = 65535 ∧ coefB1 s = -1 ∧ coefB2 s = -1 ∧
      mc s = -1 ∧ md s = -1 := by decide

/-! ### Measurement (V7, V8) -/

/-- V8: the shift at each level. -/
theorem test_up_at_each_level :
    (assembleUP 0 0x5D 0x23 0xA0).toNat = 23843 ∧ (assembleUP 1 0x5D 0x23 0xA0).toNat = 47687 ∧
      (assembleUP 2 0x5D 0x23 0xA0).toNat = 95374 ∧ (assembleUP 3 0x5D 0x23 0xA0).toNat = 190749 ∧
      (assembleUP 3 0xFF 0xFF 0xFF).toNat = 524287 := by decide

/-- V7: with a tick of 1000 the timer is loaded with 5, with a tick of 1 with 4500. -/
theorem test_ticks :
    ticks { params with tickNum := 1000, tickDen := 1 } 4500 = 5 ∧
      ticks { params with tickNum := 1, tickDen := 1 } 4500 = 4500 := by decide

/-- V7: the count, and the values `SEQ` was given, newest first. -/
theorem test_acquireRawTemperature :
    left (acquireRawTemperature (φ := Empty) (testParams .block)
        (answering [.done 2 [], .done 1 [0x6C], .done 1 [0xFA]] State.reset))
      (fun t => (t.ut.toNat, t.utValid, sequencerOf t.env.log, t.env.now)) =
      (27898, true, [.idle, .resultReady, .waiting, .commandIssued], 1) := by decide

/-- V7: the third exchange fails. -/
theorem test_acquireRawTemperature_last_byte_fails :
    let r := acquireRawTemperature (φ := Empty) (testParams .block)
      (answering [.done 2 [], .done 1 [0x6C], .err] State.reset)
    raised r = some .transportError ∧ left r (fun t => (t.utValid, t.seq, t.env.log.length)) = (false, .idle, 7) := by decide

/-- V8: level 2, its command byte and its delay of three ticks of 4500. -/
theorem test_acquireRawPressure :
    let r := acquireRawPressure (φ := Empty) (testParams .block) 2
      (answering [.done 2 [], .done 1 [0x5D], .done 1 [0x23], .done 1 [0xA0]] State.reset)
    (returned r).map (·.toNat) = some 95374 ∧ left r (fun t => (t.env.now, t.env.log.getLast?)) =
      (3, some (0, .sequencer .commandIssued)) := by decide

/-- R105: not while the sequencer is at work. -/
theorem test_acquire_while_waiting :
    after (exec (.acquireRawPressure 0) { State.reset with seq := .waiting }) (fun t => (t.ret, t.seq, t.env.log)) =
      some (.raised .sensorBusy, .waiting, []) := by decide

/-- R112, R106: the command write of `issueAndWait` fails, and no time passes. -/
theorem test_issueAndWait_write_fails :
    after (exec (.issueAndWait 0x2E 4500) (answering [.done 0 []] State.reset)) (fun t => (t.ret, t.seq, t.env.now)) =
      some (.raised .transportError, .idle, 0) := by decide

/-- R104: `DTIMER` reaches 0 on the third tick. -/
theorem test_wait :
    left (wait (φ := Empty) (testParams .block) 13500 State.reset) (fun t => (t.env.now, t.dtimer)) = (3, 0) := by decide

/-! ### The engine (V5): the registers before each step, and the one it writes -/

/-- The registers of V5 as they stand before step `k` reads them. -/
def engineV5 (x1 x2 x3 : Int) (cstep : BitVec 5) : State :=
  { ready with
      ut := 27898, utValid := true, up := 23843, upValid := true, b5Valid := true, cstep := cstep
      stg := ⟨toWord x1, toWord x2, toWord x3, 2400, toWord (-1600), 422, 33457, 1171050000, 70003, 0, 0⟩ }

theorem test_step1 : after (exec .engineStep1 (engineV5 0 0 0 1)) (fun t => (t.stg.x1, t.cstep)) = some (4743, 2) := by decide

/-- V12: `UT` = 0 under `AC5` = `AC6` = 65535 overflows the product (V13's second row). -/
theorem test_step1_overflow :
    after (exec .engineStep1 { engineV5 0 0 0 1 with cal := decodeCal (List.replicate 22 0xFF), ut := 0 })
      (fun t => (t.ret, t.cstep)) = some (.raised .compensationOverflow, 0) := by decide

theorem test_step2 :
    after (exec .engineStep2 (engineV5 4743 0 0 2)) (fun t => (t.stg.x2.toInt, t.cstep)) = some (-2343, 3) := by decide

/-- V14: `X1 + MD` = 0. -/
theorem test_step2_divisor_zero :
    after (exec .engineStep2 (engineV5 (-2868) 0 0 2)) (fun t => (t.ret, t.cstep)) =
      some (.raised .compensationDomainError, 0) := by decide

theorem test_step3 :
    after (exec .engineStep3 { engineV5 4743 (-2343) 0 3 with b5Valid := false, stg.b5 := 0 })
      (fun t => (t.stg.b5, t.b5Valid)) = some (2400, true) := by decide

theorem test_step4 : after (exec .engineStep4 (engineV5 0 0 0 4)) (fun t => t.stg.t) = some 150 := by decide

/-- V10: the shift of a negative sum rounds down. -/
theorem test_step4_negative :
    after (exec .engineStep4 { engineV5 0 0 0 4 with stg.b5 := toWord (-6220) }) (fun t => t.stg.t.toInt) = some (-389) := by
  decide

theorem test_step5 : after (exec .engineStep5 (engineV5 0 0 0 5)) (fun t => t.stg.b6.toInt) = some (-1600) := by decide

/-- R144: step 5 and everything after it require `B5_VALID`. -/
theorem test_step5_without_b5 :
    exec .engineStep5 { engineV5 0 0 0 5 with b5Valid := false } = .fault .engineWithoutB5 ∧
      exec .engineStep18 { engineV5 0 0 0 18 with b5Valid := false } = .fault .engineWithoutB5 := ⟨rfl, rfl⟩

theorem test_step6 : after (exec .engineStep6 (engineV5 0 0 0 6)) (fun t => t.stg.x1) = some 1 := by decide

/-- V17: 46341 squared does not fit. -/
theorem test_step6_overflow :
    after (exec .engineStep6 { engineV5 0 0 0 6 with stg.b6 := 46341 }) (·.ret) = some (.raised .compensationOverflow) := by
  decide

theorem test_step7 : after (exec .engineStep7 (engineV5 1 0 0 7)) (fun t => t.stg.x2) = some 56 := by decide

theorem test_step8 : after (exec .engineStep8 (engineV5 1 56 0 8)) (fun t => t.stg.x3) = some 57 := by decide

theorem test_step9 : after (exec .engineStep9 (engineV5 1 56 57 9)) (fun t => t.stg.b3) = some 422 := by decide

/-- V6: the shift is the oversampling level. -/
theorem test_step9_level3 :
    after (exec .engineStep9 { engineV5 1 56 57 9 with oss := 3 }) (fun t => t.stg.b3) = some 3378 := by decide

theorem test_step10 : after (exec .engineStep10 (engineV5 1 56 57 10)) (fun t => t.stg.x1) = some 2809 := by decide

theorem test_step11 : after (exec .engineStep11 (engineV5 2809 56 57 11)) (fun t => t.stg.x2) = some 59 := by decide

/-- V16: `B6` = 37973 overflows the second product of the step. -/
theorem test_step11_overflow :
    after (exec .engineStep11 { engineV5 0 0 0 11 with stg.b6 := 37973 }) (·.ret) = some (.raised .compensationOverflow) := by
  decide

theorem test_step12 : after (exec .engineStep12 (engineV5 2809 59 57 12)) (fun t => t.stg.x3) = some 717 := by decide

/-- V9: a negative sum rounds down. -/
theorem test_step12_negative :
    after (exec .engineStep12 (engineV5 (-4295) 137 0 12)) (fun t => t.stg.x3.toInt) = some (-1039) := by decide

theorem test_step13 : after (exec .engineStep13 (engineV5 0 0 717 13)) (fun t => t.stg.b4) = some 33457 := by decide

theorem test_step14 : after (exec .engineStep14 (engineV5 0 0 0 14)) (fun t => t.stg.b7) = some 1171050000 := by decide

/-- V16: `UP` below `B3`. -/
theorem test_step14_below_b3 :
    after (exec .engineStep14 { engineV5 0 0 0 14 with up := 421 }) (·.ret) = some (.raised .compensationOverflow) := by
  decide

theorem test_step15 : after (exec .engineStep15 (engineV5 0 0 0 15)) (fun t => t.stg.pw) = some 70003 := by decide

/-- V11: the second arm, `B7` at 2^31 and above. -/
theorem test_step15_second_arm :
    after (exec .engineStep15 { engineV5 0 0 0 15 with stg.b7 := 2147500000 }) (fun t => t.stg.pw) = some 128372 := by decide

theorem test_step16 : after (exec .engineStep16 (engineV5 0 0 0 16)) (fun t => t.stg.x1) = some 3454 := by decide

/-- R141, R203: `PW` = 215296 has `h` = 841, and 841² × 3038 does not fit; the square is in `X1` by then. -/
theorem test_step16_second_check :
    after (exec .engineStep16 { engineV5 5 0 0 16 with stg.pw := 215296 }) (fun t => (t.ret, t.stg.x1, t.cstep)) =
      some (.raised .compensationOverflow, 707281, 0) := by decide

theorem test_step17 : after (exec .engineStep17 (engineV5 3454 0 0 17)) (fun t => t.stg.x2.toInt) = some (-7859) := by decide

theorem test_step18 :
    after (exec .engineStep18 (engineV5 3454 (-7859) 0 18)) (fun t => (t.stg.p, t.cstep)) = some (69964, 0) := by decide

/-- V5, the column `floor`: step 2. -/
theorem test_step2_floor :
    (match compute2 { params with divMode := .floor } (engineV5 4743 0 0 2) with
      | .ok t => some t.stg.x2.toInt
      | .error _ => none) = some (-2344) := by decide

/-- V15: `AC4` = 0 makes `B4` = 0. -/
theorem test_b4_zero :
    raised (engineRun params { engineV5 0 0 0 0 with cal := { calK with ac4 := 0 } }) = some .compensationDomainError := by
  decide

/-- V17. -/
theorem test_arithmetic :
    asr (-614) 4 = -39 ∧ asr (-1) 16 = -1 ∧ asr (-17) 4 = -2 ∧ asr (-2147483648) 15 = -65536 ∧
      sdiv .trunc (-7) 2 = -3 ∧ sdiv .trunc 7 (-2) = -3 ∧ sdiv .floor (-7) 2 = -4 ∧ sdiv .floor 7 (-2) = -4 ∧
      sdiv .floor (-7) (-2) = 3 ∧ udiv 2342100000 33457 = 70003 ∧ asr 50000 3 = 6250 := by decide

/-! ### The compensation (V5, V6, V9, V10, V11, V13) -/

theorem test_compensate :
    compensate params calK 27898 23843 0 = .ok (150, 69964) ∧ compensate params calK 27898 190749 3 = .ok (150, 69965) ∧
      compensate params calK 31232 331158 3 = .ok (403, 129421) ∧ compensate params calK 23153 65536 1 = .ok (-389, 85243) ∧
      compensate params calK 27898 65535 0 = .ok (150, 195160) ∧
      compensate params (decodeCal (List.replicate 22 0xFF)) 65535 0 0 = .ok (128, 237) := by decide

theorem test_compensate_errors :
    compensate params calK 20285 23843 0 = .error .compensationDomainError ∧
      compensate params calK 20284 23843 0 = .error .compensationOverflow ∧
      compensate params (decodeCal (List.replicate 22 0xFF)) 0 0 0 = .error .compensationOverflow := by decide

/-! ### The host commands (V19, P1, P5, V20) -/

/-- V19, the row of `open`. -/
theorem test_open :
    after (exec (.openSession 0) State.reset) (fun t => (t.rsp.err, t.ss, t.owned)) = some (0, .idle, true) ∧
      after (exec (.openSession 0) live) (fun t => (t.rsp.err, t.ss)) = some (5, .idle) := by decide

theorem test_configure :
    (endState (accepted (testParams .block) (configure (testParams .block))
      (answering [.done 1 blockK, .done 2 [], .done 2 []] live))).rsp = ⟨0, none, none, none⟩ ∧
    (endState (accepted (testParams .block) (configure (testParams .block))
      (answering [.done 1 blockK, .done 2 [], .done 2 []] live))).ss = .configured := by decide

/-- P4: the first command write fails. -/
theorem test_configure_write_fails :
    after (exec (.configure 0) (answering [.done 1 blockK, .err] live)) (fun t => (t.rsp.err, t.ss, t.calValid)) =
      some (1, .idle, false) := by decide

theorem test_reset_command :
    after (exec (.reset 0) (answering [.done 2 []] ready)) (fun t => (t.rsp.err, t.ss, t.calValid)) = some (0, .idle, false) ∧
      after (exec (.reset 0) State.reset) (fun t => (t.rsp.err, t.env.log.length)) = some (4, 1) := by decide

/-- P2. -/
theorem test_readRegisterRaw :
    after (exec (.readRegisterRaw 0xAA 0) (answering [.done 1 [0x01]] live)) (·.rsp) = some ⟨0, some 1, none, none⟩ ∧
      after (exec (.readRegisterRaw 0xAA 0) State.reset) (·.rsp) = some ⟨4, none, none, none⟩ := by decide

/-- P2. -/
theorem test_writeRegisterRaw :
    after (exec (.writeRegisterRaw 0x10 0xA5) (answering [.done 2 []] live)) (fun t => (t.rsp.err, frames t)) =
      some (0, [([0x10, 0xA5], 0)]) := by decide

/-- P1: the reading. -/
theorem test_read :
    after (runEngineCommand (testParams .block) (.readCompensated 0) (readCompensated (testParams .block))
        (answering [.done 2 [], .done 1 [0x6C], .done 1 [0xFA], .done 2 [], .done 1 [0x5D], .done 1 [0x23], .done 1 [0xA0]]
          ready)) (fun t => (t.rsp, t.ss, t.utValid, t.env.now)) =
      some (⟨0, none, some 150, some 69964⟩, .configured, false, 2) := by decide

/-- P3: the fifth exchange of the read fails. -/
theorem test_read_fails :
    after (runEngineCommand (testParams .block) (.readCompensated 0) (readCompensated (testParams .block))
        (answering [.done 2 [], .done 1 [0x7A], .done 1 [0x00], .done 2 [], .err] ready))
      (fun t => (t.rsp, t.ss, t.calValid, t.seq, t.utValid)) =
      some (⟨1, none, none, none⟩, .configured, true, .idle, false) := by decide

theorem test_shutdown :
    after (exec (.shutdown 0) (answering [.done 2 []] ready)) (fun t => (t.rsp.err, t.ss, t.owned, t.calValid)) =
        some (0, .closed, false, false) ∧
      after (exec (.shutdown 0) State.reset) (fun t => (t.rsp.err, t.ss)) = some (4, .closed) := by decide

/-- P5: the write of `close` fails and the session is released; V19: in `Closed` no exchange. -/
theorem test_close :
    after (exec (.closeSession 0) (answering [.err] live)) (fun t => (t.rsp.err, t.ss, t.owned)) =
        some (1, .closed, false) ∧
      after (exec (.closeSession 0) State.reset) (fun t => (t.rsp.err, frames t)) = some (0, []) := by decide

theorem test_invalid :
    after (exec (.invalid 9 0x1234) ready) (fun t => (t.rsp, t.ss, frames t)) =
      some (⟨2, none, none, none⟩, .configured, []) := by decide

/-- R3, R104: of a wait of 17 ticks of 1500 microseconds, 5 pass at once at its first moment, and the timer has seen them. -/
theorem test_elapse_in_a_wait :
    left (wait (φ := Empty) { testParams .block with tickNum := 1500 } 25500 (acting [.elapse 5, .quiet, .elapse 2] State.reset))
      (fun t => (t.env.now, t.dtimer, t.env.sched)) = (17, 0, []) := by decide

/-- R3, R162: time and two words within one `open`. -/
theorem test_time_and_two_words_in_an_open :
    let run := fun policy => endState (accepted (testParams policy) openSession
      (acting [.elapse 4, .present 0x010000, .present 0x080000, .quiet] State.reset))
    ((run .block).env.port = [0x010000, 0x080000] ∧ responsesOf (run .block).env.log = [⟨0, none, none, none⟩]) ∧
      ((run .reject).env.port = [] ∧ (responsesOf (run .reject).env.log).map (·.err) = [0, 6, 6] ∧
        (run .reject).env.now = 4) := by decide

/-- V20: a `write-register` sent while `read` waits stays pending under `block`. -/
theorem test_word_during_a_wait_block :
    left (acquireRawPressure (φ := Empty) (testParams .block) 3
        (acting [.quiet, .present 0x05F42E] (answering [.done 2 [], .err] { ready with busy := true })))
      (fun t => (t.env.port, responsesOf t.env.log)) = ([0x05F42E], []) := by decide

/-- V20: and is answered with code 6 under `reject`, without an exchange. -/
theorem test_word_during_a_wait_reject :
    left (acquireRawPressure (φ := Empty) (testParams .reject) 3
        (acting [.quiet, .present 0x05F42E] (answering [.done 2 [], .err] { ready with busy := true })))
      (fun t => (t.env.port, responsesOf t.env.log, frames t)) =
        ([], [⟨6, none, none, none⟩], [([0xF6], 1), ([0xF4, 0xF4], 0)]) := by decide

/-- R212: hardware reset in the middle of a wait. -/
theorem test_hardware_reset_in_a_wait :
    left (issueAndWait (φ := Empty) (testParams .block) 0xF4 25500
        (acting [.quiet, .quiet, .hardwareReset] (answering [.done 2 []] ready)))
      (fun t => (t.ss, t.owned, t.seq, t.dtimer, t.calValid, t.env.now, t.env.sensor.left)) =
        (.closed, false, .idle, 0, false, 1, 5) := by decide

/-! ### For every claim with hypotheses, what meets them: one witness for each clause -/

theorem witness_WellFormedOperationsRoundTrip :
    (Instr.invalid 0 0xFFFF).wellFormed = true ∧ (Instr.invalid 9 0).wellFormed = true ∧
      (Instr.readBlock 0xEA 22).wellFormed = true ∧ (Instr.rdn 0 22).wellFormed = true ∧
      (Instr.powerDownValue 0xFF).wellFormed = true ∧ (Instr.wait 0xFFFF).wellFormed = true := by decide

theorem witness_UnusedFieldsAreIgnored :
    live.busy = false ∧ Quiet live ∧ live.ss = .idle ∧ ready.busy = false ∧ Quiet ready ∧ ready.ss = .configured := by decide

/-- A state with an internal operation asked for. -/
def asking (e : Encoded) : State := { State.reset with env := { State.reset.env with todo := [e] } }

/-- A state with these words at the port. -/
def offering (words : List CmdWord) (s : State) : State := { s with env := { s.env with port := words } }

theorem witness_StepRunsTheDecodedOperation :
    ((asking ⟨.rd1, [0xFF]⟩).env.todo = ⟨.rd1, [0xFF]⟩ :: [] ∧ decode ⟨.rd1, [0xFF]⟩ = .ok (.rd1 0xFF)) ∧
      ((engineV5 0 0 0 18).env.todo = [] ∧ (engineV5 0 0 0 18).cstep ≠ 0 ∧
        decode ⟨.engine, [(engineV5 0 0 0 18).cstep.setWidth 8]⟩ = .ok .engineStep18) ∧
      ((offering [0xFFFFFF] State.reset).env.todo = [] ∧ (offering [0xFFFFFF] State.reset).cstep = 0 ∧
        (offering [0xFFFFFF] State.reset).busy = false ∧ (offering [0xFFFFFF] State.reset).env.port = [0xFFFFFF]) := by
  decide

theorem witness_OneOfSeveralWordsIsAccepted :
    let s := offering [0x070000, 0x080000] State.reset
    s.env.todo = [] ∧ s.cstep = 0 ∧ s.busy = false ∧ 2 ≤ s.env.port.length := by decide

theorem witness_NothingToDoLetsTimePass :
    (State.reset.env.todo = [] ∧ State.reset.cstep = 0 ∧ State.reset.env.port = [] ∧ State.reset.env.sched = []) ∧
      (let s := { State.reset with busy := true }
       s.env.todo = [] ∧ s.cstep = 0 ∧ s.busy = true ∧ s.env.sched = []) ∧
      (let s := acting [.present 0] State.reset
       s.env.todo = [] ∧ s.cstep = 0 ∧ s.env.port = [] ∧ s.busy = false ∧ s.env.sched = .present 0 :: []) := by decide

theorem witness_OnlyUndecodableBitsAreRefused :
    step (asking ⟨.load, [0]⟩) = .refused (.undecodable .notTheCalibrationBase) ∧
      step { State.reset with cstep := 19 } = .refused (.undecodable .notAStep) ∧
      step { State.reset with cstep := 31 } = .refused (.undecodable .notAStep) := ⟨rfl, rfl, rfl⟩

/-- The invariant holds in the live states too. -/
theorem witness_Inv : Inv live ∧ Inv ready ∧ Inv { ready with up := 524287 } := by
  refine ⟨?_, ?_, ?_⟩ <;> constructor <;> decide

theorem witness_EveryStepKeepsTheInvariant :
    Inv (offering [0x070000] State.reset) ∧ ∃ t, step (offering [0x070000] State.reset) = .next t :=
  ⟨by constructor <;> decide, _, rfl⟩

theorem witness_NoStepFromTheInvariantStops : Inv State.reset := by constructor <;> decide

theorem ticks_pos : 0 < ticks params 4500 := by
  have h := ticks_covers (p := params) (Nat.succ_pos _) 4500
  have hd : 0 < params.tickDen := Nat.succ_pos _
  by_contra hn
  rw [show ticks params 4500 = 0 by omega] at h
  omega

theorem witness_HardwareResetCutsAWait :
    0 < ticks params (4500 : Half).toNat ∧
      (acting [.hardwareReset, .elapse 3] ready).env.sched = List.replicate 0 .quiet ++ .hardwareReset :: [.elapse 3] :=
  ⟨ticks_pos, rfl⟩

theorem witness_HardwareResetBetweenCommands :
    (let s := acting [.hardwareReset] State.reset
     s.env.todo = [] ∧ s.cstep = 0 ∧ s.env.port = [] ∧ s.env.sched = .hardwareReset :: []) ∧
      (let s := acting [.hardwareReset, .quiet] { ready with busy := true }
       s.env.todo = [] ∧ s.cstep = 0 ∧ s.busy = true ∧ s.env.sched = .hardwareReset :: [.quiet]) := by decide

theorem witness_FramesAreOneExchange :
    HasShape [0xAA] 22 (.done 1 blockK) ∧ HasShape [0xF4, 0x2E] 0 (.done 0 []) ∧ HasShape [0xF6] 1 .err ∧
    (let s := answering [.done 0 []] ready
     Quiet s ∧ answersTo [([0x00], 1)] s = [.done 0 []]) ∧
      (let s := answering [.done 1 []] ready
       Quiet s ∧ answersTo [([0xFF, 0x00], 0)] s = [.done 1 []]) ∧
      (let s := answering [.err] ready
       Quiet s ∧ answersTo [([0xAA], (22 : Byte).toNat)] s = [.err]) :=
  ⟨shaped_hasShape [0xAA] 22 (.done 1 blockK), shaped_hasShape [0xF4, 0x2E] 0 (.done 0 []),
    shaped_hasShape [0xF6] 1 .err, by decide⟩

theorem witness_ReadRegisterReturnsTheByte :
    (let s := answering [.done 1 [0]] State.reset
     Quiet s ∧ answersTo [([0xFF], 1)] s = [.done 1 [0]] ∧ readsByte (.done 1 [0]) 0) ∧
      (let s := answering [.done 0 [1]] State.reset
       Quiet s ∧ answersTo [([0x00], 1)] s = [.done 0 [1]] ∧ ∀ b, ¬ readsByte (.done 0 [1]) b) :=
  ⟨⟨rfl, rfl, rfl⟩, rfl, rfl, by simp [readsByte]⟩

theorem witness_WriteRegisterSendsAddressThenValue :
    (let s := answering [.done 2 []] State.reset
     Quiet s ∧ answersTo [([0xF4, 0xFF], 0)] s = [.done 2 []] ∧ acceptsWrite (.done 2 [])) ∧
      (let s := answering [.done 1 []] State.reset
       Quiet s ∧ answersTo [([0x00, 0x00], 0)] s = [.done 1 []] ∧ ¬ acceptsWrite (.done 1 [])) :=
  ⟨⟨rfl, rfl, [], rfl⟩, rfl, rfl, by simp [acceptsWrite]⟩

theorem witness_ReadBlockReturnsAllOrNothing :
    (let s := answering [.done 1 blockK] State.reset
     Quiet s ∧ answersTo [([0xAA], (22 : Byte).toNat)] s = [.done 1 blockK] ∧ blockK.length = (22 : Byte).toNat) ∧
      (let s := answering [.done 1 []] State.reset
       Quiet s ∧ answersTo [([0xAA], (22 : Byte).toNat)] s = [.done 1 []] ∧
         ∀ bs, Answer.done 1 [] = .done 1 bs → bs.length ≠ (22 : Byte).toNat) :=
  ⟨by decide, rfl, rfl, by simp⟩

theorem witness_CommandBytesStartConversions :
    let s := answering [.done 2 []] State.reset
    Quiet s ∧ acceptsWrite (.done 2 []) ∧ answersTo [([params.ctrlReg, params.cmdTemp], 0)] s = [.done 2 []] ∧
      answersTo [([params.ctrlReg, params.cmdPress 3], 0)] s = [.done 2 []] := ⟨rfl, ⟨[], rfl⟩, rfl, rfl⟩

theorem witness_OtherControlBytesAreWritten :
    let s := answering [.done 2 []] State.reset
    let s' := answering [.done 0 []] State.reset
    (Quiet s ∧ answersTo [([params.ctrlReg, params.softReset], 0)] s = [.done 2 []] ∧ acceptsWrite (.done 2 [])) ∧
      (Quiet s' ∧ answersTo [([params.ctrlReg, 0xFF], 0)] s' = [.done 0 []] ∧ ¬ acceptsWrite (.done 0 [])) :=
  ⟨⟨rfl, rfl, [], rfl⟩, rfl, rfl, by simp [acceptsWrite]⟩

theorem witness_RegisterAccessWritesNoRegister :
    let s := acting [.present 0, .elapse 7] (answering [.err] { ready with busy := true })
    Calm s ∧ (∃ t, exec (.rd1 0xFF) s = .next t) ∧ (∃ t, exec (.wr1 0xFF 0) s = .next t) ∧
      (∃ t, exec (.rdn 0xAA 22) s = .next t) ∧ (∃ t, exec (.readRegister 0) s = .next t) ∧
      (∃ t, exec (.writeRegister 0 0) s = .next t) ∧ (∃ t, exec (.readBlock 0xAA 22) s = .next t) ∧
      (∃ t, exec .cmdTemp s = .next t) ∧ (∃ t, exec (.cmdPress 3) s = .next t) ∧
      (∃ t, exec .softResetValue s = .next t) ∧ ∃ t, exec (.powerDownValue 0) s = .next t :=
  ⟨by decide, ⟨_, rfl⟩, ⟨_, rfl⟩, ⟨_, rfl⟩, ⟨_, rfl⟩, ⟨_, rfl⟩, ⟨_, rfl⟩, ⟨_, rfl⟩, ⟨_, rfl⟩, ⟨_, rfl⟩, _, rfl⟩

theorem witness_LoadDecodesTheBlock :
    Quiet (answering [.done 1 blockK] State.reset) ∧
      answersTo [([params.calBase], 22)] (answering [.done 1 blockK] State.reset) = [.done 1 blockK] := by decide

theorem witness_LoadFailsOnAnyOtherAnswer :
    let s := answering [.done 1 (blockK.take 21)] ready
    Quiet s ∧ answersTo [([params.calBase], 22)] s = [.done 1 (blockK.take 21)] ∧
      ∀ bs, Answer.done 1 (blockK.take 21) = .done 1 bs → bs.length ≠ 22 :=
  ⟨rfl, rfl, by intro bs h; cases h; decide⟩

theorem witness_CalibrationIsImmutableWhileValid :
    (ready.ss = .idle → ready.calValid = false) ∧ ready.calValid = true ∧ Calm ready ∧ Instr.configure 0 ≠ .load ∧
      ∃ t, exec (.configure 0) ready = .next t := ⟨by decide, rfl, by decide, by decide, _, rfl⟩

theorem witness_WaitLetsTheDelayPass :
    Quiet ready ∧ ((0xFFFF : Half) ≠ 0 ∧ (acting [.elapse 3] ready).env.sched = [.elapse 3]) ∧
      Calm (acting [.elapse 3, .present 0, .quiet] ready) := by decide

theorem witness_OversamplingIsMonotone : (0 : Level).toNat < (1 : Level).toNat ∧ (2 : Level).toNat < (3 : Level).toNat := by
  decide

theorem witness_AcquireTemperature :
    let s := answering [.done 2 [], .done 1 [0xFF], .done 1 [0]] State.reset
    Quiet s ∧ s.seq = .idle ∧
      answersTo [([params.ctrlReg, params.cmdTemp], 0), ([params.resultReg], 1), ([params.resultReg + 1], 1)] s =
        [.done 2 [], .done 1 [0xFF], .done 1 [0]] ∧
      acceptsWrite (.done 2 []) ∧ readsByte (.done 1 [0xFF]) 0xFF ∧ readsByte (.done 1 [0]) 0 :=
  ⟨rfl, rfl, rfl, ⟨[], rfl⟩, rfl, rfl⟩

theorem witness_AcquirePressure (oss : Level) :
    let s := answering [.done 2 [], .done 1 [0xFF], .done 1 [0], .done 1 [1]] State.reset
    Quiet s ∧ s.seq = .idle ∧
      answersTo [([params.ctrlReg, params.cmdPress oss], 0), ([params.resultReg], 1), ([params.resultReg + 1], 1),
        ([params.resultReg + 2], 1)] s = [.done 2 [], .done 1 [0xFF], .done 1 [0], .done 1 [1]] ∧
      acceptsWrite (.done 2 []) ∧ readsByte (.done 1 [0xFF]) 0xFF ∧ readsByte (.done 1 [0]) 0 ∧ readsByte (.done 1 [1]) 1 :=
  ⟨rfl, rfl, rfl, ⟨[], rfl⟩, rfl, rfl, rfl⟩

theorem witness_IssueAndWait :
    let s := answering [.done 2 []] ready
    Quiet s ∧ s.seq = .idle ∧ answersTo [([params.ctrlReg, 0xFF], 0)] s = [.done 2 []] ∧ acceptsWrite (.done 2 []) :=
  ⟨rfl, rfl, rfl, [], rfl⟩

theorem witness_FailedCommandWriteEndsTheAcquisition :
    let s := answering [.done 1 []] ready
    Quiet s ∧ s.seq = .idle ∧ ¬ acceptsWrite (.done 1 []) ∧
      answersTo [([params.ctrlReg, params.cmdTemp], 0)] s = [.done 1 []] ∧
      answersTo [([params.ctrlReg, params.cmdPress 3], 0)] s = [.done 1 []] ∧
      answersTo [([params.ctrlReg, 0], 0)] s = [.done 1 []] := ⟨rfl, rfl, by simp [acceptsWrite], rfl, rfl, rfl⟩

theorem witness_FailedResultReadWritesNoCount :
    let s := answering [.err] ready
    Calm s ∧ s.seq = .idle ∧
      (∃ t, exec (.acquireRawTemperature 3) s = .next t ∧ t.ret = .raised .transportError) ∧
      ∃ t, exec (.acquireRawPressure 3) s = .next t ∧ t.ret = .raised .transportError :=
  ⟨by decide, rfl, ⟨_, rfl, by decide⟩, _, rfl, by decide⟩

theorem witness_SequencerBusyChangesNothing :
    ({ ready with seq := .commandIssued }).seq ≠ .idle ∧ ({ ready with seq := .resultReady }).seq ≠ .idle := by decide

theorem witness_SequencerFollowsItsChain :
    Calm (acting [.elapse 1] ready) ∧ ∃ t, exec (.acquireRawPressure 3) (acting [.elapse 1] ready) = .next t :=
  ⟨by decide, _, rfl⟩

theorem witness_SequencerFrame :
    Calm ready ∧ ready.seq = .idle ∧ (∃ t, exec (.acquireRawTemperature 0) ready = .next t) ∧
      (∃ t, exec (.acquireRawPressure 3) ready = .next t) ∧ (∃ t, exec (.issueAndWait 0 0xFFFF) ready = .next t) ∧
      (∃ t, exec (.wait 0) ready = .next t) ∧ ∃ t, exec .load ready = .next t :=
  ⟨by decide, rfl, ⟨_, rfl⟩, ⟨_, rfl⟩, ⟨_, rfl⟩, ⟨_, rfl⟩, _, rfl⟩

/-- The staging registers with one value in every signed register. -/
def allRegs (v : Int) : Staging :=
  ⟨toWord v, toWord v, toWord v, toWord v, toWord v, toWord v, 0, 0, toWord v, 0, 0⟩

/-- The checks of steps 1 to 4 can pass and fail, at the ends of the ranges. -/
theorem witness_TemperatureSteps :
    InS32 (((32768 : Half).toNat - (0 : Half).toNat : Int) * (65535 : Half).toNat) ∧
      ¬ InS32 (((32769 : Half).toNat - (0 : Half).toNat : Int) * (65535 : Half).toNat) ∧
      (InS32 ((toWord (-2868)).toInt + calK.md.toInt) ∧ (toWord (-2868)).toInt + calK.md.toInt = 0) ∧
      (InS32 ((toWord 2147480779).toInt + calK.md.toInt) ∧ (toWord 2147480779).toInt + calK.md.toInt ≠ 0) ∧
      (¬ InS32 ((toWord 2147480780).toInt + calK.md.toInt) ∧ (toWord 2147480780).toInt + calK.md.toInt ≠ 0) ∧
      InS32 ((toWord (-1073741824)).toInt + (toWord (-1073741824)).toInt) ∧
      ¬ InS32 ((toWord (-1073741825)).toInt + (toWord (-1073741824)).toInt) ∧
      InS32 ((toWord 2147483639).toInt + 8) ∧ ¬ InS32 ((toWord 2147483640).toInt + 8) := by decide

/-- The checks of steps 5 to 9. -/
theorem witness_PressureStepsToB3 :
    (engineV5 0 0 0 5).b5Valid = true ∧ InS32 ((toWord (-2147479648)).toInt - 4000) ∧
      ¬ InS32 ((toWord (-2147479649)).toInt - 4000) ∧
      (InS32 ((toWord 46340).toInt * (toWord 46340).toInt) ∧
        InS32 (calK.b2.toInt * ((toWord 46340).toInt * (toWord 46340).toInt / 2 ^ 12))) ∧
      ¬ InS32 ((toWord 46341).toInt * (toWord 46341).toInt) ∧
      InS32 (calK.ac2.toInt * (toWord 29826161).toInt) ∧ ¬ InS32 (calK.ac2.toInt * (toWord 29826162).toInt) ∧
      InS32 ((toWord 1).toInt + (toWord 2147483646).toInt) ∧ ¬ InS32 ((toWord 1).toInt + (toWord 2147483647).toInt) ∧
      (InS32 (calK.ac1.toInt * 4 + (toWord 57).toInt) ∧ InS32 ((calK.ac1.toInt * 4 + (toWord 57).toInt) * 2 ^ 3) ∧
        InS32 ((calK.ac1.toInt * 4 + (toWord 57).toInt) * 2 ^ 3 + 2)) ∧
      ¬ InS32 (calK.ac1.toInt * 4 + (toWord 2147482016).toInt) := by decide

/-- The checks of steps 10 to 14. -/
theorem witness_PressureStepsToB7 :
    (engineV5 0 0 0 10).b5Valid = true ∧ InS32 (calK.ac3.toInt * (toWord 149307).toInt) ∧ ¬ InS32 (calK.ac3.toInt * (toWord 149308).toInt) ∧
      (InS32 ((toWord (-1600)).toInt * (toWord (-1600)).toInt) ∧
        InS32 (calK.b1.toInt * ((toWord (-1600)).toInt * (toWord (-1600)).toInt / 2 ^ 12))) ∧
      (InS32 ((toWord 37973).toInt * (toWord 37973).toInt) ∧
        ¬ InS32 (calK.b1.toInt * ((toWord 37973).toInt * (toWord 37973).toInt / 2 ^ 12))) ∧
      (InS32 ((toWord 0).toInt + (toWord 2147483645).toInt) ∧ InS32 ((toWord 0).toInt + (toWord 2147483645).toInt + 2)) ∧
      ¬ InS32 ((toWord 0).toInt + (toWord 2147483646).toInt + 2) ∧
      (InU32 ((toWord (-32768)).toInt + 32768) ∧ InU32 (calK.ac4.toNat * ((toWord (-32768)).toInt + 32768))) ∧
      ¬ InU32 ((toWord (-32769)).toInt + 32768) ∧
      (InU32 (((421 : Count20).toNat : Int) - (toWord 421).toInt) ∧
        InU32 ((((421 : Count20).toNat : Int) - (toWord 421).toInt) * (50000 / 2 ^ 0))) ∧
      ¬ InU32 (((421 : Count20).toNat : Int) - (toWord 422).toInt) := by decide

/-- The cases of steps 15 to 18. -/
theorem witness_PressureStepsToP :
    ({ State.reset with b5Valid := true }.b5Valid = true ∧ { State.reset with b5Valid := true }.stg.b4 = 0) ∧
      (engineV5 0 0 0 15).b5Valid = true ∧
      ((engineV5 0 0 0 15).stg.b4 ≠ 0 ∧ (engineV5 0 0 0 15).stg.b7.toNat < 0x80000000 ∧
        InS32 ((engineV5 0 0 0 15).stg.b7.toNat * 2 / (engineV5 0 0 0 15).stg.b4.toNat)) ∧
      ((1 : Word) ≠ 0 ∧ (0x7FFFFFFF : Word).toNat < 0x80000000 ∧
        ¬ InS32 ((0x7FFFFFFF : Word).toNat * 2 / (1 : Word).toNat)) ∧
      ((3 : Word) ≠ 0 ∧ 0x80000000 ≤ (0x80000000 : Word).toNat ∧
        InS32 ((0x80000000 : Word).toNat / (3 : Word).toNat * 2)) ∧
      ((1 : Word) ≠ 0 ∧ 0x80000000 ≤ (0x80000000 : Word).toNat ∧
        ¬ InS32 ((0x80000000 : Word).toNat / (1 : Word).toNat * 2)) ∧
      (InS32 (((toWord 70003).toInt / 2 ^ 8) * ((toWord 70003).toInt / 2 ^ 8)) ∧
        InS32 (((toWord 70003).toInt / 2 ^ 8) * ((toWord 70003).toInt / 2 ^ 8) * 3038)) ∧
      (InS32 (((toWord 215296).toInt / 2 ^ 8) * ((toWord 215296).toInt / 2 ^ 8)) ∧
        ¬ InS32 (((toWord 215296).toInt / 2 ^ 8) * ((toWord 215296).toInt / 2 ^ 8) * 3038)) ∧
      ¬ InS32 (((toWord 2147483647).toInt / 2 ^ 8) * ((toWord 2147483647).toInt / 2 ^ 8)) ∧
      InS32 (-7357 * (toWord 291896).toInt) ∧ ¬ InS32 (-7357 * (toWord 291897).toInt) ∧
      (InS32 ((toWord 3454).toInt + (toWord (-7859)).toInt) ∧ InS32 ((toWord 3454).toInt + (toWord (-7859)).toInt + 3791) ∧
        InS32 ((toWord 70003).toInt + ((toWord 3454).toInt + (toWord (-7859)).toInt + 3791) / 2 ^ 4)) ∧
      ¬ InS32 ((toWord 2147483647).toInt + (toWord 1).toInt) := by decide

theorem witness_OpenTakesTheSession :
    (Quiet State.reset ∧ State.reset.busy = false ∧ State.reset.owned = false) ∧
      (Quiet live ∧ live.busy = false ∧ live.owned = true) := by decide

theorem witness_ConfigureLoadsAndWaits :
    let s := answering [.done 1 blockK, .done 2 [], .done 2 []] live
    Quiet s ∧ s.busy = false ∧ s.ss = .idle ∧ s.seq = .idle ∧
      answersTo [([params.calBase], 22), ([params.ctrlReg, params.cmdTemp], 0),
        ([params.ctrlReg, params.cmdPress params.ossSel], 0)] s = [.done 1 blockK, .done 2 [], .done 2 []] ∧
      blockK.length = 22 ∧ acceptsWrite (.done 2 []) := ⟨rfl, rfl, rfl, rfl, rfl, rfl, [], rfl⟩

theorem witness_ConfigureFailureLeavesIdle :
    (let s := answering [.err] live
     Calm s ∧ s.busy = false ∧ s.ss = .idle ∧ s.seq = .idle ∧ s.calValid = false ∧
       ∃ t, exec (.configure 0) s = .next t ∧ t.rsp.err ≠ 0) ∧
      (let s := answering [.done 1 blockK, .err] live
       Calm s ∧ s.busy = false ∧ s.ss = .idle ∧ s.seq = .idle ∧ s.calValid = false ∧
         ∃ t, exec (.configure 0) s = .next t ∧ t.rsp.err ≠ 0) :=
  ⟨⟨by decide, rfl, rfl, rfl, rfl, _, rfl, by decide⟩, by decide, rfl, rfl, rfl, rfl, _, rfl, by decide⟩

theorem witness_ResetDropsTheCalibration :
    (let s := answering [.done 2 []] ready
     Quiet s ∧ s.busy = false ∧ s.ss ≠ .closed ∧
       answersTo [([params.ctrlReg, params.softReset], 0)] s = [.done 2 []] ∧ acceptsWrite (.done 2 [])) ∧
      (let s := answering [.err] live
       Quiet s ∧ s.busy = false ∧ s.ss ≠ .closed ∧
         answersTo [([params.ctrlReg, params.softReset], 0)] s = [.err] ∧ ¬ acceptsWrite .err) :=
  ⟨⟨rfl, rfl, by decide, rfl, [], rfl⟩, rfl, rfl, by decide, rfl, by simp [acceptsWrite]⟩

theorem witness_ReadRegisterRawAnswersTheByte :
    (let s := answering [.done 1 [0xFF]] live
     Quiet s ∧ s.busy = false ∧ s.ss = .idle ∧ answersTo [([0xFF], 1)] s = [.done 1 [0xFF]] ∧
       readsByte (.done 1 [0xFF]) 0xFF) ∧
      (let s := answering [.done 1 []] ready
       Quiet s ∧ s.busy = false ∧ s.ss = .configured ∧ answersTo [([0x00], 1)] s = [.done 1 []] ∧
         ∀ b, ¬ readsByte (.done 1 []) b) :=
  ⟨⟨rfl, rfl, rfl, rfl, rfl⟩, rfl, rfl, rfl, rfl, by simp [readsByte]⟩

theorem witness_WriteRegisterRawForwardsTheValue :
    (let s := answering [.done 2 []] live
     Quiet s ∧ s.busy = false ∧ s.ss = .idle ∧ answersTo [([0xF4, 0x2E], 0)] s = [.done 2 []] ∧ acceptsWrite (.done 2 [])) ∧
      (let s := answering [.done 1 []] ready
       Quiet s ∧ s.busy = false ∧ s.ss = .configured ∧ answersTo [([0x00, 0xFF], 0)] s = [.done 1 []] ∧
         ¬ acceptsWrite (.done 1 [])) :=
  ⟨⟨rfl, rfl, rfl, rfl, [], rfl⟩, rfl, rfl, rfl, rfl, by simp [acceptsWrite]⟩

theorem witness_ShutdownAndCloseEndTheSession :
    (let s := answering [.done 2 []] ready
     Quiet s ∧ s.busy = false ∧ s.ss ≠ .closed ∧
       answersTo [([params.ctrlReg, params.powerDown], 0)] s = [.done 2 []] ∧ acceptsWrite (.done 2 [])) ∧
      (let s := answering [.err] live
       Quiet s ∧ s.busy = false ∧ s.ss ≠ .closed ∧
         answersTo [([params.ctrlReg, params.powerDown], 0)] s = [.err] ∧ ¬ acceptsWrite .err) ∧
      (Quiet State.reset ∧ State.reset.busy = false ∧ State.reset.ss = .closed) :=
  ⟨⟨rfl, rfl, by decide, rfl, [], rfl⟩, ⟨rfl, rfl, by decide, rfl, by simp [acceptsWrite]⟩, rfl, rfl, rfl⟩

theorem witness_InvalidCommandChangesNothing :
    Quiet ready ∧ ready.busy = false ∧ (0 : Byte).toNat = 0 ∧ 9 ≤ (9 : Byte).toNat ∧ 9 ≤ (0xFF : Byte).toNat := by decide

theorem witness_WrongStateIsRefusedBeforeAnyExchange :
    Quiet State.reset ∧ State.reset.busy = false ∧ State.reset.ss = .closed ∧ Quiet ready ∧ ready.busy = false ∧
      ready.ss ≠ .idle ∧ Quiet live ∧ live.busy = false ∧ live.ss ≠ .configured ∧ Calm live ∧
      (∃ t, exec (.openSession 0) live = .next t) ∧ ∃ t, exec (.closeSession 0) State.reset = .next t :=
  ⟨rfl, rfl, rfl, rfl, rfl, by decide, rfl, rfl, by decide, by decide, ⟨_, rfl⟩, _, rfl⟩

theorem witness_ReadAnswersTheCompensatedPair :
    let as : List Answer :=
      [.done 2 [], .done 1 [0x6C], .done 1 [0xFA], .done 2 [], .done 1 [0x5D], .done 1 [0x23], .done 1 [0xA0]]
    let s := answering as ready
    Quiet s ∧ s.busy = false ∧ s.ss = .configured ∧ s.calValid = true ∧ s.seq = .idle ∧
      answersTo [([params.ctrlReg, params.cmdTemp], 0), ([params.resultReg], 1), ([params.resultReg + 1], 1),
        ([params.ctrlReg, params.cmdPress params.ossSel], 0), ([params.resultReg], 1), ([params.resultReg + 1], 1),
        ([params.resultReg + 2], 1)] s = as ∧
      acceptsWrite (.done 2 []) ∧ readsByte (.done 1 [0x6C]) 0x6C ∧ readsByte (.done 1 [0xA0]) 0xA0 :=
  ⟨rfl, rfl, rfl, rfl, rfl, rfl, ⟨[], rfl⟩, rfl, rfl⟩

theorem witness_FailedReadLeavesTheSession :
    let s := answering [.err] ready
    Calm s ∧ s.busy = false ∧ s.seq = .idle ∧ s.ss = .configured ∧ s.calValid = true ∧
      ∃ t, exec (.readCompensated 0) s = .next t ∧ t.rsp.err ≠ 0 :=
  ⟨by decide, rfl, rfl, rfl, rfl, _, rfl, by decide⟩

theorem witness_BusyPortFollowsThePolicy :
    isCommand (.invalid 0xFF 0) = true ∧ isCommand (.readCompensated 0) = true ∧
      ({ ready with busy := true }).busy = true ∧
      (let s := acting [.present 0x080000] { ready with busy := true }
       0 < ticks params (4500 : Half).toNat ∧ s.busy = true ∧ s.env.sched = List.replicate 0 .quiet ++ [.present 0x080000]) ∧
      (∃ j, let s := acting (List.replicate j .quiet ++ [.present 0x080000]) { ready with busy := true }
       j + 1 = ticks params (4500 : Half).toNat ∧ s.busy = true ∧ s.env.sched = List.replicate j .quiet ++ [.present 0x080000]) ∧
      (let s := acting [.present 0x080000] ready
       s.busy = false ∧ s.env.sched = [.present 0x080000]) ∧
      (let s := acting [.elapse 0, .present 0x080000, .present 0] ready
       s.busy = false ∧ s.env.sched = .elapse 0 :: [0x080000, 0].map .present) :=
  ⟨rfl, rfl, rfl, ⟨ticks_pos, rfl, rfl⟩, ⟨_, Nat.sub_add_cancel ticks_pos, rfl, rfl⟩, by decide, by decide⟩

theorem witness_EveryCommandRespondsOnce :
    isCommand (.reset 0) = true ∧ Calm (acting [.present 0] ready) ∧ (acting [.present 0] ready).busy = false ∧
      ∃ t, exec (.reset 0) (acting [.present 0] ready) = .next t := ⟨rfl, by decide, rfl, _, rfl⟩

theorem witness_ErrorResponsesCarryNoData :
    isCommand (.readRegisterRaw 0 0) = true ∧ Calm ready ∧ ready.busy = false ∧
      ∃ t, exec (.readRegisterRaw 0 0) ready = .next t := ⟨rfl, by decide, rfl, _, rfl⟩

theorem witness_SessionFollowsItsChain :
    Inv ready ∧ Calm ready ∧ ∃ t, exec (.closeSession 0) ready = .next t :=
  ⟨by constructor <;> decide, by decide, _, rfl⟩

theorem witness_CommandFrames :
    let s := answering [.err, .err] ready
    Calm s ∧ s.busy = false ∧ s.seq = .idle ∧ (∃ t, exec (.openSession 0) s = .next t) ∧
      (∃ t, exec (.configure 0) s = .next t) ∧ (∃ t, exec (.reset 0) s = .next t) ∧
      (∃ t, exec (.shutdown 0) s = .next t) ∧ (∃ t, exec (.closeSession 0) s = .next t) ∧
      (∃ t, exec (.readRegisterRaw 0 0) s = .next t) ∧ (∃ t, exec (.writeRegisterRaw 0 0) s = .next t) ∧
      (∃ t, exec (.invalid 0 0) s = .next t) ∧ ∃ t, exec (.readCompensated 0) s = .next t :=
  ⟨by decide, rfl, rfl, ⟨_, rfl⟩, ⟨_, rfl⟩, ⟨_, rfl⟩, ⟨_, rfl⟩, ⟨_, rfl⟩, ⟨_, rfl⟩, ⟨_, rfl⟩, ⟨_, rfl⟩, _, rfl⟩

theorem witness_CloseThenOpenRecovers : Quiet (answering [.err] ready) ∧ (answering [.err] ready).busy = false := by decide

theorem witness_CommandsUseThreeAccessShapes :
    isCommand (.configure 0) = true ∧ Calm live ∧ ∃ t, exec (.configure 0) live = .next t := ⟨rfl, by decide, _, rfl⟩

theorem witness_NoWriteInsideAConversion :
    let s := answering [.done 2 []] ready
    isCommand (.reset 0) = true ∧ (∀ value, Instr.reset 0 ≠ .writeRegisterRaw params.ctrlReg value) ∧ s.busy = false ∧
      s.seq = .idle ∧ s.env.sensor.left = 0 ∧ Calm s ∧ (∀ u, Instr.reset 0 ≠ .shutdown u ∧ Instr.reset 0 ≠ .closeSession u) ∧
      ∃ t new, exec (.reset 0) s = .next t ∧ t.env.log = new ++ s.env.log ∧ ∀ x ∈ exchangesOf new, isFullWrite x := by
  refine ⟨rfl, by simp, rfl, rfl, rfl, by decide, by simp, _, _, rfl, (List.append_nil _).symm, ?_⟩
  intro x hx
  rw [List.mem_singleton.mp hx]
  exact fun _ => ⟨[], rfl⟩

theorem witness_StaleRegistersAreNeverRead :
    let s' : State := { ready with ut := 0xFFFF, up := 0x7FFFF, rbuf0 := 0xFF, stg := allRegs (-1) }
    isCommand (.readCompensated 0) = true ∧ Inv ready ∧ Inv s' ∧ s'.ss = ready.ss ∧
      (ready.calValid = true → s'.cal = ready.cal) ∧ s'.env = ready.env ∧ s'.rsp = ready.rsp :=
  ⟨rfl, by constructor <;> decide, by constructor <;> decide, rfl, fun _ => rfl, rfl, rfl⟩

/-- The same with stale coefficients, in a session without valid ones. -/
theorem witness_StaleRegistersAreNeverRead_staleCal :
    let s' : State := { live with cal := calK, kind := .pressure, oss := 3, stg := allRegs 1 }
    isCommand (.configure 0) = true ∧ Inv live ∧ Inv s' ∧ s'.ss = live.ss ∧ s'.cal ≠ live.cal ∧
      (live.calValid = true → s'.cal = live.cal) ∧ s'.env = live.env ∧ s'.rsp = live.rsp :=
  ⟨rfl, by constructor <;> decide, by constructor <;> decide, rfl, by decide, by decide, rfl, rfl⟩

end Sys2Proof.Tests
end

section
/-!
What a step with nothing to do does (spec/00_scope.md R3, spec/10_state.md R12, spec/44_session.md R162).
-/

namespace Sys2Proof.Machine

section
variable {s : State}

/-- With nothing asked for, the engine idle, and the block busy or the port empty, the step is the idle one. -/
theorem step_of_nothing_to_do (ht : s.env.todo = []) (hc : s.cstep = 0) (hi : s.busy = true ∨ s.env.port = []) :
    step s = .next (idle Config.params s) := by
  unfold step
  rw [fetch_idle ht hc hi]

theorem idle_of_sched_nil (p : Params) (h : s.env.sched = []) : idle p s = elapse 1 s := by
  unfold idle
  rw [h]

theorem idle_of_sched_present (p : Params) {cw : CmdWord} {rest : List HostAct}
    (h : s.env.sched = .present cw :: rest) : idle p s = present p cw (dropAct s) := by
  unfold idle
  rw [h]

/-- A word pended at an empty port is the one word there. -/
theorem pend_dropAct_of_port_nil {cw : CmdWord} {a : HostAct} {rest : List HostAct} (hs : s.env.sched = a :: rest)
    (hp : s.env.port = []) :
    pend cw (dropAct s) = { s with env := { s.env with sched := rest, port := [cw] } } := by
  simp only [pend, dropAct, hs, hp, List.tail_cons, List.nil_append]

end

/-- Settles O7: the step is the idle one, and what that does is read off the schedule. When the block is not busy, the
hypothesis leaves only the empty port, so a word presented stands there alone. -/
theorem nothingToDoLetsTimePass : Obligations.NothingToDoLetsTimePass := by
  intro s ht hc hi
  rw [step_of_nothing_to_do ht hc hi]
  refine ⟨fun hs => ?_, fun cw rest hb hs => ?_⟩
  · rw [idle_of_sched_nil _ hs]
  · have hport : s.env.port = [] := hi.resolve_left (by simp [hb])
    rw [idle_of_sched_present _ hs, present_free (s := dropAct s) hb, pend_dropAct_of_port_nil hs hport]

end Sys2Proof.Machine
end

section
/-!
Two runs of one operation side by side: what it is that both end alike, and how the ways operations are put together keep it.
A run beside itself is a run from one state, so what links the two may also say what holds of each: one pass over the operations
serves the statements about one run and the one about two.
-/

namespace Sys2Proof.Machine

/-- A relation between the states of two runs. -/
abbrev Link := State → State → Prop

/-- Two runs end alike: both return the same value, in states linked by `Q`; both raise the same error, in states linked by
`E`; or hardware reset drops both and leaves one state, which meets `Inv`. Neither is a fault of the model. -/
inductive SameEnd {φ α : Type} (Q : α → Link) (E : Link) :
    EStateM.Result (Stop φ) State α → EStateM.Result (Stop φ) State α → Prop
  | ok {a : α} {t t' : State} : Q a t t' → SameEnd Q E (.ok a t) (.ok a t')
  | raise {k : ErrKind} {t t' : State} : E t t' → SameEnd Q E (.error (.raise k) t) (.error (.raise k) t')
  | dropped {t : State} : Inv t → SameEnd Q E (.error .dropped t) (.error .dropped t)

/-- From states linked by `P` two runs of the operation end alike. -/
def Agrees {φ α : Type} (P : Link) (Q : α → Link) (E : Link) (x : Op φ α) : Prop :=
  ∀ s s', P s s' → SameEnd Q E (x s) (x s')

section
variable {φ α β : Type} {P P' R E E' : Link} {Q Q' : α → Link} {S : β → Link} {x : Op φ α} {f : α → Op φ β}

theorem SameEnd.mono {r r' : EStateM.Result (Stop φ) State α} (h : SameEnd Q E r r')
    (hq : ∀ a t t', Q a t t' → Q' a t t') (he : ∀ t t', E t t' → E' t t') : SameEnd Q' E' r r' := by
  cases h with
  | ok h => exact .ok (hq _ _ _ h)
  | raise h => exact .raise (he _ _ h)
  | dropped h => exact .dropped h

theorem Agrees.pre (h : Agrees P Q E x) (hp : ∀ s s', P' s s' → P s s') : Agrees P' Q E x :=
  fun s s' hs => h s s' (hp s s' hs)

theorem Agrees.post (h : Agrees P Q E x) (hq : ∀ a t t', Q a t t' → Q' a t t') : Agrees P Q' E x :=
  fun s s' hs => (h s s' hs).mono hq fun _ _ h => h

theorem Agrees.postRaise (h : Agrees P Q E x) (he : ∀ t t', E t t' → E' t t') : Agrees P Q E' x :=
  fun s s' hs => (h s s' hs).mono (fun _ _ _ h => h) he

theorem agrees_bind (hx : Agrees P Q E x) (hf : ∀ a, Agrees (Q a) S E (f a)) : Agrees P S E (x >>= f) := by
  intro s s' hs
  have h := hx s s' hs
  show SameEnd S E (EStateM.bind x f s) (EStateM.bind x f s')
  unfold EStateM.bind
  generalize x s = r, x s' = r' at h
  cases h with
  | ok h => exact hf _ _ _ h
  | raise h => exact .raise h
  | dropped h => exact .dropped h

theorem agrees_pure (a : α) : Agrees P (fun _ => P) E (pure a : Op φ α) := fun _ _ hs => .ok hs

theorem agrees_update {g : State → State} (h : ∀ s s', P s s' → R (g s) (g s')) :
    Agrees P (fun _ => R) E (Op.update g : Op φ Unit) := fun s s' hs => .ok (h s s' hs)

theorem agrees_read {g : State → α} (h : ∀ s s', P s s' → g s' = g s) :
    Agrees P (fun a s s' => P s s' ∧ a = g s) E (Op.read g : Op φ α) := by
  intro s s' hs
  rw [read_apply, read_apply, h s s' hs]
  exact .ok ⟨hs, rfl⟩

theorem agrees_raise (k : ErrKind) : Agrees P Q P (Op.raise k : Op φ α) := fun _ _ hs => .raise hs

theorem agrees_require {c : State → Bool} (k : ErrKind) (hc : ∀ s s', P s s' → c s' = c s) :
    Agrees P (fun _ s s' => P s s' ∧ c s = true) P (Op.require c k : Op φ Unit) := by
  intro s s' hs
  have h' := hc s s' hs
  cases h : c s with
  | true => rw [require_true h, require_true (h'.trans h)]; exact .ok ⟨hs, h⟩
  | false => rw [require_false h, require_false (h'.trans h)]; exact .raise hs

theorem Agrees.onRaise {g : State → State} (hx : Agrees P Q E x) (hg : ∀ t t', E t t' → E' (g t) (g t')) :
    Agrees P Q E' (x.onRaise g) := by
  intro s s' hs
  have h := hx s s' hs
  unfold Op.onRaise
  generalize x s = r, x s' = r' at h
  cases h with
  | ok h => exact .ok h
  | raise h => exact .raise (hg _ _ h)
  | dropped h => exact .dropped h

theorem Agrees.always {g : State → State} (hx : Agrees P Q E x) (hq : ∀ a t t', Q a t t' → Q' a (g t) (g t'))
    (hg : ∀ t t', E t t' → E' (g t) (g t')) : Agrees P Q' E' (x.always g) := by
  intro s s' hs
  have h := hx s s' hs
  unfold Op.always
  generalize x s = r, x s' = r' at h
  cases h with
  | ok h => exact .ok (hq _ _ _ h)
  | raise h => exact .raise (hg _ _ h)
  | dropped h => exact .dropped h

theorem Agrees.surfaceAs (hx : Agrees P Q E x) (k : ErrKind) : Agrees P Q E (x.surfaceAs k) := by
  intro s s' hs
  have h := hx s s' hs
  unfold Op.surfaceAs
  generalize x s = r, x s' = r' at h
  cases h with
  | ok h => exact .ok h
  | raise h => exact .raise h
  | dropped h => exact .dropped h

theorem Agrees.outcome (hx : Agrees P (fun _ => R) R x) : Agrees P (fun _ => R) E x.outcome := by
  intro s s' hs
  have h := hx s s' hs
  unfold Op.outcome
  generalize x s = r, x s' = r' at h
  cases h with
  | ok h => exact .ok h
  | raise h => exact .ok h
  | dropped h => exact .dropped h

theorem agrees_settle {y : Op φ Payload} (hy : Agrees P (fun _ => R) R y) : Agrees P (fun _ => R) E (settle y) := by
  intro s s' hs
  have h := hy s s' hs
  unfold settle
  generalize y s = r, y s' = r' at h
  cases h with
  | ok h => exact .ok h
  | raise h => exact .ok h
  | dropped h => exact .dropped h

end

end Sys2Proof.Machine
end

section
/-!
What the world outside does in two runs that meet the same world: moments, exchanges and waits.
-/

namespace Sys2Proof.Machine

/-- The state with another response record and another world around it. -/
def withWorld (r : Response) (e : Env) (s : State) : State := { s with rsp := r, env := e }

/-- Two linked states see the same world, and the link holds whatever this world does to both alike. -/
structure Steady (R : Link) : Prop where
  busy  : ∀ {s s'}, R s s' → s'.busy = s.busy
  rsp   : ∀ {s s'}, R s s' → s'.rsp = s.rsp
  env   : ∀ {s s'}, R s s' → s'.env = s.env
  world : ∀ {s s'} (r : Response) (e : Env), e.todo = s.env.todo → R s s' → R (withWorld r e s) (withWorld r e s')

/-- A steady link between states with the delay timer at rest, which holds whatever is written to `SEQ` in both. -/
structure Sequenced (R : Link) : Prop extends Steady R where
  timer : ∀ {s s'}, R s s' → s.dtimer = 0 ∧ s'.dtimer = 0
  seq   : ∀ {s s'} (x : SeqState), R s s' → R { s with seq := x } { s' with seq := x }

theorem hardwareReset_inv (s : State) : Inv (hardwareReset s) := by
  constructor <;> simp [hardwareReset, State.reset]

/-- Hardware reset leaves nothing of the registers. -/
theorem hardwareReset_congr {s s' : State} (h : s'.env = s.env) : hardwareReset s' = hardwareReset s := by
  unfold hardwareReset
  rw [h]

section
variable {φ : Type} {p : Params} {R E : Link} {s s' : State}

/-- An update of the response record and the world alone. -/
theorem Steady.update (hR : Steady R) (u : Response → Response) (v : Env → Env) (hv : ∀ e, (v e).todo = e.todo)
    (h : R s s') : R (withWorld (u s.rsp) (v s.env) s) (withWorld (u s'.rsp) (v s'.env) s') := by
  rw [hR.rsp h, hR.env h]
  exact hR.world _ _ (hv _) h

theorem Steady.dropAct (hR : Steady R) (h : R s s') : R (dropAct s) (dropAct s') :=
  hR.update id (fun e => { e with sched := e.sched.tail }) (fun _ => rfl) h

theorem Steady.elapse (hR : Steady R) (n : Nat) (h : R s s') : R (elapse n s) (elapse n s') :=
  hR.update id (fun e => { e with now := e.now + n, sensor := { e.sensor with left := e.sensor.left - n } })
    (fun _ => rfl) h

theorem Steady.record (hR : Steady R) (e : Event) (h : R s s') : R (record e s) (record e s') :=
  hR.update id (fun v => { v with log := (v.now, e) :: v.log }) (fun _ => rfl) h

theorem Steady.respond (hR : Steady R) (r : Response) (h : R s s') : R (respond r s) (respond r s') :=
  hR.update (s := s) (s' := s') (fun _ => r) (fun v => { v with log := (v.now, .response r) :: v.log }) (fun _ => rfl) h

theorem Steady.pend (hR : Steady R) (cw : CmdWord) (h : R s s') : R (pend cw s) (pend cw s') :=
  hR.update id (fun e => { e with port := e.port ++ [cw] }) (fun _ => rfl) h

theorem Steady.present (hR : Steady R) (p : Params) (cw : CmdWord) (h : R s s') :
    R (present p cw s) (present p cw s') := by
  have hb := hR.busy h
  cases hs : s.busy with
  | false => rw [present_free hs, present_free (hb.trans hs)]; exact hR.pend cw h
  | true =>
    cases hp : p.busyPolicy with
    | block => rw [present_block hp, present_block hp]; exact hR.pend cw h
    | reject => rw [present_reject hs hp, present_reject (hb.trans hs) hp]; exact hR.respond _ h

theorem Steady.nextAnswer (hR : Steady R) (w : List Byte) (r : Nat) (h : R s s') :
    nextAnswer w r s' = nextAnswer w r s :=
  nextAnswer_congr (by rw [hR.env h]) (by rw [hR.env h])

theorem Steady.afterExchange (hR : Steady R) (p : Params) (w : List Byte) (r : Nat) (h : R s s') :
    R (afterExchange p w r s) (afterExchange p w r s') := by
  unfold Machine.afterExchange
  rw [hR.nextAnswer w r h]
  generalize Machine.nextAnswer w r s = a
  exact hR.record _ (hR.update id (fun e => { e with
    script := e.script.tail
    fresh  := e.fresh + 1
    sensor := sensorAfter p w a (Config.freeTaken e.fresh) e.sensor }) (fun _ => rfl) h)

theorem Sequenced.setSequencer (hR : Sequenced R) (x : SeqState) (h : R s s') :
    R (setSequencer x s) (setSequencer x s') := hR.record _ (hR.seq x h)

/-- The acts of one moment, time passing as the link allows. -/
theorem agrees_runActs {pass : Nat → State → State} (hR : Steady R)
    (hp : ∀ n s s', R s s' → R (pass n s) (pass n s')) :
    ∀ acts, Agrees R (fun _ => R) E (runActs p pass acts : Op φ Unit)
  | [], _, _, h => .ok h
  | .quiet :: _, _, _, h => .ok (hR.dropAct h)
  | .present cw :: rest, _, _, h => agrees_runActs hR hp rest _ _ (hR.present p cw (hR.dropAct h))
  | .elapse n :: rest, _, _, h => agrees_runActs hR hp rest _ _ (hp n _ _ (hR.dropAct h))
  | .hardwareReset :: _, s, s', h => by
    show SameEnd _ _ (.error .dropped (hardwareReset (dropAct s))) (.error .dropped (hardwareReset (dropAct s')))
    rw [hardwareReset_congr (hR.env (hR.dropAct h))]
    exact .dropped (hardwareReset_inv _)

theorem agrees_moment (hR : Steady R) : Agrees R (fun _ => R) E (moment p : Op φ Unit) := by
  intro s s' h
  unfold moment
  rw [hR.env h]
  exact agrees_runActs hR (fun n _ _ => hR.elapse n) _ s s' h

theorem agrees_exchange (hR : Steady R) (w : List Byte) (r : Nat) :
    Agrees R (fun _ => R) E (exchange p w r : Op φ Answer) := by
  refine agrees_bind (agrees_moment hR) fun _ s s' h => ?_
  unfold transfer
  rw [hR.nextAnswer w r h]
  exact .ok (hR.afterExchange p w r h)

theorem agrees_checkRead (n : Nat) (a : Answer) : Agrees R (fun _ => R) R (checkRead n a : Op φ (List Byte)) := by
  intro s s' h
  by_cases ha : ∃ bs, a = .done 1 bs ∧ bs.length = n
  · obtain ⟨bs, rfl, hn⟩ := ha
    rw [checkRead_ok hn, checkRead_ok hn]
    exact .ok h
  · have ha : ∀ bs, a = .done 1 bs → bs.length ≠ n := fun bs hb hn => ha ⟨bs, hb, hn⟩
    rw [checkRead_fail ha, checkRead_fail ha]
    exact .raise h

theorem agrees_checkWrite (a : Answer) : Agrees R (fun _ => R) R (checkWrite a : Op φ Unit) := by
  intro s s' h
  by_cases ha : acceptsWrite a
  · rw [checkWrite_ok ha, checkWrite_ok ha]; exact .ok h
  · rw [checkWrite_fail ha, checkWrite_fail ha]; exact .raise h

theorem agrees_readRegister (hR : Steady R) (addr : Byte) :
    Agrees R (fun _ => R) R (readRegister p addr : Op φ Byte) :=
  agrees_bind (agrees_exchange hR _ _) fun a => agrees_bind (agrees_checkRead 1 a) fun _ => agrees_pure _

theorem agrees_writeRegister (hR : Steady R) (addr v : Byte) :
    Agrees R (fun _ => R) R (writeRegister p addr v : Op φ Unit) :=
  agrees_bind (agrees_exchange hR _ _) fun a => agrees_checkWrite a

theorem agrees_readBlock (hR : Steady R) (addr : Byte) (n : Nat) :
    Agrees R (fun _ => R) R (readBlock p addr n : Op φ (List Byte)) :=
  agrees_bind (agrees_exchange hR _ _) fun a => agrees_checkRead n a

/-- In a wait: `R` but for the delay timers, which are the same and hold at most `k`. -/
def Timed (R : Link) (k : Nat) : Link := fun s s' =>
  R (setTimer 0 s) (setTimer 0 s') ∧ s'.dtimer = s.dtimer ∧ s.dtimer ≤ k

theorem setTimer_of_dtimer {k : Nat} (h : s.dtimer = k) : setTimer k s = s := by
  subst h
  rfl

theorem Steady.timed (hR : Steady R) (k : Nat) : Steady (Timed R k) where
  busy {s s'} h := hR.busy (s := setTimer 0 s) (s' := setTimer 0 s') h.1
  rsp {s s'} h := hR.rsp (s := setTimer 0 s) (s' := setTimer 0 s') h.1
  env {s s'} h := hR.env (s := setTimer 0 s) (s' := setTimer 0 s') h.1
  world {s s'} r e he h := ⟨hR.world (s := setTimer 0 s) (s' := setTimer 0 s') r e he h.1, h.2⟩

/-- `n` ticks of a wait pass: so many fewer are left. -/
theorem Steady.runTimer (hR : Steady R) {j k : Nat} (n : Nat) (hj : s.dtimer - n ≤ j) (h : Timed R k s s') :
    Timed R j (runTimer n s) (runTimer n s') := by
  obtain ⟨hr, ht, -⟩ := h
  refine ⟨hR.elapse n hr, ?_, hj⟩
  show s'.dtimer - n = s.dtimer - n
  rw [ht]

theorem agrees_waitMoment (hR : Steady R) (k : Nat) :
    Agrees (Timed R k) (fun _ => Timed R k) E (waitMoment p : Op φ Unit) := by
  intro s s' h
  unfold waitMoment
  rw [(hR.timed k).env h]
  exact agrees_runActs (hR.timed k) (fun n _ _ h => hR.runTimer n (by have := h.2.2; omega) h) _ s s' h

theorem agrees_countDown (hR : Steady R) :
    ∀ fuel, Agrees (Timed R fuel) (fun _ => Timed R 0) E (countDown p fuel : Op φ Unit)
  | 0 => agrees_pure _
  | k + 1 => by
    intro s s' h
    have ht : s'.dtimer = s.dtimer := h.2.1
    by_cases h0 : s.dtimer = 0
    · rw [countDown_zero h0, countDown_zero (ht.trans h0)]
      exact .ok ⟨h.1, ht, h0.le⟩
    · rw [countDown_succ h0, countDown_succ (ht ▸ h0)]
      refine agrees_bind (agrees_waitMoment hR (k + 1)) (fun _ => agrees_bind (agrees_update ?_) fun _ =>
        agrees_countDown hR k) s s' h
      intro t t' h
      obtain ⟨-, ht, hk⟩ := id h
      unfold tick
      rw [ht]
      exact hR.runTimer _ (by omega) h

/-- A wait between states at rest: at its end the delay timer is at rest again. -/
theorem agrees_wait (hR : Sequenced R) (us : Nat) : Agrees R (fun _ => R) E (wait p us : Op φ Unit) := by
  refine agrees_bind (agrees_update (R := Timed R (ticks p us)) fun s s' h => ⟨?_, rfl, le_rfl⟩) fun _ =>
    (agrees_countDown hR.toSteady _).post fun _ t t' h => ?_
  · obtain ⟨ht, ht'⟩ := hR.timer h
    show R (setTimer 0 s) (setTimer 0 s')
    rwa [setTimer_of_dtimer ht, setTimer_of_dtimer ht']
  · obtain ⟨hr, ht, hk⟩ := h
    have h0 : t.dtimer = 0 := Nat.le_zero.mp hk
    rwa [setTimer_of_dtimer h0, setTimer_of_dtimer (ht.trans h0)] at hr

/-- A linked pair with the sequencer idle in both states. -/
def AtIdle (R : Link) : Link := fun s s' => R s s' ∧ s.seq = .idle ∧ s'.seq = .idle

theorem Steady.atIdle (hR : Steady R) : Steady (AtIdle R) where
  busy h := hR.busy h.1
  rsp h := hR.rsp h.1
  env h := hR.env h.1
  world r e he h := ⟨hR.world r e he h.1, h.2⟩

theorem Sequenced.toIdle (hR : Sequenced R) (h : R s s') :
    AtIdle R (Machine.setSequencer .idle s) (Machine.setSequencer .idle s') :=
  ⟨hR.setSequencer _ h, rfl, rfl⟩

theorem agrees_requireSequencerIdle : Agrees (AtIdle R) (fun _ => AtIdle R) E (requireSequencerIdle : Op φ Unit) := by
  intro s s' h
  obtain ⟨-, hs, hs'⟩ := id h
  unfold requireSequencerIdle
  rw [require_true (by simp [hs]), require_true (by simp [hs'])]
  exact .ok h

theorem agrees_issue (hR : Sequenced R) (cmd : Byte) (us : Nat) :
    Agrees R (fun _ => R) R (issue p cmd us : Op φ Unit) :=
  agrees_bind (agrees_update fun _ _ => hR.setSequencer _) fun _ =>
    agrees_bind (agrees_writeRegister hR.toSteady _ _) fun _ =>
      agrees_bind (agrees_update fun _ _ => hR.setSequencer _) fun _ => agrees_wait hR us

theorem agrees_issueAndWait (hR : Sequenced R) (cmd : Byte) (us : Nat) :
    Agrees (AtIdle R) (fun _ => AtIdle R) (AtIdle R) (issueAndWait p cmd us : Op φ Unit) := by
  refine agrees_bind agrees_requireSequencerIdle fun _ => ?_
  refine agrees_bind (((agrees_issue hR cmd us).onRaise fun _ _ => hR.toIdle).pre fun _ _ h => h.1) fun _ => ?_
  exact agrees_update fun _ _ => hR.toIdle

end

end Sys2Proof.Machine
end

section
/-!
The link between two runs of one host command, and the measurement sequencer and the engine under it.
-/

namespace Sys2Proof.Machine

/-- Two states of one command in two runs: the same control state and the same world, the same coefficients while they are
valid, the same counts, with the level of the pressure, while they are fresh (spec/10_state.md R33). -/
structure Twin (s s' : State) : Prop where
  ss       : s'.ss = s.ss
  owned    : s'.owned = s.owned
  busy     : s'.busy = s.busy
  calValid : s'.calValid = s.calValid
  cal      : s.calValid = true → s'.cal = s.cal
  utValid  : s'.utValid = s.utValid
  ut       : s.utValid = true → s'.ut = s.ut
  upValid  : s'.upValid = s.upValid
  up       : s.upValid = true → s'.up = s.up ∧ s'.oss = s.oss
  rsp      : s'.rsp = s.rsp
  env      : s'.env = s.env

/-- What holds of a command in flight, but in a wait and in the engine. -/
def Resting (s : State) : Prop := s.dtimer = 0 ∧ s.cstep = 0 ∧ s.env.todo = [] ∧ s.up.toNat < 2 ^ 19

/-- Twins, both of which rest and meet `Y`. -/
structure Pair (Y : State → Prop) (s s' : State) : Prop where
  twin  : Twin s s'
  rest  : Resting s
  rest' : Resting s'
  here  : Y s
  here' : Y s'

section
variable {φ : Type} {p : Params} {Y Z : State → Prop} {E : Link} {s s' : State}

theorem Twin.withWorld (h : Twin s s') (r : Response) (e : Env) : Twin (withWorld r e s) (withWorld r e s') :=
  { h with rsp := rfl, env := rfl }

theorem Twin.record (h : Twin s s') (e : Event) : Twin (record e s) (record e s') :=
  { h with env := by unfold Machine.record; rw [h.env] }

theorem Twin.setSession (h : Twin s s') (x : SessionState) : Twin (setSession x s) (setSession x s') :=
  { h with ss := rfl, env := (h.record (.session x)).env }

theorem Twin.setOwned (h : Twin s s') (b : Bool) : Twin (setOwned b s) (setOwned b s') := { h with owned := rfl }

theorem Twin.clearCalValid (h : Twin s s') : Twin (clearCalValid s) (clearCalValid s') :=
  { h with calValid := rfl, cal := by simp }

/-- An update of both states that keeps twins and leaves them at rest. -/
theorem Pair.map {g : State → State} (h : Pair Y s s') (hT : Twin s s' → Twin (g s) (g s'))
    (hY : ∀ s, Y s → Z (g s)) (hR : ∀ s, Resting s → Resting (g s) := by exact fun _ h => h) : Pair Z (g s) (g s') :=
  ⟨hT h.twin, hR _ h.rest, hR _ h.rest', hY _ h.here, hY _ h.here'⟩

theorem Pair.mono (h : Pair Y s s') (hY : ∀ s, Y s → Z s) : Pair Z s s' :=
  ⟨h.twin, h.rest, h.rest', hY _ h.here, hY _ h.here'⟩

theorem steady_pair (hY : ∀ s r e, Y s → Y (withWorld r e s)) : Steady (Pair Y) where
  busy h := h.twin.busy
  rsp h := h.twin.rsp
  env h := h.twin.env
  world {s s'} r e he h := by
    obtain ⟨htwin, ⟨ht, hc, ha, hu⟩, ⟨ht', hc', -, hu'⟩, hY1, hY2⟩ := h
    exact ⟨htwin.withWorld r e, ⟨ht, hc, he.trans ha, hu⟩, ⟨ht', hc', he.trans ha, hu'⟩, hY _ r e hY1, hY _ r e hY2⟩

theorem sequenced_pair (hY : ∀ s r e, Y s → Y (withWorld r e s))
    (hq : ∀ (s : State) (x : SeqState), Y s → Y { s with seq := x }) : Sequenced (Pair Y) where
  toSteady := steady_pair hY
  timer h := ⟨h.rest.1, h.rest'.1⟩
  seq x h := h.map (g := fun s => { s with seq := x }) (fun h => { h with }) fun s => hq s x

/-- How many result bytes a conversion has (spec/10_state.md R19). -/
def Kind.bytes : Kind → Nat
  | .temperature => 2
  | .pressure => 3

/-- In an acquisition of the kind `k` that has `n` of its result bytes. -/
structure Captured (R : Link) (k : Kind) (n : Nat) (s s' : State) : Prop where
  rel   : R s s'
  kind  : s.kind = k
  kind' : s'.kind = k
  oss   : k = .pressure → s'.oss = s.oss
  byte0 : 0 < n → s'.rbuf0 = s.rbuf0
  byte1 : 1 < n → s'.rbuf1 = s.rbuf1
  byte2 : 2 < n → s'.rbuf2 = s.rbuf2

theorem Sequenced.captured {R : Link} (hR : Sequenced R) (k : Kind) (n : Nat) : Sequenced (Captured R k n) where
  busy h := hR.busy h.rel
  rsp h := hR.rsp h.rel
  env h := hR.env h.rel
  world r e he h := { h with rel := hR.world r e he h.rel }
  timer h := hR.timer h.rel
  seq x h := { h with rel := hR.seq x h.rel }

/-- In a read, with the coefficients valid; `fresh` says that its temperature count is there. -/
def Reading (fresh : Bool) (s : State) : Prop :=
  s.ss = .configured ∧ s.owned = true ∧ s.calValid = true ∧ (fresh = true → s.utValid = true)

theorem Reading.utValid {s : State} (h : Reading true s) : s.utValid = true := by
  obtain ⟨-, -, -, hu⟩ := h
  exact hu rfl

theorem reading_sequenced (fresh : Bool) : Sequenced (Pair (Reading fresh)) :=
  sequenced_pair (fun _ _ _ h => h) fun _ _ h => h

/-- The result bytes, captured alike. -/
theorem agrees_captureResult (fresh : Bool) (k : Kind) :
    Agrees (Captured (Pair (Reading fresh)) k 0) (fun _ => Captured (Pair (Reading fresh)) k k.bytes)
      (Pair (Reading fresh)) (captureResult p : Op φ Unit) := by
  have hR := fun n => (reading_sequenced fresh).captured k n
  have read : ∀ n j, Agrees (Captured (Pair (Reading fresh)) k n) (fun _ => Captured (Pair (Reading fresh)) k n)
      (Pair (Reading fresh)) (readRegister p (resultAddr p j) : Op φ Byte) := fun n j =>
    (agrees_readRegister (hR n).toSteady _).postRaise fun _ _ h => h.rel
  refine agrees_bind (agrees_update fun _ _ => (hR 0).setSequencer _) fun _ => agrees_bind (read 0 0) fun m => ?_
  refine agrees_bind (agrees_update (R := Captured (Pair (Reading fresh)) k 1) fun s s' h =>
    { h with rel := h.rel.map (fun h => { h with }) fun _ h => h, byte0 := fun _ => rfl, byte1 := by simp,
             byte2 := by simp }) fun _ =>
    agrees_bind (read 1 1) fun l => ?_
  refine agrees_bind (agrees_update (R := Captured (Pair (Reading fresh)) k 2) fun s s' h =>
    { h with rel := h.rel.map (fun h => { h with }) fun _ h => h, byte0 := fun _ => h.byte0 (by simp),
             byte1 := fun _ => rfl, byte2 := by simp }) fun _ => ?_
  refine agrees_bind (agrees_read fun _ _ h => h.kind'.trans h.kind.symm) fun kind s s' ⟨h, hk⟩ => ?_
  obtain rfl : kind = k := hk.trans h.kind
  cases kind with
  | temperature => exact .ok h
  | pressure =>
    exact agrees_bind (read 2 2) (fun x => agrees_update fun s s' h =>
      { h with rel := h.rel.map (fun h => { h with }) fun _ h => h, byte0 := fun _ => h.byte0 (by simp),
               byte1 := fun _ => h.byte1 (by simp), byte2 := fun _ => rfl }) s s' h

/-- What an acquisition does between the choice of its kind and its end. -/
theorem agrees_issueAndCapture (fresh : Bool) (k : Kind) (cmd : Byte) (us : Nat) :
    Agrees (Captured (Pair (Reading fresh)) k 0) (fun _ => Captured (Pair (Reading fresh)) k k.bytes)
      (AtIdle (Pair (Reading fresh)))
      ((do issue p cmd us; captureResult p : Op φ Unit).onRaise (setSequencer .idle)) := by
  refine Agrees.onRaise (agrees_bind ?_ fun _ => agrees_captureResult fresh k) fun _ _ =>
    (reading_sequenced fresh).toIdle
  exact (agrees_issue ((reading_sequenced fresh).captured k 0) cmd us).postRaise fun _ _ h => h.rel

theorem agrees_acquireRawTemperature (fresh : Bool) :
    Agrees (AtIdle (Pair (Reading fresh))) (fun _ => AtIdle (Pair (Reading true))) (AtIdle (Pair (Reading fresh)))
      (acquireRawTemperature p : Op φ Half) := by
  refine agrees_bind agrees_requireSequencerIdle fun _ => ?_
  refine agrees_bind (agrees_update (R := Captured (Pair (Reading fresh)) .temperature 0) fun s s' h =>
    ⟨h.1.map (fun h => { h with }) fun _ h => h, rfl, rfl, by simp, by simp, by simp, by simp⟩) fun _ => ?_
  refine agrees_bind (agrees_issueAndCapture fresh .temperature _ _) fun _ => ?_
  refine agrees_bind (agrees_update (R := AtIdle (Pair (Reading true))) fun s s' h => ?_) fun _ => ?_
  · rw [h.byte0 (by simp [Kind.bytes]), h.byte1 (by simp [Kind.bytes])]
    refine (reading_sequenced true).toIdle (h.rel.map (g := putUT _) ?_ ?_)
    · exact fun h => { h with utValid := rfl, ut := fun _ => rfl }
    · exact fun s ⟨hss, ho, hc, _⟩ => ⟨hss, ho, hc, fun _ => rfl⟩
  · exact (agrees_read fun _ _ h => h.1.twin.ut h.1.here.utValid).post fun _ _ _ h => h.1

/-- A pressure count fits 19 bits (spec/10_state.md R21). -/
theorem assembleUP_lt (o : Level) (m l x : Byte) : (assembleUP o m l x).toNat < 2 ^ 19 := by
  rw [assembleUP_toNat, Nat.div_lt_iff_lt_mul (by positivity)]
  have ho := o.isLt
  have h5 : 2 ^ 5 ≤ 2 ^ (8 - o.toNat) := Nat.pow_le_pow_right (by omega) (by omega)
  have hm := m.isLt
  have hl := l.isLt
  have hx := x.isLt
  omega

/-- In a read with both counts fresh. -/
def Measured (s : State) : Prop := Reading true s ∧ s.upValid = true

theorem measured_sequenced : Sequenced (Pair Measured) := sequenced_pair (fun _ _ _ h => h) fun _ _ h => h

theorem agrees_acquireRawPressure (o : Level) :
    Agrees (AtIdle (Pair (Reading true))) (fun _ => AtIdle (Pair Measured)) (AtIdle (Pair (Reading true)))
      (acquireRawPressure p o : Op φ Count20) := by
  refine agrees_bind agrees_requireSequencerIdle fun _ => ?_
  refine agrees_bind (agrees_update (R := Captured (Pair (Reading true)) .pressure 0) fun s s' h =>
    ⟨h.1.map (fun h => { h with up := fun hv => ⟨(h.up hv).1, rfl⟩ }) fun _ h => h, rfl, rfl, fun _ => rfl, by simp,
      by simp, by simp⟩) fun _ => ?_
  refine agrees_bind (agrees_issueAndCapture true .pressure _ _) fun _ => ?_
  refine agrees_bind (agrees_update (R := AtIdle (Pair Measured)) fun s s' h => ?_) fun _ => ?_
  · have ho := h.oss rfl
    rw [h.byte0 (by simp [Kind.bytes]), h.byte1 (by simp [Kind.bytes]), h.byte2 (by simp [Kind.bytes]), ho]
    refine measured_sequenced.toIdle (h.rel.map (g := putUP _) ?_ ?_ ?_)
    · exact fun h => { h with upValid := rfl, up := fun _ => ⟨rfl, ho⟩ }
    · exact fun s h => ⟨h, rfl⟩
    · exact fun s ⟨ht, hc, ha, _⟩ => ⟨ht, hc, ha, assembleUP_lt _ _ _ _⟩
  · exact (agrees_read fun _ _ h => (h.1.twin.up h.1.here.2).1).post fun _ _ _ h => h.1

/-- The engine, started with both counts fresh: it computes the compensation of them and of the coefficients, and nothing
else of the two states (spec/43_compensation.md R124, R144). -/
theorem agrees_engineRun (hd : p.divMode = .trunc) :
    Agrees (AtIdle (Pair Measured))
      (fun _ s s' => AtIdle (Pair (Reading false)) s s' ∧ s'.stg.t = s.stg.t ∧ s'.stg.p = s.stg.p)
      (AtIdle (Pair (Reading false))) (engineRun p) := by
  intro s s' ⟨h, hq, hq'⟩
  obtain ⟨⟨hss, ho, hc, hu⟩, hv⟩ := h.here
  obtain ⟨⟨hss', ho', hc', hu'⟩, hv'⟩ := h.here'
  obtain ⟨hup, hoss⟩ := h.twin.up hv
  have hr := engineRun_runs hd hc (hu rfl) hv
  have hr' := engineRun_runs hd hc' (hu' rfl) hv'
  rw [h.twin.cal hc, h.twin.ut (hu rfl), hup, hoss] at hr'
  have link : ∀ g b g' b', AtIdle (Pair (Reading false)) (During s g b 0) (During s' g' b' 0) := by
    obtain ⟨htwin, ⟨ht, -, ha, hl⟩, ⟨ht', -, ha', hl'⟩, -, -⟩ := h
    exact fun g b g' b' => ⟨⟨{ htwin with }, ⟨ht, rfl, ha, hl⟩, ⟨ht', rfl, ha', hl'⟩, ⟨hss, ho, hc, by simp⟩,
      ⟨hss', ho', hc', by simp⟩⟩, hq, hq'⟩
  cases hcomp : compensate p s.cal s.ut.toNat s.up.toNat s.oss with
  | ok tp =>
    rw [hcomp] at hr hr'
    obtain ⟨g, hx, ht, hp⟩ := hr
    obtain ⟨g', hx', ht', hp'⟩ := hr'
    rw [hx, hx']
    exact .ok ⟨link _ _ _ _, ht'.trans ht.symm, hp'.trans hp.symm⟩
  | error k =>
    rw [hcomp] at hr hr'
    obtain ⟨g, b, hx⟩ := hr
    obtain ⟨g', b', hx'⟩ := hr'
    rw [hx, hx']
    exact .raise (link _ _ _ _)

end

end Sys2Proof.Machine
end

section
/-!
The host commands: each, run from two alike states, ends alike in alike states.
-/

namespace Sys2Proof.Machine

/-- No count and no `B5` is fresh (spec/10_state.md R29). -/
def NoneFresh (s : State) : Prop := s.utValid = false ∧ s.upValid = false ∧ s.b5Valid = false

/-- `SS`, `OWNED` and `CAL_VALID` agree (spec/10_state.md R13, R29), and nothing is fresh. -/
def Settled (s : State) : Prop :=
  (s.ss = .configured ↔ s.calValid = true) ∧ (s.ss = .closed ↔ s.owned = false) ∧ s.ss ≠ .shuttingDown ∧ NoneFresh s

/-- Settled, in the one state `configure` is permitted in (spec/44_session.md R152). -/
def SettledIdle (s : State) : Prop := Settled s ∧ s.ss = .idle

/-- In `configure`, with the coefficients loaded. -/
def Loaded (s : State) : Prop := s.ss = .idle ∧ s.owned = true ∧ s.calValid = true ∧ NoneFresh s

/-- The link that every command in flight starts and ends with: twins with the sequencer idle, at rest and settled. -/
abbrev InFlight : Link := AtIdle (Pair Settled)

/-- What is shown of the operation of every host command. -/
abbrev AgreesInFlight {φ α : Type} (x : Op φ α) : Prop := Agrees InFlight (fun _ => InFlight) InFlight x

theorem settled_sequenced : Sequenced (Pair Settled) := sequenced_pair (fun _ _ _ h => h) fun _ _ h => h

theorem loaded_sequenced : Sequenced (Pair Loaded) := sequenced_pair (fun _ _ _ h => h) fun _ _ h => h

theorem noneFresh_sequenced : Sequenced (Pair NoneFresh) := sequenced_pair (fun _ _ _ h => h) fun _ _ h => h

section
variable {φ α : Type} {p : Params} {Y Z : State → Prop} {E : Link} {x : Op φ α}

theorem AtIdle.mono {R R' : Link} {s s' : State} (h : AtIdle R s s') (hr : R s s' → R' s s') : AtIdle R' s s' :=
  ⟨hr h.1, h.2⟩

/-- A state check of a command: passed in both runs, or raised in both. -/
theorem agrees_check {c : State → Bool} (k : ErrKind) (hc : ∀ s s', Twin s s' → c s' = c s)
    (hZ : ∀ s, Settled s → c s = true → Z s) :
    Agrees InFlight (fun _ => AtIdle (Pair Z)) InFlight (Op.require c k : Op φ Unit) := by
  refine (agrees_require k fun s s' h => hc s s' h.1.twin).post fun _ t t' ⟨h, ht⟩ => ?_
  obtain ⟨⟨htwin, hr, hr', hY, hY'⟩, hq⟩ := h
  exact ⟨⟨htwin, hr, hr', hZ t hY ht, hZ t' hY' ((hc t t' htwin).trans ht)⟩, hq⟩

/-- A write of a command to both states. -/
theorem agrees_write {g : State → State} (hT : ∀ s s', Twin s s' → Twin (g s) (g s')) (hY : ∀ s, Y s → Z (g s))
    (hR : ∀ s, Resting s → Resting (g s) := by exact fun _ h => h)
    (hq : ∀ s, (g s).seq = s.seq := by exact fun _ => rfl) :
    Agrees (AtIdle (Pair Y)) (fun _ => AtIdle (Pair Z)) E (Op.update g : Op φ Unit) :=
  agrees_update fun s s' ⟨h, hs, hs'⟩ => ⟨h.map (hT s s') hY hR, (hq s).trans hs, (hq s').trans hs'⟩

theorem agrees_openSession : AgreesInFlight openSession := by
  refine agrees_bind (agrees_check (Z := fun s => Settled s ∧ s.owned = false) _ (fun s s' h => by rw [h.owned])
    fun s h ho => ⟨h, by simpa using ho⟩) fun _ => agrees_bind (agrees_write ?_ ?_) fun _ => agrees_pure _
  · exact fun s s' h => (h.setOwned true).setSession _
  · rintro s ⟨⟨hc, hl, -, hf⟩, ho⟩
    have hss : s.ss = .closed := hl.mpr ho
    have hv : s.calValid = false := by simpa [hss] using hc
    exact ⟨by simp [hv], by simp, by simp, hf⟩

theorem agrees_load : Agrees (AtIdle (Pair SettledIdle)) (fun _ => AtIdle (Pair Loaded))
    (AtIdle (Pair SettledIdle)) (load p : Op φ Unit) := by
  have hS := (steady_pair (Y := SettledIdle) fun _ _ _ h => h).atIdle
  refine agrees_bind ((agrees_readBlock hS _ _).surfaceAs _) fun blk => agrees_write ?_ ?_
  · exact fun s s' h => { h with calValid := rfl, cal := fun _ => rfl }
  · rintro s ⟨⟨-, hl, -, hf⟩, hss⟩
    exact ⟨hss, by simpa [hss] using hl, rfl, hf⟩

/-- What follows `load` in `configure`: an error takes `CAL_VALID` back (spec/44_session.md R152). -/
theorem agrees_configureWait (cmd : Byte) (us : Nat) :
    Agrees (AtIdle (Pair Loaded)) (fun _ => AtIdle (Pair Loaded)) InFlight
      ((issueAndWait p cmd us : Op φ Unit).onRaise clearCalValid) := by
  refine (agrees_issueAndWait loaded_sequenced cmd us).onRaise fun t t' ⟨h, hq⟩ => ⟨h.map ?_ ?_, hq⟩
  · exact Twin.clearCalValid
  · rintro s ⟨hss, ho, -, hf⟩
    exact ⟨by simp [hss], by simp [hss, ho], by simp [hss], hf⟩

theorem agrees_configure : AgreesInFlight (configure p) := by
  refine agrees_bind (agrees_check (Z := SettledIdle) _ (fun s s' h => by rw [h.ss])
    fun s h hss => ⟨h, by simpa using hss⟩) fun _ => ?_
  refine agrees_bind (agrees_load.postRaise fun _ _ h => h.mono (·.mono fun _ h => h.1))
    fun _ => agrees_bind (agrees_configureWait _ _) fun _ => agrees_bind (agrees_configureWait _ _) fun _ => ?_
  refine agrees_bind (agrees_write ?_ ?_) fun _ => agrees_pure _
  · exact fun s s' h => h.setSession _
  · rintro s ⟨-, ho, hc, hf⟩
    exact ⟨by simp [hc], by simp [ho], by simp, hf⟩

theorem agrees_resetSensor : AgreesInFlight (resetSensor p) := by
  have hS := (steady_pair (Y := fun s => Settled s ∧ s.ss ≠ .closed) fun _ _ _ h => h).atIdle
  refine agrees_bind (agrees_check (Z := fun s => Settled s ∧ s.ss ≠ .closed) _ (fun s s' h => by rw [h.ss])
    fun s h hss => ⟨h, by simpa using hss⟩) fun _ => ?_
  refine agrees_bind ((agrees_writeRegister hS _ _).postRaise fun _ _ h => h.mono (·.mono fun _ h => h.1)) fun _ =>
    agrees_bind (agrees_write ?_ ?_) fun _ => agrees_pure _
  · exact fun s s' h => h.clearCalValid.setSession _
  · rintro s ⟨⟨-, hl, -, hf⟩, hss⟩
    have ho : s.owned = true := by simpa [hss] using hl
    exact ⟨by simp, by simp [ho], by simp, hf⟩

theorem agrees_requireRawAccess : AgreesInFlight requireRawAccess :=
  agrees_check _ (fun s s' h => by rw [h.ss]) fun _ h _ => h

theorem agrees_readRegisterRaw (addr : Byte) : AgreesInFlight (readRegisterRaw p addr) :=
  agrees_bind agrees_requireRawAccess fun _ =>
    agrees_bind (agrees_readRegister settled_sequenced.atIdle _) fun _ => agrees_pure _

theorem agrees_writeRegisterRaw (addr v : Byte) : AgreesInFlight (writeRegisterRaw p addr v) :=
  agrees_bind agrees_requireRawAccess fun _ =>
    agrees_bind (agrees_writeRegister settled_sequenced.atIdle _ _) fun _ => agrees_pure _

/-- While `SS` is `ShuttingDown` only the flags of the counts are as before. -/
theorem agrees_writePowerDown :
    Agrees InFlight (fun _ => AtIdle (Pair NoneFresh)) E (writePowerDown p) := by
  refine agrees_bind (agrees_write (Z := NoneFresh) ?_ ?_) fun _ =>
    (agrees_writeRegister noneFresh_sequenced.atIdle _ _).outcome
  · exact fun s s' h => h.setSession _
  · exact fun s ⟨_, _, _, hf⟩ => hf

theorem agrees_endSession (e : Option ErrKind) :
    Agrees (AtIdle (Pair NoneFresh)) (fun _ => InFlight) InFlight (endSession e) := by
  refine agrees_bind (agrees_write (Z := Settled) ?_ ?_) fun _ => ?_
  · exact fun s s' h => (h.clearCalValid.setSession _).setOwned _
  · exact fun s hf => ⟨by simp, by simp, by simp, hf⟩
  · cases e with
    | none => exact agrees_pure _
    | some k => exact agrees_raise k

theorem agrees_shutdown : AgreesInFlight (shutdown p) :=
  agrees_bind (agrees_check _ (fun s s' h => by rw [h.ss]) fun _ h _ => h) fun _ =>
    agrees_bind agrees_writePowerDown agrees_endSession

theorem agrees_closeSession : AgreesInFlight (closeSession p) := by
  refine agrees_bind ((agrees_read fun s s' h => ?_).post fun _ _ _ h => h.1) fun live => ?_
  · unfold sessionLive
    rw [h.1.twin.ss]
  · cases live with
    | true => exact agrees_bind agrees_writePowerDown agrees_endSession
    | false =>
      refine agrees_bind (Q := fun _ => AtIdle (Pair NoneFresh)) ?_ agrees_endSession
      exact (agrees_pure none).post fun _ _ _ h => h.mono (·.mono fun s ⟨_, _, _, hf⟩ => hf)

theorem agrees_invalidCommand : AgreesInFlight invalidCommand := agrees_raise _

/-- The end of a read, however it went: nothing of it stays fresh (spec/44_session.md R154). -/
theorem clearReadFlags_link {fresh : Bool} {s s' : State} (h : AtIdle (Pair (Reading fresh)) s s') :
    InFlight (clearReadFlags s) (clearReadFlags s') := by
  refine ⟨h.1.map ?_ ?_, h.2⟩
  · exact fun h => { h with utValid := rfl, ut := by simp, upValid := rfl, up := by simp }
  · exact fun s ⟨hss, ho, hc, _⟩ => ⟨by simp [hss, hc], by simp [hss, ho], by simp [hss], rfl, rfl, rfl⟩

/-- What a read does between its state check and its end: at each point the first error ends it. -/
theorem agrees_measureAndCompensate (hd : p.divMode = .trunc) (o : Level) :
    Agrees (AtIdle (Pair (Reading false)))
      (fun _ s s' => AtIdle (Pair (Reading false)) s s' ∧ s'.stg.t = s.stg.t ∧ s'.stg.p = s.stg.p)
      (AtIdle (Pair (Reading false)))
      (do let _ ← acquireRawTemperature p
          let _ ← acquireRawPressure p o
          engineRun p : Op Fault Unit) := by
  refine agrees_bind (agrees_acquireRawTemperature false) fun _ => agrees_bind ?_ fun _ => agrees_engineRun hd
  exact (agrees_acquireRawPressure o).postRaise fun _ _ h =>
    h.mono (·.mono fun s ⟨hss, ho, hc, _⟩ => ⟨hss, ho, hc, by simp⟩)

theorem agrees_readCompensated (hd : p.divMode = .trunc) : AgreesInFlight (readCompensated p) := by
  refine agrees_bind (agrees_check (Z := Reading false) _ (fun s s' h => by rw [h.ss]) fun s ⟨hc, hl, _⟩ hss => ?_)
    fun _ => agrees_bind ((agrees_measureAndCompensate hd _).always
      (Q' := fun _ s s' => InFlight s s' ∧ s'.stg.t = s.stg.t ∧ s'.stg.p = s.stg.p)
      (fun _ t t' h => ⟨clearReadFlags_link h.1, h.2⟩) fun t t' => clearReadFlags_link) fun _ => ?_
  · have hss : s.ss = .configured := by simpa using hss
    exact ⟨hss, by simpa [hss] using hl, hc.mp hss, by simp⟩
  · refine (agrees_read fun s s' ⟨_, ht, hp⟩ => ?_).post fun _ _ _ h => h.1.1
    rw [ht, hp]

end

end Sys2Proof.Machine
end

section
/-!
Steps between commands. A host command run from two states that differ only in stale registers gives alike next states (O60);
from one state twice, this says that it keeps the invariant (O12) and does not stop (O13).
-/

namespace Sys2Proof.Machine

/-- Two states between commands that differ at will in the registers without a value after reset (spec/10_state.md R33). -/
structure Alike (s s' : State) : Prop where
  inv  : Inv s
  inv' : Inv s'
  ss   : s'.ss = s.ss
  cal  : s.calValid = true → s'.cal = s.cal
  env  : s'.env = s.env
  rsp  : s'.rsp = s.rsp

section
variable {p : Params} {s s' : State}

theorem Alike.refl (h : Inv s) : Alike s s := ⟨h, h, rfl, fun _ => rfl, rfl, rfl⟩

theorem Inv.resting (h : Inv s) : Resting s := ⟨h.timerZero, h.engineIdle, h.nothingAsked, h.upRange⟩

theorem Inv.settled (h : Inv s) : Settled s :=
  ⟨h.configured, h.closed, h.notShutting, h.noUT, h.noUP, h.noB5⟩

/-- `Inv` is what a command in flight rests in, with `BUSY` = 0. -/
theorem inv_of_settled (hb : s.busy = false) (hq : s.seq = .idle) (hr : Resting s) (hs : Settled s) : Inv s := by
  obtain ⟨htimer, hcstep, htodo, hup⟩ := hr
  obtain ⟨hconf, hclosed, hshut, hut, hupv, hb5⟩ := hs
  exact ⟨hb, hconf, hclosed, hshut, hq, hcstep, htimer, hut, hupv, hb5, hup, htodo⟩

theorem Alike.twin (h : Alike s s') : Twin s s' where
  ss := h.ss
  owned := by
    have h1 := h.inv.closed
    have h2 := h.inv'.closed
    rw [h.ss, h1] at h2
    revert h2
    cases s.owned <;> cases s'.owned <;> simp
  busy := h.inv'.notBusy.trans h.inv.notBusy.symm
  calValid := by
    have h1 := h.inv.configured
    have h2 := h.inv'.configured
    rw [h.ss, h1] at h2
    exact Bool.eq_iff_iff.mpr h2.symm
  cal := h.cal
  utValid := h.inv'.noUT.trans h.inv.noUT.symm
  ut := by simp [h.inv.noUT]
  upValid := h.inv'.noUP.trans h.inv.noUP.symm
  up := by simp [h.inv.noUP]
  rsp := h.rsp
  env := h.env

/-- A command is accepted. -/
theorem Alike.inFlight (h : Alike s s') : InFlight (setBusy true s) (setBusy true s') :=
  ⟨⟨{ h.twin with busy := rfl }, h.inv.resting, h.inv'.resting, h.inv.settled, h.inv'.settled⟩, h.inv.seqIdle,
    h.inv'.seqIdle⟩

/-- A command responds. -/
theorem InFlight.responded (h : InFlight s s') (r : Response) :
    Alike (setBusy false (respond r s)) (setBusy false (respond r s')) := by
  obtain ⟨⟨htwin, hr, hr', hs, hs'⟩, hq, hq'⟩ := settled_sequenced.atIdle.respond r h
  exact ⟨inv_of_settled rfl hq hr hs, inv_of_settled rfl hq' hr' hs', htwin.ss, htwin.cal, htwin.env, htwin.rsp⟩

theorem agrees_accepted {φ : Type} {E : Link} {body : Op φ Payload}
    (h : AgreesInFlight body) : Agrees Alike (fun _ => Alike) E (accepted p body) :=
  agrees_bind (agrees_update fun _ _ h => h.inFlight) fun _ => agrees_bind (agrees_settle h) fun r =>
    agrees_bind (agrees_moment settled_sequenced.atIdle) fun _ => agrees_update fun _ _ h => h.responded r

/-- Two steps that both give a next state, and alike ones. -/
def NextAlike (o o' : Outcome) : Prop := ∃ t t', o = .next t ∧ o' = .next t' ∧ Alike t t'

/-- An accepted command never raises and never faults, so both runs of it give a next state, alike ones. -/
theorem accepted_nextAlike {φ : Type} {body : Op φ Payload} {leave : EStateM.Result (Stop φ) State Unit → Outcome}
    (hok : ∀ t, leave (.ok () t) = .next t) (hdrop : ∀ t, leave (.error .dropped t) = .next t)
    (hb : AgreesInFlight body) (h : Alike s s') :
    NextAlike (leave (accepted p body s)) (leave (accepted p body s')) := by
  have ha := agrees_accepted (p := p) (E := fun _ _ => False) hb s s' h
  generalize accepted p body s = r, accepted p body s' = r' at ha
  cases ha with
  | ok h => exact ⟨_, _, hok _, hok _, h⟩
  | raise h => exact h.elim
  | dropped h => exact ⟨_, _, hdrop _, hdrop _, .refl h⟩

theorem runCommand_alike {i : Instr} {body : Op Empty Payload} (hb : AgreesInFlight body) (h : Alike s s') :
    NextAlike (runCommand p i body s) (runCommand p i body s') := by
  simp only [runCommand, h.inv.notBusy, h.inv'.notBusy, Bool.false_eq_true, if_false]
  exact accepted_nextAlike (leave := fun r => .next (endState r)) (fun _ => rfl) (fun _ => rfl) hb h

theorem runEngineCommand_alike {i : Instr} {body : Op Fault Payload} (hb : AgreesInFlight body) (h : Alike s s') :
    NextAlike (runEngineCommand p i body s) (runEngineCommand p i body s') := by
  simp only [runEngineCommand, h.inv.notBusy, h.inv'.notBusy, Bool.false_eq_true, if_false]
  exact accepted_nextAlike (leave := endOutcome) (fun _ => rfl) (fun _ => rfl) hb h

/-- Every host command, from two alike states, gives two alike next states. -/
theorem exec_alike {i : Instr} (hi : isCommand i = true) (h : Alike s s') : NextAlike (exec i s) (exec i s') := by
  cases i
  case configure => exact runCommand_alike agrees_configure h
  case shutdown => exact runCommand_alike agrees_shutdown h
  case reset => exact runCommand_alike agrees_resetSensor h
  case readRegisterRaw => exact runCommand_alike (agrees_readRegisterRaw _) h
  case writeRegisterRaw => exact runCommand_alike (agrees_writeRegisterRaw _ _) h
  case readCompensated => exact runEngineCommand_alike (agrees_readCompensated rfl) h
  case openSession => exact runCommand_alike agrees_openSession h
  case closeSession => exact runCommand_alike agrees_closeSession h
  case invalid => exact runCommand_alike agrees_invalidCommand h
  all_goals cases hi

end

/-- Settles O60: the two states are alike, and a host command keeps such a pair alike. Every register that a command reads is
either the same in both or first written by the command itself; the engine's result is `compensate` of the counts, the level
and the coefficients. -/
theorem staleRegistersAreNeverRead : Obligations.StaleRegistersAreNeverRead := by
  intro i s s' hi hs hs' hss hcal henv hrsp
  obtain ⟨t, t', ht, ht', h⟩ := exec_alike hi ⟨hs, hs', hss, hcal, henv, hrsp⟩
  exact ⟨t, t', ht, ht', h.inv, h.inv', h.ss, h.cal, h.env, h.rsp⟩

section
variable {p : Params} {s : State}

/-- A host command gives a next state and keeps the invariant: it is run beside itself. -/
theorem exec_inv {i : Instr} (hi : isCommand i = true) (h : Inv s) : ∃ t, exec i s = .next t ∧ Inv t := by
  obtain ⟨t, _, ht, _, ha⟩ := exec_alike hi (.refl h)
  exact ⟨t, ht, ha.inv⟩

theorem decodeWord_isCommand (cw : CmdWord) : isCommand (decodeWord cw) = true := by
  unfold decodeWord decodeCommand
  split <;> rfl

theorem Inv.withWorld (h : Inv s) (r : Response) (e : Env) (he : e.todo = []) : Inv (withWorld r e s) :=
  inv_of_settled h.notBusy h.seqIdle ⟨h.timerZero, h.engineIdle, he, h.upRange⟩ h.settled

theorem idle_inv (h : Inv s) : Inv (idle p s) := by
  unfold idle
  split
  · exact h.withWorld _ _ h.nothingAsked
  · exact h.withWorld _ _ h.nothingAsked
  · rw [present_free (s := dropAct s) h.notBusy]
    exact h.withWorld _ _ h.nothingAsked
  · exact h.withWorld _ _ h.nothingAsked
  · exact hardwareReset_inv _

/-- With nothing asked for and the engine at rest a step is a host command or an idle one. -/
theorem step_inv (h : Inv s) : ∃ t, step s = .next t ∧ Inv t := by
  unfold step
  rcases fetch_cases s with ⟨e, rest, ht, -⟩ | ⟨-, hc, -⟩ | ⟨-, -, -, cw, port, hf | hf⟩ | ⟨-, -, hf⟩
  · rw [h.nothingAsked] at ht
    cases ht
  · exact absurd h.engineIdle hc
  · rw [hf]
    exact exec_inv (decodeWord_isCommand cw) (h.withWorld _ _ h.nothingAsked)
  · rw [hf]
    exact exec_inv (decodeWord_isCommand cw) (h.withWorld _ _ h.nothingAsked)
  · rw [hf]
    exact ⟨_, rfl, idle_inv h⟩
end

/-- Settles O12: the one next state meets the invariant. -/
theorem everyStepKeepsTheInvariant : Obligations.EveryStepKeepsTheInvariant := by
  intro s t h ht
  obtain ⟨u, hu, hi⟩ := step_inv h
  rw [ht] at hu
  cases hu
  exact hi

/-- Settles O13: a host command and an idle step both give a next state. -/
theorem noStepFromTheInvariantStops : Obligations.NoStepFromTheInvariantStops := by
  intro s h
  obtain ⟨t, ht, -⟩ := step_inv h
  exact ⟨t, ht⟩

/-- Settles O11, by evaluating each clause. -/
theorem resetMeetsTheInvariant : Obligations.ResetMeetsTheInvariant := by
  unfold Obligations.ResetMeetsTheInvariant
  constructor <;> decide

/-- Settles O10, by evaluating each register. -/
theorem resetLeavesTheControlState : Obligations.ResetLeavesTheControlState :=
  ⟨rfl, rfl, rfl, rfl, rfl, rfl, rfl, rfl, rfl, rfl⟩

theorem step_of_fetch_internal {s s' : State} {e : Encoded} {i : Instr} (hf : fetch s = .internal e s')
    (hd : decode e = .ok i) : step s = exec i s' := by
  unfold step
  simp only [hf, hd]

theorem step_of_fetch_command {s s' : State} {cw : CmdWord} (hf : fetch s = .command cw s') :
    step s = exec (decodeWord cw) s' := by
  unfold step
  rw [hf]

/-- Settles O5, by what `fetch` finds in each of the three cases. -/
theorem stepRunsTheDecodedOperation : Obligations.StepRunsTheDecodedOperation :=
  ⟨fun _ _ _ _ ht hd => step_of_fetch_internal (fetch_todo ht) hd,
    fun _ _ ht hc hd => step_of_fetch_internal (fetch_engine ht hc) hd,
    fun _ _ ht hc hb hp => step_of_fetch_command (fetch_command ht hc hb (takeWord_one hp))⟩

end Sys2Proof.Machine
end

section
/-!
The writes of the block to the sensor outside the host commands: `writeRegister` and the control bytes are one exchange, which
succeeds or raises `TransportError` (spec/20_memory.md R44, spec/40_register_io.md R81).
-/

namespace Sys2Proof.Machine

section
variable {p : Params} {s : State} {addr v : Byte}

/-- An exchange and what it returned: one answer used up, no time, one entry of the trace. -/
theorem envStep_putRet_afterExchange (w : List Byte) (r : Nat) (x : OpResult) :
    EnvStep s (putRet x (afterExchange p w r s)) 1 0 [(s.env.now, .exchange p.devAddr w r (nextAnswer w r s))] where
  port   := rfl
  todo   := rfl
  sched  := rfl
  script := by simp
  fresh  := rfl
  now    := rfl
  log    := rfl

theorem exec_writeRegister_ok (hq : Quiet s) (h : acceptsWrite (nextAnswer [addr, v] 0 s)) :
    exec (.writeRegister addr v) s = .next (putRet .unit (afterExchange Config.params [addr, v] 0 s)) :=
  runInternal_ok (bind_ok (writeRegister_ok hq h))

theorem exec_writeRegister_fail (hq : Quiet s) (h : ¬ acceptsWrite (nextAnswer [addr, v] 0 s)) :
    exec (.writeRegister addr v) s =
      .next (putRet (.raised .transportError) (afterExchange Config.params [addr, v] 0 s)) :=
  runInternal_raise (bind_error (writeRegister_fail hq h))

theorem nextAnswer_of_answersTo {w : List Byte} {r : Nat} {a : Answer} (h : answersTo [(w, r)] s = [a]) :
    nextAnswer w r s = a :=
  (answersTo_cons.mp h).1

end

/-- Settles O18: the one exchange, and what `checkWrite` makes of its answer. -/
theorem writeRegisterSendsAddressThenValue : Obligations.WriteRegisterSendsAddressThenValue := by
  intro addr v s a hq ha
  obtain rfl := nextAnswer_of_answersTo ha
  exact ⟨fun h => ⟨_, exec_writeRegister_ok hq h, rfl, envStep_putRet_afterExchange _ _ _⟩,
    fun h => ⟨_, exec_writeRegister_fail hq h, rfl, envStep_putRet_afterExchange _ _ _⟩⟩

/-- An operation that is a write of `v` to the control register does what `writeRegister` does there. -/
theorem exec_controlWrite {i : Instr} {v : Byte} {s : State} {a : Answer}
    (hi : exec i s = exec (.writeRegister Config.params.ctrlReg v) s) (hq : Quiet s)
    (ha : answersTo [([Config.params.ctrlReg, v], 0)] s = [a]) :
    ∃ t, exec i s = .next t ∧ t = { s with ret := t.ret, env := t.env } ∧
      (acceptsWrite a → t.ret = .unit) ∧ (¬ acceptsWrite a → t.ret = .raised .transportError) ∧
      EnvStep s t 1 0 [(s.env.now, .exchange Config.params.devAddr [Config.params.ctrlReg, v] 0 a)] := by
  obtain rfl := nextAnswer_of_answersTo ha
  rw [hi]
  by_cases h : acceptsWrite (nextAnswer [Config.params.ctrlReg, v] 0 s)
  · exact ⟨_, exec_writeRegister_ok hq h, rfl, fun _ => rfl, absurd h, envStep_putRet_afterExchange _ _ _⟩
  · exact ⟨_, exec_writeRegister_fail hq h, rfl, fun h' => absurd h' h, fun _ => rfl,
      envStep_putRet_afterExchange _ _ _⟩

/-- Settles O21: both operations are `writeRegister` at the control register. -/
theorem otherControlBytesAreWritten : Obligations.OtherControlBytesAreWritten :=
  fun _ _ hq => ⟨exec_controlWrite rfl hq, fun _ => exec_controlWrite rfl hq⟩

end Sys2Proof.Machine
end

section
/-!
The exchanges of the host commands. That all of them are accesses of spec/20_memory.md R47 is a relation between the start of
an operation and every state it can end in; the operations from `exchange` up keep it, whatever happens outside.
-/

namespace Sys2Proof.Machine

theorem exchangesOf_append (new old : List (Nat × Event)) :
    exchangesOf (new ++ old) = exchangesOf new ++ exchangesOf old := by
  induction new with
  | nil => rfl
  | cons e l ih =>
    obtain ⟨time, event⟩ := e
    cases event with
    | exchange dev w r a => exact congrArg _ ih
    | response | session | sequencer | hardwareReset => exact ih

/-- From `s` to `t` the trace has grown, and every exchange in what it gained is an access, answered in its shape. -/
def OnlyAccesses (p : Params) (s t : State) : Prop :=
  ∃ new, t.env.log = new ++ s.env.log ∧
    ∀ x ∈ exchangesOf new, isAccess p x ∧ HasShape x.2.1 x.2.2.1 x.2.2.2

section
variable {p : Params} {s t u : State}

/-- Nothing is written to the trace. -/
theorem OnlyAccesses.of_log (h : t.env.log = s.env.log) : OnlyAccesses p s t := ⟨[], h, by simp [exchangesOf]⟩

/-- What is written to the trace is no exchange. -/
theorem OnlyAccesses.of_event {e : Nat × Event} (h : t.env.log = e :: s.env.log)
    (he : exchangesOf [e] = [] := by rfl) : OnlyAccesses p s t := ⟨[e], h, by simp [he]⟩

theorem OnlyAccesses.trans (h : OnlyAccesses p s t) (g : OnlyAccesses p t u) : OnlyAccesses p s u := by
  obtain ⟨old, ho, hold⟩ := h
  obtain ⟨new, hn, hnew⟩ := g
  refine ⟨new ++ old, by rw [hn, ho, List.append_assoc], fun x hx => ?_⟩
  rw [exchangesOf_append, List.mem_append] at hx
  exact hx.elim (hnew x) (hold x)

theorem Acted.onlyAccesses (h : Acted p s t) : OnlyAccesses p s t := by
  obtain ⟨refused, hl, -, -⟩ := h.log
  have hx := h.exchanges
  rw [hl, exchangesOf_append, List.append_left_eq_self] at hx
  exact ⟨refused, hl, by simp [hx]⟩

/-- An exchange of one of the three shapes goes to the one device and is answered in its shape. -/
theorem onlyAccesses_afterExchange {w : List Byte} {r : Nat} (h : ∀ a, isAccess p (p.devAddr, w, r, a)) (s : State) :
    OnlyAccesses p s (afterExchange p w r s) :=
  ⟨[_], rfl, List.forall_mem_singleton.mpr ⟨h _, nextAnswer_hasShape w r s⟩⟩

theorem isAccess_read (addr : Byte) (a : Answer) : isAccess p (p.devAddr, [addr], 1, a) := ⟨rfl, .inl ⟨addr, rfl, rfl⟩⟩

theorem isAccess_write (addr v : Byte) (a : Answer) : isAccess p (p.devAddr, [addr, v], 0, a) :=
  ⟨rfl, .inr (.inl ⟨addr, v, rfl, rfl⟩)⟩

theorem isAccess_block (hp : p.Ok) (a : Answer) : isAccess p (p.devAddr, [p.calBase], p.calLen, a) :=
  ⟨rfl, .inr (.inr ⟨rfl, hp.calLen⟩)⟩

theorem onlyAccesses_read (addr : Byte) (s : State) : OnlyAccesses p s (afterExchange p [addr] 1 s) :=
  onlyAccesses_afterExchange (isAccess_read addr) s

theorem onlyAccesses_write (addr v : Byte) (s : State) : OnlyAccesses p s (afterExchange p [addr, v] 0 s) :=
  onlyAccesses_afterExchange (isAccess_write addr v) s

theorem onlyAccesses_computes : Computes p (OnlyAccesses p) (OnlyAccesses p) where
  refl _        := .of_log rfl
  trans _ _ _   := .trans
  acted _ _     := Acted.onlyAccesses
  weaken _ _    := id
  after _ _ _   := .trans
  engine _ _ ht := .of_log (by rw [ht])
  cstep _ _     := .of_log rfl

theorem onlyAccesses_tolerates : Tolerates p (OnlyAccesses p) (OnlyAccesses p) := onlyAccesses_computes.toTolerates

/-- However the operation ends, its exchanges were accesses. -/
abbrev MakesAccesses {φ α : Type} (p : Params) (x : Op φ α) : Prop :=
  Keeps (fun _ => True) (OnlyAccesses p) (OnlyAccesses p) x

section
variable {φ : Type}

theorem makesAccesses_readRegister (addr : Byte) : MakesAccesses p (readRegister p addr : Op φ Byte) :=
  keeps_readRegister onlyAccesses_tolerates (onlyAccesses_read addr)

theorem makesAccesses_setSequencer (x : SeqState) : MakesAccesses p (Op.update (setSequencer x) : Op φ Unit) :=
  keeps_update fun _ _ => .of_event rfl

theorem makesAccesses_issue (cmd : Byte) (us : Nat) : MakesAccesses p (issue p cmd us : Op φ Unit) :=
  have T := onlyAccesses_tolerates
  keeps_seq T (makesAccesses_setSequencer _) fun _ =>
    keeps_seq T (keeps_writeRegister T (onlyAccesses_write _ cmd)) fun _ =>
      keeps_seq T (makesAccesses_setSequencer _) fun _ => keeps_wait T (fun _ _ => .of_log rfl) us

theorem makesAccesses_captureResult : MakesAccesses p (captureResult p : Op φ Unit) := by
  have T := onlyAccesses_tolerates (p := p)
  refine keeps_seq T (makesAccesses_setSequencer _) fun _ => ?_
  refine keeps_seq T (makesAccesses_readRegister _) fun m => keeps_seq T (keeps_update fun _ _ => .of_log rfl) fun _ => ?_
  refine keeps_seq T (makesAccesses_readRegister _) fun l => keeps_seq T (keeps_update fun _ _ => .of_log rfl) fun _ => ?_
  refine keeps_seq T (keeps_read T.refl _) fun kind => ?_
  cases kind with
  | temperature => exact keeps_pure T.refl ()
  | pressure => exact keeps_seq T (makesAccesses_readRegister _) fun x => keeps_update fun _ _ => .of_log rfl

/-- An error of the sequencer puts `SEQ` to `Idle`, which is no exchange. -/
theorem makesAccesses_onRaise {x : Op φ Unit} (h : MakesAccesses p x) :
    MakesAccesses p (x.onRaise (setSequencer .idle)) :=
  h.onRaise fun _ _ _ ht => ht.trans (.of_event rfl)

theorem makesAccesses_issueAndWait (cmd : Byte) (us : Nat) : MakesAccesses p (issueAndWait p cmd us : Op φ Unit) :=
  have T := onlyAccesses_tolerates
  keeps_seq T (keeps_require T.refl _ _) fun _ =>
    keeps_seq T (makesAccesses_onRaise (makesAccesses_issue cmd us)) fun _ => makesAccesses_setSequencer _

/-- What an acquisition does between the choice of its kind and its end. -/
theorem makesAccesses_issueAndCapture (cmd : Byte) (us : Nat) :
    MakesAccesses p ((do issue p cmd us; captureResult p : Op φ Unit).onRaise (setSequencer .idle)) :=
  makesAccesses_onRaise
    (keeps_seq onlyAccesses_tolerates (makesAccesses_issue cmd us) fun _ => makesAccesses_captureResult)

theorem makesAccesses_acquireRawTemperature : MakesAccesses p (acquireRawTemperature p : Op φ Half) :=
  have T := onlyAccesses_tolerates
  keeps_seq T (keeps_require T.refl _ _) fun _ => keeps_seq T (keeps_update fun _ _ => .of_log rfl) fun _ =>
    keeps_seq T (makesAccesses_issueAndCapture _ _) fun _ =>
      keeps_seq T (keeps_update fun _ _ => .of_event rfl) fun _ => keeps_read T.refl _

theorem makesAccesses_acquireRawPressure (o : Level) : MakesAccesses p (acquireRawPressure p o : Op φ Count20) :=
  have T := onlyAccesses_tolerates
  keeps_seq T (keeps_require T.refl _ _) fun _ => keeps_seq T (keeps_update fun _ _ => .of_log rfl) fun _ =>
    keeps_seq T (makesAccesses_issueAndCapture _ _) fun _ =>
      keeps_seq T (keeps_update fun _ _ => .of_event rfl) fun _ => keeps_read T.refl _

end

theorem makesAccesses_configure (hp : p.Ok) : MakesAccesses p (configure p) :=
  keeps_configure onlyAccesses_tolerates (onlyAccesses_afterExchange (isAccess_block hp)) makesAccesses_issueAndWait
    (fun _ _ => .of_log rfl) (fun _ => .of_log rfl) fun _ => .of_event rfl

theorem makesAccesses_shutdown : MakesAccesses p (shutdown p) :=
  keeps_shutdown onlyAccesses_tolerates (onlyAccesses_write _) (fun _ => .of_event rfl) fun _ => .of_event rfl

theorem makesAccesses_closeSession : MakesAccesses p (closeSession p) :=
  keeps_closeSession onlyAccesses_tolerates (onlyAccesses_write _) (fun _ => .of_event rfl) fun _ => .of_event rfl

theorem makesAccesses_readCompensated : MakesAccesses p (readCompensated p) :=
  keeps_readCompensated onlyAccesses_tolerates makesAccesses_acquireRawTemperature (makesAccesses_acquireRawPressure _)
    (keeps_engineRun onlyAccesses_computes) fun _ => .of_log rfl

/-- How an accepted command leaves the machine: it has responded, or hardware reset has dropped it. Neither is an exchange. -/
theorem onlyAccesses_of_accepted
    (h : (∃ r u, OnlyAccesses p (setBusy true s) u ∧ t = setBusy false (respond r u)) ∨
      ∃ u, OnlyAccesses p (setBusy true s) u ∧ u.env.sched.head? = some .hardwareReset ∧
        t = hardwareReset (dropAct u)) : OnlyAccesses p s t := by
  obtain ⟨r, u, hu, rfl⟩ | ⟨u, hu, -, rfl⟩ := h
  · exact hu.trans (.of_event rfl)
  · exact hu.trans (.of_event rfl)

theorem runCommand_onlyAccesses {i : Instr} {x : Op Empty Payload} (hx : MakesAccesses p x)
    (hn : runCommand p i x s = .next t) : OnlyAccesses p s t := by
  cases hb : s.busy with
  | true =>
    rw [runCommand_busy hb] at hn
    cases hn
    exact (present_acted _).onlyAccesses
  | false => exact onlyAccesses_of_accepted (runCommand_keeps onlyAccesses_tolerates hx trivial hb hn)

theorem runEngineCommand_onlyAccesses {i : Instr} {x : Op Fault Payload} (hx : MakesAccesses p x)
    (hn : runEngineCommand p i x s = .next t) : OnlyAccesses p s t := by
  cases hb : s.busy with
  | true =>
    rw [runEngineCommand_busy hb] at hn
    cases hn
    exact (present_acted _).onlyAccesses
  | false => exact onlyAccesses_of_accepted (runEngineCommand_keeps onlyAccesses_tolerates hx trivial hb hn)

/-- Every exchange of a host command is an access, hardware reset or not. -/
theorem exec_onlyAccesses {i : Instr} (hi : isCommand i = true) (hn : exec i s = .next t) :
    OnlyAccesses Config.params s t := by
  have T := onlyAccesses_tolerates (p := Config.params)
  cases i
  case configure => exact runCommand_onlyAccesses (makesAccesses_configure Config.params_ok) hn
  case shutdown => exact runCommand_onlyAccesses makesAccesses_shutdown hn
  case reset => exact runCommand_onlyAccesses (keeps_resetSensor T (onlyAccesses_write _) fun _ => .of_event rfl) hn
  case readRegisterRaw => exact runCommand_onlyAccesses (keeps_readRegisterRaw T (onlyAccesses_read _)) hn
  case writeRegisterRaw => exact runCommand_onlyAccesses (keeps_writeRegisterRaw T (onlyAccesses_write _ _)) hn
  case readCompensated => exact runEngineCommand_onlyAccesses makesAccesses_readCompensated hn
  case openSession => exact runCommand_onlyAccesses (keeps_openSession T fun _ => .of_event rfl) hn
  case closeSession => exact runCommand_onlyAccesses makesAccesses_closeSession hn
  case invalid => exact runCommand_onlyAccesses (keeps_invalidCommand T.refl) hn
  all_goals cases hi

end

/-- Settles O58: every operation of a host command keeps the relation `OnlyAccesses`, since each exchange in it is made by
`readRegister`, `writeRegister` or `load`. -/
theorem commandsUseThreeAccessShapes : Obligations.CommandsUseThreeAccessShapes :=
  fun _ _ _ hi _ hn => exec_onlyAccesses hi hn

end Sys2Proof.Machine
end

section
/-!
The encodings: for each space that the decoder tells operations apart in, what it makes of the bits of each of them
(spec/30_encoding.md R60, R61, R66, R70; spec/opcode_table.json).
-/

namespace Sys2Proof

/-! ### Command words -/

theorem commandCode_cases {op : Byte} :
    isCommandCode op = true → op = 1 ∨ op = 2 ∨ op = 3 ∨ op = 4 ∨ op = 5 ∨ op = 6 ∨ op = 7 ∨ op = 8 := by
  revert op
  decide

/-- Every code but the eight is an invalid command (spec/30_encoding.md R70). -/
theorem decodeCommand_of_not_code {op : Byte} (h : isCommandCode op = false) (addr value : Byte) :
    decodeCommand op addr value = .invalid op (be16 addr value) := by
  unfold decodeCommand
  split
  case h_9 => rfl
  all_goals rename_i hop; simp [isCommandCode, hop] at h

theorem decode_encodeCommand (op : Byte) (u : Half) :
    decode (encodeCommand op u) = .ok (decodeCommand op (hiByte u) (loByte u)) := rfl

/-- A command that keeps its two operand bytes as one field. -/
theorem decode_encodeCommand_of {op : Byte} {f : Half → Instr}
    (h : ∀ addr value, decodeCommand op addr value = f (be16 addr value)) (u : Half) :
    decode (encodeCommand op u) = .ok (f u) := by
  rw [decode_encodeCommand, h, be16_hiByte_loByte]

theorem encode_decodeCommand (op addr value : Byte) :
    encode (decodeCommand op addr value) = ⟨.cw24, [op, addr, value]⟩ := by
  cases h : isCommandCode op with
  | true =>
    obtain rfl | rfl | rfl | rfl | rfl | rfl | rfl | rfl := commandCode_cases h <;>
      simp [decodeCommand, encode, encodeCommand]
  | false => simp [decodeCommand_of_not_code h, encode, encodeCommand]

theorem decodeCommand_wellFormed (op addr value : Byte) : (decodeCommand op addr value).wellFormed = true := by
  cases h : isCommandCode op with
  | true => obtain rfl | rfl | rfl | rfl | rfl | rfl | rfl | rfl := commandCode_cases h <;> rfl
  | false => simp [decodeCommand_of_not_code h, Instr.wellFormed, h]

theorem decodeCommand_invalid_iff (op addr value : Byte) :
    (∃ op' u, decodeCommand op addr value = .invalid op' u) ↔ isCommandCode op = false := by
  refine ⟨fun ⟨op', u, hd⟩ => ?_, fun h => ⟨_, _, decodeCommand_of_not_code h addr value⟩⟩
  cases h : isCommandCode op with
  | true => obtain rfl | rfl | rfl | rfl | rfl | rfl | rfl | rfl := commandCode_cases h <;> cases hd
  | false => rfl

/-- A command word is its three bytes (spec/30_encoding.md R60). -/
theorem be24_extract (cw : CmdWord) :
    be24 (cw.extractLsb' 16 8) (cw.extractLsb' 8 8) (cw.extractLsb' 0 8) = cw := by
  apply BitVec.eq_of_toNat_eq
  have := cw.isLt
  simp only [be24_toNat, BitVec.extractLsb'_toNat, Nat.shiftRight_eq_div_pow]
  omega

/-! ### Control bytes and selectors -/

theorem pressLevel_cmdPress {p : Params} (hp : p.Ok) (oss : Level) : p.pressLevel (p.cmdPress oss) = some oss := by
  have hinj : ∀ o, p.cmdPress oss = p.cmdPress o ↔ oss = o := fun o => ⟨hp.pressInj _ _, fun h => h ▸ rfl⟩
  simp only [Params.pressLevel, hinj]
  clear hinj
  revert oss
  decide

theorem decodeControl_cmdPress {p : Params} (hp : p.Ok) (oss : Level) :
    decodeControl p (p.cmdPress oss) = .cmdPress oss := by
  simp [decodeControl, (hp.tempNePress oss).symm, pressLevel_cmdPress hp]

theorem decodeControl_of_not_named {p : Params} {v : Byte} (h : p.isNamedControl v = false) :
    decodeControl p v = .powerDownValue v := by
  simp only [Params.isNamedControl, Bool.or_eq_false_iff, decide_eq_false_iff_not] at h
  obtain ⟨⟨⟨⟨⟨ht, h0⟩, h1⟩, h2⟩, h3⟩, hr⟩ := h
  rw [decodeControl, if_neg ht, Params.pressLevel, if_neg h0, if_neg h1, if_neg h2, if_neg h3]
  exact if_neg hr

theorem decodeSelector_temperature (ignored : Level) :
    decodeSelector (ignored.setWidth 8) = .ok (.acquireRawTemperature ignored) := by
  revert ignored
  decide

theorem decodeSelector_pressure (oss : Level) :
    decodeSelector (4 + oss.setWidth 8) = .ok (.acquireRawPressure oss) := by
  revert oss
  decide

/-- Settles O1, by the operation's space: the commands that keep their operand bytes as one field, the bytes that the decoder
tells apart by comparing them, and the rest, whose operands are the bytes themselves. -/
theorem wellFormedOperationsRoundTrip : Obligations.WellFormedOperationsRoundTrip := by
  intro i hi
  cases i with
  | configure u => exact decode_encodeCommand_of (fun _ _ => rfl) u
  | shutdown u => exact decode_encodeCommand_of (fun _ _ => rfl) u
  | reset u => exact decode_encodeCommand_of (fun _ _ => rfl) u
  | readCompensated u => exact decode_encodeCommand_of (fun _ _ => rfl) u
  | openSession u => exact decode_encodeCommand_of (fun _ _ => rfl) u
  | closeSession u => exact decode_encodeCommand_of (fun _ _ => rfl) u
  | invalid op u => exact decode_encodeCommand_of (decodeCommand_of_not_code (by simpa [Instr.wellFormed] using hi)) u
  | cmdPress oss => exact congrArg _ (decodeControl_cmdPress Config.params_ok oss)
  | powerDownValue v => exact congrArg _ (decodeControl_of_not_named (by simpa [Instr.wellFormed] using hi))
  | rdn addr n => exact if_pos hi
  | readBlock addr n => exact if_pos hi
  | acquireRawTemperature ignored => exact decodeSelector_temperature ignored
  | acquireRawPressure oss => exact decodeSelector_pressure oss
  | issueAndWait cmd us => simp [encode, decode]
  | wait us => simp [encode, decode]
  | _ => rfl

/-- Settles O2: the word is its three bytes, `OP` alone chooses the command, and `encode` gives the three bytes back. -/
theorem everyWordIsOneCommand : Obligations.EveryWordIsOneCommand := by
  intro cw
  refine ⟨Machine.decodeWord_isCommand cw, decodeCommand_wellFormed _ _ _, ?_, ?_⟩
  · rw [decodeWord, encode_decodeCommand]
    exact be24_extract cw
  · rw [decodeWord, decodeCommand_invalid_iff]
    simp [isCommandCode]

/-- Settles O3: `decodeWord` and `decode` evaluated at each of the words. -/
theorem specWordsDecode : Obligations.SpecWordsDecode := by
  unfold Obligations.SpecWordsDecode
  decide

end Sys2Proof
end

section
/-!
A step is refused only where there is nothing to run: no operation refuses, and a value of `CSTEP` decodes exactly from 1 to 18
(spec/10_state.md R25, spec/43_compensation.md R124).
-/

namespace Sys2Proof.Machine

section
variable {s : State} {r : Refusal} {p : Params} {i : Instr}

theorem runInternal_ne_refused (x : Op Empty OpResult) : runInternal x s ≠ .refused r := nofun

theorem endOutcome_ne_refused (x : EStateM.Result (Stop Fault) State Unit) : endOutcome x ≠ .refused r := by
  obtain ⟨_, _⟩ | ⟨_ | _ | _, _⟩ := x <;> exact nofun

theorem runEngine_ne_refused (x : Op Fault OpResult) : runEngine x s ≠ .refused r := endOutcome_ne_refused _

theorem runCommand_ne_refused (x : Op Empty Payload) : runCommand p i x s ≠ .refused r := by
  unfold runCommand
  split <;> exact nofun

theorem runEngineCommand_ne_refused (x : Op Fault Payload) : runEngineCommand p i x s ≠ .refused r := by
  unfold runEngineCommand
  split
  · exact nofun
  · exact endOutcome_ne_refused _

/-- Every operation has a meaning. -/
theorem exec_ne_refused (i : Instr) (s : State) (r : Refusal) : exec i s ≠ .refused r := by
  cases i with
  | readCompensated => exact runEngineCommand_ne_refused _
  | configure | shutdown | reset | readRegisterRaw | writeRegisterRaw | openSession | closeSession | invalid =>
    exact runCommand_ne_refused _
  | engineStep5 | engineStep6 | engineStep7 | engineStep8 | engineStep9 | engineStep10 | engineStep11 | engineStep12
  | engineStep13 | engineStep14 | engineStep15 | engineStep16 | engineStep17 | engineStep18 =>
    exact runEngine_ne_refused _
  | _ => exact runInternal_ne_refused _

theorem decodeStep_eq_none {n : Nat} (h : decodeStep n = none) : n = 0 ∨ 18 < n := by
  by_contra hn
  obtain ⟨h0, hn⟩ := not_or.mp hn
  have hpos := Nat.pos_of_ne_zero h0
  interval_cases n <;> cases h

/-- A byte of the engine's space that is no operation selects no step. -/
theorem decode_engine_error {b : Byte} {why : DecodeError} (h : decode ⟨.engine, [b]⟩ = .error why) :
    decodeStep b.toNat = none ∧ why = .notAStep := by
  unfold decode at h
  cases hb : decodeStep b.toNat with
  | some i => simp [hb] at h
  | none => exact ⟨rfl, by simpa [hb] using h.symm⟩

theorem decode_error_of_step_refused {s' : State} {e : Encoded} (hf : fetch s = .internal e s')
    (h : step s = .refused r) :
    ∃ why, r = .undecodable why ∧ decode e = .error why := by
  cases hd : decode e with
  | ok i => exact absurd ((step_of_fetch_internal hf hd).symm.trans h) (exec_ne_refused i s' r)
  | error why =>
    simp only [step, hf, hd] at h
    cases h
    exact ⟨why, rfl, rfl⟩

end

/-- Settles O8, by what `fetch` finds. Only bits that do not decode are refused, since no operation refuses; the engine's space
has a step for every value of `CSTEP` from 1 to 18, and 0 is no request. -/
theorem onlyUndecodableBitsAreRefused : Obligations.OnlyUndecodableBitsAreRefused := by
  intro s r h
  rcases fetch_cases s with ⟨e, rest, ht, hf⟩ | ⟨ht, hc, hf⟩ | ⟨-, -, -, cw, port, hf⟩ | ⟨-, -, hf⟩
  · obtain ⟨why, hr, hd⟩ := decode_error_of_step_refused hf h
    exact ⟨why, hr, .inl ⟨e, rest, ht, hd⟩⟩
  · obtain ⟨why, hr, hd⟩ := decode_error_of_step_refused hf h
    obtain ⟨hn, rfl⟩ := decode_engine_error hd
    have hb : (s.cstep.setWidth 8).toNat = s.cstep.toNat := BitVec.toNat_setWidth_of_le (by omega)
    have hc0 : s.cstep.toNat ≠ 0 := fun h0 => hc (BitVec.eq_of_toNat_eq h0)
    rw [hb] at hn
    exact ⟨_, hr, .inr ⟨ht, (decodeStep_eq_none hn).resolve_left hc0, rfl⟩⟩
  · obtain hf | hf := hf <;> exact absurd ((step_of_fetch_command hf).symm.trans h) (exec_ne_refused _ _ _)
  · unfold step at h
    rw [hf] at h
    cases h

end Sys2Proof.Machine
end

section
/-!
Accepted commands: what the word carries beside the operands its operation uses plays no part (spec/30_encoding.md R74).
-/

namespace Sys2Proof.Machine

section
variable {s : State} {p : Params}

/-- The word of a command matters only while `BUSY` = 1. -/
theorem runCommand_congr_word (hb : s.busy = false) (i j : Instr) (x : Op Empty Payload) :
    runCommand p i x s = runCommand p j x s := by
  simp [runCommand, hb]

theorem runEngineCommand_congr_word (hb : s.busy = false) (i j : Instr) (x : Op Fault Payload) :
    runEngineCommand p i x s = runEngineCommand p j x s := by
  simp [runEngineCommand, hb]

theorem requireRawAccess_ok (h : s.ss = .idle ∨ s.ss = .configured) : requireRawAccess s = .ok () s :=
  require_true (by simpa using h)

theorem writeRegisterRaw_ok {addr v : Byte} (hq : Quiet s) (hs : s.ss = .idle ∨ s.ss = .configured)
    (h : acceptsWrite (nextAnswer [addr, v] 0 s)) :
    writeRegisterRaw p addr v s = .ok .unit (afterExchange p [addr, v] 0 s) :=
  (bind_ok (requireRawAccess_ok hs)).trans (bind_ok (writeRegister_ok hq h))

theorem writeRegisterRaw_fail {addr v : Byte} (hq : Quiet s) (hs : s.ss = .idle ∨ s.ss = .configured)
    (h : ¬ acceptsWrite (nextAnswer [addr, v] 0 s)) :
    writeRegisterRaw p addr v s = .error (.raise .transportError) (afterExchange p [addr, v] 0 s) :=
  (bind_ok (requireRawAccess_ok hs)).trans (bind_error (writeRegister_fail hq h))

end

/-- Settles O4: the unused fields stand in the word alone; `writeRegisterRaw` makes its one exchange whether the write is
accepted or not. -/
theorem unusedFieldsAreIgnored : Obligations.UnusedFieldsAreIgnored := by
  intro s hb
  have same := runCommand_congr_word (p := Config.params) hb
  refine ⟨fun u v => ⟨same _ _ _, same _ _ _, same _ _ _, runEngineCommand_congr_word hb _ _ _, same _ _ _,
    same _ _ _⟩, fun _ _ _ => same _ _ _, fun _ _ _ _ => same _ _ _, fun addr value hq hs => ?_⟩
  by_cases h : acceptsWrite (nextAnswer [addr, value] 0 (setBusy true s))
  · exact ⟨_, runCommand_ok hb (writeRegisterRaw_ok (s := setBusy true s) hq hs h) hq, _, rfl⟩
  · exact ⟨_, runCommand_raise hb (writeRegisterRaw_fail (s := setBusy true s) hq hs h) hq, _, rfl⟩

end Sys2Proof.Machine
end

section
/-!
Frames and conversion commands on their own: each is one exchange, seen also by the sensor (spec/20_memory.md R52, R54,
spec/30_encoding.md R63 to R66).
-/

namespace Sys2Proof.Machine

section
variable {p : Params} {i : Instr} {s : State} {a : Answer}

/-- A frame on its own: its one exchange, the answer left unchecked in `ret`. -/
theorem exec_frame {w : List Byte} {r : Nat}
    (hi : exec i s = runInternal (do let a ← exchange Config.params w r; pure (.answer a)) s) (hq : Quiet s)
    (ha : answersTo [(w, r)] s = [a]) :
    ∃ t, exec i s = .next t ∧ t = { s with ret := .answer a, env := t.env } ∧
      t.env.sensor = sensorAfter Config.params w a (Config.freeTaken s.env.fresh) s.env.sensor ∧
      EnvStep s t 1 0 [(s.env.now, .exchange Config.params.devAddr w r a)] := by
  obtain rfl := nextAnswer_of_answersTo ha
  exact ⟨_, hi.trans (runInternal_ok (bind_ok (exchange_quiet w r hq))), rfl, rfl, envStep_putRet_afterExchange w r _⟩

/-- A write to the control register that the sensor took whole, of a byte that starts a conversion. -/
theorem sensorAfter_conversion {v : Byte} {k : Kind} {n : Nat} (ha : acceptsWrite a)
    (hv : conversionOf p v = some (k, n)) (unknown : Bool) (x : Sensor) :
    sensorAfter p [p.ctrlReg, v] a unknown x = ⟨k, n, x.midWrite || decide (0 < x.left)⟩ := by
  obtain ⟨rb, rfl⟩ := ha
  simp [sensorAfter, writeTaken, sensorWrite, hv]

theorem conversionOf_cmdTemp (p : Params) : conversionOf p p.cmdTemp = some (.temperature, ticks p p.tDelayUs) :=
  if_pos rfl

theorem conversionOf_cmdPress (hp : p.Ok) (oss : Level) :
    conversionOf p (p.cmdPress oss) = some (.pressure, ticks p (p.pDelayUs oss)) := by
  simp [conversionOf, (hp.tempNePress oss).symm, pressLevel_cmdPress hp]

/-- An operation that writes a conversion command, accepted whole, starts that conversion and writes no register. -/
theorem exec_conversion {v : Byte} {k : Kind} {n : Nat}
    (hi : exec i s = exec (.writeRegister Config.params.ctrlReg v) s) (hv : conversionOf Config.params v = some (k, n))
    (hq : Quiet s) (hw : acceptsWrite a) (ha : answersTo [([Config.params.ctrlReg, v], 0)] s = [a]) :
    ∃ t, exec i s = .next t ∧ t = { s with ret := .unit, env := t.env } ∧
      t.env.sensor = ⟨k, n, s.env.sensor.midWrite || decide (0 < s.env.sensor.left)⟩ ∧
      EnvStep s t 1 0 [(s.env.now, .exchange Config.params.devAddr [Config.params.ctrlReg, v] 0 a)] := by
  obtain rfl := nextAnswer_of_answersTo ha
  exact ⟨_, hi.trans (exec_writeRegister_ok hq hw), rfl, sensorAfter_conversion hw hv _ _,
    envStep_putRet_afterExchange _ _ _⟩

end

/-- Settles O16: an answer is cut to the shape, one of the shape is taken as it stands; each frame is its one exchange, and a
read's is not seen by the sensor. -/
theorem framesAreOneExchange : Obligations.FramesAreOneExchange := by
  refine ⟨answerAt_hasShape, fun w r a rest n h => answerAt_cons rest n h, fun s hq => ⟨?_, ?_, ?_⟩⟩
  · exact fun addr a ha => exec_frame rfl hq ha
  · intro addr value a ha
    obtain ⟨t, ht, hregs, -, henv⟩ := exec_frame (i := .wr1 addr value) rfl hq ha
    exact ⟨t, ht, hregs, henv⟩
  · exact fun addr n a ha => exec_frame rfl hq ha

/-- Settles O20: both bytes are `writeRegister` at the control register, and each starts the conversion that `conversionOf`
names. -/
theorem commandBytesStartConversions : Obligations.CommandBytesStartConversions :=
  fun _ _ hq hw => ⟨exec_conversion rfl (conversionOf_cmdTemp _) hq hw,
    fun oss => exec_conversion rfl (conversionOf_cmdPress Config.params_ok oss) hq hw⟩

end Sys2Proof.Machine
end

section
/-!
The raw counts as numbers (spec/30_encoding.md R68, R69, spec/42_measurement.md R111).
-/

namespace Sys2Proof.Machine

/-- Of 24 bits the shift leaves `16 + oss`. -/
theorem assembleUP_lt_two_pow (oss : Level) (m l x : Byte) :
    (assembleUP oss m l x).toNat < 2 ^ (16 + oss.toNat) := by
  have hoss := oss.isLt
  have hbits : 2 ^ (16 + oss.toNat) * 2 ^ (8 - oss.toNat) = 2 ^ 24 := by
    rw [← Nat.pow_add, show 16 + oss.toNat + (8 - oss.toNat) = 24 by omega]
  rw [assembleUP_toNat, Nat.div_lt_iff_lt_mul (by positivity), hbits, ← be24_toNat]
  exact (be24 m l x).isLt

/-- Settles O28: the two counts as numbers, and the bits the shift leaves. -/
theorem rawCountsAreAssembledBigEndian : Obligations.RawCountsAreAssembledBigEndian :=
  fun oss m l x => ⟨assembleUT_toNat m l, assembleUP_toNat oss m l x, assembleUP_lt_two_pow oss m l x⟩

end Sys2Proof.Machine
end

section
/-!
Register accesses: a read is one exchange that returns what it asked for or raises `TransportError` (spec/40_register_io.md R80,
R82 to R84), and no access writes a register of the block, whatever happens outside meanwhile.
-/

namespace Sys2Proof.Machine

section
variable {s : State} {addr : Byte}

theorem exec_readRegister_ok {b : Byte} (hq : Quiet s) (h : readsByte (nextAnswer [addr] 1 s) b) :
    exec (.readRegister addr) s = .next (putRet (.byte b) (afterExchange Config.params [addr] 1 s)) :=
  runInternal_ok (bind_ok (readRegister_ok hq h))

theorem exec_readRegister_fail (hq : Quiet s) (h : ∀ b, ¬ readsByte (nextAnswer [addr] 1 s) b) :
    exec (.readRegister addr) s =
      .next (putRet (.raised .transportError) (afterExchange Config.params [addr] 1 s)) :=
  runInternal_raise (bind_error (readRegister_fail hq h))

theorem exec_readBlock_ok {n : Byte} {bs : List Byte} (hq : Quiet s)
    (h : nextAnswer [addr] n.toNat s = .done 1 bs) (hn : bs.length = n.toNat) :
    exec (.readBlock addr n) s = .next (putRet (.bytes bs) (afterExchange Config.params [addr] n.toNat s)) :=
  runInternal_ok (bind_ok (readBlock_ok hq h hn))

theorem exec_readBlock_fail {n : Byte} (hq : Quiet s)
    (h : ∀ bs, nextAnswer [addr] n.toNat s = .done 1 bs → bs.length ≠ n.toNat) :
    exec (.readBlock addr n) s =
      .next (putRet (.raised .transportError) (afterExchange Config.params [addr] n.toNat s)) :=
  runInternal_raise (bind_error (readBlock_fail hq h))

end

/-- Settles O17: the one exchange, which the sensor does not see, and what `checkRead` makes of its answer. -/
theorem readRegisterReturnsTheByte : Obligations.ReadRegisterReturnsTheByte := by
  intro addr s a hq ha
  obtain rfl := nextAnswer_of_answersTo ha
  exact ⟨fun b h => ⟨_, exec_readRegister_ok hq h, rfl, rfl, envStep_putRet_afterExchange _ _ _⟩,
    fun h => ⟨_, exec_readRegister_fail hq h, rfl, rfl, envStep_putRet_afterExchange _ _ _⟩⟩

/-- Settles O19: the one exchange, and what `checkRead` makes of the number of bytes it answered. -/
theorem readBlockReturnsAllOrNothing : Obligations.ReadBlockReturnsAllOrNothing := by
  intro addr n s a hq ha
  obtain rfl := nextAnswer_of_answersTo ha
  exact ⟨fun bs h hn => ⟨_, exec_readBlock_ok hq h hn, rfl, envStep_putRet_afterExchange _ _ _⟩,
    fun h => ⟨_, exec_readBlock_fail hq h, rfl, envStep_putRet_afterExchange _ _ _⟩⟩

/-! ### What a register access leaves alone -/

theorem SameRegs.trans {s t u : State} (h : SameRegs s t) (g : SameRegs t u) : SameRegs s u := by
  unfold SameRegs at *
  rw [g, h]

theorem SameRegs.busy {s t : State} (h : SameRegs s t) : t.busy = s.busy := by
  unfold SameRegs at h
  rw [h]

/-- No register was written but `RSP`, and that only by a word refused at the port (log 13). The schedule has only been used
up, so that a hardware reset was in it from the start. -/
structure WritesNoRegister (p : Params) (s t : State) : Prop where
  regs  : SameRegs s t
  sched : t.env.sched <:+ s.env.sched
  rsp   : t.rsp = s.rsp ∨ (s.busy = true ∧ p.busyPolicy = .reject ∧ t.rsp = errorResponse .sensorBusy)

section
variable {p : Params} {s t u : State}

theorem WritesNoRegister.refl (s : State) : WritesNoRegister p s s := ⟨rfl, List.suffix_rfl, .inl rfl⟩

theorem WritesNoRegister.trans (h : WritesNoRegister p s t) (g : WritesNoRegister p t u) : WritesNoRegister p s u where
  regs  := h.regs.trans g.regs
  sched := g.sched.trans h.sched
  rsp   := by
    obtain hr | ⟨hb, hp, hr⟩ := g.rsp
    · rw [hr]
      exact h.rsp
    · exact .inr ⟨h.regs.busy ▸ hb, hp, hr⟩

theorem Acted.writesNoRegister (h : Acted p s t) : WritesNoRegister p s t := by
  obtain ⟨_, -, -, hr⟩ := h.log
  exact ⟨h.regs, h.sched, hr.imp And.right id⟩

theorem writesNoRegister_afterExchange (w : List Byte) (r : Nat) (s : State) :
    WritesNoRegister p s (afterExchange p w r s) := ⟨rfl, List.suffix_rfl, .inl rfl⟩

theorem writesNoRegister_tolerates : Tolerates p (WritesNoRegister p) (WritesNoRegister p) where
  refl         := .refl
  trans _ _ _  := .trans
  acted _ _    := Acted.writesNoRegister
  weaken _ _   := id
  after _ _ _  := .trans

/-- However the operation ends, it has written no register but `RSP`, before the reset if hardware reset drops it. -/
abbrev KeepsRegisters {φ α : Type} (p : Params) (x : Op φ α) : Prop :=
  Keeps (fun _ => True) (WritesNoRegister p) (WritesNoRegister p) x

theorem keepsRegisters_exchange {φ : Type} (w : List Byte) (r : Nat) : KeepsRegisters p (exchange p w r : Op φ Answer) :=
  keeps_exchange writesNoRegister_tolerates (writesNoRegister_afterExchange w r)

theorem keepsRegisters_readRegister {φ : Type} (addr : Byte) : KeepsRegisters p (readRegister p addr : Op φ Byte) :=
  keeps_readRegister writesNoRegister_tolerates (writesNoRegister_afterExchange _ _)

theorem keepsRegisters_writeRegister {φ : Type} (addr v : Byte) : KeepsRegisters p (writeRegister p addr v : Op φ Unit) :=
  keeps_writeRegister writesNoRegister_tolerates (writesNoRegister_afterExchange _ _)

theorem keepsRegisters_readBlock {φ : Type} (addr : Byte) (n : Nat) :
    KeepsRegisters p (readBlock p addr n : Op φ (List Byte)) :=
  keeps_readBlock writesNoRegister_tolerates (writesNoRegister_afterExchange _ _)

/-- An internal operation that writes no register and meets no hardware reset: its result goes to `ret`, which is no
register of the block. -/
theorem runInternal_writesNoRegister {α : Type} {x : Op Empty α} {f : α → OpResult} (hx : KeepsRegisters p x) (hc : Calm s)
    (hn : runInternal (do let a ← x; pure (f a)) s = .next t) : WritesNoRegister p s t := by
  have T := writesNoRegister_tolerates (p := p)
  obtain ⟨u, r, hu, rfl⟩ | ⟨u, hu, hreset, -⟩ :=
    runInternal_keeps (keeps_seq T hx fun a => keeps_pure T.refl (f a)) trivial hn
  · exact hu.trans ⟨rfl, List.suffix_rfl, .inl rfl⟩
  · exact absurd (hu.sched.subset (List.mem_of_head? hreset)) hc

end

/-- Settles O22: each of the ten is an exchange, or an exchange and a check of its answer, and the four control bytes are
`writeRegister` at the control register. -/
theorem registerAccessWritesNoRegister : Obligations.RegisterAccessWritesNoRegister := by
  intro i s t hc hn hi
  suffices h : WritesNoRegister Config.params s t from ⟨h.regs, h.rsp⟩
  obtain ⟨addr, value, n, oss, rfl | rfl | rfl | rfl | rfl | rfl | rfl | rfl | rfl | rfl⟩ := hi
  · exact runInternal_writesNoRegister (keepsRegisters_exchange [addr] 1) hc hn
  · exact runInternal_writesNoRegister (keepsRegisters_exchange [addr, value] 0) hc hn
  · exact runInternal_writesNoRegister (keepsRegisters_exchange [addr] n.toNat) hc hn
  · exact runInternal_writesNoRegister (keepsRegisters_readRegister addr) hc hn
  · exact runInternal_writesNoRegister (keepsRegisters_writeRegister addr value) hc hn
  · exact runInternal_writesNoRegister (keepsRegisters_readBlock addr n.toNat) hc hn
  · exact runInternal_writesNoRegister (keepsRegisters_writeRegister _ Config.params.cmdTemp) hc hn
  · exact runInternal_writesNoRegister (keepsRegisters_writeRegister _ (Config.params.cmdPress oss)) hc hn
  · exact runInternal_writesNoRegister (keepsRegisters_writeRegister _ Config.params.softReset) hc hn
  · exact runInternal_writesNoRegister (keepsRegisters_writeRegister _ value) hc hn

end Sys2Proof.Machine
end

section
/-!
The Calibration Manager (spec/41_calibration.md): what `load` leaves, and that no other operation writes a coefficient while
they are valid.
-/

namespace Sys2Proof.Machine

section
variable {p : Params} {s t u : State}

/-! ### `load` on its own -/

/-- Registers that are written besides make no difference to what an operation did to the world outside. -/
theorem EnvStep.of_env_eq {n time : Nat} {new : List (Nat × Event)} (h : EnvStep s t n time new) (he : u.env = t.env) :
    EnvStep s u n time new where
  port   := he ▸ h.port
  todo   := he ▸ h.todo
  sched  := he ▸ h.sched
  script := he ▸ h.script
  fresh  := he ▸ h.fresh
  now    := he ▸ h.now
  log    := he ▸ h.log

theorem exec_load_ok {bs : List Byte} (hq : Quiet s)
    (h : nextAnswer [Config.params.calBase] Config.params.calLen s = .done 1 bs) (hn : bs.length = Config.params.calLen) :
    exec .load s = .next (putRet .unit (putCal bs
      (afterExchange Config.params [Config.params.calBase] Config.params.calLen s))) :=
  runInternal_ok (bind_ok (load_ok hq h hn))

theorem exec_load_fail (hq : Quiet s)
    (h : ∀ bs, nextAnswer [Config.params.calBase] Config.params.calLen s = .done 1 bs →
      bs.length ≠ Config.params.calLen) :
    exec .load s = .next (putRet (.raised .calibrationReadError)
      (afterExchange Config.params [Config.params.calBase] Config.params.calLen s)) :=
  runInternal_raise (bind_error (load_fail hq h))

/-! ### What leaves the coefficient file alone -/

/-- No coefficient was written. The schedule has only been used up, so that a hardware reset was in it from the start. -/
structure HoldsCal (s t : State) : Prop where
  cal   : t.cal = s.cal
  sched : t.env.sched <:+ s.env.sched

theorem HoldsCal.of_eq (hc : t.cal = s.cal) (hs : t.env.sched = s.env.sched) : HoldsCal s t := ⟨hc, hs ▸ List.suffix_rfl⟩

theorem HoldsCal.trans (h : HoldsCal s t) (g : HoldsCal t u) : HoldsCal s u := ⟨g.cal.trans h.cal, g.sched.trans h.sched⟩

theorem SameRegs.cal (h : SameRegs s t) : t.cal = s.cal := by
  unfold SameRegs at h
  rw [h]

theorem holdsCal_computes : Computes p HoldsCal HoldsCal where
  refl _        := .of_eq rfl rfl
  trans _ _ _   := .trans
  acted _ _ ha  := ⟨ha.regs.cal, ha.sched⟩
  weaken _ _    := id
  after _ _ _   := .trans
  engine _ _ ht := .of_eq (by rw [ht]) (by rw [ht])
  cstep _ _     := .of_eq rfl rfl

theorem holdsCal_tolerates : Tolerates p HoldsCal HoldsCal := holdsCal_computes.toTolerates

theorem holdsCal_measures : Measures p HoldsCal HoldsCal where
  toTolerates    := holdsCal_tolerates
  exchange _ _ _ := .of_eq rfl rfl
  sequencer _ _  := .of_eq rfl rfl
  timer _ _      := .of_eq rfl rfl

theorem holdsCal_acquiresT : AcquiresT p HoldsCal HoldsCal where
  toMeasures    := holdsCal_measures
  temperature _ := .of_eq rfl rfl
  byte0 _ _     := .of_eq rfl rfl
  byte1 _ _     := .of_eq rfl rfl
  ut _ _        := .of_eq rfl rfl

theorem holdsCal_acquiresP : AcquiresP p HoldsCal HoldsCal where
  toMeasures   := holdsCal_measures
  pressure _ _ := .of_eq rfl rfl
  byte0 _ _    := .of_eq rfl rfl
  byte1 _ _    := .of_eq rfl rfl
  byte2 _ _    := .of_eq rfl rfl
  up _ _       := .of_eq rfl rfl

/-- Outside `Idle`, however the operation ends, it has written no coefficient, before the reset if hardware reset drops it. -/
abbrev KeepsCal {φ α : Type} (x : Op φ α) : Prop := Keeps (fun s => s.ss ≠ .idle) HoldsCal HoldsCal x

section
variable {φ : Type} {P : State → Prop}

theorem keepsCal_acquireRawTemperature : Keeps P HoldsCal HoldsCal (acquireRawTemperature p : Op φ Half) :=
  (keeps_acquireRawTemperature holdsCal_acquiresT).mono (fun _ => id) (fun _ _ => And.left) fun _ _ => id

theorem keepsCal_acquireRawPressure (o : Level) : Keeps P HoldsCal HoldsCal (acquireRawPressure p o : Op φ Count20) :=
  (keeps_acquireRawPressure holdsCal_acquiresP o).mono (fun _ => id) (fun _ _ => And.left) fun _ _ => id

end

/-- `configure`, the one command that runs `load`, does so from `Idle` alone (spec/44_session.md R152). -/
theorem keepsCal_configure : KeepsCal (configure p) := by
  intro s hs
  rw [configure, ends_bind, ends_error (require_false (by simpa using hs))]
  exact HoldsCal.of_eq rfl rfl

theorem keepsCal_readCompensated : KeepsCal (readCompensated p) :=
  keeps_readCompensated holdsCal_tolerates keepsCal_acquireRawTemperature (keepsCal_acquireRawPressure _)
    (keeps_engineRun holdsCal_computes) fun _ => .of_eq rfl rfl

/-! ### Each operation on its own -/

theorem runEngine_dropped {x : Op Fault OpResult} (h : x s = .error .dropped t) : runEngine x s = .next t := by
  simp [runEngine, returning, bind_error h, endOutcome]

/-- How an engine step that requires a flag leaves the machine when it does not fault, by what it keeps. -/
theorem runEngine_keeps {R D : State → State → Prop} {P : State → Prop} {x : Op Fault OpResult} (h : Keeps P R D x)
    (hs : P s) (hn : runEngine x s = .next t) :
    (∃ u r, R s u ∧ t = putRet r u) ∨
      ∃ u, D s u ∧ u.env.sched.head? = some .hardwareReset ∧ t = hardwareReset (dropAct u) := by
  have hx := h s hs
  unfold Ends at hx
  cases hr : x s with
  | ok a u =>
    rw [hr] at hx
    rw [runEngine_ok hr] at hn
    cases hn
    exact .inl ⟨u, a, hx, rfl⟩
  | error e u =>
    rw [hr] at hx
    cases e with
    | raise k =>
      rw [runEngine_raise hr] at hn
      cases hn
      exact .inl ⟨u, _, hx, rfl⟩
    | dropped =>
      rw [runEngine_dropped hr] at hn
      cases hn
      exact .inr hx
    | fault f =>
      rw [runEngine_fault hr] at hn
      cases hn

theorem HoldsCal.head_ne_reset (h : HoldsCal s u) (hc : Calm s) : u.env.sched.head? ≠ some .hardwareReset :=
  fun hr => hc (h.sched.subset (List.mem_of_head? hr))

/-- With no hardware reset coming an internal operation ends in the write of `ret`. -/
theorem cal_of_returned (hc : Calm s)
    (h : (∃ u r, HoldsCal s u ∧ t = putRet r u) ∨
      ∃ u, HoldsCal s u ∧ u.env.sched.head? = some .hardwareReset ∧ t = hardwareReset (dropAct u)) : t.cal = s.cal := by
  obtain ⟨u, r, hu, rfl⟩ | ⟨u, hu, hreset, -⟩ := h
  · exact hu.cal
  · exact absurd hreset (hu.head_ne_reset hc)

/-- With no hardware reset coming a command ends in its response. -/
theorem cal_of_responded (hc : Calm s)
    (h : (∃ r u, HoldsCal (setBusy true s) u ∧ t = setBusy false (respond r u)) ∨
      ∃ u, HoldsCal (setBusy true s) u ∧ u.env.sched.head? = some .hardwareReset ∧ t = hardwareReset (dropAct u)) :
    t.cal = s.cal := by
  obtain ⟨r, u, hu, rfl⟩ | ⟨u, hu, hreset, -⟩ := h
  · exact hu.cal
  · exact absurd hreset (hu.head_ne_reset hc)

section
variable {i : Instr}

theorem runInternal_cal {α : Type} {x : Op Empty α} {f : α → OpResult} (hx : KeepsCal x) (hs : s.ss ≠ .idle) (hc : Calm s)
    (hn : runInternal (do let a ← x; pure (f a)) s = .next t) : t.cal = s.cal :=
  have T := holdsCal_tolerates (p := Config.params)
  cal_of_returned hc (runInternal_keeps (keeps_seq T hx fun a => keeps_pure T.refl (f a)) hs hn)

theorem runEngine_cal {x : Op Fault Unit} (hx : KeepsCal x) (hs : s.ss ≠ .idle) (hc : Calm s)
    (hn : runEngine (do x; pure .unit) s = .next t) : t.cal = s.cal :=
  have T := holdsCal_tolerates (p := Config.params)
  cal_of_returned hc (runEngine_keeps (keeps_seq T hx fun _ => keeps_pure T.refl _) hs hn)

theorem runEngine_pressureStep_cal {k : Nat} {f : State → Except ErrKind State}
    (hf : ∀ {s t}, f s = .ok t → EngineRegs s t ∧ t.b5Valid = s.b5Valid) (hs : s.ss ≠ .idle) (hc : Calm s)
    (hn : runEngine (do pressureStep k f; pure .unit) s = .next t) : t.cal = s.cal :=
  runEngine_cal (keeps_pressureStep (holdsCal_computes (p := Config.params)) k f hf) hs hc hn

theorem runEngineStep_cal {k : Nat} {f : State → Except ErrKind State} (hf : ∀ {s t}, f s = .ok t → EngineRegs s t)
    (hs : s.ss ≠ .idle) (hc : Calm s) (hn : runInternal (do engineStep k f; pure .unit) s = .next t) : t.cal = s.cal :=
  have C := holdsCal_computes (p := Config.params)
  runInternal_cal (keeps_engineStep k f (fun _ _ _ h => C.step (hf h) _) fun u _ => C.cstep 0 u) hs hc hn

theorem runCommand_cal {x : Op Empty Payload} (hx : KeepsCal x) (hs : s.ss ≠ .idle) (hc : Calm s)
    (hn : runCommand p i x s = .next t) : t.cal = s.cal := by
  cases hb : s.busy with
  | true =>
    rw [runCommand_busy hb] at hn
    cases hn
    exact (present_acted _).regs.cal
  | false => exact cal_of_responded hc (runCommand_keeps (holdsCal_tolerates (p := p)) hx hs hb hn)

theorem runEngineCommand_cal {x : Op Fault Payload} (hx : KeepsCal x) (hs : s.ss ≠ .idle) (hc : Calm s)
    (hn : runEngineCommand p i x s = .next t) : t.cal = s.cal := by
  cases hb : s.busy with
  | true =>
    rw [runEngineCommand_busy hb] at hn
    cases hn
    exact (present_acted _).regs.cal
  | false => exact cal_of_responded hc (runEngineCommand_keeps (holdsCal_tolerates (p := p)) hx hs hb hn)

theorem exec_command_cal (hi : isCommand i = true) (hs : s.ss ≠ .idle) (hc : Calm s) (hn : exec i s = .next t) :
    t.cal = s.cal := by
  have T := holdsCal_tolerates (p := Config.params)
  have hx : ∀ w r u, HoldsCal u (afterExchange Config.params w r u) := holdsCal_measures.exchange
  cases i
  case configure => exact runCommand_cal keepsCal_configure hs hc hn
  case shutdown =>
    exact runCommand_cal (keeps_shutdown T (fun _ => hx _ _) (fun _ => .of_eq rfl rfl) fun _ => .of_eq rfl rfl) hs hc hn
  case reset => exact runCommand_cal (keeps_resetSensor T (fun _ => hx _ _) fun _ => .of_eq rfl rfl) hs hc hn
  case readRegisterRaw => exact runCommand_cal (keeps_readRegisterRaw T (hx _ _)) hs hc hn
  case writeRegisterRaw => exact runCommand_cal (keeps_writeRegisterRaw T (hx _ _)) hs hc hn
  case readCompensated => exact runEngineCommand_cal keepsCal_readCompensated hs hc hn
  case openSession => exact runCommand_cal (keeps_openSession T fun _ => .of_eq rfl rfl) hs hc hn
  case closeSession =>
    exact runCommand_cal (keeps_closeSession T (fun _ => hx _ _) (fun _ => .of_eq rfl rfl) fun _ => .of_eq rfl rfl) hs hc hn
  case invalid => exact runCommand_cal (keeps_invalidCommand T.refl) hs hc hn
  all_goals cases hi

theorem exec_pressureStep_cal (hi : isPressureStep i = true) (hs : s.ss ≠ .idle) (hc : Calm s) (hn : exec i s = .next t) :
    t.cal = s.cal := by
  cases i
  case engineStep5 => exact runEngine_pressureStep_cal compute5_regs hs hc hn
  case engineStep6 => exact runEngine_pressureStep_cal compute6_regs hs hc hn
  case engineStep7 => exact runEngine_pressureStep_cal compute7_regs hs hc hn
  case engineStep8 => exact runEngine_pressureStep_cal compute8_regs hs hc hn
  case engineStep9 => exact runEngine_pressureStep_cal compute9_regs hs hc hn
  case engineStep10 => exact runEngine_pressureStep_cal compute10_regs hs hc hn
  case engineStep11 => exact runEngine_pressureStep_cal compute11_regs hs hc hn
  case engineStep12 => exact runEngine_pressureStep_cal compute12_regs hs hc hn
  case engineStep13 => exact runEngine_pressureStep_cal compute13_regs hs hc hn
  case engineStep14 => exact runEngine_pressureStep_cal compute14_regs hs hc hn
  case engineStep15 => exact runEngine_pressureStep_cal compute15_regs hs hc hn
  case engineStep16 => exact runEngine_cal (keeps_engineStep16 (holdsCal_computes (p := Config.params))) hs hc hn
  case engineStep17 => exact runEngine_pressureStep_cal compute17_regs hs hc hn
  case engineStep18 => exact runEngine_pressureStep_cal compute18_regs hs hc hn
  all_goals cases hi

/-- Outside `Idle` no operation but `load` writes a coefficient: there `configure` is refused before it loads. -/
theorem exec_cal (hl : i ≠ .load) (hs : s.ss ≠ .idle) (hc : Calm s) (hn : exec i s = .next t) : t.cal = s.cal := by
  have M := holdsCal_measures (p := Config.params)
  cases i
  case load => exact absurd rfl hl
  case configure | shutdown | reset | readRegisterRaw | writeRegisterRaw | readCompensated | openSession | closeSession
      | invalid => exact exec_command_cal rfl hs hc hn
  case rd1 | wr1 | rdn | readRegister | writeRegister | readBlock | cmdTemp | cmdPress | softResetValue | powerDownValue =>
    exact (registerAccessWritesNoRegister _ _ _ hc hn (by simp)).1.cal
  case acquireRawTemperature => exact runInternal_cal keepsCal_acquireRawTemperature hs hc hn
  case acquireRawPressure oss => exact runInternal_cal (keepsCal_acquireRawPressure oss) hs hc hn
  case issueAndWait cmd us => exact runInternal_cal (keeps_issueAndWait M cmd us.toNat) hs hc hn
  case wait us => exact runInternal_cal (keeps_wait M.toTolerates M.timer us.toNat) hs hc hn
  case engineStep1 => exact runEngineStep_cal (fun h => (compute1_regs h).1) hs hc hn
  case engineStep2 => exact runEngineStep_cal (fun h => (compute2_regs h).1) hs hc hn
  case engineStep3 => exact runEngineStep_cal (fun h => (compute3_regs h).1) hs hc hn
  case engineStep4 => exact runEngineStep_cal (fun h => (compute4_regs h).1) hs hc hn
  all_goals exact exec_pressureStep_cal rfl hs hc hn

end

end

/-- Settles O25: `SS` is not `Idle`, since `CAL_VALID` is 1. -/
theorem calibrationIsImmutableWhileValid : Obligations.CalibrationIsImmutableWhileValid :=
  fun _ _ _ hidle hv hc hl hn => exec_cal hl (fun hs => by simp [hidle hs] at hv) hc hn

/-- Settles O23: the one exchange, whose 22 bytes `decodeCal` puts into the fields two by two. -/
theorem loadDecodesTheBlock : Obligations.LoadDecodesTheBlock := by
  intro s _ _ _ _ _ _ _ _ _ _ _ _ _ _ _ _ _ _ _ _ _ _ a hq ha hblock
  obtain rfl := nextAnswer_of_answersTo ha
  exact ⟨_, exec_load_ok hq hblock rfl, rfl, (envStep_putRet_afterExchange _ _ .unit).of_env_eq rfl⟩

/-- Settles O24: the one exchange, whose answer `readBlock` does not take and `load` surfaces as its own error. -/
theorem loadFailsOnAnyOtherAnswer : Obligations.LoadFailsOnAnyOtherAnswer := by
  intro s a hq ha hother
  obtain rfl := nextAnswer_of_answersTo ha
  exact ⟨_, exec_load_fail hq hother, rfl, envStep_putRet_afterExchange _ _ _⟩

end Sys2Proof.Machine
end

section
/-!
The measurement sequencer with nothing happening outside (spec/42_measurement.md): the check for `SEQ` = `Idle`, a command and
its wait, the two acquisitions, and a command write that fails.
-/

namespace Sys2Proof.Machine

/-- Settles O27: the delays are R103's law at the four levels, and the shift is `8 - oss`, as `assembleUP_toNat` says. -/
theorem oversamplingIsMonotone : Obligations.OversamplingIsMonotone :=
  ⟨rfl, rfl, rfl, rfl, rfl, fun o => 8 - o.toNat, rfl, rfl, rfl, rfl, assembleUP_toNat, by decide⟩

section
variable {p : Params} {s t : State}

theorem requireSequencerIdle_raise {φ : Type} (h : s.seq ≠ .idle) :
    (requireSequencerIdle : Op φ Unit) s = .error (.raise .sensorBusy) s :=
  require_false (by simpa using h)

/-! ### What the parts of an operation leave -/

/-- Registers that are written before make no difference to what an operation did to the world outside. -/
theorem EnvStep.of_env_eq_left {u : State} {n time : Nat} {new : List (Nat × Event)} (h : EnvStep u t n time new)
    (he : u.env = s.env) : EnvStep s t n time new where
  port   := he ▸ h.port
  todo   := he ▸ h.todo
  sched  := he ▸ h.sched
  script := he ▸ h.script
  fresh  := he ▸ h.fresh
  now    := he ▸ h.now
  log    := he ▸ h.log

/-- What follows an operation, in no time, adds its exchanges and its entries to those of the operation. -/
theorem EnvStep.trans {u : State} {m n time : Nat} {old new : List (Nat × Event)} (h : EnvStep s t m time old)
    (g : EnvStep t u n 0 new) : EnvStep s u (m + n) time (new ++ old) where
  port   := g.port.trans h.port
  todo   := g.todo.trans h.todo
  sched  := g.sched.trans h.sched
  script := by rw [g.script, h.script, List.drop_drop]
  fresh  := by rw [g.fresh, h.fresh, Nat.add_assoc]
  now    := g.now.trans h.now
  log    := by rw [g.log, h.log, List.append_assoc]

/-- The write that starts an operation, from the state `u` that its start has latched: its one exchange. -/
theorem envStep_commanded {u : State} (cmd : Byte) (hu : u.env = s.env) :
    EnvStep s (afterExchange p [p.ctrlReg, cmd] 0 (setSequencer .commandIssued u)) 1 0
      [(s.env.now, .exchange p.devAddr [p.ctrlReg, cmd] 0 (nextAnswer [p.ctrlReg, cmd] 0 u)),
       (s.env.now, .sequencer .commandIssued)] := by
  rw [← hu]
  exact EnvStep.of_env_eq_left (u := u) ⟨rfl, rfl, rfl, List.drop_one.symm, rfl, rfl, rfl⟩ hu

/-- A command and its wait: one exchange, and the ticks of the delay after it. -/
theorem envStep_issued {u : State} (cmd : Byte) (us : Nat) (hu : u.env = s.env) :
    EnvStep s (issued p cmd us u) 1 (ticks p us)
      [(s.env.now, .sequencer .waiting),
       (s.env.now, .exchange p.devAddr [p.ctrlReg, cmd] 0 (nextAnswer [p.ctrlReg, cmd] 0 u)),
       (s.env.now, .sequencer .commandIssued)] := by
  rw [← hu]
  exact EnvStep.of_env_eq_left (u := u) ⟨rfl, rfl, rfl, List.drop_one.symm, rfl, rfl, rfl⟩ hu

/-- The registers after a command and its wait. -/
theorem issued_regs (cmd : Byte) (us : Nat) (s : State) :
    ∃ e, issued p cmd us s = { s with seq := .waiting, dtimer := 0, env := e } := ⟨_, rfl⟩

/-- The registers after the result bytes of a temperature. -/
theorem captured2_regs (m l : Byte) (s : State) :
    ∃ e, captured2 p m l s = { s with seq := .resultReady, rbuf0 := m, rbuf1 := l, env := e } := ⟨_, rfl⟩

/-- The registers after the result bytes of a pressure. -/
theorem captured3_regs (m l x : Byte) (s : State) :
    ∃ e, captured3 p m l x s = { s with seq := .resultReady, rbuf0 := m, rbuf1 := l, rbuf2 := x, env := e } := ⟨_, rfl⟩

/-- The two result bytes of a temperature: two exchanges, no time. -/
theorem envStep_captured2 {m' l' : Answer} (m l : Byte)
    (h : answersTo [([resultAddr p 0], 1), ([resultAddr p 1], 1)] s = [m', l']) :
    EnvStep s (captured2 p m l s) 2 0
      [(s.env.now, .exchange p.devAddr [resultAddr p 1] 1 l'), (s.env.now, .exchange p.devAddr [resultAddr p 0] 1 m'),
       (s.env.now, .sequencer .resultReady)] := by
  cases h
  refine ⟨rfl, rfl, rfl, ?_, rfl, rfl, rfl⟩
  show s.env.script.tail.tail = _
  simp only [← List.drop_one, List.drop_drop]

/-- The three result bytes of a pressure: three exchanges, no time. -/
theorem envStep_captured3 {m' l' x' : Answer} (m l x : Byte)
    (h : answersTo [([resultAddr p 0], 1), ([resultAddr p 1], 1), ([resultAddr p 2], 1)] s = [m', l', x']) :
    EnvStep s (captured3 p m l x s) 3 0
      [(s.env.now, .exchange p.devAddr [resultAddr p 2] 1 x'), (s.env.now, .exchange p.devAddr [resultAddr p 1] 1 l'),
       (s.env.now, .exchange p.devAddr [resultAddr p 0] 1 m'), (s.env.now, .sequencer .resultReady)] := by
  cases h
  refine ⟨rfl, rfl, rfl, ?_, rfl, rfl, rfl⟩
  show s.env.script.tail.tail.tail = _
  simp only [← List.drop_one, List.drop_drop]

/-- The count is put into its register. -/
theorem EnvStep.putUT {n time : Nat} {new : List (Nat × Event)} (h : EnvStep s t n time new) (v : Half) :
    EnvStep s (putUT v t) n time new := h.of_env_eq rfl

theorem EnvStep.putUP {n time : Nat} {new : List (Nat × Event)} (h : EnvStep s t n time new) (v : Count20) :
    EnvStep s (putUP v t) n time new := h.of_env_eq rfl

/-- What ends an operation: `SEQ` goes back to `Idle`, and `ret` receives what the operation gave. -/
theorem EnvStep.toIdle {n time : Nat} {new : List (Nat × Event)} (h : EnvStep s t n time new) (r : OpResult) :
    EnvStep s (putRet r (setSequencer .idle t)) n time ((s.env.now + time, .sequencer .idle) :: new) := by
  obtain ⟨hport, htodo, hsched, hscript, hfresh, hnow, hlog⟩ := h
  exact ⟨hport, htodo, hsched, hscript, hfresh, hnow, by rw [← hnow, List.cons_append, ← hlog]; rfl⟩

/-! ### Each operation on its own -/

theorem exec_issueAndWait_ok {cmd : Byte} {us : Half} (hq : Quiet s) (hs : s.seq = .idle)
    (h : acceptsWrite (nextAnswer [Config.params.ctrlReg, cmd] 0 s)) :
    exec (.issueAndWait cmd us) s =
      .next (putRet .unit (setSequencer .idle (issued Config.params cmd us.toNat s))) :=
  runInternal_ok (bind_ok (issueAndWait_ok hq hs h))

/-- An operation whose command write fails, from the state `u` that its start has latched: that one exchange, and `SEQ` is
`Idle` again (spec/42_measurement.md R106). -/
theorem exec_commandWriteFailed {i : Instr} {cmd : Byte} {u : State}
    (hi : exec i s = .next (putRet (.raised .transportError) (setSequencer .idle
      (afterExchange Config.params [Config.params.ctrlReg, cmd] 0 (setSequencer .commandIssued u)))))
    (hs : u.seq = .idle) (hu : u.env = s.env) {a : Answer}
    (ha : answersTo [([Config.params.ctrlReg, cmd], 0)] u = [a]) :
    ∃ t, exec i s = .next t ∧ t = { u with ret := .raised .transportError, env := t.env } ∧
      EnvStep s t 1 0 [(s.env.now, .sequencer .idle),
        (s.env.now, .exchange Config.params.devAddr [Config.params.ctrlReg, cmd] 0 a),
        (s.env.now, .sequencer .commandIssued)] := by
  obtain rfl := nextAnswer_of_answersTo ha
  refine ⟨_, hi, ?_, (envStep_commanded cmd hu).toIdle _⟩
  rw [hs]
  rfl

end

/-- Settles O34: each of the three begins with the check of `SEQ`. -/
theorem sequencerBusyChangesNothing : Obligations.SequencerBusyChangesNothing := by
  intro s h
  have check := requireSequencerIdle_raise (φ := Empty) h
  exact ⟨fun _ => runInternal_raise (bind_error (bind_error check)),
    fun _ => runInternal_raise (bind_error (bind_error check)),
    fun _ _ => runInternal_raise (bind_error (bind_error check))⟩

/-- Settles O31: the command and its wait, and `SEQ` back to `Idle`. (`issueAndWait` itself is the operation's name.) -/
theorem Measurement.issueAndWait : Obligations.IssueAndWait := by
  intro cmd us s a hq hs ha hw
  obtain rfl := nextAnswer_of_answersTo ha
  refine ⟨_, exec_issueAndWait_ok hq hs hw, ?_, (envStep_issued cmd us.toNat rfl).toIdle _⟩
  obtain ⟨e, he⟩ := issued_regs (p := Config.params) cmd us.toNat s
  rw [he, hs]
  rfl

/-- Settles O32: the one exchange fails, and the error puts `SEQ` back to `Idle`. -/
theorem failedCommandWriteEndsTheAcquisition : Obligations.FailedCommandWriteEndsTheAcquisition := by
  intro s a hq hs hw
  have fails : ∀ w r, answersTo [(w, r)] s = [a] → ¬ acceptsWrite (nextAnswer w r s) := fun w r ha => by
    rwa [nextAnswer_of_answersTo ha]
  refine ⟨fun ignored ha => ?_, fun oss ha => ?_, fun cmd us ha => ?_⟩
  · exact exec_commandWriteFailed (i := .acquireRawTemperature ignored) (u := setTemperature s)
      (runInternal_raise (bind_error (acquireRawTemperature_fail hq hs (fails _ _ ha)))) hs rfl ha
  · exact exec_commandWriteFailed (i := .acquireRawPressure oss) (u := setPressure oss s)
      (runInternal_raise (bind_error (acquireRawPressure_fail hq hs (fails _ _ ha)))) hs rfl ha
  · exact exec_commandWriteFailed (i := .issueAndWait cmd us)
      (runInternal_raise (bind_error (issueAndWait_fail hq hs (fails _ _ ha)))) hs rfl ha

/-- Settles O29: a command, its wait and two result bytes, whose count goes to `UT`. -/
theorem acquireTemperature : Obligations.AcquireTemperature := by
  intro ignored s a m' l' m l hq hs h ha hm hl
  refine ⟨_, runInternal_ok (bind_ok (acquireRawTemperature_ok hq hs h ha hm hl)), ?_, ?_⟩
  · obtain ⟨e, he⟩ := issued_regs (p := Config.params) Config.params.cmdTemp Config.params.tDelayUs (setTemperature s)
    obtain ⟨e', he'⟩ := captured2_regs (p := Config.params) m l
      { setTemperature s with seq := .waiting, dtimer := 0, env := e }
    rw [he, he', hs]
    rfl
  · obtain ⟨rfl, hr⟩ := answersTo_cons.mp h
    have issue := envStep_issued (p := Config.params) (s := s) (u := setTemperature s) Config.params.cmdTemp
      Config.params.tDelayUs rfl
    exact ((issue.trans (envStep_captured2 m l hr)).putUT _).toIdle _

/-- Settles O30: a command, the wait of its level and three result bytes, whose count goes to `UP`. -/
theorem acquirePressure : Obligations.AcquirePressure := by
  rintro oss s a m' l' x' m l x d hq hs rfl h ha hm hl hx
  refine ⟨_, runInternal_ok (bind_ok (acquireRawPressure_ok hq hs h ha hm hl hx)), ?_, ?_⟩
  · obtain ⟨e, he⟩ := issued_regs (p := Config.params) (Config.params.cmdPress oss) (Config.params.pDelayUs oss)
      (setPressure oss s)
    obtain ⟨e', he'⟩ := captured3_regs (p := Config.params) m l x
      { setPressure oss s with seq := .waiting, dtimer := 0, env := e }
    rw [he, he', hs, ← assembleUP_toNat]
    rfl
  · obtain ⟨rfl, hr⟩ := answersTo_cons.mp h
    have issue := envStep_issued (p := Config.params) (s := s) (u := setPressure oss s) (Config.params.cmdPress oss)
      (Config.params.pDelayUs oss) rfl
    exact ((issue.trans (envStep_captured3 m l x hr)).putUP _).toIdle _

end Sys2Proof.Machine
end

section
/-!
`wait` on its own (spec/42_measurement.md R104, R108): its length with nothing happening outside, with time passing at its
first moment, and with anything but a hardware reset.
-/

namespace Sys2Proof.Machine

section
variable {φ : Type} {p : Params} {s t : State}

/-- `ceil(us / TICK_US)` is the least number of ticks that is not shorter than the delay. -/
theorem delay_le_iff_ticks_le (h : 0 < p.tickNum) (us n : Nat) : us * p.tickDen ≤ n * p.tickNum ↔ ticks p us ≤ n :=
  ⟨ticks_tight h us n, fun hn => (ticks_covers h us).trans (Nat.mul_le_mul_right _ hn)⟩

theorem ticks_pos (h : p.Ok) {us : Nat} (hus : 0 < us) : 0 < ticks p us := by
  obtain ⟨hnum, hden⟩ := h.tickPos
  by_contra h0
  have := (delay_le_iff_ticks_le hnum us 0).mpr (by omega)
  have := Nat.mul_pos hus hden
  omega

/-- `n` ticks of a wait and `m` more are `n + m` ticks of it. -/
theorem runTimer_runTimer (m n : Nat) : runTimer m (runTimer n s) = runTimer (n + m) s := by
  simp [runTimer, setTimer, elapse, Nat.sub_sub, Nat.add_assoc]

/-- With nothing happening outside the count-down takes the ticks left in `DTIMER`. -/
theorem countDown_eq_runTimer {fuel : Nat} (h : Quiet s) (hf : s.dtimer ≤ fuel) :
    (countDown p fuel : Op φ Unit) s = .ok () (runTimer s.dtimer s) := by
  rw [countDown_quiet h hf, runTimer, Nat.sub_self]

/-- A count-down at whose first moment `n` ticks pass, and nothing more happens outside: the larger of `n` and `DTIMER`. -/
theorem countDown_elapse {fuel n : Nat} (hs : s.env.sched = [.elapse n]) (h0 : s.dtimer ≠ 0)
    (hf : s.dtimer ≤ fuel + 1) :
    (countDown p (fuel + 1) : Op φ Unit) s = .ok () (setTimer 0 (elapse (max n s.dtimer) (dropAct s))) := by
  have hq : Quiet (runTimer n (dropAct s)) := by simp [Quiet, hs]
  have hqt : Quiet (tick (runTimer n (dropAct s))) := hq
  have first : (waitMoment p : Op φ Unit) s = .ok () (runTimer n (dropAct s)) := by
    rw [waitMoment_elapse hs, waitMoment_quiet hq]
  have left : (runTimer n (dropAct s)).dtimer = s.dtimer - n := rfl
  have left' : (tick (runTimer n (dropAct s))).dtimer = s.dtimer - n - min 1 (s.dtimer - n) := rfl
  have total : n + (min 1 (s.dtimer - n) + (s.dtimer - n - min 1 (s.dtimer - n))) = max n s.dtimer := by omega
  rw [countDown_succ h0, bind_ok first, update_bind, countDown_eq_runTimer hqt (by omega), left', tick, left,
    runTimer_runTimer, runTimer_runTimer, total, runTimer, dropAct_dtimer, Nat.sub_eq_zero_of_le (le_max_right _ _)]

/-- `wait(us)` at whose first moment `n` ticks pass, and nothing more happens outside: the larger of `n` and the delay. -/
theorem wait_elapse {us n : Nat} (hs : s.env.sched = [.elapse n]) (h0 : 0 < ticks p us) :
    (wait p us : Op φ Unit) s = .ok () (setTimer 0 (elapse (max n (ticks p us)) (dropAct s))) := by
  obtain ⟨k, hk⟩ := Nat.exists_eq_add_of_le' h0
  unfold wait
  rw [update_bind, hk]
  exact countDown_elapse (s := setTimer (k + 1) s) hs (Nat.succ_ne_zero k) le_rfl

/-- Beside `DTIMER` a wait writes no register but `RSP`, and that only by a word refused at the port (log 13). -/
theorem Waited.regs {n : Nat} (h : Waited p n s t) :
    t = { s with dtimer := t.dtimer, rsp := t.rsp, ret := t.ret, env := t.env } :=
  congrArg (setTimer t.dtimer) h.acted.regs

theorem exec_wait_ok {us : Half} (h : (wait Config.params us.toNat : Op Empty Unit) s = .ok () t) :
    exec (.wait us) s = .next (putRet .unit t) := runInternal_ok (bind_ok h)

end

/-- Settles O26. The timer is loaded with the least number of ticks; a lapse at the first moment is counted off it; and no way
out of the count-down but a hardware reset is there before it is 0. -/
theorem waitLetsTheDelayPass : Obligations.WaitLetsTheDelayPass := by
  have hp := Config.params_ok
  refine ⟨fun us s hq => ⟨delay_le_iff_ticks_le hp.tickPos.1 _, exec_wait_ok (wait_quiet us.toNat hq)⟩,
    fun us n s hus hs => ?_, fun us s hc => ?_⟩
  · have hpos : 0 < us.toNat := by simpa [Nat.pos_iff_ne_zero, ← BitVec.toNat_inj] using hus
    rw [exec_wait_ok (wait_elapse hs (ticks_pos hp hpos)), dropAct, hs]
    rfl
  · rcases wait_cases Config.params us.toNat s with ⟨n, t, ht, hw, h0, hn⟩ | ⟨n, u, hw, hreset, -⟩
    · have regs := hw.regs
      rw [h0] at regs
      exact ⟨_, n, exec_wait_ok ht, congrArg (putRet .unit) regs, hn, hw.now, hw.left, hw.acted.exchanges⟩
    · exact absurd (List.mem_of_head? hreset) (hw.calm hc)

end Sys2Proof.Machine
end

section
/-!
What the operations of the sequencer and `load` leave alone, whatever is answered and presented (spec/42_measurement.md R101,
R102, R104, R106, R112; spec/41_calibration.md R90). A set of registers is given as the function that carries them over,
`f s t` being `s` with these registers as they are in `t`; no other register was written when `t = f s t`.
-/

namespace Sys2Proof.Machine

/-- `f` carries over a set of registers, which has `RSP` in it (log 13), with `ret` and the world outside. -/
structure Carries (f : State → State → State) : Prop where
  self    : ∀ s, f s s = s
  again   : ∀ s t u, f (f s t) u = f s u
  outside : ∀ s r x e, f s { s with rsp := r, ret := x, env := e } = { s with rsp := r, ret := x, env := e }

/-- No register was written but those that `f` carries over. The schedule has only been used up, so that a hardware reset was
in it from the start. -/
structure WritesAtMost (f : State → State → State) (s t : State) : Prop where
  regs  : t = f s t
  sched : t.env.sched <:+ s.env.sched

section
variable {φ α : Type} {p : Params} {f : State → State → State} {s t : State}

theorem WritesAtMost.of_eq (h : t = f s t) (hs : t.env.sched = s.env.sched) : WritesAtMost f s t :=
  ⟨h, hs ▸ List.suffix_rfl⟩

theorem WritesAtMost.trans {u : State} (hf : Carries f) (h : WritesAtMost f s t) (g : WritesAtMost f t u) :
    WritesAtMost f s u :=
  ⟨by rw [← hf.again s t u, ← h.regs]; exact g.regs, g.sched.trans h.sched⟩

theorem Carries.tolerates (hf : Carries f) : Tolerates p (WritesAtMost f) (WritesAtMost f) where
  refl s       := .of_eq (hf.self s).symm rfl
  trans _ _ _  := .trans hf
  acted s t ha := by
    refine ⟨?_, ha.sched⟩
    rw [show t = _ from ha.regs]
    exact (hf.outside ..).symm
  weaken _ _   := id
  after _ _ _  := .trans hf

/-- A set that has `SEQ` and `DTIMER` in it. -/
theorem Carries.measures (hf : Carries f) (hseq : ∀ x s, setSequencer x s = f s (setSequencer x s))
    (htimer : ∀ n s, setTimer n s = f s (setTimer n s)) : Measures p (WritesAtMost f) (WritesAtMost f) where
  toTolerates    := hf.tolerates
  exchange _ _ s := .of_eq (hf.outside s _ _ _).symm rfl
  sequencer x s  := .of_eq (hseq x s) rfl
  timer n s      := .of_eq (htimer n s) rfl

theorem Carries.putRet (hf : Carries f) (r : OpResult) (s : State) : WritesAtMost f s (putRet r s) :=
  .of_eq (hf.outside s _ _ _).symm rfl

/-! ### The sets -/

/-- What a temperature acquisition writes, with `SEQ` on its way. -/
def temperatureRegs (s t : State) : State :=
  { s with seq := t.seq, kind := t.kind, dtimer := t.dtimer, rbuf0 := t.rbuf0, rbuf1 := t.rbuf1, ut := t.ut,
           utValid := t.utValid, rsp := t.rsp, ret := t.ret, env := t.env }

/-- What a pressure acquisition writes. -/
def pressureRegs (s t : State) : State :=
  { s with seq := t.seq, kind := t.kind, oss := t.oss, dtimer := t.dtimer, rbuf0 := t.rbuf0, rbuf1 := t.rbuf1,
           rbuf2 := t.rbuf2, up := t.up, upValid := t.upValid, rsp := t.rsp, ret := t.ret, env := t.env }

/-- What `issueAndWait` writes. -/
def issueRegs (s t : State) : State :=
  { s with seq := t.seq, dtimer := t.dtimer, rsp := t.rsp, ret := t.ret, env := t.env }

/-- What `load` writes. -/
def loadRegs (s t : State) : State :=
  { s with cal := t.cal, calValid := t.calValid, rsp := t.rsp, ret := t.ret, env := t.env }

/-- Everything but the counts and their flags. -/
def allButCounts (s t : State) : State :=
  { t with ut := s.ut, utValid := s.utValid, up := s.up, upValid := s.upValid }

theorem temperatureRegs_carries : Carries temperatureRegs := ⟨fun _ => rfl, fun _ _ _ => rfl, fun _ _ _ _ => rfl⟩
theorem pressureRegs_carries : Carries pressureRegs := ⟨fun _ => rfl, fun _ _ _ => rfl, fun _ _ _ _ => rfl⟩
theorem issueRegs_carries : Carries issueRegs := ⟨fun _ => rfl, fun _ _ _ => rfl, fun _ _ _ _ => rfl⟩
theorem loadRegs_carries : Carries loadRegs := ⟨fun _ => rfl, fun _ _ _ => rfl, fun _ _ _ _ => rfl⟩
theorem allButCounts_carries : Carries allButCounts := ⟨fun _ => rfl, fun _ _ _ => rfl, fun _ _ _ _ => rfl⟩

theorem temperatureRegs_acquires : AcquiresT p (WritesAtMost temperatureRegs) (WritesAtMost temperatureRegs) where
  toMeasures    := temperatureRegs_carries.measures (fun _ _ => rfl) fun _ _ => rfl
  temperature _ := .of_eq rfl rfl
  byte0 _ _     := .of_eq rfl rfl
  byte1 _ _     := .of_eq rfl rfl
  ut _ _        := .of_eq rfl rfl

theorem pressureRegs_acquires : AcquiresP p (WritesAtMost pressureRegs) (WritesAtMost pressureRegs) where
  toMeasures   := pressureRegs_carries.measures (fun _ _ => rfl) fun _ _ => rfl
  pressure _ _ := .of_eq rfl rfl
  byte0 _ _    := .of_eq rfl rfl
  byte1 _ _    := .of_eq rfl rfl
  byte2 _ _    := .of_eq rfl rfl
  up _ _       := .of_eq rfl rfl

theorem issueRegs_measures : Measures p (WritesAtMost issueRegs) (WritesAtMost issueRegs) :=
  issueRegs_carries.measures (fun _ _ => rfl) fun _ _ => rfl

theorem allButCounts_measures : Measures p (WritesAtMost allButCounts) (WritesAtMost allButCounts) :=
  allButCounts_carries.measures (fun _ _ => rfl) fun _ _ => rfl

/-! ### On their own -/

theorem WritesAtMost.head_ne_reset (h : WritesAtMost f s t) (hc : Calm s) : t.env.sched.head? ≠ some .hardwareReset :=
  fun hr => hc (h.sched.subset (List.mem_of_head? hr))

/-- An internal operation that meets no hardware reset. -/
theorem runInternal_writesAtMost (hf : Carries f) {x : Op Empty α} {g : α → OpResult}
    (hx : Keeps (fun _ => True) (WritesAtMost f) (WritesAtMost f) x) (hc : Calm s)
    (hn : runInternal (do let a ← x; pure (g a)) s = .next t) : WritesAtMost f s t := by
  have T := hf.tolerates (p := Config.params)
  obtain ⟨u, r, hu, rfl⟩ | ⟨u, hu, hreset, -⟩ :=
    runInternal_keeps (keeps_seq T hx fun a => keeps_pure T.refl (g a)) trivial hn
  · exact hu.trans hf (hf.putRet r u)
  · exact absurd hreset (hu.head_ne_reset hc)

/-- One that starts and ends with `SEQ` = `Idle`. -/
theorem runInternal_backToIdle (hf : Carries f) {x : Op Empty α} {g : α → OpResult}
    (hx : Keeps (fun _ => True) (BackToIdle (WritesAtMost f)) (WritesAtMost f) x) (hc : Calm s) (hs : s.seq = .idle)
    (hn : runInternal (do let a ← x; pure (g a)) s = .next t) : t = f s t ∧ s.seq = t.seq := by
  have T := hf.tolerates (p := Config.params)
  obtain ⟨u, r, ⟨hu, hidle⟩, rfl⟩ | ⟨u, hu, hreset, -⟩ :=
    runInternal_keeps (keeps_seq T.backToIdle hx fun a => keeps_pure T.backToIdle.refl (g a)) trivial hn
  · exact ⟨(hu.trans hf (hf.putRet r u)).regs, hs.trans (hidle hs).symm⟩
  · exact absurd hreset (hu.head_ne_reset hc)

end

/-- Settles O36: each of the operations writes at most its set of registers, and `SEQ` is `Idle` again at the end; what `wait`
leaves O26 has said. -/
theorem sequencerFrame : Obligations.SequencerFrame := by
  intro s t hc hs
  refine ⟨fun ignored hn => ?_, fun oss hn => ?_, fun cmd us hn => ?_, fun us hn => ?_, fun hn => ?_⟩
  · obtain ⟨hregs, hseq⟩ := runInternal_backToIdle temperatureRegs_carries
      (keeps_acquireRawTemperature temperatureRegs_acquires) hc hs hn
    rw [hseq]
    exact hregs
  · obtain ⟨hregs, hseq⟩ := runInternal_backToIdle pressureRegs_carries
      (keeps_acquireRawPressure pressureRegs_acquires oss) hc hs hn
    rw [hseq]
    exact hregs
  · obtain ⟨hregs, hseq⟩ := runInternal_backToIdle issueRegs_carries
      (keeps_issueAndWait_idle issueRegs_measures cmd us.toNat) hc hs hn
    rw [hseq]
    exact hregs
  · obtain ⟨-, -, hwait⟩ := waitLetsTheDelayPass
    obtain ⟨u, n, hu, hregs, -⟩ := hwait us s hc
    rw [hn] at hu
    cases hu
    have hret : t.ret = .unit := by rw [hregs]
    rw [hret]
    exact hregs
  · have T := loadRegs_carries.tolerates (p := Config.params)
    exact (runInternal_writesAtMost loadRegs_carries
      (keeps_load T (fun _ => .of_eq rfl rfl) fun _ _ => .of_eq rfl rfl) hc hn).regs

/-! ### Operations that raise -/

section
variable {φ α : Type} {p : Params} {R D : State → State → Prop} {s t : State} {x : Op φ α} {g : State → State}

/-- The state after the "on error" steps `g`: an error runs them, nothing else that stops does. -/
def onStop (g : State → State) : Stop φ → State → State
  | .raise _, t => g t
  | .dropped, t => t
  | .fault _, t => t

theorem Ends.onRaise {ok : α → State → Prop} {bad : Stop φ → State → Prop}
    (h : Ends x s ok fun e t => bad e (onStop g e t)) : Ends (x.onRaise g) s ok bad := by
  unfold Ends Op.onRaise at *
  cases hx : x s with
  | ok a t => rwa [hx] at h
  | error e t =>
    rw [hx] at h
    cases e <;> exact h

/-- An internal operation whose error stands in `ret` at the end has raised it, since it returns something else and hardware
reset clears `ret`. -/
theorem runInternal_raised {x : Op Empty α} {f : α → OpResult} {k : ErrKind}
    (h : Ends x s (fun _ _ => True) (Stopped R D s)) (hf : ∀ a, f a ≠ .raised k)
    (hn : runInternal (do let a ← x; pure (f a)) s = .next t) (hr : t.ret = .raised k) :
    ∃ u, R s u ∧ t = putRet (.raised k) u := by
  unfold Ends at h
  cases hx : x s with
  | ok a u =>
    have hok : (do let a ← x; pure (f a)) s = .ok (f a) u := bind_ok hx
    rw [runInternal_ok hok] at hn
    cases hn
    exact absurd hr (hf a)
  | error e u =>
    rw [hx] at h
    cases e with
    | raise j =>
      rw [runInternal_raise (bind_error hx)] at hn
      cases hn
      cases hr
      exact ⟨u, h, rfl⟩
    | dropped =>
      rw [runInternal_dropped (bind_error hx)] at hn
      obtain ⟨v, -, -, rfl⟩ := h
      cases hn
      cases hr
    | fault e => exact nomatch e

/-- What an acquisition does before it writes its count. -/
theorem allButCounts_measure (cmd : Byte) (us : Nat) :
    Keeps (fun _ => True) (WritesAtMost allButCounts) (WritesAtMost allButCounts)
      (do issue p cmd us; captureResult p : Op φ Unit) :=
  have M := allButCounts_measures
  keeps_seq M.toTolerates (keeps_issue M cmd us) fun _ =>
    keeps_capturePressure M (fun _ _ => .of_eq rfl rfl) (fun _ _ => .of_eq rfl rfl) fun _ _ => .of_eq rfl rfl

/-- An acquisition that raises has written no count, and `SEQ` is `Idle` again (spec/42_measurement.md R106). -/
theorem ends_acquisition {latch finish : State → State} {get : State → α} {cmd : Byte} {us : Nat} (hs : s.seq = .idle)
    (hl : WritesAtMost allButCounts s (latch s)) :
    Ends (do
        requireSequencerIdle
        Op.update latch
        (do issue p cmd us
            captureResult p : Op φ Unit).onRaise (setSequencer .idle)
        Op.update finish
        Op.read get : Op φ α) s (fun _ _ => True)
      (Stopped (ToIdle (WritesAtMost allButCounts)) (WritesAtMost allButCounts) s) := by
  have M := allButCounts_measures (p := p)
  rw [ends_bind, ends_ok (show (requireSequencerIdle : Op φ Unit) s = .ok () s from require_true (by simp [hs])),
    ends_bind, ends_ok (update_apply _), ends_bind]
  refine Ends.onRaise ((allButCounts_measure cmd us (latch s) trivial).mono (fun _ _ _ => trivial) fun e t h => ?_)
  have h := h.after M.toTolerates hl
  cases e with
  | raise k => exact ⟨M.trans _ _ _ h (M.sequencer _ _), rfl⟩
  | dropped => exact h
  | fault e => exact h

end

/-- Settles O33: an acquisition writes its count after the last exchange, and from there on nothing raises. -/
theorem failedResultReadWritesNoCount : Obligations.FailedResultReadWritesNoCount := by
  intro s t hc hs
  refine ⟨fun ignored hn hr => ?_, fun oss hn hr => ?_⟩
  · obtain ⟨u, ⟨⟨hu, -⟩, hseq⟩, rfl⟩ := runInternal_raised (ends_acquisition hs (.of_eq rfl rfl)) (by simp) hn hr
    exact ⟨hseq, (congrArg State.ut hu :), (congrArg State.utValid hu :)⟩
  · obtain ⟨u, ⟨⟨hu, -⟩, hseq⟩, rfl⟩ := runInternal_raised (ends_acquisition hs (.of_eq rfl rfl)) (by simp) hn hr
    exact ⟨hseq, (congrArg State.up hu :), (congrArg State.upValid hu :)⟩

end Sys2Proof.Machine
end

section
/-!
Relations that every operation keeps between the state it starts in and the one it leaves, when no hardware reset comes.
-/

namespace Sys2Proof.Machine

/-- A relation that every register write and every operation of the sequencer keeps, with a schedule that is only used up. -/
structure KeptThroughout (p : Params) (R : State → State → Prop) : Prop extends Computes p R R where
  sched        : ∀ s t, R s t → t.env.sched <:+ s.env.sched
  exchange     : ∀ w r s, R s (afterExchange p w r s)
  timer        : ∀ n s, R s (setTimer n s)
  session      : ∀ x s, R s (setSession x s)
  owned        : ∀ b s, R s (setOwned b s)
  busy         : ∀ b s, R s (setBusy b s)
  respond      : ∀ r s, R s (respond r s)
  ret          : ∀ r s, R s (putRet r s)
  cal          : ∀ blk s, R s (putCal blk s)
  calInvalid   : ∀ s, R s (clearCalValid s)
  readFlags    : ∀ s, R s (clearReadFlags s)
  issueAndWait : ∀ cmd us, Keeps (fun _ => True) R R (issueAndWait p cmd us : Op Empty Unit)
  temperature  : ∀ φ, Keeps (fun _ => True) R R (acquireRawTemperature p : Op φ Half)
  pressure     : ∀ φ o, Keeps (fun _ => True) R R (acquireRawPressure p o : Op φ Count20)

section
variable {α : Type} {p : Params} {R : State → State → Prop} {s t u : State} {i : Instr}

theorem KeptThroughout.head_ne_reset (h : KeptThroughout p R) (hc : Calm s) (hu : R s u) :
    u.env.sched.head? ≠ some .hardwareReset :=
  fun hr => hc ((h.sched s u hu).subset (List.mem_of_head? hr))

/-- With no hardware reset coming an internal operation ends in the write of `ret`. -/
theorem KeptThroughout.returned (h : KeptThroughout p R) (hc : Calm s)
    (ht : (∃ u r, R s u ∧ t = putRet r u) ∨
      ∃ u, R s u ∧ u.env.sched.head? = some .hardwareReset ∧ t = hardwareReset (dropAct u)) : R s t := by
  obtain ⟨u, r, hu, rfl⟩ | ⟨u, hu, hreset, -⟩ := ht
  · exact h.trans _ _ _ hu (h.ret r u)
  · exact absurd hreset (h.head_ne_reset hc hu)

/-- With no hardware reset coming a command ends in its response. -/
theorem KeptThroughout.responded (h : KeptThroughout p R) (hc : Calm s)
    (ht : (∃ r u, R (setBusy true s) u ∧ t = setBusy false (Machine.respond r u)) ∨
      ∃ u, R (setBusy true s) u ∧ u.env.sched.head? = some .hardwareReset ∧ t = hardwareReset (dropAct u)) : R s t := by
  obtain ⟨r, u, hu, rfl⟩ | ⟨u, hu, hreset, -⟩ := ht
  · exact h.trans _ _ _ (h.busy true s)
      (h.trans _ _ _ hu (h.trans _ _ _ (h.respond r u) (h.busy false _)))
  · exact absurd hreset (h.head_ne_reset (s := setBusy true s) hc hu)

theorem KeptThroughout.runInternal (h : KeptThroughout p R) {x : Op Empty α} {f : α → OpResult}
    (hx : Keeps (fun _ => True) R R x) (hc : Calm s)
    (hn : Machine.runInternal (do let a ← x; pure (f a)) s = .next t) : R s t :=
  h.returned hc (runInternal_keeps (keeps_seq h.toTolerates hx fun a => keeps_pure h.refl (f a)) trivial hn)

theorem KeptThroughout.runEngine (h : KeptThroughout p R) {x : Op Fault Unit} (hx : Keeps (fun _ => True) R R x)
    (hc : Calm s) (hn : Machine.runEngine (do x; pure .unit) s = .next t) : R s t :=
  h.returned hc (runEngine_keeps (keeps_seq h.toTolerates hx fun _ => keeps_pure h.refl _) trivial hn)

theorem KeptThroughout.runCommand (h : KeptThroughout p R) {x : Op Empty Payload} (hx : Keeps (fun _ => True) R R x)
    (hc : Calm s) (hn : Machine.runCommand p i x s = .next t) : R s t := by
  cases hb : s.busy with
  | true =>
    rw [runCommand_busy hb] at hn
    cases hn
    exact h.acted _ _ (present_acted _)
  | false => exact h.responded hc (runCommand_keeps h.toTolerates hx trivial hb hn)

theorem KeptThroughout.runEngineCommand (h : KeptThroughout p R) {x : Op Fault Payload}
    (hx : Keeps (fun _ => True) R R x) (hc : Calm s) (hn : Machine.runEngineCommand p i x s = .next t) : R s t := by
  cases hb : s.busy with
  | true =>
    rw [runEngineCommand_busy hb] at hn
    cases hn
    exact h.acted _ _ (present_acted _)
  | false => exact h.responded hc (runEngineCommand_keeps h.toTolerates hx trivial hb hn)

theorem KeptThroughout.engineStep (h : KeptThroughout p R) {k : Nat} {f : State → Except ErrKind State}
    (hf : ∀ {s t}, f s = .ok t → EngineRegs s t) (hc : Calm s)
    (hn : Machine.runInternal (do engineStep k f; pure .unit) s = .next t) : R s t :=
  h.runInternal (keeps_engineStep k f (fun _ _ _ hg => h.step (hf hg) _) fun u _ => h.cstep 0 u) hc hn

theorem KeptThroughout.pressureStep (h : KeptThroughout p R) {k : Nat} {f : State → Except ErrKind State}
    (hf : ∀ {s t}, f s = .ok t → EngineRegs s t ∧ t.b5Valid = s.b5Valid) (hc : Calm s)
    (hn : Machine.runEngine (do pressureStep k f; pure .unit) s = .next t) : R s t :=
  h.runEngine (keeps_pressureStep h.toComputes k f hf) hc hn

theorem KeptThroughout.exec_command (h : KeptThroughout Config.params R) (hi : isCommand i = true) (hc : Calm s)
    (hn : exec i s = .next t) : R s t := by
  have T := h.toTolerates
  have hx : ∀ {w r} u, R u (afterExchange Config.params w r u) := h.exchange _ _
  have leave : ∀ x u, R u (setSession x (clearCalValid u)) := fun x u =>
    h.trans _ _ _ (h.calInvalid u) (h.session x _)
  have close : ∀ u, R u (setOwned false (setSession .closed (clearCalValid u))) := fun u =>
    h.trans _ _ _ (leave _ u) (h.owned _ _)
  cases i
  case configure =>
    exact h.runCommand (keeps_configure T hx h.issueAndWait h.cal h.calInvalid (h.session _)) hc hn
  case shutdown => exact h.runCommand (keeps_shutdown T (fun _ => hx) (h.session _) close) hc hn
  case reset => exact h.runCommand (keeps_resetSensor T (fun _ => hx) (leave _)) hc hn
  case readRegisterRaw => exact h.runCommand (keeps_readRegisterRaw T hx) hc hn
  case writeRegisterRaw => exact h.runCommand (keeps_writeRegisterRaw T hx) hc hn
  case readCompensated =>
    exact h.runEngineCommand (keeps_readCompensated T (h.temperature _) (h.pressure _ _) (keeps_engineRun h.toComputes)
      h.readFlags) hc hn
  case openSession =>
    exact h.runCommand (keeps_openSession T fun u => h.trans _ _ _ (h.owned _ u) (h.session _ _)) hc hn
  case closeSession => exact h.runCommand (keeps_closeSession T (fun _ => hx) (h.session _) close) hc hn
  case invalid => exact h.runCommand (keeps_invalidCommand T.refl) hc hn
  all_goals cases hi

theorem KeptThroughout.exec_pressureStep (h : KeptThroughout Config.params R) (hi : isPressureStep i = true) (hc : Calm s)
    (hn : exec i s = .next t) : R s t := by
  cases i
  case engineStep5 => exact h.pressureStep compute5_regs hc hn
  case engineStep6 => exact h.pressureStep compute6_regs hc hn
  case engineStep7 => exact h.pressureStep compute7_regs hc hn
  case engineStep8 => exact h.pressureStep compute8_regs hc hn
  case engineStep9 => exact h.pressureStep compute9_regs hc hn
  case engineStep10 => exact h.pressureStep compute10_regs hc hn
  case engineStep11 => exact h.pressureStep compute11_regs hc hn
  case engineStep12 => exact h.pressureStep compute12_regs hc hn
  case engineStep13 => exact h.pressureStep compute13_regs hc hn
  case engineStep14 => exact h.pressureStep compute14_regs hc hn
  case engineStep15 => exact h.pressureStep compute15_regs hc hn
  case engineStep16 => exact h.runEngine (keeps_engineStep16 h.toComputes) hc hn
  case engineStep17 => exact h.pressureStep compute17_regs hc hn
  case engineStep18 => exact h.pressureStep compute18_regs hc hn
  all_goals cases hi

/-- Every operation keeps such a relation. -/
theorem KeptThroughout.exec (h : KeptThroughout Config.params R) (hc : Calm s) (hn : exec i s = .next t) : R s t := by
  have T := h.toTolerates
  have hx : ∀ {w r} u, R u (afterExchange Config.params w r u) := h.exchange _ _
  cases i
  case configure | shutdown | reset | readRegisterRaw | writeRegisterRaw | readCompensated | openSession | closeSession
      | invalid => exact h.exec_command rfl hc hn
  case rd1 | wr1 | rdn => exact h.runInternal (keeps_exchange T hx) hc hn
  case readRegister => exact h.runInternal (keeps_readRegister T hx) hc hn
  case writeRegister | cmdTemp | cmdPress | softResetValue | powerDownValue =>
    exact h.runInternal (keeps_writeRegister T hx) hc hn
  case readBlock => exact h.runInternal (keeps_readBlock T hx) hc hn
  case load => exact h.runInternal (keeps_load T hx h.cal) hc hn
  case acquireRawTemperature => exact h.runInternal (h.temperature _) hc hn
  case acquireRawPressure oss => exact h.runInternal (h.pressure _ oss) hc hn
  case issueAndWait cmd us => exact h.runInternal (h.issueAndWait cmd us.toNat) hc hn
  case wait us => exact h.runInternal (keeps_wait T h.timer us.toNat) hc hn
  case engineStep1 => exact h.engineStep (fun hg => (compute1_regs hg).1) hc hn
  case engineStep2 => exact h.engineStep (fun hg => (compute2_regs hg).1) hc hn
  case engineStep3 => exact h.engineStep (fun hg => (compute3_regs hg).1) hc hn
  case engineStep4 => exact h.engineStep (fun hg => (compute4_regs hg).1) hc hn
  all_goals exact h.exec_pressureStep rfl hc hn

end

end Sys2Proof.Machine
end

section
/-!
The path of `SEQ` (spec/42_measurement.md R100): each operation of the sequencer as moves from one value to the next, and no
other operation writes it.
-/

namespace Sys2Proof.Machine

theorem sequencerOf_append (new old : List (Nat × Event)) :
    sequencerOf (new ++ old) = sequencerOf new ++ sequencerOf old := by
  induction new with
  | nil => rfl
  | cons e l ih =>
    obtain ⟨time, event⟩ := e
    cases event with
    | sequencer x => exact congrArg _ ih
    | exchange | response | session | hardwareReset => exact ih

theorem SeqPath.append {a b c : SeqState} {old new : List SeqState} (h : SeqPath a old b) (g : SeqPath b new c) :
    SeqPath a (new ++ old) c := by
  induction new generalizing c with
  | nil =>
    obtain rfl := g
    exact h
  | cons x l ih =>
    obtain ⟨rfl, y, hy, hmove⟩ := g
    exact ⟨rfl, y, ih hy, hmove⟩

theorem seqMove_toIdle {x : SeqState} (h : x ≠ .idle) : seqMove x .idle = true := by
  cases x with
  | idle => exact absurd rfl h
  | commandIssued | waiting | resultReady => rfl

/-- From `s` to `t` the trace has grown, and the values of `SEQ` in what it gained are a path from the value in `s` to the one
in `t`. The schedule has only been used up, so that a hardware reset was in it from the start. -/
structure Follows (s t : State) : Prop where
  path  : ∃ new, t.env.log = new ++ s.env.log ∧ SeqPath s.seq (sequencerOf new) t.seq
  sched : t.env.sched <:+ s.env.sched

/-- The same, and `SEQ` stands where it stood. -/
abbrev Stands (s t : State) : Prop := Follows s t ∧ t.seq = s.seq

section
variable {φ α β : Type} {p : Params} {s t u : State}

theorem Follows.trans (h : Follows s t) (g : Follows t u) : Follows s u := by
  obtain ⟨old, hold, hpath⟩ := h.path
  obtain ⟨new, hnew, gpath⟩ := g.path
  refine ⟨⟨new ++ old, by rw [hnew, hold, List.append_assoc], ?_⟩, g.sched.trans h.sched⟩
  rw [sequencerOf_append]
  exact hpath.append gpath

theorem follows_setSequencer {x : SeqState} (h : seqMove s.seq x = true) : Follows s (setSequencer x s) :=
  ⟨⟨[_], rfl, rfl, s.seq, rfl, h⟩, List.suffix_rfl⟩

theorem follows_of_stands (h : Stands s t) : Follows s t := h.1

/-- What is written to the trace is no value of `SEQ`. -/
theorem stands_of_log {new : List (Nat × Event)} (hl : t.env.log = new ++ s.env.log) (hn : sequencerOf new = [])
    (hq : t.seq = s.seq) (hs : t.env.sched <:+ s.env.sched) : Stands s t :=
  ⟨⟨⟨new, hl, by rw [hn, hq]; rfl⟩, hs⟩, hq⟩

/-- Nothing is written to the trace. -/
theorem stands_of_eq (hl : t.env.log = s.env.log := by rfl) (hq : t.seq = s.seq := by rfl)
    (hs : t.env.sched = s.env.sched := by rfl) : Stands s t :=
  stands_of_log (new := []) hl rfl hq (hs ▸ List.suffix_rfl)

/-- One entry is written to the trace, which is no value of `SEQ`. -/
theorem stands_of_event {e : Nat × Event} (hl : t.env.log = e :: s.env.log := by rfl) (he : sequencerOf [e] = [] := by rfl)
    (hq : t.seq = s.seq := by rfl) (hs : t.env.sched = s.env.sched := by rfl) : Stands s t :=
  stands_of_log (new := [e]) hl he hq (hs ▸ List.suffix_rfl)

/-- The answers to words refused at the port are no values of `SEQ`. -/
theorem sequencerOf_responses {l : List (Nat × Event)} {r : Response} (h : ∀ e ∈ l, e.2 = .response r) :
    sequencerOf l = [] := by
  induction l with
  | nil => rfl
  | cons e l ih =>
    obtain ⟨time, event⟩ := e
    obtain rfl : event = .response r := h _ List.mem_cons_self
    exact ih fun x hx => h x (List.mem_cons_of_mem _ hx)

theorem Acted.stands (h : Acted p s t) : Stands s t := by
  obtain ⟨refused, hl, hr, -⟩ := h.log
  exact stands_of_log hl (sequencerOf_responses hr) h.seq h.sched

theorem stands_tolerates : Tolerates p Stands Follows where
  refl _           := stands_of_eq
  trans _ _ _ h g  := ⟨h.1.trans g.1, g.2.trans h.2⟩
  acted _ _        := Acted.stands
  weaken _ _       := And.left
  after _ _ _ h    := h.1.trans

theorem follows_computes : Computes p Follows Follows where
  refl _        := follows_of_stands stands_of_eq
  trans _ _ _   := .trans
  acted _ _ ha  := ha.stands.1
  weaken _ _    := id
  after _ _ _   := .trans
  engine _ _ ht := follows_of_stands (stands_of_eq (by rw [ht]) (by rw [ht]) (by rw [ht]))
  cstep _ _     := follows_of_stands stands_of_eq

/-! ### Walks of the sequencer -/

/-- From `SEQ` = `a` the operation takes `SEQ` along its path to `b` when it returns, and to a value of `raised` when it
raises. -/
def Walks (a b : SeqState) (raised : SeqState → Prop) (x : Op φ α) : Prop :=
  ∀ s, s.seq = a →
    Ends x s (fun _ t => Follows s t ∧ t.seq = b) (Stopped (fun s t => Follows s t ∧ raised t.seq) Follows s)

variable {a b c : SeqState} {raised : SeqState → Prop} {x : Op φ α} {f : α → Op φ β}

/-- A stop seen from another start, or as another one. -/
theorem Stopped.imp {R R' D D' : State → State → Prop} {e : Stop φ} (h : Stopped R D t e u)
    (hR : ∀ v, R t v → R' s v) (hD : ∀ v, D t v → D' s v) : Stopped R' D' s e u := by
  cases e with
  | raise k => exact hR _ h
  | fault k => exact hD _ h
  | dropped =>
    obtain ⟨v, hv, hreset, rfl⟩ := h
    exact ⟨v, hD v hv, hreset, rfl⟩

theorem walks_bind (hx : Walks a b raised x) (hf : ∀ v, Walks b c raised (f v)) : Walks a c raised (x >>= f) := by
  intro s hs
  rw [ends_bind]
  refine (hx s hs).mono (fun v t ⟨hst, ht⟩ => ?_) fun _ _ h => h
  exact (hf v t ht).mono (fun _ u ⟨htu, hu⟩ => ⟨hst.trans htu, hu⟩)
    fun e u h => h.imp (fun _ ⟨hv, hr⟩ => ⟨hst.trans hv, hr⟩) fun _ => hst.trans

theorem walks_of_stands (h : Keeps (fun _ => True) Stands Follows x) (ha : raised a) : Walks a a raised x :=
  fun s hs => (h s trivial).mono (fun _ _ ⟨hf, hq⟩ => ⟨hf, hq.trans hs⟩)
    fun _ _ h => h.imp (fun _ ⟨hf, hq⟩ => ⟨hf, by rwa [hq, hs]⟩) fun _ => id

/-- A write of registers, `SEQ` not among them. -/
theorem walks_update {g : State → State} (h : ∀ s, Stands s (g s)) : Walks a a raised (Op.update g : Op φ Unit) :=
  fun _ hs => ⟨follows_of_stands (h _), (h _).2.trans hs⟩

theorem walks_setSequencer (h : seqMove a b = true) :
    Walks a b raised (Op.update (setSequencer b) : Op φ Unit) :=
  fun _ hs => ⟨follows_setSequencer (hs ▸ h), rfl⟩

theorem walks_read (g : State → α) : Walks a a raised (Op.read g : Op φ α) :=
  fun _ hs => ⟨follows_of_stands stands_of_eq, hs⟩

/-- An error in the middle of an operation puts `SEQ` back to `Idle`. -/
theorem walks_onRaise (h : Walks a b (· ≠ .idle) x) : Walks a b (· = .idle) (x.onRaise (setSequencer .idle)) := by
  intro s hs
  refine Ends.onRaise ((h s hs).mono (fun _ _ h => h) fun e t h => ?_)
  cases e with
  | raise k =>
    obtain ⟨hf, hq⟩ := h
    exact ⟨hf.trans (follows_setSequencer (seqMove_toIdle hq)), rfl⟩
  | dropped => exact h
  | fault k => exact h

theorem walks_issue (cmd : Byte) (us : Nat) : Walks .idle .waiting (· ≠ .idle) (issue p cmd us : Op φ Unit) := by
  have T := stands_tolerates (p := p)
  refine walks_bind (walks_setSequencer (b := .commandIssued) rfl) fun _ => ?_
  refine walks_bind (walks_of_stands (keeps_writeRegister T fun _ => stands_of_event) (by decide)) fun _ => ?_
  refine walks_bind (walks_setSequencer rfl) fun _ => walks_of_stands (keeps_wait T (fun _ _ => stands_of_eq) us) (by decide)

theorem walks_captureResult : Walks .waiting .resultReady (· ≠ .idle) (captureResult p : Op φ Unit) := by
  have T := stands_tolerates (p := p)
  have read : ∀ k, Keeps (fun _ => True) Stands Follows (readRegister p (resultAddr p k) : Op φ Byte) :=
    fun _ => keeps_readRegister T fun _ => stands_of_event
  refine walks_bind (walks_setSequencer rfl) fun _ => walks_of_stands ?_ (by decide)
  refine keeps_seq T (read 0) fun m => keeps_seq T (keeps_update fun _ _ => stands_of_eq) fun _ => ?_
  refine keeps_seq T (read 1) fun l => keeps_seq T (keeps_update fun _ _ => stands_of_eq) fun _ => ?_
  refine keeps_seq T (keeps_read T.refl _) fun kind => ?_
  cases kind with
  | temperature => exact keeps_pure T.refl ()
  | pressure => exact keeps_seq T (read 2) fun x => keeps_update fun _ _ => stands_of_eq

/-- An acquisition after its check, whatever it latches and puts into the count. -/
theorem walks_acquisition {latch put : State → State} {get : State → α} {cmd : Byte} {us : Nat}
    (hl : ∀ s, Stands s (latch s)) (hp : ∀ s, Stands s (put s)) :
    Walks .idle .idle (· = .idle) (do
      Op.update latch
      (do issue p cmd us
          captureResult p : Op φ Unit).onRaise (setSequencer .idle)
      Op.update fun s => setSequencer .idle (put s)
      Op.read get : Op φ α) := by
  refine walks_bind (walks_update hl) fun _ => ?_
  refine walks_bind (walks_onRaise (walks_bind (walks_issue cmd us) fun _ => walks_captureResult)) fun _ => ?_
  refine walks_bind (fun s hs => ?_) fun _ => walks_read get
  obtain ⟨hf, hq⟩ := hp s
  exact ⟨hf.trans (follows_setSequencer (by rw [hq, hs]; rfl)), rfl⟩

/-- An operation of the sequencer, with its check of `SEQ`. -/
theorem keepsPath_checked {g : Unit → Op φ α} (hg : Walks .idle b raised (g ())) :
    Keeps (fun _ => True) Follows Follows (requireSequencerIdle >>= g) := by
  intro s _
  rw [ends_bind]
  by_cases hs : s.seq = .idle
  · rw [ends_ok (show (requireSequencerIdle : Op φ Unit) s = .ok () s from require_true (by simp [hs]))]
    exact (hg s hs).mono (fun _ _ => And.left) fun _ _ h => h.imp (fun _ => And.left) fun _ => id
  · rw [ends_error (requireSequencerIdle_raise hs)]
    exact follows_of_stands stands_of_eq

theorem keepsPath_issueAndWait (cmd : Byte) (us : Nat) :
    Keeps (fun _ => True) Follows Follows (issueAndWait p cmd us : Op φ Unit) :=
  keepsPath_checked (walks_bind (walks_onRaise (walks_issue cmd us)) fun _ => walks_setSequencer rfl)

theorem keepsPath_acquireRawTemperature : Keeps (fun _ => True) Follows Follows (acquireRawTemperature p : Op φ Half) :=
  keepsPath_checked (walks_acquisition (fun _ => stands_of_eq) fun _ => stands_of_eq)

theorem keepsPath_acquireRawPressure (o : Level) :
    Keeps (fun _ => True) Follows Follows (acquireRawPressure p o : Op φ Count20) :=
  keepsPath_checked (walks_acquisition (fun _ => stands_of_eq) fun _ => stands_of_eq)

theorem follows_keptThroughout : KeptThroughout p Follows where
  toComputes       := follows_computes
  sched _ _        := Follows.sched
  exchange _ _ _   := follows_of_stands stands_of_event
  timer _ _        := follows_of_stands stands_of_eq
  session _ _      := follows_of_stands stands_of_event
  owned _ _        := follows_of_stands stands_of_eq
  busy _ _         := follows_of_stands stands_of_eq
  respond _ _      := follows_of_stands stands_of_event
  ret _ _          := follows_of_stands stands_of_eq
  cal _ _          := follows_of_stands stands_of_eq
  calInvalid _     := follows_of_stands stands_of_eq
  readFlags _      := follows_of_stands stands_of_eq
  issueAndWait     := keepsPath_issueAndWait
  temperature _    := keepsPath_acquireRawTemperature
  pressure _       := keepsPath_acquireRawPressure

end

/-- Settles O35: every write of `SEQ` is a move of the sequencer's walk, which starts from `Idle` after its check; what every
operation is put together from keeps the relation `Follows`. -/
theorem sequencerFollowsItsChain : Obligations.SequencerFollowsItsChain :=
  fun _ _ _ hc hn => (follows_keptThroughout.exec hc hn).path

end Sys2Proof.Machine
end

section
/-!
The steps of the engine on their own (spec/43_compensation.md R121 to R143). A step's computation is a chain of range checks and
one register write: what its checks ask for and what it computes are read off its definition, and `StepWrites` follows.
-/

namespace Sys2Proof.Machine

/-- The computation passes all its range checks exactly when `checks` holds, and then gives `a`; otherwise it raises
`CompensationOverflow` (spec/43_compensation.md R121). -/
def Passes {α : Type} (x : Except ErrKind α) (checks : Prop) (a : α) : Prop :=
  (checks → x = .ok a) ∧ (¬ checks → x = .error .compensationOverflow)

section
variable {α β : Type} {x : Except ErrKind α} {f : α → Except ErrKind β} {c d : Prop} {a : α} {b : β}

theorem passes_chkS32 (v : Int) : Passes (chkS32 v) (InS32 v) v := ⟨chkS32_ok, chkS32_fail⟩

theorem passes_chkU32 (v : Int) : Passes (chkU32 v) (InU32 v) v := ⟨chkU32_ok, chkU32_fail⟩

/-- A check, and the rest of the chain. -/
theorem Passes.bind (hx : Passes x c a) (hf : Passes (f a) d b) : Passes (x >>= f) (c ∧ d) b := by
  by_cases hc : c
  · rw [hx.1 hc, except_bind_ok]
    exact ⟨fun h => hf.1 h.2, fun h => hf.2 fun hd => h ⟨hc, hd⟩⟩
  · rw [hx.2 hc, except_bind_error]
    exact ⟨fun h => absurd h.1 hc, fun _ => rfl⟩

/-- A check behind which nothing raises. -/
theorem Passes.last (hx : Passes x c a) (hf : f a = .ok b) : Passes (x >>= f) c b :=
  ⟨fun hc => by rw [hx.1 hc, except_bind_ok, hf], fun hc => by rw [hx.2 hc, except_bind_error]⟩

/-- A start of the chain that does not raise. -/
theorem Passes.after (hx : x = .ok a) (hf : Passes (f a) c b) : Passes (x >>= f) c b := by
  rwa [hx, except_bind_ok]

end

section
variable {s : State} {i : Instr} {k : Nat} {f : State → Except ErrKind State} {put : Word → Staging} {checks : Prop}
  {next : BitVec 5} {v : Int}

theorem stepWrites_of_passes (he : exec i s = runInternal (do engineStep k f; pure .unit) s)
    (h : Passes (f s) checks { s with stg := put (toWord v) }) (hv : checks → InS32 v) (hk : nextStep k = next := by rfl) :
    StepWrites i s put next checks v :=
  stepWrites_of he hk hv h.1 h.2

theorem stepWritesUnsigned_of_passes (he : exec i s = runInternal (do engineStep k f; pure .unit) s)
    (h : Passes (f s) checks { s with stg := put (toWord v) }) (hv : checks → InU32 v) (hk : nextStep k = next := by rfl) :
    StepWritesUnsigned i s put next checks v :=
  stepWritesUnsigned_of he hk hv h.1 h.2

end

/-! ### The temperature -/

section
variable {s : State}

theorem compute1_passes (s : State) :
    Passes (compute1 s) (InS32 (((s.ut.toNat : Int) - s.cal.ac6.toNat) * s.cal.ac5.toNat))
      { s with stg := { s.stg with
        x1 := toWord ((((s.ut.toNat : Int) - s.cal.ac6.toNat) * s.cal.ac5.toNat) / 2 ^ 15) } } := by
  have hd : InS32 ((s.ut.toNat : Int) - s.cal.ac6.toNat) := by
    have := s.ut.isLt
    have := s.cal.ac6.isLt
    constructor <;> omega
  simp only [compute1, asr_eq]
  exact .after (chkS32_ok hd) (.last (passes_chkS32 _) rfl)

theorem mc_mul_bounds (s : State) : -67108864 ≤ s.cal.mc.toInt * 2048 ∧ s.cal.mc.toInt * 2048 ≤ 67108864 := by
  have := half_toInt_bounds s.cal.mc
  omega

/-- The second check of step 2, of `MC << 11`, always passes. -/
theorem compute2_passes (hd : s.stg.x1.toInt + s.cal.md.toInt ≠ 0) :
    Passes (compute2 Config.params s) (InS32 (s.stg.x1.toInt + s.cal.md.toInt))
      { s with stg := { s.stg with
        x2 := toWord ((s.cal.mc.toInt * 2048).tdiv (s.stg.x1.toInt + s.cal.md.toInt)) } } := by
  have hn : InS32 (shl s.cal.mc.toInt 11) := by
    have := mc_mul_bounds s
    rw [shl_eq]
    constructor <;> omega
  refine .last (passes_chkS32 _) ?_
  simp only [md, mc, nonzero_ok hd, except_bind_ok, chkS32_ok hn]
  rfl

theorem compute2_zero (hd : s.stg.x1.toInt + s.cal.md.toInt = 0) :
    compute2 Config.params s = .error .compensationDomainError := by
  simp only [compute2, md, hd]
  rfl

/-- The quotient of step 2 is no larger than `MC << 11`. -/
theorem inS32_quotient (s : State) (d : Int) : InS32 ((s.cal.mc.toInt * 2048).tdiv d) := by
  have := tdiv_bounds (d := d) (mc_mul_bounds s)
  constructor <;> omega

theorem compute3_passes (s : State) :
    Passes (compute3 s) (InS32 (s.stg.x1.toInt + s.stg.x2.toInt))
      { s with stg := { s.stg with b5 := toWord (s.stg.x1.toInt + s.stg.x2.toInt) }, b5Valid := true } :=
  .last (passes_chkS32 _) rfl

theorem compute4_passes (s : State) :
    Passes (compute4 s) (InS32 (s.stg.b5.toInt + 8))
      { s with stg := { s.stg with t := toWord ((s.stg.b5.toInt + 8) / 2 ^ 4) } } := by
  simp only [compute4, asr_eq]
  exact .last (passes_chkS32 _) rfl

end

/-- Settles O37, step by step. -/
theorem temperatureSteps : Obligations.TemperatureSteps := by
  intro s
  refine ⟨?step1, ?step2zero, ?step2, ?step3, ?step3fail, ?step4⟩
  case step1 => exact stepWrites_of_passes rfl (compute1_passes s) inS32_div
  case step2zero => exact fun _ hd => runEngineStep_raise (compute2_zero hd)
  case step2 => exact fun hd => stepWrites_of_passes rfl (compute2_passes hd) fun _ => inS32_quotient s _
  case step3 => exact fun h => ⟨_, toWord_toInt h, runEngineStep_ok ((compute3_passes s).1 h)⟩
  case step3fail => exact fun h => runEngineStep_raise ((compute3_passes s).2 h)
  case step4 => exact stepWrites_of_passes rfl (compute4_passes s) inS32_div

/-! ### The pressure -/

theorem compute5_passes (s : State) :
    Passes (compute5 s) (InS32 (s.stg.b5.toInt - 4000))
      { s with stg := { s.stg with b6 := toWord (s.stg.b5.toInt - 4000) } } :=
  .last (passes_chkS32 _) rfl

theorem compute6_passes (s : State) :
    Passes (compute6 s)
      (InS32 (s.stg.b6.toInt * s.stg.b6.toInt) ∧ InS32 (s.cal.b2.toInt * (s.stg.b6.toInt * s.stg.b6.toInt / 2 ^ 12)))
      { s with stg := { s.stg with
        x1 := toWord (s.cal.b2.toInt * (s.stg.b6.toInt * s.stg.b6.toInt / 2 ^ 12) / 2 ^ 11) } } := by
  simp only [compute6, asr_eq]
  exact .bind (passes_chkS32 _) (.last (passes_chkS32 _) rfl)

theorem compute7_passes (s : State) :
    Passes (compute7 s) (InS32 (s.cal.ac2.toInt * s.stg.b6.toInt))
      { s with stg := { s.stg with x2 := toWord (s.cal.ac2.toInt * s.stg.b6.toInt / 2 ^ 11) } } := by
  simp only [compute7, asr_eq]
  exact .last (passes_chkS32 _) rfl

theorem compute8_passes (s : State) :
    Passes (compute8 s) (InS32 (s.stg.x1.toInt + s.stg.x2.toInt))
      { s with stg := { s.stg with x3 := toWord (s.stg.x1.toInt + s.stg.x2.toInt) } } :=
  .last (passes_chkS32 _) rfl

/-- The first check of step 9, of `AC1 × 4`, always passes. -/
theorem compute9_passes (s : State) :
    Passes (compute9 Config.params s)
      (InS32 (s.cal.ac1.toInt * 4 + s.stg.x3.toInt) ∧
        InS32 ((s.cal.ac1.toInt * 4 + s.stg.x3.toInt) * 2 ^ s.oss.toNat) ∧
        InS32 ((s.cal.ac1.toInt * 4 + s.stg.x3.toInt) * 2 ^ s.oss.toNat + 2))
      { s with stg := { s.stg with
        b3 := toWord (((s.cal.ac1.toInt * 4 + s.stg.x3.toInt) * 2 ^ s.oss.toNat + 2) / 2 ^ 2) } } := by
  have hm : InS32 (s.cal.ac1.toInt * 4) := by
    have := half_toInt_bounds s.cal.ac1
    constructor <;> omega
  simp only [compute9, asr_eq]
  exact .after (chkS32_ok hm) (.bind (passes_chkS32 _) (.bind (passes_chkS32 _) (.last (passes_chkS32 _) rfl)))

/-- Settles O38: with `B5_VALID` = 1 each step is run like one of the temperature half. -/
theorem pressureStepsToB3 : Obligations.PressureStepsToB3 := by
  intro s hb
  have run := fun k f => runEngine_pressureStep (k := k) (f := f) hb
  refine ⟨?step5, ?step6, ?step7, ?step8, ?step9⟩
  case step5 => exact stepWrites_of_passes (run _ _) (compute5_passes s) id
  case step6 => exact stepWrites_of_passes (run _ _) (compute6_passes s) fun ⟨_, h⟩ => inS32_div h
  case step7 => exact stepWrites_of_passes (run _ _) (compute7_passes s) inS32_div
  case step8 => exact stepWrites_of_passes (run _ _) (compute8_passes s) id
  case step9 => exact stepWrites_of_passes (run _ _) (compute9_passes s) fun ⟨_, _, h⟩ => inS32_div h

theorem compute10_passes (s : State) :
    Passes (compute10 s) (InS32 (s.cal.ac3.toInt * s.stg.b6.toInt))
      { s with stg := { s.stg with x1 := toWord (s.cal.ac3.toInt * s.stg.b6.toInt / 2 ^ 13) } } := by
  simp only [compute10, asr_eq]
  exact .last (passes_chkS32 _) rfl

theorem compute11_passes (s : State) :
    Passes (compute11 s)
      (InS32 (s.stg.b6.toInt * s.stg.b6.toInt) ∧ InS32 (s.cal.b1.toInt * (s.stg.b6.toInt * s.stg.b6.toInt / 2 ^ 12)))
      { s with stg := { s.stg with
        x2 := toWord (s.cal.b1.toInt * (s.stg.b6.toInt * s.stg.b6.toInt / 2 ^ 12) / 2 ^ 16) } } := by
  simp only [compute11, asr_eq]
  exact .bind (passes_chkS32 _) (.last (passes_chkS32 _) rfl)

theorem compute12_passes (s : State) :
    Passes (compute12 s) (InS32 (s.stg.x1.toInt + s.stg.x2.toInt) ∧ InS32 (s.stg.x1.toInt + s.stg.x2.toInt + 2))
      { s with stg := { s.stg with x3 := toWord ((s.stg.x1.toInt + s.stg.x2.toInt + 2) / 2 ^ 2) } } := by
  simp only [compute12, asr_eq]
  exact .bind (passes_chkS32 _) (.last (passes_chkS32 _) rfl)

theorem compute13_passes (s : State) :
    Passes (compute13 s) (InU32 (s.stg.x3.toInt + 32768) ∧ InU32 (s.cal.ac4.toNat * (s.stg.x3.toInt + 32768)))
      { s with stg := { s.stg with b4 := toWord (s.cal.ac4.toNat * (s.stg.x3.toInt + 32768) / 2 ^ 15) } } := by
  simp only [compute13, asr_eq]
  exact .bind (passes_chkU32 _) (.last (passes_chkU32 _) rfl)

theorem compute14_passes (s : State) :
    Passes (compute14 s)
      (InU32 ((s.up.toNat : Int) - s.stg.b3.toInt) ∧
        InU32 (((s.up.toNat : Int) - s.stg.b3.toInt) * (50000 / 2 ^ s.oss.toNat)))
      { s with stg := { s.stg with
        b7 := toWord (((s.up.toNat : Int) - s.stg.b3.toInt) * (50000 / 2 ^ s.oss.toNat)) } } := by
  simp only [compute14, asr_eq]
  exact .bind (passes_chkU32 _) (.last (passes_chkU32 _) rfl)

/-- Settles O39, in the same way. -/
theorem pressureStepsToB7 : Obligations.PressureStepsToB7 := by
  intro s hb
  have run := fun k f => runEngine_pressureStep (k := k) (f := f) hb
  refine ⟨?step10, ?step11, ?step12, ?step13, ?step14⟩
  case step10 => exact stepWrites_of_passes (run _ _) (compute10_passes s) inS32_div
  case step11 => exact stepWrites_of_passes (run _ _) (compute11_passes s) fun ⟨_, h⟩ => inS32_div h
  case step12 => exact stepWrites_of_passes (run _ _) (compute12_passes s) fun ⟨_, h⟩ => inS32_div h
  case step13 => exact stepWritesUnsigned_of_passes (run _ _) (compute13_passes s) fun ⟨_, h⟩ => inU32_div h
  case step14 => exact stepWritesUnsigned_of_passes (run _ _) (compute14_passes s) And.right

section
variable {s : State}

theorem runEngine_unit {t : State} {x : Op Fault Unit} (h : x s = .ok () t) :
    runEngine (do x; pure .unit) s = .next (putRet .unit t) :=
  runEngine_ok ((bind_ok h).trans rfl)

theorem compute15_zero (h : s.stg.b4 = 0) : compute15 s = .error .compensationDomainError := by
  simp only [compute15, h]
  rfl

/-- With room in `B7` the doubling always passes its check. -/
theorem doubledQuotient_passes_low {b7 : Nat} (b4 : Int) (h : b7 < 0x80000000) :
    Passes (doubledQuotient b7 b4) (InS32 (b7 * 2 / b4)) (b7 * 2 / b4) := by
  have hm : InU32 ((b7 : Int) * 2) := by constructor <;> omega
  have hlow : (b7 : Int) < 0x80000000 := by omega
  simp only [doubledQuotient, if_pos hlow]
  exact .after (chkU32_ok hm) (passes_chkS32 _)

theorem doubledQuotient_passes_high {b7 : Nat} (b4 : Int) (h : 0x80000000 ≤ b7) :
    Passes (doubledQuotient b7 b4) (InS32 (b7 / b4 * 2)) (b7 / b4 * 2) := by
  have hhigh : ¬ (b7 : Int) < 0x80000000 := by omega
  simp only [doubledQuotient, if_neg hhigh]
  exact passes_chkS32 _

/-- Behind the zero test, step 15 checks what its quotient does. -/
theorem compute15_passes {checks : Prop} {v : Int} (h : s.stg.b4 ≠ 0)
    (hq : Passes (doubledQuotient s.stg.b7.toNat s.stg.b4.toNat) checks v) :
    Passes (compute15 s) checks { s with stg := { s.stg with pw := toWord v } } := by
  have h0 : (s.stg.b4.toNat : Int) ≠ 0 := by
    intro h0
    exact h (BitVec.eq_of_toNat_eq (by simpa using h0))
  exact .after (nonzero_ok h0) (.last hq rfl)

theorem compute16Square_passes {sq : Int} (h : sq = (s.stg.pw.toInt / 2 ^ 8) * (s.stg.pw.toInt / 2 ^ 8)) :
    Passes (compute16Square s) (InS32 sq) { s with stg := { s.stg with x1 := toWord sq } } := by
  simp only [compute16Square, asr_eq, ← h]
  exact .last (passes_chkS32 _) rfl

theorem compute16_passes {x1 : Int} (h : s.stg.x1.toInt = x1) :
    Passes (compute16 s) (InS32 (x1 * 3038)) { s with stg := { s.stg with x1 := toWord (x1 * 3038 / 2 ^ 16) } } := by
  simp only [compute16, asr_eq, h]
  exact .last (passes_chkS32 _) rfl

theorem compute17_passes (s : State) :
    Passes (compute17 s) (InS32 (-7357 * s.stg.pw.toInt))
      { s with stg := { s.stg with x2 := toWord (-7357 * s.stg.pw.toInt / 2 ^ 16) } } := by
  simp only [compute17, asr_eq]
  exact .last (passes_chkS32 _) rfl

theorem compute18_passes (s : State) :
    Passes (compute18 s)
      (InS32 (s.stg.x1.toInt + s.stg.x2.toInt) ∧ InS32 (s.stg.x1.toInt + s.stg.x2.toInt + 3791) ∧
        InS32 (s.stg.pw.toInt + (s.stg.x1.toInt + s.stg.x2.toInt + 3791) / 2 ^ 4))
      { s with stg := { s.stg with
        p := toWord (s.stg.pw.toInt + (s.stg.x1.toInt + s.stg.x2.toInt + 3791) / 2 ^ 4) } } := by
  simp only [compute18, asr_eq]
  exact .bind (passes_chkS32 _) (.bind (passes_chkS32 _) (.last (passes_chkS32 _) rfl))

end

/-- Settles O40, in the same way; step 15 by the test of `B4` and the room in `B7`, step 16 by its two writes, the second of
which starts from the square in `X1`. -/
theorem pressureStepsToP : Obligations.PressureStepsToP := by
  intro s hb
  have run := fun k f => runEngine_pressureStep (k := k) (f := f) hb
  refine ⟨?step15zero, ?step15low, ?step15high, ?step16, ?step17, ?step18⟩
  case step15zero => exact fun h => (run _ _).trans (runEngineStep_raise (compute15_zero h))
  case step15low =>
    exact fun h hlow => stepWrites_of_passes (run _ _) (compute15_passes h (doubledQuotient_passes_low _ hlow)) id
  case step15high =>
    exact fun h hhigh => stepWrites_of_passes (run _ _) (compute15_passes h (doubledQuotient_passes_high _ hhigh)) id
  case step16 =>
    intro sq hsq
    obtain ⟨hsquare, hoverflow⟩ := compute16Square_passes hsq
    refine ⟨fun h => ?overflow, fun h hm => ⟨_, toWord_toInt h, ?second⟩,
      fun h hm => ⟨_, toWord_toInt (inS32_div hm), ?ok⟩⟩
    case overflow => exact runEngine_raise (bind_error (engineStep16_raise hb (hoverflow h)))
    case second =>
      exact runEngine_raise (bind_error
        (engineStep16_raise_second hb (hsquare h) ((compute16_passes (toWord_toInt h)).2 hm)))
    case ok =>
      exact runEngine_unit (engineStep16_ok hb (hsquare h) ((compute16_passes (toWord_toInt h)).1 hm))
  case step17 => exact stepWrites_of_passes (run _ _) (compute17_passes s) inS32_div
  case step18 => exact stepWrites_of_passes (run _ _) (compute18_passes s) fun ⟨_, _, h⟩ => h

end Sys2Proof.Machine
end

section
/-!
Which operations can fault (spec/43_compensation.md R124, R144). A host command cannot: its type leaves no room for a fault,
but for `read`, which is run beside itself. By the time `read` starts the engine it has both counts, and then the engine runs
to its end or raises, whatever else the state holds.
-/

namespace Sys2Proof.Machine

/-- One run beside itself, from any state whose flags of the two counts meet `Y`. -/
def Beside (Y : Bool → Bool → Prop) : Link := fun s s' => s' = s ∧ Y s.utValid s.upValid

/-- From a state with flags that meet `Y` the operation does not fault, and where it returns they meet `Z`. -/
abbrev FaultFree {φ α : Type} (Y Z : Bool → Bool → Prop) (x : Op φ α) : Prop :=
  Agrees (Beside Y) (fun _ => Beside Z) (Beside fun _ _ => True) x

/-- The flag of the temperature count is up. -/
def HasUT (ut _up : Bool) : Prop := ut = true

/-- Both flags are up. -/
def HasCounts (ut up : Bool) : Prop := ut = true ∧ up = true

section
variable {φ : Type} {p : Params} {Y Z : Bool → Bool → Prop}

theorem steady_beside (Y : Bool → Bool → Prop) : Steady (Beside Y) where
  busy h := by rw [h.1]
  rsp h := by rw [h.1]
  env h := by rw [h.1]
  world _ _ _ h := ⟨by rw [h.1], h.2⟩

theorem Beside.anyhow (s s' : State) (h : Beside Y s s') : Beside (fun _ _ => True) s s' := ⟨h.1, trivial⟩

theorem faultFree_update {g : State → State} (h : ∀ s, Y s.utValid s.upValid → Z (g s).utValid (g s).upValid) :
    FaultFree Y Z (Op.update g : Op φ Unit) :=
  agrees_update fun s _ hs => ⟨congrArg g hs.1, h s hs.2⟩

theorem faultFree_require (c : State → Bool) (k : ErrKind) : FaultFree Y Y (Op.require c k : Op φ Unit) :=
  ((agrees_require k fun _ _ h => by rw [h.1]).post fun _ _ _ h => h.1).postRaise .anyhow

theorem faultFree_read {α : Type} (g : State → α) : FaultFree Y Y (Op.read g : Op φ α) :=
  (agrees_read fun _ _ h => by rw [h.1]).post fun _ _ _ h => h.1

theorem faultFree_readRegister (addr : Byte) : FaultFree Y Y (readRegister p addr : Op φ Byte) :=
  (agrees_readRegister (steady_beside Y) addr).postRaise .anyhow

theorem faultFree_wait (us : Nat) : FaultFree Y Y (wait p us : Op φ Unit) := by
  refine agrees_bind (agrees_update (R := Timed (Beside Y) (ticks p us)) fun s s' h => ⟨⟨?_, h.2⟩, rfl, le_rfl⟩)
    fun _ => (agrees_countDown (steady_beside Y) _).post fun _ t t' h => ?_
  · rw [h.1]
  · obtain ⟨hr, ht, hk⟩ := h
    have h0 : t.dtimer = 0 := Nat.le_zero.mp hk
    rwa [setTimer_of_dtimer h0, setTimer_of_dtimer (ht.trans h0)] at hr

theorem faultFree_issue (cmd : Byte) (us : Nat) : FaultFree Y Y (issue p cmd us : Op φ Unit) :=
  agrees_bind (faultFree_update fun _ => id) fun _ =>
    agrees_bind ((agrees_writeRegister (steady_beside Y) _ _).postRaise .anyhow) fun _ =>
      agrees_bind (faultFree_update fun _ => id) fun _ => faultFree_wait us

theorem faultFree_captureResult : FaultFree Y Y (captureResult p : Op φ Unit) := by
  have put : ∀ g : State → State, (∀ s, (g s).utValid = s.utValid ∧ (g s).upValid = s.upValid) →
      FaultFree Y Y (Op.update g : Op φ Unit) :=
    fun g hg => faultFree_update fun s h => by rwa [(hg s).1, (hg s).2]
  refine agrees_bind (put _ fun _ => ⟨rfl, rfl⟩) fun _ => ?_
  refine agrees_bind (faultFree_readRegister _) fun m => agrees_bind (put _ fun _ => ⟨rfl, rfl⟩) fun _ => ?_
  refine agrees_bind (faultFree_readRegister _) fun l => agrees_bind (put _ fun _ => ⟨rfl, rfl⟩) fun _ => ?_
  refine agrees_bind (faultFree_read _) fun kind => ?_
  cases kind with
  | temperature => exact agrees_pure ()
  | pressure => exact agrees_bind (faultFree_readRegister _) fun x => put _ fun _ => ⟨rfl, rfl⟩

/-- An acquisition, whatever it latches and puts into its count. -/
theorem faultFree_acquisition {α : Type} {latch put : State → State} {get : State → α} {cmd : Byte} {us : Nat}
    (hl : ∀ s, Y s.utValid s.upValid → Y (latch s).utValid (latch s).upValid)
    (hp : ∀ s, Y s.utValid s.upValid → Z (put s).utValid (put s).upValid) :
    FaultFree Y Z (do
      requireSequencerIdle
      Op.update latch
      (do issue p cmd us
          captureResult p : Op φ Unit).onRaise (setSequencer .idle)
      Op.update fun s => setSequencer .idle (put s)
      Op.read get : Op φ α) := by
  refine agrees_bind (faultFree_require _ _) fun _ => agrees_bind (faultFree_update hl) fun _ => ?_
  refine agrees_bind ((agrees_bind (faultFree_issue _ _) fun _ => faultFree_captureResult).onRaise ?_) fun _ => ?_
  · exact fun t t' h => ⟨congrArg _ h.1, trivial⟩
  · exact agrees_bind (faultFree_update hp) fun _ => faultFree_read get

theorem faultFree_acquireRawTemperature : FaultFree Y HasUT (acquireRawTemperature p : Op φ Half) :=
  faultFree_acquisition (fun _ => id) fun _ _ => rfl

theorem faultFree_acquireRawPressure (o : Level) : FaultFree HasUT HasCounts (acquireRawPressure p o : Op φ Count20) :=
  faultFree_acquisition (fun _ => id) fun _ hut => ⟨hut, rfl⟩

/-- With both counts there the engine computes the compensation or raises; without the calibration it raises at its start. -/
theorem faultFree_engineRun (hd : p.divMode = .trunc) : FaultFree HasCounts (fun _ _ => True) (engineRun p) := by
  rintro _ s ⟨rfl, hut, hup⟩
  cases hc : s.calValid with
  | false =>
    rw [show engineRun p s = .error (.raise .calibrationReadError) s from bind_error (bind_error (require_false hc))]
    exact .raise ⟨rfl, trivial⟩
  | true =>
    have hr := engineRun_runs hd hc hut hup
    cases hcomp : compensate p s.cal s.ut.toNat s.up.toNat s.oss with
    | ok tp =>
      rw [hcomp] at hr
      obtain ⟨g, hx, -⟩ := hr
      rw [hx]
      exact .ok ⟨rfl, trivial⟩
    | error k =>
      rw [hcomp] at hr
      obtain ⟨g, b, hx⟩ := hr
      rw [hx]
      exact .raise ⟨rfl, trivial⟩

theorem faultFree_readCompensated (hd : p.divMode = .trunc) :
    FaultFree (fun _ _ => True) (fun _ _ => True) (readCompensated p) := by
  have cleared : ∀ t t', Beside (fun _ _ => True) t t' →
      Beside (fun _ _ => True) (clearReadFlags t) (clearReadFlags t') := fun _ _ h => ⟨congrArg _ h.1, trivial⟩
  refine agrees_bind (faultFree_require _ _) fun _ => agrees_bind (Agrees.always ?_ (fun _ => cleared) cleared) fun _ =>
    faultFree_read _
  exact agrees_bind faultFree_acquireRawTemperature fun _ =>
    agrees_bind (faultFree_acquireRawPressure _) fun _ => faultFree_engineRun hd

/-! ### The operations on their own -/

variable {s : State} {i : Instr} {f : Fault}

theorem runInternal_ne_fault (x : Op Empty OpResult) : runInternal x s ≠ .fault f := nofun

theorem runCommand_ne_fault (x : Op Empty Payload) : runCommand p i x s ≠ .fault f := by
  unfold runCommand
  split <;> exact nofun

theorem endOutcome_ne_fault {Q : Unit → Link} {E : Link} {r : EStateM.Result (Stop Fault) State Unit} (h : SameEnd Q E r r) :
    endOutcome r ≠ .fault f := by
  cases h <;> exact nofun

theorem exec_readCompensated_ne_fault (unused : Half) : exec (.readCompensated unused) s ≠ .fault f := by
  show runEngineCommand _ _ (readCompensated Config.params) s ≠ _
  cases hb : s.busy with
  | true => rw [runEngineCommand_busy hb]; exact nofun
  | false =>
    have h : FaultFree (fun _ _ => True) (fun _ _ => True) (accepted Config.params (readCompensated Config.params)) :=
      agrees_bind (faultFree_update fun _ => id) fun _ =>
        agrees_bind (agrees_settle (faultFree_readCompensated rfl)) fun _ =>
          agrees_bind (agrees_moment (steady_beside _)) fun _ => faultFree_update fun _ => id
    simp only [runEngineCommand, hb, Bool.false_eq_true, if_false]
    exact endOutcome_ne_fault (h s s ⟨rfl, trivial⟩)

theorem exec_ne_fault (hi : isPressureStep i = false) : exec i s ≠ .fault f := by
  cases i with
  | readCompensated unused => exact exec_readCompensated_ne_fault unused
  | configure | shutdown | reset | readRegisterRaw | writeRegisterRaw | openSession | closeSession | invalid =>
    exact runCommand_ne_fault _
  | engineStep5 | engineStep6 | engineStep7 | engineStep8 | engineStep9 | engineStep10 | engineStep11 | engineStep12
  | engineStep13 | engineStep14 | engineStep15 | engineStep16 | engineStep17 | engineStep18 => cases hi
  | _ => exact runInternal_ne_fault _

/-- A step that faults without the flag, and does not with it. -/
theorem fault_iff_of {o : Outcome} (h0 : s.b5Valid = false → o = .fault .engineWithoutB5)
    (h1 : s.b5Valid = true → o ≠ .fault f) : o = .fault f ↔ s.b5Valid = false ∧ f = .engineWithoutB5 := by
  cases hb : s.b5Valid with
  | true => simp [h1 hb]
  | false => simp [h0 hb, eq_comm]

theorem runEngine_pressureStep_fault_iff (k : Nat) (g : State → Except ErrKind State) :
    runEngine (do pressureStep k g; pure .unit) s = .fault f ↔ s.b5Valid = false ∧ f = .engineWithoutB5 :=
  fault_iff_of runEngine_pressureStep_fault fun hb => by
    rw [runEngine_pressureStep hb]
    exact runInternal_ne_fault _

theorem runEngine_engineStep16_fault_iff :
    runEngine (do engineStep16; pure .unit) s = .fault f ↔ s.b5Valid = false ∧ f = .engineWithoutB5 := by
  refine fault_iff_of (fun hb => runEngine_fault (bind_error (engineStep16_fault hb))) fun hb => ?_
  cases h1 : compute16Square s with
  | error e => rw [runEngine_raise (bind_error (engineStep16_raise hb h1))]; exact nofun
  | ok t =>
    cases h2 : compute16 t with
    | error e => rw [runEngine_raise (bind_error (engineStep16_raise_second hb h1 h2))]; exact nofun
    | ok u => rw [runEngine_unit (engineStep16_ok hb h1 h2)]; exact nofun

theorem exec_pressureStep_fault_iff (hi : isPressureStep i = true) :
    exec i s = .fault f ↔ s.b5Valid = false ∧ f = .engineWithoutB5 := by
  cases i with
  | engineStep16 => exact runEngine_engineStep16_fault_iff
  | engineStep5 | engineStep6 | engineStep7 | engineStep8 | engineStep9 | engineStep10 | engineStep11 | engineStep12
  | engineStep13 | engineStep14 | engineStep15 | engineStep17 | engineStep18 => exact runEngine_pressureStep_fault_iff _ _
  | _ => cases hi

end

/-- Settles O9: a pressure step faults exactly without its flag, and no other operation faults. -/
theorem onlyPressureStepsWithoutB5Fault : Obligations.OnlyPressureStepsWithoutB5Fault := by
  intro i s f
  cases hi : isPressureStep i with
  | true => simp [exec_pressureStep_fault_iff hi]
  | false => simp [exec_ne_fault hi]

end Sys2Proof.Machine
end

section
/-!
Host commands with nothing happening outside: what each answers and leaves, and its entries of the trace (spec/44_session.md
R151, R153, R155 to R158).
-/

namespace Sys2Proof.Machine

/-- Settles O6: the word taken is one of those pending, whichever the free value picks. -/
theorem oneOfSeveralWordsIsAccepted : Obligations.OneOfSeveralWordsIsAccepted := by
  intro s ht hc hb hp
  obtain ⟨k, hk, hw⟩ := takeWord_several hp
  exact ⟨k, hk, step_of_fetch_command (fetch_command ht hc hb hw)⟩

section
variable {p : Params} {s t u : State} {n time : Nat} {new : List (Nat × Event)}

/-! ### The trace of a command -/

/-- One more entry of the trace. -/
theorem EnvStep.record (h : EnvStep s t n time new) (e : Event) :
    EnvStep s (record e t) n time ((s.env.now + time, e) :: new) where
  port   := h.port
  todo   := h.todo
  sched  := h.sched
  script := h.script
  fresh  := h.fresh
  now    := h.now
  log    := by rw [← h.now, List.cons_append, ← h.log]; rfl

theorem EnvStep.setSession (h : EnvStep s t n time new) (x : SessionState) (hu : u.env = (setSession x t).env := by rfl) :
    EnvStep s u n time ((s.env.now + time, .session x) :: new) := (h.record (.session x)).of_env_eq hu

/-- The response. -/
theorem EnvStep.respond (h : EnvStep s t n time new) (r : Response) :
    EnvStep s (setBusy false (respond r t)) n time ((s.env.now + time, .response r) :: new) :=
  (h.record (.response r)).of_env_eq rfl

/-- The first exchange of a command, from the state `u` that it is accepted in. -/
theorem envStep_afterExchange (w : List Byte) (r : Nat) (hu : u.env = s.env) :
    EnvStep s (afterExchange p w r u) 1 0 [(s.env.now, .exchange p.devAddr w r (nextAnswer w r u))] := by
  rw [← hu]
  exact (envStep_putRet_afterExchange w r .unit).of_env_eq_left hu |>.of_env_eq rfl

theorem envStep_accepted (s : State) : EnvStep s (setBusy true s) 0 0 [] := ⟨rfl, rfl, rfl, rfl, rfl, rfl, rfl⟩

/-! ### The commands' operations -/

theorem openSession_ok (h : s.owned = false) : openSession s = .ok .unit (setSession .idle (setOwned true s)) :=
  bind_ok (require_true (by simp [h]))

theorem openSession_raise (h : s.owned = true) : openSession s = .error (.raise .sessionBusy) s :=
  bind_error (require_false (by simp [h]))

theorem resetSensor_ok (hq : Quiet s) (hs : s.ss ≠ .closed)
    (h : acceptsWrite (nextAnswer [p.ctrlReg, p.softReset] 0 s)) :
    resetSensor p s =
      .ok .unit (setSession .idle (clearCalValid (afterExchange p [p.ctrlReg, p.softReset] 0 s))) :=
  (bind_ok (require_true (by simpa using hs))).trans (bind_ok (writeRegister_ok hq h))

theorem resetSensor_fail (hq : Quiet s) (hs : s.ss ≠ .closed)
    (h : ¬ acceptsWrite (nextAnswer [p.ctrlReg, p.softReset] 0 s)) :
    resetSensor p s = .error (.raise .transportError) (afterExchange p [p.ctrlReg, p.softReset] 0 s) :=
  (bind_ok (require_true (by simpa using hs))).trans (bind_error (writeRegister_fail hq h))

theorem readRegisterRaw_ok {addr b : Byte} (hq : Quiet s) (hs : s.ss = .idle ∨ s.ss = .configured)
    (h : readsByte (nextAnswer [addr] 1 s) b) :
    readRegisterRaw p addr s = .ok (.byte b) (afterExchange p [addr] 1 s) :=
  (bind_ok (requireRawAccess_ok hs)).trans (bind_ok (readRegister_ok hq h))

theorem readRegisterRaw_fail {addr : Byte} (hq : Quiet s) (hs : s.ss = .idle ∨ s.ss = .configured)
    (h : ∀ b, ¬ readsByte (nextAnswer [addr] 1 s) b) :
    readRegisterRaw p addr s = .error (.raise .transportError) (afterExchange p [addr] 1 s) :=
  (bind_ok (requireRawAccess_ok hs)).trans (bind_error (readRegister_fail hq h))

/-- The state after the power-down write of `shutdown` and `close`. -/
def poweredDown (p : Params) (s : State) : State :=
  afterExchange p [p.ctrlReg, p.powerDown] 0 (setSession .shuttingDown s)

/-- The state after the end of a session. -/
def sessionEnded (s : State) : State := setOwned false (setSession .closed (clearCalValid s))

theorem writePowerDown_ok (hq : Quiet s) (h : acceptsWrite (nextAnswer [p.ctrlReg, p.powerDown] 0 s)) :
    writePowerDown p s = .ok none (poweredDown p s) :=
  outcome_ok (writeRegister_ok (s := setSession .shuttingDown s) hq h)

theorem writePowerDown_fail (hq : Quiet s) (h : ¬ acceptsWrite (nextAnswer [p.ctrlReg, p.powerDown] 0 s)) :
    writePowerDown p s = .ok (some .transportError) (poweredDown p s) :=
  outcome_raise (writeRegister_fail (s := setSession .shuttingDown s) hq h)

theorem endSession_none (s : State) : endSession none s = .ok .unit (sessionEnded s) := rfl

/-- Outside `Closed` both `shutdown` and `close` write the power-down value and then end the session. -/
theorem shutdown_live (hs : s.ss ≠ .closed) : shutdown p s = (writePowerDown p >>= endSession) s :=
  bind_ok (require_true (by simpa using hs))

theorem closeSession_live (hs : s.ss ≠ .closed) : closeSession p s = (writePowerDown p >>= endSession) s := by
  have hlive : sessionLive s = true := by simpa [sessionLive] using hs
  simp [closeSession, hlive]

theorem closeSession_closed (hs : s.ss = .closed) : closeSession p s = .ok .unit (sessionEnded s) := by
  have hlive : sessionLive s = false := by simp [sessionLive, hs]
  simp [closeSession, hlive, endSession_none]

end

/-- Settles O41: the test of `OWNED`, and then the two writes or none. -/
theorem openTakesTheSession : Obligations.OpenTakesTheSession := by
  refine fun u s hq hb => ⟨fun ho => (runCommand_ok hb (openSession_ok (s := setBusy true s) ho) hq).trans ?_,
    fun ho => (runCommand_raise hb (openSession_raise (s := setBusy true s) ho) hq).trans ?_⟩
  · rw [hb]
    rfl
  · rw [hb]
    rfl

/-- Settles O44: the one write of the soft-reset value, and its two outcomes. -/
theorem resetDropsTheCalibration : Obligations.ResetDropsTheCalibration := by
  intro u s a hq hb hs ha
  obtain rfl := nextAnswer_of_answersTo ha
  have written := envStep_afterExchange (p := Config.params) (s := s) (u := setBusy true s)
    [Config.params.ctrlReg, Config.params.softReset] 0 rfl
  refine ⟨fun h => ⟨_, runCommand_ok hb (resetSensor_ok (s := setBusy true s) hq hs h) hq, ?_,
      (written.setSession .idle).respond _⟩,
    fun h => ⟨_, runCommand_raise hb (resetSensor_fail (s := setBusy true s) hq hs h) hq, ?_, written.respond _⟩⟩
  · rw [hb]
    rfl
  · rw [hb]
    rfl

/-- Settles O45: the one read, and its two outcomes. -/
theorem readRegisterRawAnswersTheByte : Obligations.ReadRegisterRawAnswersTheByte := by
  intro addr v s a hq hb hs ha
  obtain rfl := nextAnswer_of_answersTo ha
  have done := envStep_afterExchange (p := Config.params) (s := s) (u := setBusy true s) [addr] 1 rfl
  refine ⟨fun b h => ⟨_, runCommand_ok hb (readRegisterRaw_ok (s := setBusy true s) hq hs h) hq, ?_, done.respond _⟩,
    fun h => ⟨_, runCommand_raise hb (readRegisterRaw_fail (s := setBusy true s) hq hs h) hq, ?_, done.respond _⟩⟩
  · rw [hb]
    rfl
  · rw [hb]
    rfl

/-- Settles O46: the one write of the value as given, and its two outcomes. -/
theorem writeRegisterRawForwardsTheValue : Obligations.WriteRegisterRawForwardsTheValue := by
  intro addr value s a hq hb hs ha
  obtain rfl := nextAnswer_of_answersTo ha
  have written := envStep_afterExchange (p := Config.params) (s := s) (u := setBusy true s) [addr, value] 0 rfl
  refine ⟨fun h => ⟨_, runCommand_ok hb (writeRegisterRaw_ok (s := setBusy true s) hq hs h) hq, ?_, written.respond _⟩,
    fun h => ⟨_, runCommand_raise hb (writeRegisterRaw_fail (s := setBusy true s) hq hs h) hq, ?_, written.respond _⟩⟩
  · rw [hb]
    rfl
  · rw [hb]
    rfl

/-- A command that writes the power-down value and then ends the session, whatever the write answers. -/
theorem runCommand_endsSession {i : Instr} {x : Op Empty Payload} {s : State} {a : Answer} (hq : Quiet s)
    (hb : s.busy = false)
    (hx : x (setBusy true s) = (writePowerDown Config.params >>= endSession) (setBusy true s))
    (ha : answersTo [([Config.params.ctrlReg, Config.params.powerDown], 0)] s = [a]) :
    ∃ t r, runCommand Config.params i x s = .next t ∧ (acceptsWrite a → r = ⟨0, none, none, none⟩) ∧
      (¬ acceptsWrite a → r = ⟨1, none, none, none⟩) ∧
      t = { s with ss := .closed, owned := false, calValid := false, rsp := r, env := t.env } ∧
      EnvStep s t 1 0 [(s.env.now, .response r), (s.env.now, .session .closed),
        (s.env.now, .exchange Config.params.devAddr [Config.params.ctrlReg, Config.params.powerDown] 0 a),
        (s.env.now, .session .shuttingDown)] := by
  obtain rfl := nextAnswer_of_answersTo ha
  have ended : EnvStep s (sessionEnded (poweredDown Config.params (setBusy true s))) 1 0 _ :=
    (((envStep_accepted s).setSession (u := setSession .shuttingDown (setBusy true s)) .shuttingDown).trans
      (envStep_afterExchange (p := Config.params) [Config.params.ctrlReg, Config.params.powerDown] 0 rfl)).setSession
      .closed
  by_cases h : acceptsWrite (nextAnswer [Config.params.ctrlReg, Config.params.powerDown] 0 s)
  · refine ⟨_, _, runCommand_ok hb (hx.trans (bind_ok (writePowerDown_ok (s := setBusy true s) hq h))) hq,
      fun _ => rfl, absurd h, ?_, ended.respond _⟩
    rw [hb]
    rfl
  · refine ⟨_, _, runCommand_raise hb (hx.trans (bind_ok (writePowerDown_fail (s := setBusy true s) hq h))) hq,
      fun h' => absurd h' h, fun _ => rfl, ?_, ended.respond _⟩
    rw [hb]
    rfl

/-- Settles O47: outside `Closed` both commands are the power-down write and the end of the session; in `Closed` `close` is the
latter alone. -/
theorem shutdownAndCloseEndTheSession : Obligations.ShutdownAndCloseEndTheSession := by
  refine fun u s hq hb => ⟨?live, fun hs => ?closed⟩
  case live =>
    rintro i a hs (rfl | rfl) ha
    · exact runCommand_endsSession hq hb (shutdown_live (s := setBusy true s) hs) ha
    · exact runCommand_endsSession hq hb (closeSession_live (s := setBusy true s) hs) ha
  case closed =>
    refine ⟨_, runCommand_ok hb (closeSession_closed (s := setBusy true s) hs) hq, ?_,
      ((envStep_accepted s).setSession (u := sessionEnded (setBusy true s)) .closed).respond _⟩
    rw [hb, hs]
    rfl

end Sys2Proof.Machine
end

section
/-!
`configure` and `read` with all exchanges complete (spec/44_session.md R152, R154): their parts one after another, each in its
own time.
-/

namespace Sys2Proof.Machine

section
variable {φ : Type} {p : Params} {s t u : State} {m n d e : Nat} {old new : List (Nat × Event)}

/-- What follows an operation in its own time. -/
theorem EnvStep.andThen (h : EnvStep s t m d old) (g : EnvStep t u n e new) :
    EnvStep s u (m + n) (d + e) (new ++ old) where
  port   := g.port.trans h.port
  todo   := g.todo.trans h.todo
  sched  := g.sched.trans h.sched
  script := by rw [g.script, h.script, List.drop_drop]
  fresh  := by rw [g.fresh, h.fresh, Nat.add_assoc]
  now    := by rw [g.now, h.now, Nat.add_assoc]
  log    := by rw [g.log, h.log, List.append_assoc]

theorem EnvStep.quiet (h : EnvStep s t n d new) (hq : Quiet s) : Quiet t := h.sched.trans hq

/-- The answers that come after `n` exchanges. -/
theorem EnvStep.answers (h : EnvStep s t n d new) (fs : List (List Byte × Nat)) :
    answersTo fs t = answersFor fs (s.env.script.drop n) (s.env.fresh + n) := by
  rw [answersTo, h.script, h.fresh]

theorem EnvStep.setSequencer (h : EnvStep s t n d new) (x : SeqState) :
    EnvStep s (setSequencer x t) n d ((s.env.now + d, .sequencer x) :: new) := (h.record (.sequencer x)).of_env_eq rfl

/-! ### The parts, complete -/

theorem load_completes {blk : List Byte} {c : Answer} (hq : Quiet s) (h : answersTo [([p.calBase], p.calLen)] s = [c])
    (hc : c = .done 1 blk) (hn : blk.length = p.calLen) :
    ∃ t, (load p : Op φ Unit) s = .ok () t ∧ t = { s with cal := decodeCal blk, calValid := true, env := t.env } ∧
      EnvStep s t 1 0 [(s.env.now, .exchange p.devAddr [p.calBase] p.calLen c)] := by
  obtain rfl := nextAnswer_of_answersTo h
  exact ⟨_, load_ok hq hc hn, rfl, (envStep_afterExchange _ _ rfl).of_env_eq rfl⟩

theorem issueAndWait_completes {cmd : Byte} {a : Answer} (us : Nat) (hq : Quiet s) (hs : s.seq = .idle)
    (h : answersTo [([p.ctrlReg, cmd], 0)] s = [a]) (ha : acceptsWrite a) :
    ∃ t, (issueAndWait p cmd us : Op φ Unit) s = .ok () t ∧ t = { s with dtimer := 0, env := t.env } ∧
      EnvStep s t 1 (ticks p us)
        [(s.env.now + ticks p us, .sequencer .idle), (s.env.now, .sequencer .waiting),
         (s.env.now, .exchange p.devAddr [p.ctrlReg, cmd] 0 a), (s.env.now, .sequencer .commandIssued)] := by
  obtain rfl := nextAnswer_of_answersTo h
  refine ⟨_, issueAndWait_ok hq hs ha, ?_, (envStep_issued cmd us rfl).setSequencer .idle⟩
  obtain ⟨e, he⟩ := issued_regs (p := p) cmd us s
  rw [he, hs]
  rfl

theorem acquireRawTemperature_completes {a m' l' : Answer} {m l : Byte} (hq : Quiet s) (hs : s.seq = .idle)
    (h : answersTo [([p.ctrlReg, p.cmdTemp], 0), ([resultAddr p 0], 1), ([resultAddr p 1], 1)] s = [a, m', l'])
    (ha : acceptsWrite a) (hm : readsByte m' m) (hl : readsByte l' l) :
    ∃ t, (acquireRawTemperature p : Op φ Half) s = .ok (assembleUT m l) t ∧
      t = { s with kind := .temperature, dtimer := 0, rbuf0 := m, rbuf1 := l, ut := assembleUT m l, utValid := true,
                   env := t.env } ∧
      EnvStep s t 3 (ticks p p.tDelayUs)
        [(s.env.now + ticks p p.tDelayUs, .sequencer .idle),
         (s.env.now + ticks p p.tDelayUs, .exchange p.devAddr [resultAddr p 1] 1 l'),
         (s.env.now + ticks p p.tDelayUs, .exchange p.devAddr [resultAddr p 0] 1 m'),
         (s.env.now + ticks p p.tDelayUs, .sequencer .resultReady),
         (s.env.now, .sequencer .waiting), (s.env.now, .exchange p.devAddr [p.ctrlReg, p.cmdTemp] 0 a),
         (s.env.now, .sequencer .commandIssued)] := by
  refine ⟨_, acquireRawTemperature_ok hq hs h ha hm hl, ?_, ?_⟩
  · obtain ⟨e, he⟩ := issued_regs (p := p) p.cmdTemp p.tDelayUs (setTemperature s)
    obtain ⟨e', he'⟩ := captured2_regs (p := p) m l { setTemperature s with seq := .waiting, dtimer := 0, env := e }
    rw [he, he', hs]
    rfl
  · obtain ⟨rfl, hr⟩ := answersTo_cons.mp h
    have issue := envStep_issued (p := p) (s := s) (u := setTemperature s) p.cmdTemp p.tDelayUs rfl
    exact ((issue.trans (envStep_captured2 m l hr)).putUT _).setSequencer .idle

theorem acquireRawPressure_completes {o : Level} {a m' l' x' : Answer} {m l x : Byte} (hq : Quiet s) (hs : s.seq = .idle)
    (h : answersTo [([p.ctrlReg, p.cmdPress o], 0), ([resultAddr p 0], 1), ([resultAddr p 1], 1),
      ([resultAddr p 2], 1)] s = [a, m', l', x'])
    (ha : acceptsWrite a) (hm : readsByte m' m) (hl : readsByte l' l) (hx : readsByte x' x) :
    ∃ t, (acquireRawPressure p o : Op φ Count20) s = .ok (assembleUP o m l x) t ∧
      t = { s with kind := .pressure, oss := o, dtimer := 0, rbuf0 := m, rbuf1 := l, rbuf2 := x,
                   up := assembleUP o m l x, upValid := true, env := t.env } ∧
      EnvStep s t 4 (ticks p (p.pDelayUs o))
        [(s.env.now + ticks p (p.pDelayUs o), .sequencer .idle),
         (s.env.now + ticks p (p.pDelayUs o), .exchange p.devAddr [resultAddr p 2] 1 x'),
         (s.env.now + ticks p (p.pDelayUs o), .exchange p.devAddr [resultAddr p 1] 1 l'),
         (s.env.now + ticks p (p.pDelayUs o), .exchange p.devAddr [resultAddr p 0] 1 m'),
         (s.env.now + ticks p (p.pDelayUs o), .sequencer .resultReady),
         (s.env.now, .sequencer .waiting), (s.env.now, .exchange p.devAddr [p.ctrlReg, p.cmdPress o] 0 a),
         (s.env.now, .sequencer .commandIssued)] := by
  refine ⟨_, acquireRawPressure_ok hq hs h ha hm hl hx, ?_, ?_⟩
  · obtain ⟨e, he⟩ := issued_regs (p := p) (p.cmdPress o) (p.pDelayUs o) (setPressure o s)
    obtain ⟨e', he'⟩ := captured3_regs (p := p) m l x { setPressure o s with seq := .waiting, dtimer := 0, env := e }
    rw [he, he', hs]
    rfl
  · obtain ⟨rfl, hr⟩ := answersTo_cons.mp h
    have issue := envStep_issued (p := p) (s := s) (u := setPressure o s) (p.cmdPress o) (p.pDelayUs o) rfl
    exact ((issue.trans (envStep_captured3 m l x hr)).putUP _).setSequencer .idle

/-! ### The two commands, by their parts -/

theorem configure_ok {s₁ s₂ s₃ : State} (hs : s.ss = .idle) (hload : (load p : Op Empty Unit) s = .ok () s₁)
    (htemp : (issueAndWait p p.cmdTemp p.tDelayUs : Op Empty Unit) s₁ = .ok () s₂)
    (hpress : (issueAndWait p (p.cmdPress p.ossSel) (p.pDelayUs p.ossSel) : Op Empty Unit) s₂ = .ok () s₃) :
    configure p s = .ok .unit (setSession .configured s₃) := by
  unfold configure
  rw [bind_ok (require_true (by simp [hs])), bind_ok hload, bind_ok (onRaise_ok htemp), bind_ok (onRaise_ok hpress)]
  rfl

/-- `configure` from `Idle`: three exchanges and the two delays. -/
theorem configure_completes {c a b : Answer} {blk : List Byte} (hq : Quiet s) (hs : s.ss = .idle) (hseq : s.seq = .idle)
    (h : answersTo [([p.calBase], p.calLen), ([p.ctrlReg, p.cmdTemp], 0), ([p.ctrlReg, p.cmdPress p.ossSel], 0)] s =
      [c, a, b])
    (hc : c = .done 1 blk) (hn : blk.length = p.calLen) (ha : acceptsWrite a) (hb : acceptsWrite b)
    (hd : ticks p p.tDelayUs = d) (he : ticks p (p.pDelayUs p.ossSel) = e) :
    ∃ t, configure p s = .ok .unit t ∧
      t = { s with ss := .configured, cal := decodeCal blk, calValid := true, dtimer := 0, env := t.env } ∧
      EnvStep s t 3 (d + e)
        [(s.env.now + (d + e), .session .configured), (s.env.now + d + e, .sequencer .idle),
         (s.env.now + d, .sequencer .waiting),
         (s.env.now + d, .exchange p.devAddr [p.ctrlReg, p.cmdPress p.ossSel] 0 b),
         (s.env.now + d, .sequencer .commandIssued), (s.env.now + d, .sequencer .idle),
         (s.env.now, .sequencer .waiting), (s.env.now, .exchange p.devAddr [p.ctrlReg, p.cmdTemp] 0 a),
         (s.env.now, .sequencer .commandIssued), (s.env.now, .exchange p.devAddr [p.calBase] p.calLen c)] := by
  subst hd he
  obtain ⟨h1, h⟩ := answersTo_cons.mp h
  obtain ⟨s₁, hload, regs₁, env₁⟩ := load_completes (φ := Empty) hq (answersTo_cons.mpr ⟨h1, rfl⟩) hc hn
  have hseq₁ : s₁.seq = .idle := by rw [regs₁]; exact hseq
  rw [← List.drop_one, ← env₁.answers, answersTo_cons] at h
  obtain ⟨h2, h⟩ := h
  obtain ⟨s₂, htemp, regs₂, env₂⟩ := issueAndWait_completes (φ := Empty) p.tDelayUs (env₁.quiet hq) hseq₁
    (answersTo_cons.mpr ⟨h2, rfl⟩) ha
  have hseq₂ : s₂.seq = .idle := by rw [regs₂]; exact hseq₁
  rw [← List.drop_one, ← env₂.answers] at h
  obtain ⟨s₃, hpress, regs₃, env₃⟩ := issueAndWait_completes (φ := Empty) (p.pDelayUs p.ossSel)
    (env₂.quiet (env₁.quiet hq)) hseq₂ h hb
  have env₁₂ := env₁.andThen env₂
  rw [env₁.now, Nat.zero_add] at env₁₂
  have env₁₃ := env₁₂.andThen env₃
  rw [env₁₂.now] at env₁₃
  refine ⟨_, configure_ok hs hload htemp hpress, ?_, env₁₃.setSession .configured⟩
  rw [regs₃, regs₂, regs₁]
  rfl

/-- The two acquisitions of a read: seven exchanges and the two delays. -/
theorem acquireBoth_completes {o : Level} {a m' l' b m2' l2' x2' : Answer} {m l m2 l2 x2 : Byte} (hq : Quiet s)
    (hseq : s.seq = .idle)
    (h : answersTo [([p.ctrlReg, p.cmdTemp], 0), ([resultAddr p 0], 1), ([resultAddr p 1], 1),
      ([p.ctrlReg, p.cmdPress o], 0), ([resultAddr p 0], 1), ([resultAddr p 1], 1), ([resultAddr p 2], 1)] s =
        [a, m', l', b, m2', l2', x2'])
    (ha : acceptsWrite a) (hm : readsByte m' m) (hl : readsByte l' l) (hb : acceptsWrite b) (hm2 : readsByte m2' m2)
    (hl2 : readsByte l2' l2) (hx2 : readsByte x2' x2) (hd : ticks p p.tDelayUs = d) (he : ticks p (p.pDelayUs o) = e) :
    ∃ s₁ s₂, (acquireRawTemperature p : Op φ Half) s = .ok (assembleUT m l) s₁ ∧
      (acquireRawPressure p o : Op φ Count20) s₁ = .ok (assembleUP o m2 l2 x2) s₂ ∧
      s₂ = { s with kind := .pressure, oss := o, dtimer := 0, rbuf0 := m2, rbuf1 := l2, rbuf2 := x2,
                    ut := assembleUT m l, utValid := true, up := assembleUP o m2 l2 x2, upValid := true, env := s₂.env } ∧
      EnvStep s s₂ 7 (d + e)
        [(s.env.now + d + e, .sequencer .idle),
         (s.env.now + d + e, .exchange p.devAddr [resultAddr p 2] 1 x2'),
         (s.env.now + d + e, .exchange p.devAddr [resultAddr p 1] 1 l2'),
         (s.env.now + d + e, .exchange p.devAddr [resultAddr p 0] 1 m2'),
         (s.env.now + d + e, .sequencer .resultReady),
         (s.env.now + d, .sequencer .waiting),
         (s.env.now + d, .exchange p.devAddr [p.ctrlReg, p.cmdPress o] 0 b),
         (s.env.now + d, .sequencer .commandIssued),
         (s.env.now + d, .sequencer .idle),
         (s.env.now + d, .exchange p.devAddr [resultAddr p 1] 1 l'),
         (s.env.now + d, .exchange p.devAddr [resultAddr p 0] 1 m'),
         (s.env.now + d, .sequencer .resultReady),
         (s.env.now, .sequencer .waiting),
         (s.env.now, .exchange p.devAddr [p.ctrlReg, p.cmdTemp] 0 a),
         (s.env.now, .sequencer .commandIssued)] := by
  subst hd he
  obtain ⟨h1, h⟩ := answersTo_cons.mp h
  obtain ⟨h2, h⟩ := List.cons.inj h
  obtain ⟨h3, h⟩ := List.cons.inj h
  obtain ⟨s₁, htemp, regs₁, env₁⟩ := acquireRawTemperature_completes (φ := φ) (m := m) (l := l) hq hseq
    (answersTo_cons.mpr ⟨h1, congrArg₂ List.cons h2 (congrArg₂ List.cons h3 rfl)⟩) ha hm hl
  have hseq₁ : s₁.seq = .idle := by rw [regs₁]; exact hseq
  simp only [← List.drop_one, List.drop_drop] at h
  rw [← env₁.answers] at h
  obtain ⟨s₂, hpress, regs₂, env₂⟩ := acquireRawPressure_completes (φ := φ) (env₁.quiet hq) hseq₁ h hb hm2 hl2 hx2
  have env₁₂ := env₁.andThen env₂
  rw [env₁.now] at env₁₂
  refine ⟨s₁, s₂, htemp, hpress, ?_, env₁₂⟩
  rw [regs₂, regs₁]

/-- A read with both counts there answers as the engine's run says. -/
theorem readCompensated_settled {s₁ s₂ : State} {ut : Half} {up : Count20} {r : Except ErrKind (Int × Int)}
    (hs : s.ss = .configured) (htemp : (acquireRawTemperature p : Op Fault Half) s = .ok ut s₁)
    (hpress : (acquireRawPressure p p.ossSel : Op Fault Count20) s₁ = .ok up s₂) (hr : Runs s₂ (engineRun p) s₂ r) :
    ∃ g b, settle (readCompensated p) s = .ok (compensatedResponse r) (clearReadFlags (During s₂ g b 0)) := by
  have run : (do let _ ← acquireRawTemperature p
                 let _ ← acquireRawPressure p p.ossSel
                 engineRun p : Op Fault Unit) s = engineRun p s₂ := (bind_ok htemp).trans (bind_ok hpress)
  have hcheck : (Op.require (fun s => s.ss == .configured) .invalidStateTransition : Op Fault Unit) s = .ok () s :=
    require_true (by simp [hs])
  cases r with
  | ok tp =>
    obtain ⟨g, hx, ht, hp⟩ := hr
    refine ⟨g, true, (settle_ok (a := .pair g.t g.p) ?_).trans (by rw [ht, hp]; rfl)⟩
    exact (bind_ok hcheck).trans (bind_ok (always_ok (run.trans hx)))
  | error k =>
    obtain ⟨g, b, hx⟩ := hr
    exact ⟨g, b, settle_raise ((bind_ok hcheck).trans (bind_error (always_raise (run.trans hx))))⟩

/-- A command accepted, by the response of its operation, nothing happening outside before it. -/
theorem runEngineCommand_settled {i : Instr} {x : Op Fault Payload} {r : Response} (hb : s.busy = false)
    (h : settle x (setBusy true s) = .ok r t) (hq : Quiet t) :
    runEngineCommand p i x s = .next (setBusy false (respond r t)) := by
  have hx : accepted p x s = .ok () (setBusy false (respond r t)) := by
    unfold accepted
    rw [update_bind, bind_ok h, bind_ok (moment_quiet hq)]
    rfl
  simp [runEngineCommand, hb, hx, endOutcome]

end

/-- Settles O42: `load`, the two commands each with its wait, and the write of `SS`, one after another. -/
theorem configureLoadsAndWaits : Obligations.ConfigureLoadsAndWaits := by
  intro u s c a b blk d e hq hb hs hseq hd he hans hc hn ha hacc
  obtain ⟨t, hx, regs, henv⟩ := configure_completes (p := Config.params) (s := setBusy true s) hq hs hseq hans hc hn ha hacc
    hd.symm he.symm
  have responded := (henv.of_env_eq_left (s := s) rfl).respond ⟨0, none, none, none⟩
  refine ⟨_, runCommand_ok hb hx (henv.quiet hq), ?_, Nat.add_assoc s.env.now d e ▸ responded⟩
  rw [regs, hb]
  rfl

/-- Settles O50: the two acquisitions; the engine's run on their counts, which answers as `compensate` does; and the end of the
flags. -/
theorem readAnswersTheCompensatedPair : Obligations.ReadAnswersTheCompensatedPair := by
  intro u s a m' l' b m2' l2' x2' m l m2 l2 x2 d e r hq hb hs hcal hseq hd he hans ha hm hl hb2 hm2 hl2 hx2 hr
  obtain ⟨s₁, s₂, htemp, hpress, regs, henv⟩ := acquireBoth_completes (φ := Fault) (p := Config.params)
    (s := setBusy true s) hq hseq hans ha hm hl hb2 hm2 hl2 hx2 hd.symm he.symm
  have hcal₂ : s₂.calValid = true := by rw [regs]; exact hcal
  have hruns := engineRun_runs (p := Config.params) rfl hcal₂ (by rw [regs]) (by rw [regs])
  obtain ⟨g, b5, hx⟩ := readCompensated_settled (s := setBusy true s) hs htemp hpress hruns
  have counts : compensatedResponse (compensate Config.params s₂.cal s₂.ut.toNat s₂.up.toNat s₂.oss) = r := by
    rw [hr, regs, ← assembleUT_toNat, ← assembleUP_toNat]
    rfl
  rw [counts] at hx
  have responded := ((henv.of_env_eq_left (s := s) rfl).of_env_eq (u := clearReadFlags (During s₂ g b5 0)) rfl).respond r
  refine ⟨_, runEngineCommand_settled hb hx (henv.quiet hq), ?_, Nat.add_assoc s.env.now d e ▸ responded⟩
  rw [regs, hb]
  rfl

end Sys2Proof.Machine
end

section
/-!
Accepted commands under any schedule without a hardware reset: each responds once, at its end, and writes at most its own
registers (spec/44_session.md R151 to R163).
-/

namespace Sys2Proof.Machine

section
variable {φ : Type} {p : Params} {R : State → State → Prop} {s t u : State} {i : Instr}

/-- With no hardware reset coming, an accepted command ends in its response. -/
theorem exists_responded (hsched : ∀ s t, R s t → t.env.sched <:+ s.env.sched) (hc : Calm s)
    (ht : (∃ r u, R (setBusy true s) u ∧ t = setBusy false (respond r u)) ∨
      ∃ u, R (setBusy true s) u ∧ u.env.sched.head? = some .hardwareReset ∧ t = hardwareReset (dropAct u)) :
    ∃ r u, R (setBusy true s) u ∧ t = setBusy false (respond r u) :=
  ht.resolve_right fun ⟨u, hu, hreset, _⟩ => hc ((hsched _ u hu).subset (List.mem_of_head? hreset))

/-! ### Relations that registers other than `SS` do not matter to -/

/-- A relation that speaks of `SS`, of `ret` and of the world outside, and that neither this world nor the sequencer breaks. -/
structure Observes (p : Params) (R : State → State → Prop) : Prop where
  trans     : ∀ s t u, R s t → R t u → R s u
  acted     : ∀ s t, Acted p s t → R s t
  sched     : ∀ s t, R s t → t.env.sched <:+ s.env.sched
  silent    : ∀ {s t}, t.ss = s.ss → t.ret = s.ret → t.env = s.env → R s t
  exchange  : ∀ w r s, R s (afterExchange p w r s)
  sequencer : ∀ x s, R s (setSequencer x s)

theorem Observes.computes (h : Observes p R) : Computes p R R where
  refl _        := h.silent rfl rfl rfl
  trans         := h.trans
  acted         := h.acted
  weaken _ _    := id
  after         := h.trans
  engine _ _ ht := h.silent (by rw [ht]) (by rw [ht]) (by rw [ht])
  cstep _ _     := h.silent rfl rfl rfl

theorem Observes.measures (h : Observes p R) : Measures p R R where
  toTolerates := h.computes.toTolerates
  exchange    := h.exchange
  sequencer   := h.sequencer
  timer _ _   := h.silent rfl rfl rfl

theorem Observes.acquiresT (h : Observes p R) : AcquiresT p R R where
  toMeasures    := h.measures
  temperature _ := h.silent rfl rfl rfl
  byte0 _ _     := h.silent rfl rfl rfl
  byte1 _ _     := h.silent rfl rfl rfl
  ut _ _        := h.silent rfl rfl rfl

theorem Observes.acquiresP (h : Observes p R) : AcquiresP p R R where
  toMeasures   := h.measures
  pressure _ _ := h.silent rfl rfl rfl
  byte0 _ _    := h.silent rfl rfl rfl
  byte1 _ _    := h.silent rfl rfl rfl
  byte2 _ _    := h.silent rfl rfl rfl
  up _ _       := h.silent rfl rfl rfl

theorem Observes.load (h : Observes p R) : Keeps (fun _ => True) R R (load p : Op φ Unit) :=
  keeps_load h.computes.toTolerates (h.exchange _ _) fun _ _ => h.silent rfl rfl rfl

theorem Observes.acquireRawTemperature (h : Observes p R) :
    Keeps (fun _ => True) R R (acquireRawTemperature p : Op φ Half) :=
  (keeps_acquireRawTemperature h.acquiresT).mono (fun _ => id) (fun _ _ => And.left) fun _ _ => id

theorem Observes.acquireRawPressure (h : Observes p R) (o : Level) :
    Keeps (fun _ => True) R R (acquireRawPressure p o : Op φ Count20) :=
  (keeps_acquireRawPressure h.acquiresP o).mono (fun _ => id) (fun _ _ => And.left) fun _ _ => id

theorem Observes.readCompensated (h : Observes p R) : Keeps (fun _ => True) R R (readCompensated p) :=
  keeps_readCompensated h.computes.toTolerates h.acquireRawTemperature (h.acquireRawPressure _)
    (keeps_engineRun h.computes) fun _ => h.silent rfl rfl rfl

/-- One that the writes of `SS` do not break is kept by every command up to its response. -/
theorem Observes.responds (h : Observes Config.params R) (hss : ∀ x s, R s (setSession x s)) (hi : isCommand i = true)
    (hc : Calm s) (hb : s.busy = false) (hn : exec i s = .next t) :
    ∃ r u, R (setBusy true s) u ∧ t = setBusy false (respond r u) := by
  have T := h.computes.toTolerates
  have hx : ∀ {w r} u, R u (afterExchange Config.params w r u) := h.exchange _ _
  have leave : ∀ x u, R u (setSession x (clearCalValid u)) := fun x u =>
    h.trans _ (clearCalValid u) _ (h.silent rfl rfl rfl) (hss x _)
  have close : ∀ u, R u (setOwned false (setSession .closed (clearCalValid u))) := fun u =>
    h.trans _ _ _ (leave _ u) (h.silent rfl rfl rfl)
  have run : ∀ {x : Op Empty Payload}, Keeps (fun _ => True) R R x → runCommand Config.params i x s = .next t →
      ∃ r u, R (setBusy true s) u ∧ t = setBusy false (respond r u) :=
    fun hx hn => exists_responded h.sched hc (runCommand_keeps T hx trivial hb hn)
  cases i
  case configure =>
    exact run (keeps_configure T hx (keeps_issueAndWait h.measures) (fun _ _ => h.silent rfl rfl rfl)
      (fun _ => h.silent rfl rfl rfl) (hss _)) hn
  case shutdown => exact run (keeps_shutdown T (fun _ => hx) (hss _) close) hn
  case reset => exact run (keeps_resetSensor T (fun _ => hx) (leave _)) hn
  case readRegisterRaw => exact run (keeps_readRegisterRaw T hx) hn
  case writeRegisterRaw => exact run (keeps_writeRegisterRaw T hx) hn
  case readCompensated =>
    exact exists_responded h.sched hc (runEngineCommand_keeps T h.readCompensated trivial hb hn)
  case openSession =>
    exact run (keeps_openSession T fun u => h.trans _ (setOwned true u) _ (h.silent rfl rfl rfl) (hss _ _)) hn
  case closeSession => exact run (keeps_closeSession T (fun _ => hx) (hss _) close) hn
  case invalid => exact run (keeps_invalidCommand T.refl) hn
  all_goals cases hi

/-! ### The responses in a trace -/

theorem responsesOf_append (new old : List (Nat × Event)) :
    responsesOf (new ++ old) = responsesOf new ++ responsesOf old := by
  induction new with
  | nil => rfl
  | cons e l ih =>
    obtain ⟨time, event⟩ := e
    cases event with
    | response r => exact congrArg _ ih
    | exchange | session | sequencer | hardwareReset => exact ih

/-- The responses of a trace are those of its entries. -/
theorem exists_of_mem_responsesOf {l : List (Nat × Event)} {r : Response} (h : r ∈ responsesOf l) :
    ∃ e ∈ l, e.2 = .response r := by
  induction l with
  | nil => cases h
  | cons e l ih =>
    have later (h : r ∈ responsesOf l) : ∃ e' ∈ e :: l, e'.2 = .response r := by
      obtain ⟨e', he', hr⟩ := ih h
      exact ⟨e', List.mem_cons_of_mem _ he', hr⟩
    obtain ⟨time, event⟩ := e
    cases event with
    | response r' =>
      rcases List.mem_cons.mp h with rfl | h
      · exact ⟨_, List.mem_cons_self, rfl⟩
      · exact later h
    | exchange | session | sequencer | hardwareReset => exact later h

/-- From `s` to `t` no response was given but to words refused at the port, under `reject` (log 13), and nothing was left in
`ret`. The schedule has only been used up. -/
structure Unanswered (p : Params) (s t : State) : Prop where
  log   : ∃ new, t.env.log = new ++ s.env.log ∧ (∀ r ∈ responsesOf new, r = errorResponse .sensorBusy) ∧
    (p.busyPolicy = .block → responsesOf new = [])
  ret   : t.ret = s.ret
  sched : t.env.sched <:+ s.env.sched

/-- What was written to the trace is no response. -/
theorem Unanswered.of_log (new : List (Nat × Event)) (hl : t.env.log = new ++ s.env.log)
    (hn : responsesOf new = [] := by rfl) (hr : t.ret = s.ret := by rfl)
    (hs : t.env.sched <:+ s.env.sched := by exact List.suffix_rfl) : Unanswered p s t :=
  ⟨⟨new, hl, by simp [hn], fun _ => hn⟩, hr, hs⟩

theorem Unanswered.trans (h : Unanswered p s t) (g : Unanswered p t u) : Unanswered p s u := by
  obtain ⟨old, hold, holdr, holdb⟩ := h.log
  obtain ⟨new, hnew, hnewr, hnewb⟩ := g.log
  refine ⟨⟨new ++ old, by rw [hnew, hold, List.append_assoc], fun r hr => ?_, fun hp => ?_⟩, g.ret.trans h.ret,
    g.sched.trans h.sched⟩
  · rw [responsesOf_append, List.mem_append] at hr
    exact hr.elim (hnewr r) (holdr r)
  · rw [responsesOf_append, hnewb hp, holdb hp, List.append_nil]

theorem Acted.unanswered (h : Acted p s t) : Unanswered p s t := by
  obtain ⟨refused, hl, hr, hcase⟩ := h.log
  refine ⟨⟨refused, hl, fun r hm => ?_, fun hp => ?_⟩, h.ret, h.sched⟩
  · obtain ⟨e, he, her⟩ := exists_of_mem_responsesOf hm
    exact Event.response.inj (her.symm.trans (hr e he))
  · obtain ⟨rfl, -⟩ | ⟨-, hreject, -⟩ := hcase
    · rfl
    · rw [hp] at hreject
      cases hreject

theorem observes_unanswered : Observes p (Unanswered p) where
  trans _ _ _     := .trans
  acted _ _       := Acted.unanswered
  sched _ _       := Unanswered.sched
  silent _ hr he  := .of_log [] (by rw [he]; rfl) rfl hr (by rw [he])
  exchange _ _ _  := .of_log [_] rfl
  sequencer _ _   := .of_log [_] rfl

/-- Every accepted command runs without a response, and then responds. -/
theorem exec_unanswered (hi : isCommand i = true) (hc : Calm s) (hb : s.busy = false) (hn : exec i s = .next t) :
    ∃ r u, Unanswered Config.params (setBusy true s) u ∧ t = setBusy false (respond r u) :=
  observes_unanswered.responds (fun _ _ => .of_log [_] rfl) hi hc hb hn

end

/-- Settles O53: up to its response a command gives none, so this is the newest entry of the trace and the only one of its
own. -/
theorem everyCommandRespondsOnce : Obligations.EveryCommandRespondsOnce := by
  intro i s t hi hc hb hn
  obtain ⟨r, u, hu, rfl⟩ := exec_unanswered hi hc hb hn
  obtain ⟨new, hlog, hrefused, hblock⟩ := hu.log
  exact ⟨rfl, new, congrArg (_ :: ·) hlog, hrefused, hblock⟩

/-! ### Frames -/

/-- What `open` writes. -/
def openRegs (s t : State) : State := { s with ss := t.ss, owned := t.owned, rsp := t.rsp, ret := t.ret, env := t.env }

/-- What `configure` writes, with `SEQ` on its way. -/
def configureRegs (s t : State) : State :=
  { s with ss := t.ss, seq := t.seq, cal := t.cal, calValid := t.calValid, dtimer := t.dtimer, rsp := t.rsp, ret := t.ret,
           env := t.env }

/-- What `reset` writes. -/
def resetRegs (s t : State) : State :=
  { s with ss := t.ss, calValid := t.calValid, rsp := t.rsp, ret := t.ret, env := t.env }

/-- What `shutdown` and `close` write. -/
def endRegs (s t : State) : State :=
  { s with ss := t.ss, owned := t.owned, calValid := t.calValid, rsp := t.rsp, ret := t.ret, env := t.env }

/-- What the commands that write no register of their own write. -/
def rawRegs (s t : State) : State := { s with rsp := t.rsp, ret := t.ret, env := t.env }

/-- What `read` writes, with `SEQ` on its way. -/
def readRegs (s t : State) : State :=
  { s with seq := t.seq, kind := t.kind, oss := t.oss, dtimer := t.dtimer, rbuf0 := t.rbuf0, rbuf1 := t.rbuf1,
           rbuf2 := t.rbuf2, ut := t.ut, utValid := t.utValid, up := t.up, upValid := t.upValid, stg := t.stg,
           b5Valid := t.b5Valid, cstep := t.cstep, rsp := t.rsp, ret := t.ret, env := t.env }

theorem openRegs_carries : Carries openRegs := ⟨fun _ => rfl, fun _ _ _ => rfl, fun _ _ _ _ => rfl⟩
theorem configureRegs_carries : Carries configureRegs := ⟨fun _ => rfl, fun _ _ _ => rfl, fun _ _ _ _ => rfl⟩
theorem resetRegs_carries : Carries resetRegs := ⟨fun _ => rfl, fun _ _ _ => rfl, fun _ _ _ _ => rfl⟩
theorem endRegs_carries : Carries endRegs := ⟨fun _ => rfl, fun _ _ _ => rfl, fun _ _ _ _ => rfl⟩
theorem rawRegs_carries : Carries rawRegs := ⟨fun _ => rfl, fun _ _ _ => rfl, fun _ _ _ _ => rfl⟩
theorem readRegs_carries : Carries readRegs := ⟨fun _ => rfl, fun _ _ _ => rfl, fun _ _ _ _ => rfl⟩

section
variable {φ : Type} {p : Params} {f : State → State → State} {s t u : State} {i : Instr} {P : State → Prop}

theorem exec_command_ret (hi : isCommand i = true) (hc : Calm s) (hb : s.busy = false) (hn : exec i s = .next t) :
    t.ret = s.ret := by
  obtain ⟨r, u, hu, rfl⟩ := exec_unanswered hi hc hb hn
  exact hu.ret

/-- The frame of an accepted command by what its operation writes; `BUSY` falls at its end, and nothing is left in `ret`. -/
theorem frame_of_responded (hf : Carries f) (hi : isCommand i = true) (hc : Calm s) (hb : s.busy = false)
    (hn : exec i s = .next t) (ht : ∃ r u, WritesAtMost f (setBusy true s) u ∧ t = setBusy false (respond r u))
    (hbusy : ∀ s t, setBusy false (f (setBusy true s) t) = setBusy false (f s (setBusy false t)) := by
      exact fun _ _ => rfl) : t = { f s t with busy := s.busy, ret := s.ret } := by
  rw [← exec_command_ret hi hc hb hn, hb]
  obtain ⟨r, u, hu, rfl⟩ := ht
  have hv : WritesAtMost f (setBusy true s) (respond r u) := hu.trans hf (.of_eq (hf.outside u _ _ _).symm rfl)
  have h := congrArg (setBusy false) hv.regs
  rw [hbusy] at h
  rw [congrArg State.ret h]
  exact h

theorem exec_command_frame {x : Op Empty Payload} (hf : Carries f) (hi : isCommand i = true)
    (he : exec i s = runCommand Config.params i x s) (hx : Keeps (fun _ => True) (WritesAtMost f) (WritesAtMost f) x)
    (hc : Calm s) (hb : s.busy = false) (hn : exec i s = .next t)
    (hbusy : ∀ s t, setBusy false (f (setBusy true s) t) = setBusy false (f s (setBusy false t)) := by
      exact fun _ _ => rfl) : t = { f s t with busy := s.busy, ret := s.ret } :=
  frame_of_responded hf hi hc hb hn (hbusy := hbusy) (exists_responded (fun _ _ => WritesAtMost.sched) hc
    (runCommand_keeps hf.tolerates hx trivial hb (he.symm.trans hn)))

/-- The operation of a command that may use the sequencer ends with it idle. -/
theorem backToIdle_responded (hc : Calm s) (hs : s.seq = .idle)
    (ht : (∃ r u, BackToIdle (WritesAtMost f) (setBusy true s) u ∧ t = setBusy false (respond r u)) ∨
      ∃ u, WritesAtMost f (setBusy true s) u ∧ u.env.sched.head? = some .hardwareReset ∧ t = hardwareReset (dropAct u)) :
    (∃ r u, WritesAtMost f (setBusy true s) u ∧ t = setBusy false (respond r u)) ∧ s.seq = t.seq := by
  obtain ⟨r, u, ⟨hu, hidle⟩, rfl⟩ | ⟨u, hu, hreset, -⟩ := ht
  · exact ⟨⟨r, u, hu, rfl⟩, hs.trans (hidle hs).symm⟩
  · exact absurd hreset (hu.head_ne_reset (s := setBusy true s) hc)

theorem configureRegs_measures : Measures p (WritesAtMost configureRegs) (WritesAtMost configureRegs) :=
  configureRegs_carries.measures (fun _ _ => rfl) fun _ _ => rfl

theorem configureRegs_configure :
    Keeps P (BackToIdle (WritesAtMost configureRegs)) (WritesAtMost configureRegs) (configure p) :=
  keeps_configure configureRegs_measures.backToIdle (fun _ => ⟨.of_eq rfl rfl, id⟩)
    (keeps_issueAndWait_idle configureRegs_measures) (fun _ _ => ⟨.of_eq rfl rfl, id⟩) (fun _ => ⟨.of_eq rfl rfl, id⟩)
    fun _ => ⟨.of_eq rfl rfl, id⟩

theorem readRegs_measures : Measures p (WritesAtMost readRegs) (WritesAtMost readRegs) :=
  readRegs_carries.measures (fun _ _ => rfl) fun _ _ => rfl

theorem readRegs_acquiresT : AcquiresT p (WritesAtMost readRegs) (WritesAtMost readRegs) where
  toMeasures    := readRegs_measures
  temperature _ := .of_eq rfl rfl
  byte0 _ _     := .of_eq rfl rfl
  byte1 _ _     := .of_eq rfl rfl
  ut _ _        := .of_eq rfl rfl

theorem readRegs_acquiresP : AcquiresP p (WritesAtMost readRegs) (WritesAtMost readRegs) where
  toMeasures   := readRegs_measures
  pressure _ _ := .of_eq rfl rfl
  byte0 _ _    := .of_eq rfl rfl
  byte1 _ _    := .of_eq rfl rfl
  byte2 _ _    := .of_eq rfl rfl
  up _ _       := .of_eq rfl rfl

theorem readRegs_computes : Computes p (BackToIdle (WritesAtMost readRegs)) (WritesAtMost readRegs) where
  toTolerates    := readRegs_measures.backToIdle
  engine s t ht  := by
    rw [show t = _ from ht]
    exact ⟨.of_eq rfl rfl, id⟩
  cstep _ _      := ⟨.of_eq rfl rfl, id⟩

theorem readRegs_readCompensated :
    Keeps P (BackToIdle (WritesAtMost readRegs)) (WritesAtMost readRegs) (readCompensated p) :=
  keeps_readCompensated readRegs_measures.backToIdle (keeps_acquireRawTemperature readRegs_acquiresT)
    (keeps_acquireRawPressure readRegs_acquiresP _) (keeps_engineRun readRegs_computes) fun _ => ⟨.of_eq rfl rfl, id⟩

end

/-- Settles O56: each command writes at most its set of registers, and the two that use the sequencer leave it idle. -/
theorem commandFrames : Obligations.CommandFrames := by
  intro s t hc hb
  have T := fun f (hf : Carries f) => hf.tolerates (p := Config.params)
  refine ⟨fun u => ?openSession, fun u hs hn => ?configure, fun u => ?reset, fun u => ?shutdown, fun u => ?closeSession,
    fun addr u => ?readRegisterRaw, fun addr value => ?writeRegisterRaw, fun op u => ?invalid, fun u hs hn => ?read⟩
  case openSession =>
    exact exec_command_frame openRegs_carries rfl rfl (keeps_openSession (T _ openRegs_carries) fun _ => .of_eq rfl rfl)
      hc hb
  case configure =>
    obtain ⟨ht, hseq⟩ := backToIdle_responded hc hs
      (runCommand_keeps (P := fun _ => True) configureRegs_measures.backToIdle configureRegs_configure trivial hb hn)
    rw [hseq]
    exact frame_of_responded configureRegs_carries rfl hc hb hn ht
  case reset =>
    exact exec_command_frame resetRegs_carries rfl rfl
      (keeps_resetSensor (T _ resetRegs_carries) (fun _ _ => .of_eq rfl rfl) fun _ => .of_eq rfl rfl) hc hb
  case shutdown =>
    exact exec_command_frame endRegs_carries rfl rfl (keeps_shutdown (T _ endRegs_carries) (fun _ _ => .of_eq rfl rfl)
      (fun _ => .of_eq rfl rfl) fun _ => .of_eq rfl rfl) hc hb
  case closeSession =>
    exact exec_command_frame endRegs_carries rfl rfl (keeps_closeSession (T _ endRegs_carries) (fun _ _ => .of_eq rfl rfl)
      (fun _ => .of_eq rfl rfl) fun _ => .of_eq rfl rfl) hc hb
  case readRegisterRaw =>
    exact exec_command_frame rawRegs_carries rfl rfl (keeps_readRegisterRaw (T _ rawRegs_carries) fun _ => .of_eq rfl rfl) hc hb
  case writeRegisterRaw =>
    exact exec_command_frame rawRegs_carries rfl rfl (keeps_writeRegisterRaw (T _ rawRegs_carries) fun _ => .of_eq rfl rfl) hc hb
  case invalid =>
    exact exec_command_frame rawRegs_carries rfl rfl (keeps_invalidCommand (T _ rawRegs_carries).refl) hc hb
  case read =>
    obtain ⟨ht, hseq⟩ := backToIdle_responded hc hs
      (runEngineCommand_keeps (P := fun _ => True) readRegs_measures.backToIdle readRegs_readCompensated trivial hb hn)
    rw [hseq]
    exact frame_of_responded readRegs_carries rfl hc hb hn ht

end Sys2Proof.Machine
end

section
/-!
The path of `SS` (spec/44_session.md R150): each command that writes it as moves from one value to the next, and no other
operation writes it.
-/

namespace Sys2Proof.Machine

theorem sessionOf_append (new old : List (Nat × Event)) : sessionOf (new ++ old) = sessionOf new ++ sessionOf old := by
  induction new with
  | nil => rfl
  | cons e l ih =>
    obtain ⟨time, event⟩ := e
    cases event with
    | session x => exact congrArg _ ih
    | exchange | response | sequencer | hardwareReset => exact ih

/-- The answers to words refused at the port are no values of `SS`. -/
theorem sessionOf_responses {l : List (Nat × Event)} {r : Response} (h : ∀ e ∈ l, e.2 = .response r) :
    sessionOf l = [] := by
  induction l with
  | nil => rfl
  | cons e l ih =>
    obtain ⟨time, event⟩ := e
    obtain rfl : event = .response r := h _ List.mem_cons_self
    exact ih fun x hx => h x (List.mem_cons_of_mem _ hx)

theorem SessionPath.append {a b c : SessionState} {old new : List SessionState} (h : SessionPath a old b)
    (g : SessionPath b new c) : SessionPath a (new ++ old) c := by
  induction new generalizing c with
  | nil =>
    obtain rfl := g
    exact h
  | cons x l ih =>
    obtain ⟨rfl, y, hy, hmove⟩ := g
    exact ⟨rfl, y, ih hy, hmove⟩

/-- From `s` to `t` the trace has grown, and the values of `SS` in what it gained are a path from the value in `s` to the one
in `t`. The schedule has only been used up, so that a hardware reset was in it from the start. -/
structure SessionFollows (s t : State) : Prop where
  path  : ∃ new, t.env.log = new ++ s.env.log ∧ SessionPath s.ss (sessionOf new) t.ss
  sched : t.env.sched <:+ s.env.sched

/-- From `s` to `t` the trace has grown, and `SS` was not written. -/
structure SessionStands (s t : State) : Prop where
  log   : ∃ new, t.env.log = new ++ s.env.log ∧ sessionOf new = []
  ss    : t.ss = s.ss
  sched : t.env.sched <:+ s.env.sched

section
variable {φ α β : Type} {p : Params} {s t u : State}

theorem SessionFollows.trans (h : SessionFollows s t) (g : SessionFollows t u) : SessionFollows s u := by
  obtain ⟨old, hold, hpath⟩ := h.path
  obtain ⟨new, hnew, gpath⟩ := g.path
  refine ⟨⟨new ++ old, by rw [hnew, hold, List.append_assoc], ?_⟩, g.sched.trans h.sched⟩
  rw [sessionOf_append]
  exact hpath.append gpath

/-- What is written to the trace is no value of `SS`. -/
theorem SessionStands.of_log (new : List (Nat × Event)) (hl : t.env.log = new ++ s.env.log)
    (hn : sessionOf new = [] := by rfl) (hss : t.ss = s.ss := by rfl)
    (hs : t.env.sched <:+ s.env.sched := by exact List.suffix_rfl) : SessionStands s t := ⟨⟨new, hl, hn⟩, hss, hs⟩

theorem SessionStands.trans (h : SessionStands s t) (g : SessionStands t u) : SessionStands s u := by
  obtain ⟨old, hold, hnone⟩ := h.log
  obtain ⟨new, hnew, gnone⟩ := g.log
  exact .of_log (new ++ old) (by rw [hnew, hold, List.append_assoc]) (by rw [sessionOf_append, gnone, hnone]; rfl)
    (g.ss.trans h.ss) (g.sched.trans h.sched)

theorem SessionStands.follows (h : SessionStands s t) : SessionFollows s t := by
  obtain ⟨new, hlog, hnone⟩ := h.log
  exact ⟨⟨new, hlog, by rw [hnone, h.ss]; rfl⟩, h.sched⟩

/-- A write of `SS` that is a move of R150's table, whatever other registers are written beside it. -/
theorem SessionFollows.of_move {x : SessionState} (hm : sessionMove s.ss x = true) (hss : t.ss = x := by rfl)
    (hl : t.env.log = (s.env.now, .session x) :: s.env.log := by rfl) (hs : t.env.sched = s.env.sched := by rfl) :
    SessionFollows s t :=
  ⟨⟨[_], hl, hss, s.ss, rfl, hm⟩, hs ▸ List.suffix_rfl⟩

theorem Acted.ss (h : Acted p s t) : t.ss = s.ss := by
  have := h.regs
  unfold SameRegs at this
  rw [this]

theorem Acted.sessionStands (h : Acted p s t) : SessionStands s t := by
  obtain ⟨refused, hl, hr, -⟩ := h.log
  exact .of_log refused hl (sessionOf_responses hr) h.ss h.sched

theorem observes_sessionStands : Observes p SessionStands where
  trans _ _ _       := .trans
  acted _ _         := Acted.sessionStands
  sched _ _         := SessionStands.sched
  silent hss _ he   := .of_log [] (by rw [he]; rfl) rfl hss (by rw [he])
  exchange _ _ _    := .of_log [_] rfl
  sequencer _ _     := .of_log [_] rfl

theorem sessionFollows_tolerates : Tolerates p SessionFollows SessionFollows where
  refl _       := (observes_sessionStands (p := p)).computes.refl _ |>.follows
  trans _ _ _  := .trans
  acted _ _ ha := ha.sessionStands.follows
  weaken _ _   := id
  after _ _ _  := .trans

/-! ### The operations that the host cannot start -/

theorem runInternal_sessionStands {x : Op Empty α} {f : α → OpResult} (hc : Calm s)
    (hx : Keeps (fun _ => True) SessionStands SessionStands x)
    (hn : runInternal (do let a ← x; pure (f a)) s = .next t) : SessionStands s t := by
  have T := (observes_sessionStands (p := Config.params)).computes.toTolerates
  obtain ⟨u, r, hu, rfl⟩ | ⟨u, hu, hreset, -⟩ :=
    runInternal_keeps (keeps_seq T hx fun a => keeps_pure T.refl (f a)) trivial hn
  · exact hu.trans (.of_log [] rfl)
  · exact absurd (hu.sched.subset (List.mem_of_head? hreset)) hc

theorem runEngine_sessionStands {x : Op Fault Unit} (hc : Calm s)
    (hx : Keeps (fun _ => True) SessionStands SessionStands x) (hn : runEngine (do x; pure .unit) s = .next t) :
    SessionStands s t := by
  have T := (observes_sessionStands (p := Config.params)).computes.toTolerates
  obtain ⟨u, r, hu, rfl⟩ | ⟨u, hu, hreset, -⟩ :=
    runEngine_keeps (keeps_seq T hx fun _ => keeps_pure T.refl _) trivial hn
  · exact hu.trans (.of_log [] rfl)
  · exact absurd (hu.sched.subset (List.mem_of_head? hreset)) hc

theorem exec_internal_sessionStands {i : Instr} (hi : isCommand i = false) (hc : Calm s) (hn : exec i s = .next t) :
    SessionStands s t := by
  have O := observes_sessionStands (p := Config.params)
  have C := O.computes
  have run : ∀ {α : Type} {x : Op Empty α} {f : α → OpResult}, Keeps (fun _ => True) SessionStands SessionStands x →
      runInternal (do let a ← x; pure (f a)) s = .next t → SessionStands s t := runInternal_sessionStands hc
  have step : ∀ {k : Nat} {f : State → Except ErrKind State}, (∀ {s t}, f s = .ok t → EngineRegs s t) →
      runInternal (do engineStep k f; pure .unit) s = .next t → SessionStands s t := fun hf =>
    run (keeps_engineStep _ _ (fun _ _ _ h => C.step (hf h) _) fun u _ => C.cstep 0 u)
  have press : ∀ {k : Nat} {f : State → Except ErrKind State},
      (∀ {s t}, f s = .ok t → EngineRegs s t ∧ t.b5Valid = s.b5Valid) →
      runEngine (do pressureStep k f; pure .unit) s = .next t → SessionStands s t := fun hf =>
    runEngine_sessionStands hc (keeps_pressureStep C _ _ hf)
  cases i
  case rd1 | wr1 | rdn => exact run (keeps_exchange C.toTolerates (O.exchange _ _)) hn
  case readRegister => exact run (keeps_readRegister C.toTolerates (O.exchange _ _)) hn
  case writeRegister | cmdTemp | cmdPress | softResetValue | powerDownValue =>
    exact run (keeps_writeRegister C.toTolerates (O.exchange _ _)) hn
  case readBlock => exact run (keeps_readBlock C.toTolerates (O.exchange _ _)) hn
  case load => exact run O.load hn
  case acquireRawTemperature => exact run O.acquireRawTemperature hn
  case acquireRawPressure oss => exact run (O.acquireRawPressure oss) hn
  case issueAndWait cmd us => exact run (keeps_issueAndWait O.measures cmd us.toNat) hn
  case wait us => exact run (keeps_wait C.toTolerates O.measures.timer us.toNat) hn
  case engineStep1 => exact step (fun h => (compute1_regs h).1) hn
  case engineStep2 => exact step (fun h => (compute2_regs h).1) hn
  case engineStep3 => exact step (fun h => (compute3_regs h).1) hn
  case engineStep4 => exact step (fun h => (compute4_regs h).1) hn
  case engineStep5 => exact press compute5_regs hn
  case engineStep6 => exact press compute6_regs hn
  case engineStep7 => exact press compute7_regs hn
  case engineStep8 => exact press compute8_regs hn
  case engineStep9 => exact press compute9_regs hn
  case engineStep10 => exact press compute10_regs hn
  case engineStep11 => exact press compute11_regs hn
  case engineStep12 => exact press compute12_regs hn
  case engineStep13 => exact press compute13_regs hn
  case engineStep14 => exact press compute14_regs hn
  case engineStep15 => exact press compute15_regs hn
  case engineStep16 => exact runEngine_sessionStands hc (keeps_engineStep16 C) hn
  case engineStep17 => exact press compute17_regs hn
  case engineStep18 => exact press compute18_regs hn
  all_goals cases hi

/-! ### Walks of the session -/

/-- From a value of `SS` that meets `A` the operation takes it along its path, to one that meets `B` when it returns. -/
def SessionWalk (A B : SessionState → Prop) (x : Op φ α) : Prop :=
  ∀ s, A s.ss → Ends x s (fun _ t => SessionFollows s t ∧ B t.ss) (Stopped SessionFollows SessionFollows s)

variable {A B C : SessionState → Prop} {x : Op φ α} {f : α → Op φ β}

theorem SessionWalk.bind (hx : SessionWalk A B x) (hf : ∀ a, SessionWalk B C (f a)) : SessionWalk A C (x >>= f) := by
  intro s hs
  rw [ends_bind]
  refine (hx s hs).mono (fun a t ⟨hst, ht⟩ => ?_) fun _ _ h => h
  exact (hf a t ht).mono (fun _ u ⟨htu, hu⟩ => ⟨hst.trans htu, hu⟩)
    fun _ _ => Stopped.after (sessionFollows_tolerates (p := Config.params)) hst

/-- An operation that does not write `SS`. -/
theorem sessionWalk_of_stands (h : Keeps (fun _ => True) SessionStands SessionStands x) : SessionWalk A A x :=
  fun s hs => (h s trivial).mono (fun _ _ ht => ⟨ht.follows, by rwa [ht.ss]⟩)
    fun _ _ => Stopped.mono (fun _ _ => SessionStands.follows) (fun _ _ => SessionStands.follows) _

theorem sessionWalk_pure (a : α) : SessionWalk A A (pure a : Op φ α) :=
  sessionWalk_of_stands (keeps_pure (observes_sessionStands (p := Config.params)).computes.refl a)

/-- A check of `SS`. -/
theorem sessionWalk_require {c : State → Bool} {k : ErrKind} (h : ∀ s, A s.ss → c s = true → B s.ss) :
    SessionWalk A B (Op.require c k : Op φ Unit) := by
  intro s hs
  have stands := (sessionFollows_tolerates (p := Config.params)).refl s
  cases hc : c s with
  | true => rw [ends_ok (require_true hc)]; exact ⟨stands, h s hs hc⟩
  | false => rw [ends_error (require_false hc)]; exact stands

/-- A write of `SS`, whatever other registers are written beside it. -/
theorem sessionWalk_move {g : State → State} (x : SessionState) (h : ∀ a, A a → sessionMove a x = true)
    (hg : ∀ s, (g s).ss = x ∧ (g s).env = (setSession x s).env := by exact fun _ => ⟨rfl, rfl⟩) :
    SessionWalk A (· = x) (Op.update g : Op φ Unit) := fun s hs =>
  ⟨.of_move (h _ hs) (hg s).1 (by rw [(hg s).2]; rfl) (by rw [(hg s).2]; rfl), (hg s).1⟩

theorem SessionWalk.keeps (h : SessionWalk A B x) : Keeps (fun s => A s.ss) SessionFollows SessionFollows x :=
  fun s hs => (h s hs).mono (fun _ _ => And.left) fun _ _ h => h

theorem sessionWalk_writeRegister (addr v : Byte) : SessionWalk A A (writeRegister p addr v : Op φ Unit) :=
  have O := observes_sessionStands (p := p)
  sessionWalk_of_stands (keeps_writeRegister O.computes.toTolerates (O.exchange _ _))

theorem sessionWalk_configure : SessionWalk (fun _ => True) (· = .configured) (configure p) := by
  have O := observes_sessionStands (p := p)
  have wait : ∀ (cmd : Byte) (us : Nat),
      SessionWalk (· = .idle) (· = .idle) ((issueAndWait p cmd us : Op Empty Unit).onRaise clearCalValid) := fun cmd us =>
    sessionWalk_of_stands ((keeps_issueAndWait O.measures cmd us).onRaise fun _ _ _ ht => ht.trans (.of_log [] rfl))
  refine (sessionWalk_require (B := (· = .idle)) fun s _ h => by simpa using h).bind fun _ => ?_
  refine (sessionWalk_of_stands O.load).bind fun _ => (wait _ _).bind fun _ => (wait _ _).bind fun _ => ?_
  exact (sessionWalk_move .configured (by rintro _ rfl; rfl)).bind fun _ => sessionWalk_pure _

/-- Outside `ShuttingDown`, what is not `Closed` is `Idle` or `Configured`. -/
theorem idle_or_configured {a : SessionState} (hs : a ≠ .shuttingDown) (hc : a ≠ .closed) : a = .idle ∨ a = .configured := by
  cases a with
  | idle => exact .inl rfl
  | configured => exact .inr rfl
  | closed => exact absurd rfl hc
  | shuttingDown => exact absurd rfl hs

theorem sessionWalk_live {k : ErrKind} : SessionWalk (· ≠ .shuttingDown) (fun a => a = .idle ∨ a = .configured)
    (Op.require (fun s => s.ss != .closed) k : Op φ Unit) :=
  sessionWalk_require fun s hs h => idle_or_configured hs (by simpa using h)

theorem sessionWalk_resetSensor : SessionWalk (· ≠ .shuttingDown) (· = .idle) (resetSensor p) := by
  refine sessionWalk_live.bind fun _ => (sessionWalk_writeRegister _ _).bind fun _ => ?_
  exact (sessionWalk_move .idle (by rintro _ (rfl | rfl) <;> rfl)).bind fun _ => sessionWalk_pure _

theorem sessionWalk_endSession (hA : ∀ a, A a → sessionMove a .closed = true) (e : Option ErrKind) :
    SessionWalk A (· = .closed) (endSession e) := by
  refine (sessionWalk_move .closed hA).bind fun _ => ?_
  cases e with
  | none => exact sessionWalk_pure _
  | some k => exact sessionWalk_of_stands (keeps_raise (observes_sessionStands (p := Config.params)).computes.refl k)

/-- The power-down write and the end of the session. -/
theorem sessionWalk_powerDown :
    SessionWalk (fun a => a = .idle ∨ a = .configured) (· = .closed) (writePowerDown p >>= endSession) := by
  have O := observes_sessionStands (p := p)
  have write := keeps_writeRegister (φ := Empty) (P := fun _ => True) (addr := p.ctrlReg) (v := p.powerDown)
    O.computes.toTolerates (O.exchange _ _)
  refine SessionWalk.bind (B := (· = .shuttingDown)) ?_ (sessionWalk_endSession (by rintro _ rfl; rfl))
  exact (sessionWalk_move .shuttingDown (by rintro _ (rfl | rfl) <;> rfl)).bind fun _ => sessionWalk_of_stands write.outcome

theorem sessionWalk_shutdown : SessionWalk (· ≠ .shuttingDown) (· = .closed) (shutdown p) :=
  sessionWalk_live.bind fun _ => sessionWalk_powerDown

theorem sessionWalk_closeSession : SessionWalk (· ≠ .shuttingDown) (· = .closed) (closeSession p) := by
  intro s hs
  by_cases hc : s.ss = .closed
  · rw [ends_ok (closeSession_closed hc)]
    exact ⟨.of_move (x := .closed) (by rw [hc]; rfl), rfl⟩
  · have walk := sessionWalk_powerDown (p := p) s (idle_or_configured hs hc)
    unfold Ends at *
    rwa [closeSession_live hc]

/-- `open` moves from `Closed`, since `OWNED` and `SS` agree. -/
theorem sessionFollows_openSession :
    Keeps (fun s => s.ss = .closed ↔ s.owned = false) SessionFollows SessionFollows openSession := by
  intro s hs
  cases ho : s.owned with
  | true =>
    rw [ends_error (openSession_raise ho)]
    exact (sessionFollows_tolerates (p := Config.params)).refl s
  | false =>
    rw [ends_ok (openSession_ok ho)]
    exact .of_move (x := .idle) (by rw [hs.mpr ho]; rfl)

/-- A command ends in its response, which is no write of `SS`. -/
theorem sessionFollows_of_responded (hc : Calm s)
    (ht : (∃ r u, SessionFollows (setBusy true s) u ∧ t = setBusy false (respond r u)) ∨
      ∃ u, SessionFollows (setBusy true s) u ∧ u.env.sched.head? = some .hardwareReset ∧ t = hardwareReset (dropAct u)) :
    SessionFollows s t := by
  obtain ⟨r, u, ⟨⟨new, hlog, hpath⟩, hsched⟩, rfl⟩ := exists_responded (fun _ _ => SessionFollows.sched) hc ht
  exact ⟨⟨_ :: new, congrArg (_ :: ·) hlog, hpath⟩, hsched⟩

theorem exec_command_sessionFollows {i : Instr} (hi : isCommand i = true) (h : Inv s) (hc : Calm s)
    (hn : exec i s = .next t) : SessionFollows s t := by
  have O := observes_sessionStands (p := Config.params)
  have run : ∀ {x : Op Empty Payload} {P : State → Prop}, Keeps P SessionFollows SessionFollows x → P (setBusy true s) →
      runCommand Config.params i x s = .next t → SessionFollows s t := fun hx hp hn =>
    sessionFollows_of_responded hc (runCommand_keeps (sessionFollows_tolerates (p := Config.params)) hx hp h.notBusy hn)
  have T := O.computes.toTolerates
  cases i
  case configure => exact run sessionWalk_configure.keeps trivial hn
  case shutdown => exact run sessionWalk_shutdown.keeps h.notShutting hn
  case reset => exact run sessionWalk_resetSensor.keeps h.notShutting hn
  case readRegisterRaw =>
    exact run (sessionWalk_of_stands (A := fun _ => True) (keeps_readRegisterRaw T (O.exchange _ _))).keeps trivial hn
  case writeRegisterRaw =>
    exact run (sessionWalk_of_stands (A := fun _ => True) (keeps_writeRegisterRaw T (O.exchange _ _))).keeps trivial hn
  case readCompensated =>
    exact sessionFollows_of_responded hc (runEngineCommand_keeps (sessionFollows_tolerates (p := Config.params))
      (sessionWalk_of_stands (A := fun _ => True) O.readCompensated).keeps trivial h.notBusy hn)
  case openSession => exact run sessionFollows_openSession h.closed hn
  case closeSession => exact run sessionWalk_closeSession.keeps h.notShutting hn
  case invalid =>
    exact run (sessionWalk_of_stands (A := fun _ => True) (keeps_invalidCommand T.refl)).keeps trivial hn
  all_goals cases hi

end

/-- Settles O55: a command's writes of `SS` are moves of its walk, which starts from what its state check leaves; the other
operations do not write it. -/
theorem sessionFollowsItsChain : Obligations.SessionFollowsItsChain := by
  intro i s t h hc hn
  cases hi : isCommand i with
  | true => exact (exec_command_sessionFollows hi h hc hn).path
  | false => exact (exec_internal_sessionStands hi hc hn).follows.path

end Sys2Proof.Machine
end

section
/-!
A command word presented while `BUSY` = 1 (spec/44_session.md R162): at the port, at a moment, at a tick of a wait, and before
a command's response.
-/

namespace Sys2Proof.Machine

/-- The world outside does nothing more. -/
def endSched (s : State) : State := { s with env := { s.env with sched := [] } }

section
variable {φ : Type} {p : Params} {s t u : State} {cw : CmdWord} {act : HostAct} {rest : List HostAct}

/-! ### One word -/

theorem present_dropAct_block (hp : p.busyPolicy = .block) (hs : s.env.sched = act :: rest) :
    present p cw (dropAct s) = { s with env := { s.env with sched := rest, port := s.env.port ++ [cw] } } := by
  rw [present_block hp, pend, dropAct, hs]
  rfl

theorem present_dropAct_reject (hp : p.busyPolicy = .reject) (hb : s.busy = true) (hs : s.env.sched = act :: rest) :
    present p cw (dropAct s) = { s with
      rsp := errorResponse .sensorBusy
      env := { s.env with sched := rest, log := (s.env.now, .response (errorResponse .sensorBusy)) :: s.env.log } } := by
  rw [present_reject (s := dropAct s) hb hp, dropAct, hs]
  rfl

theorem present_setTimer (n : Nat) (s : State) : present p cw (setTimer n s) = setTimer n (present p cw s) := by
  cases hb : s.busy with
  | false => rw [present_free hb, present_free (s := setTimer n s) hb]; rfl
  | true =>
    cases hp : p.busyPolicy with
    | block => rw [present_block hp, present_block hp]; rfl
    | reject => rw [present_reject hb hp, present_reject (s := setTimer n s) hb hp]; rfl

@[simp] theorem present_dtimer (cw : CmdWord) (s : State) : (present p cw s).dtimer = s.dtimer := by
  have h := (present_acted (p := p) (s := s) cw).regs
  unfold SameRegs at h
  rw [h]

/-- A host command while `BUSY` = 1 is the presenting of its word. -/
theorem exec_command_busy {i : Instr} (hi : isCommand i = true) (hb : s.busy = true) :
    exec i s = .next (present Config.params (encode i).toWord s) := by
  cases i
  case readCompensated => exact runEngineCommand_busy hb
  case configure | shutdown | reset | readRegisterRaw | writeRegisterRaw | openSession | closeSession | invalid =>
    exact runCommand_busy hb
  all_goals cases hi

/-! ### In a wait -/

theorem tick_eq_runTimer (h : s.dtimer ≠ 0) : tick s = runTimer 1 s := by
  rw [tick, Nat.min_eq_left (Nat.one_le_iff_ne_zero.mpr h)]

/-- A word that comes after `j` ticks of a wait leaves the wait its full length. -/
theorem countDown_present : ∀ {j fuel : Nat} {s : State}, j < s.dtimer → s.dtimer ≤ fuel →
    s.env.sched = List.replicate j .quiet ++ [.present cw] →
    (countDown p fuel : Op φ Unit) s =
      .ok () (setTimer 0 (elapse (s.dtimer - j) (present p cw (endSched (elapse j s)))))
  | _, 0, _, hj, hf, _ => absurd hj (by omega)
  | 0, k + 1, s, hj, hf, hs => by
    have hd : s.dtimer ≠ 0 := by omega
    have hquiet : Quiet (present p cw (dropAct s)) := by simp [Quiet, hs]
    have hend : dropAct s = endSched (elapse 0 s) := by simp [dropAct, endSched, hs]
    have htimer : (present p cw (dropAct s)).dtimer = s.dtimer := by simp
    have hleft : (runTimer 1 (present p cw (dropAct s))).dtimer = s.dtimer - 1 := by rw [← htimer]; rfl
    have hsum : 1 + (s.dtimer - 1) = s.dtimer := by omega
    rw [countDown_succ hd, bind_ok ((waitMoment_present hs).trans (waitMoment_quiet hquiet)), update_bind,
      tick_eq_runTimer (by rwa [htimer]), countDown_eq_runTimer
      (s := runTimer 1 (present p cw (dropAct s))) hquiet (by omega), hleft, runTimer_runTimer, hsum, runTimer,
      htimer, Nat.sub_self, Nat.sub_zero, hend]
  | j + 1, k + 1, s, hj, hf, hs => by
    have hd : s.dtimer ≠ 0 := by omega
    have hstate : endSched (elapse j (runTimer 1 (dropAct s))) = setTimer (s.dtimer - 1) (endSched (elapse (j + 1) s)) := by
      rw [Nat.add_comm, ← elapse_elapse]
      rfl
    have hsub : s.dtimer - 1 - j = s.dtimer - (j + 1) := by omega
    have hleft : (runTimer 1 (dropAct s)).dtimer = s.dtimer - 1 := rfl
    rw [countDown_succ hd, bind_ok (waitMoment_end hs), update_bind,
      tick_eq_runTimer (s := dropAct s) hd,
      countDown_present (j := j) (s := runTimer 1 (dropAct s)) (by omega) (by omega) (by simp [dropAct, runTimer, hs]),
      hstate, present_setTimer, hleft, hsub]
    rfl

theorem wait_present {us j : Nat} (hj : j < ticks p us) (hs : s.env.sched = List.replicate j .quiet ++ [.present cw]) :
    (wait p us : Op φ Unit) s =
      .ok () (setTimer 0 (elapse (ticks p us - j) (present p cw (endSched (elapse j s))))) := by
  unfold wait
  rw [update_bind]
  refine (countDown_present (s := setTimer (ticks p us) s) hj le_rfl hs).trans ?_
  rw [show endSched (elapse j (setTimer (ticks p us) s)) = setTimer (ticks p us) (endSched (elapse j s)) from rfl,
    present_setTimer]
  rfl

/-! ### Before a response -/

theorem moment_words_block (hp : p.busyPolicy = .block) : ∀ {words : List CmdWord} {s : State},
    s.env.sched = words.map .present →
    (moment p : Op φ Unit) s = .ok () { s with env := { s.env with sched := [], port := s.env.port ++ words } }
  | [], s, hs => by
    rw [moment_quiet hs, List.append_nil, ← show s.env.sched = [] from hs]
  | cw :: words, s, hs => by
    rw [moment_present hs, present_dropAct_block hp hs, moment_words_block hp (words := words) rfl, List.append_assoc]
    rfl

theorem moment_words_reject (hp : p.busyPolicy = .reject) : ∀ {words : List CmdWord} {s : State}, s.busy = true →
    s.env.sched = words.map .present →
    ∃ r, (moment p : Op φ Unit) s = .ok () { s with
      rsp := r
      env := { s.env with
        sched := []
        log   := List.replicate words.length (s.env.now, .response (errorResponse .sensorBusy)) ++ s.env.log } }
  | [], s, _, hs => ⟨s.rsp, by
    rw [moment_quiet hs, ← show s.env.sched = [] from hs]
    rfl⟩
  | cw :: words, s, hb, hs => by
    obtain ⟨r, hr⟩ := moment_words_reject hp (words := words) (s := present p cw (dropAct s))
      (by rw [present_dropAct_reject hp hb hs]; exact hb) (by rw [present_dropAct_reject hp hb hs])
    refine ⟨r, ?_⟩
    rw [moment_present hs, hr, present_dropAct_reject hp hb hs, List.length_cons, List.replicate_succ', List.append_assoc]
    rfl

/-- An invalid command, by the moment before its response. -/
theorem exec_invalid_moment {op : Byte} {unused : Half} (hb : s.busy = false)
    (hm : (moment Config.params : Op Empty Unit) (setBusy true s) = .ok () t) :
    exec (.invalid op unused) s = .next (setBusy false (respond (errorResponse .invalidCommand) t)) := by
  have hx : accepted Config.params invalidCommand s = .ok () (setBusy false (respond (errorResponse .invalidCommand) t)) := by
    unfold accepted
    rw [update_bind, bind_ok (settle_raise (x := invalidCommand) rfl), bind_ok hm]
    rfl
  show runCommand _ _ invalidCommand s = _
  simp [runCommand, hb, hx, endState]

end

/-- Settles O52, by a rule for one word (`present_block`, `present_reject`), which an operation applies at its next moment; in
a wait by induction on the ticks before the word, at the response by induction on the words. -/
theorem busyPortFollowsThePolicy : Obligations.BusyPortFollowsThePolicy := by
  refine ⟨fun i s hi hb => ?command, fun φ cw rest s hb hs => ?moment, fun φ cw rest s hb hs => ?waitMoment,
    fun us j cw s hj hb hs => ?wait, fun op u cw s hb hs => ?response, fun op u n words s hb hs => ?responses⟩
  case command =>
    rw [exec_command_busy hi hb]
    cases hp : Config.params.busyPolicy with
    | block => rw [present_block hp]; rfl
    | reject => rw [present_reject hb hp]; rfl
  case moment =>
    rw [moment_present hs]
    cases hp : Config.params.busyPolicy with
    | block => rw [present_dropAct_block hp hs]
    | reject => rw [present_dropAct_reject hp hb hs]; rfl
  case waitMoment =>
    rw [waitMoment_present hs]
    cases hp : Config.params.busyPolicy with
    | block => rw [present_dropAct_block hp hs]
    | reject => rw [present_dropAct_reject hp hb hs]; rfl
  case wait =>
    refine ⟨_, exec_wait_ok (wait_present hj hs), ?_⟩
    generalize ticks Config.params us.toNat = n at hj
    have hnow : s.env.now + j + (n - j) = s.env.now + n := by omega
    cases hp : Config.params.busyPolicy with
    | block =>
      rw [present_block hp]
      simp [putRet, setTimer, elapse, pend, endSched, hnow]
    | reject =>
      rw [present_reject (s := endSched (elapse j s)) hb hp]
      simp [putRet, setTimer, elapse, respond, record, endSched, errorResponse, errCode, hnow]
  case response =>
    cases hp : Config.params.busyPolicy with
    | block =>
      refine ⟨_, exec_invalid_moment hb (moment_words_block (s := setBusy true s) (words := [cw]) hp hs), ?_, rfl, rfl⟩
      rw [hb]
      rfl
    | reject =>
      obtain ⟨r, hr⟩ := moment_words_reject (s := setBusy true s) (words := [cw]) hp rfl hs
      refine ⟨_, exec_invalid_moment hb hr, ?_, rfl, rfl⟩
      rw [hb]
      rfl
  case responses =>
    have hs' : (elapse n (dropAct (setBusy true s))).env.sched = words.map .present := by simp [hs]
    have hfirst := moment_elapse (φ := Empty) (p := Config.params) (s := setBusy true s) hs
    cases hp : Config.params.busyPolicy with
    | block =>
      refine ⟨_, exec_invalid_moment hb (hfirst.trans (moment_words_block hp hs')), ?_, rfl, rfl, rfl, rfl⟩
      rw [hb]
      rfl
    | reject =>
      obtain ⟨r, hr⟩ := moment_words_reject hp (s := elapse n (dropAct (setBusy true s))) rfl hs'
      refine ⟨_, exec_invalid_moment hb (hfirst.trans hr), ?_, rfl, rfl, rfl, rfl⟩
      rw [hb]
      rfl

end Sys2Proof.Machine
end

section
/-!
A command that fails: which errors it can raise, and what the state is when it has raised one (spec/44_session.md R152 and R154,
spec/60_exceptions.md R193).
-/

namespace Sys2Proof.Machine

section
variable {φ α β : Type} {p : Params} {P Q : State → Prop} {K K' : ErrKind → State → Prop} {R D : State → State → Prop}
  {s t u : State} {x : Op φ α} {f : α → Op φ β}

/-! ### What an operation raises -/

/-- What the operation raises when it starts in a state that meets `P`, and the state it then leaves, meet `K`. -/
def Raises (P : State → Prop) (K : ErrKind → State → Prop) (x : Op φ α) : Prop :=
  ∀ s k t, P s → x s = .error (.raise k) t → K k t

theorem Raises.mono (h : Raises P K x) (hP : ∀ s, Q s → P s) (hK : ∀ k t, K k t → K' k t) : Raises Q K' x :=
  fun s k t hs hx => hK k t (h s k t (hP s hs) hx)

theorem raises_bind (hx : Raises P K x) (hQ : ∀ s a t, P s → x s = .ok a t → Q t) (hf : ∀ a, Raises Q K (f a)) :
    Raises P K (x >>= f) := by
  intro s k t hs h
  rcases bind_cases x f s with ⟨a, u, ha, hb⟩ | ⟨e, u, he, hb⟩
  · exact hf a u k t (hQ s a u hs ha) (hb ▸ h)
  · rw [hb] at h
    cases h
    exact hx s k t hs he

/-- The bind of an operation and one whose errors are the same from every state. -/
theorem raises_seq (hx : Raises P K x) (hf : ∀ a, Raises (fun _ => True) K (f a)) : Raises P K (x >>= f) :=
  raises_bind hx (fun _ _ _ _ _ => trivial) hf

theorem raises_update (g : State → State) : Raises P K (Op.update g : Op φ Unit) := fun _ _ _ _ h => by cases h

theorem raises_read (g : State → α) : Raises P K (Op.read g : Op φ α) := fun _ _ _ _ h => by cases h

theorem raises_pure (a : α) : Raises P K (pure a : Op φ α) := fun _ _ _ _ h => by cases h

/-- A requirement that the start meets. -/
theorem raises_required {c : State → Bool} {k : ErrKind} {g : Unit → Op φ β} (hc : ∀ s, P s → c s = true)
    (hg : Raises P K (g ())) : Raises P K (Op.require c k >>= g) := by
  intro s j t hs h
  rw [bind_ok (require_true (hc s hs))] at h
  exact hg s j t hs h

theorem Raises.onRaise {g : State → State} (h : Raises P (fun k t => K k (g t)) x) : Raises P K (x.onRaise g) := by
  intro s k t hs hx
  unfold Op.onRaise at hx
  split at hx
  next j u hu =>
    cases hx
    exact h s k u hs hu
  next hne => exact absurd hx (hne _ _)

theorem Raises.always {g : State → State} (h : Raises P (fun k t => K k (g t)) x) : Raises P K (x.always g) := by
  intro s k t hs hx
  unfold Op.always at hx
  split at hx
  next => cases hx
  next j u hu =>
    cases hx
    exact h s k u hs hu
  next hne => exact absurd hx (hne _ _)

theorem Raises.surfaceAs {j : ErrKind} (h : Raises P (fun _ t => K j t) x) : Raises P K (x.surfaceAs j) := by
  intro s k t hs hx
  unfold Op.surfaceAs at hx
  split at hx
  next i u hu =>
    cases hx
    exact h s i t hs hu
  next hne => exact absurd hx (hne _ _)

theorem Keeps.of_ok {a : α} (h : Keeps P R D x) (hs : P s) (hx : x s = .ok a t) : R s t := (ends_ok hx).mp (h s hs)

theorem Keeps.of_raise {k : ErrKind} (h : Keeps P R D x) (hs : P s) (hx : x s = .error (.raise k) t) : R s t :=
  (ends_error hx).mp (h s hs)

/-! ### The sequencer -/

/-- The error is `TransportError`. -/
def IsTransport (k : ErrKind) (_ : State) : Prop := k = .transportError

theorem raises_moment : Raises P K (moment p : Op φ Unit) := by
  intro s k t _ h
  rcases moment_cases (φ := φ) p s with ⟨u, hu, -⟩ | ⟨u, -, -, hu⟩
  · rw [hu] at h
    cases h
  · rw [hu] at h
    cases h

theorem raises_exchange (w : List Byte) (r : Nat) : Raises P K (exchange p w r : Op φ Answer) :=
  raises_seq raises_moment fun _ _ _ _ _ h => by cases h

theorem raises_checkRead (n : Nat) (a : Answer) : Raises P IsTransport (checkRead n a : Op φ (List Byte)) := by
  intro s k t _ h
  by_cases hok : ∃ bs, a = .done 1 bs ∧ bs.length = n
  · obtain ⟨bs, rfl, hn⟩ := hok
    rw [checkRead_ok hn] at h
    cases h
  · rw [checkRead_fail fun bs hb hn => hok ⟨bs, hb, hn⟩] at h
    cases h
    rfl

theorem raises_checkWrite (a : Answer) : Raises P IsTransport (checkWrite a : Op φ Unit) := by
  intro s k t _ h
  by_cases hok : acceptsWrite a
  · rw [checkWrite_ok hok] at h
    cases h
  · rw [checkWrite_fail hok] at h
    cases h
    rfl

theorem raises_readRegister (addr : Byte) : Raises P IsTransport (readRegister p addr : Op φ Byte) :=
  raises_seq (raises_exchange _ _) fun a => raises_seq (raises_checkRead 1 a) fun _ => raises_pure _

theorem raises_wait (us : Nat) : Raises P K (wait p us : Op φ Unit) := by
  intro s k t _ h
  rcases wait_cases (φ := φ) p us s with ⟨n, u, hu, -, -⟩ | ⟨n, u, -, -, hu⟩
  · rw [hu] at h
    cases h
  · rw [hu] at h
    cases h

theorem raises_issue (cmd : Byte) (us : Nat) : Raises P IsTransport (issue p cmd us : Op φ Unit) :=
  raises_seq (raises_update _) fun _ =>
    raises_seq (raises_seq (raises_exchange _ _) raises_checkWrite) fun _ =>
      raises_seq (raises_update _) fun _ => raises_wait us

theorem raises_captureResult : Raises P IsTransport (captureResult p : Op φ Unit) := by
  refine raises_seq (raises_update _) fun _ => raises_seq (raises_readRegister _) fun _ => ?_
  refine raises_seq (raises_update _) fun _ => raises_seq (raises_readRegister _) fun _ => ?_
  refine raises_seq (raises_update _) fun _ => raises_seq (raises_read _) fun kind => ?_
  cases kind with
  | temperature => exact raises_pure _
  | pressure => exact raises_seq (raises_readRegister _) fun _ => raises_update _

/-- `SEQ` is `Idle`. -/
def SequencerIdle (s : State) : Prop := s.seq = .idle

theorem raises_sequenced {g : Unit → Op φ β} (h : Raises SequencerIdle K (g ())) :
    Raises SequencerIdle K (requireSequencerIdle >>= g) :=
  raises_required (fun s (hs : s.seq = .idle) => by simp [hs]) h

theorem raises_issueAndWait (cmd : Byte) (us : Nat) : Raises SequencerIdle IsTransport (issueAndWait p cmd us : Op φ Unit) :=
  raises_sequenced (raises_seq (Raises.onRaise (K := IsTransport) (raises_issue cmd us)) fun _ => raises_update _)

theorem raises_measure (cmd : Byte) (us : Nat) :
    Raises P IsTransport ((do issue p cmd us; captureResult p : Op φ Unit).onRaise (setSequencer .idle)) :=
  Raises.onRaise (K := IsTransport) (raises_seq (raises_issue cmd us) fun _ => raises_captureResult)

theorem raises_acquireRawTemperature : Raises SequencerIdle IsTransport (acquireRawTemperature p : Op φ Half) :=
  raises_sequenced (raises_seq (raises_update _) fun _ => raises_seq (raises_measure _ _) fun _ =>
    raises_seq (raises_update _) fun _ => raises_read _)

theorem raises_acquireRawPressure (o : Level) : Raises SequencerIdle IsTransport (acquireRawPressure p o : Op φ Count20) :=
  raises_sequenced (raises_seq (raises_update _) fun _ => raises_seq (raises_measure _ _) fun _ =>
    raises_seq (raises_update _) fun _ => raises_read _)

end

/-! ### The engine -/

/-- The error is one of the compensation's (spec/43_compensation.md R145). -/
def IsCompensation (k : ErrKind) (_ : State) : Prop := k = .compensationDomainError ∨ k = .compensationOverflow

/-- The computation fails by an error of the compensation only. -/
def Checked {α : Type} (x : Except ErrKind α) : Prop :=
  ∀ k, x = .error k → k = .compensationDomainError ∨ k = .compensationOverflow

theorem Passes.checked {α : Type} {x : Except ErrKind α} {c : Prop} {a : α} (h : Passes x c a) : Checked x := by
  intro k hk
  by_cases hc : c
  · rw [h.1 hc] at hk
    cases hk
  · rw [h.2 hc] at hk
    cases hk
    exact .inr rfl

theorem checked_domainError {α : Type} {x : Except ErrKind α} (h : x = .error .compensationDomainError) : Checked x := by
  intro k hk
  rw [h] at hk
  cases hk
  exact .inl rfl

theorem compute2_checked (s : State) : Checked (compute2 Config.params s) := by
  by_cases hd : s.stg.x1.toInt + s.cal.md.toInt = 0
  · exact checked_domainError (compute2_zero hd)
  · exact (compute2_passes hd).checked

theorem compute15_checked (s : State) : Checked (compute15 s) := by
  by_cases h4 : s.stg.b4 = 0
  · exact checked_domainError (compute15_zero h4)
  · rcases Nat.lt_or_ge s.stg.b7.toNat 0x80000000 with hlow | hhigh
    · exact (compute15_passes h4 (doubledQuotient_passes_low _ hlow)).checked
    · exact (compute15_passes h4 (doubledQuotient_passes_high _ hhigh)).checked

section
variable {φ : Type} {P : State → Prop} {f : State → Except ErrKind State}

theorem raises_engineStep (k : Nat) (h : ∀ s, Checked (f s)) : Raises P IsCompensation (engineStep k f : Op φ Unit) := by
  intro s j t _ hx
  cases hf : f s with
  | ok u =>
    rw [engineStep_ok hf] at hx
    cases hx
  | error e =>
    rw [engineStep_raise hf] at hx
    cases hx
    exact h s j hf

theorem raises_engineWrite (h : ∀ s, Checked (f s)) : Raises P IsCompensation (engineWrite f : Op φ Unit) := by
  intro s j t _ hx
  cases hf : f s with
  | ok u =>
    rw [engineWrite_ok hf] at hx
    cases hx
  | error e =>
    rw [engineWrite_raise hf] at hx
    cases hx
    exact h s j hf

theorem raises_assert {K : ErrKind → State → Prop} (c : State → Bool) (e : φ) : Raises P K (Op.assert c e : Op φ Unit) := by
  intro s k t _ h
  unfold Op.assert at h
  split at h
  · cases h
  · cases h

theorem raises_pressureStep (k : Nat) (h : ∀ s, Checked (f s)) : Raises P IsCompensation (pressureStep k f) :=
  raises_seq (raises_assert _ _) fun _ => raises_engineStep k h

theorem raises_engineTemperature : Raises P IsCompensation (engineTemperature Config.params : Op φ Unit) :=
  raises_seq (raises_engineStep 1 fun s => (compute1_passes s).checked) fun _ =>
    raises_seq (raises_engineStep 2 compute2_checked) fun _ =>
      raises_seq (raises_engineStep 3 fun s => (compute3_passes s).checked) fun _ =>
        raises_engineStep 4 fun s => (compute4_passes s).checked

theorem raises_engineStep16 : Raises P IsCompensation engineStep16 :=
  raises_seq (raises_assert _ _) fun _ =>
    raises_seq (raises_engineWrite fun _ => (compute16Square_passes rfl).checked) fun _ =>
      raises_engineStep 16 fun _ => (compute16_passes rfl).checked

theorem raises_enginePressure : Raises P IsCompensation (enginePressure Config.params) := by
  refine raises_seq (raises_pressureStep 5 fun s => (compute5_passes s).checked) fun _ => ?_
  refine raises_seq (raises_pressureStep 6 fun s => (compute6_passes s).checked) fun _ => ?_
  refine raises_seq (raises_pressureStep 7 fun s => (compute7_passes s).checked) fun _ => ?_
  refine raises_seq (raises_pressureStep 8 fun s => (compute8_passes s).checked) fun _ => ?_
  refine raises_seq (raises_pressureStep 9 fun s => (compute9_passes s).checked) fun _ => ?_
  refine raises_seq (raises_pressureStep 10 fun s => (compute10_passes s).checked) fun _ => ?_
  refine raises_seq (raises_pressureStep 11 fun s => (compute11_passes s).checked) fun _ => ?_
  refine raises_seq (raises_pressureStep 12 fun s => (compute12_passes s).checked) fun _ => ?_
  refine raises_seq (raises_pressureStep 13 fun s => (compute13_passes s).checked) fun _ => ?_
  refine raises_seq (raises_pressureStep 14 fun s => (compute14_passes s).checked) fun _ => ?_
  refine raises_seq (raises_pressureStep 15 compute15_checked) fun _ => ?_
  refine raises_seq raises_engineStep16 fun _ => ?_
  refine raises_seq (raises_pressureStep 17 fun s => (compute17_passes s).checked) fun _ => ?_
  exact raises_pressureStep 18 fun s => (compute18_passes s).checked

theorem raises_engineRun : Raises (·.calValid = true) IsCompensation (engineRun Config.params) :=
  raises_seq (raises_required (fun _ => id) (raises_seq (raises_assert _ _) fun _ => raises_update _)) fun _ =>
    raises_seq raises_engineTemperature fun _ => raises_enginePressure

end

/-! ### Commands answered with an error -/

section
variable {φ : Type} {p : Params} {R D : State → State → Prop} {s t u : State} {i : Instr}

theorem settle_inv {x : Op φ Payload} {r : Response} (h : settle x s = .ok r t) :
    (∃ a, x s = .ok a t ∧ r = successResponse a) ∨ ∃ k, x s = .error (.raise k) t ∧ r = errorResponse k := by
  unfold settle at h
  split at h
  next a u hx =>
    cases h
    exact .inl ⟨a, hx, rfl⟩
  next k u hx =>
    cases h
    exact .inr ⟨k, hx, rfl⟩
  next => cases h

@[simp] theorem successResponse_err (a : Payload) : (successResponse a).err = 0 := by
  cases a with
  | unit | byte | pair => rfl

/-- A command that has answered with an error has raised it, and has written no register since. -/
theorem accepted_failed {x : Op φ Payload} (h : accepted p x s = .ok () t) (he : t.rsp.err ≠ 0) :
    ∃ k u, x (setBusy true s) = .error (.raise k) u ∧
      t = { u with busy := false, rsp := errorResponse k, ret := t.ret, env := t.env } := by
  rcases accepted_cases p x s with ⟨r, u, v, hx, hv, hr⟩ | ⟨r, u, v, -, -, -, hr⟩ | ⟨e, u, -, hr⟩
  case inl =>
    rw [hr] at h
    cases h
    rcases settle_inv hx with ⟨a, -, rfl⟩ | ⟨k, hk, rfl⟩
    · exact absurd (successResponse_err a) he
    · have hregs := hv.regs
      unfold SameRegs at hregs
      exact ⟨k, u, hk, congrArg (fun w => setBusy false (respond (errorResponse k) w)) hregs⟩
  all_goals
    rw [hr] at h
    cases h

/-- With no hardware reset coming, nothing but a fault of the model keeps an accepted command from its end. -/
theorem accepted_calm {x : Op φ Payload} (hT : Tolerates p R D) (hd : ∀ s t, D s t → t.env.sched <:+ s.env.sched)
    (hx : Keeps (fun _ => True) R D x) (hc : Calm s) :
    (∃ t, accepted p x s = .ok () t) ∨ ∃ f t, accepted p x s = .error (.fault f) t := by
  have h := accepted_keeps (s := s) hT hx trivial
  cases hr : accepted p x s with
  | ok a t => exact .inl ⟨t, rfl⟩
  | error e t =>
    rw [ends_error hr] at h
    obtain ⟨hstop, hraise⟩ := h
    cases e with
    | raise k => exact absurd rfl (hraise k)
    | dropped => exact (Stopped.calm (s := setBusy true s) hc (hd _) hstop).elim
    | fault f => exact .inr ⟨f, t, rfl⟩

theorem accepted_of_runCommand {x : Op Empty Payload} (hT : Tolerates p R D)
    (hd : ∀ s t, D s t → t.env.sched <:+ s.env.sched) (hx : Keeps (fun _ => True) R D x) (hc : Calm s) (hb : s.busy = false)
    (hn : runCommand p i x s = .next t) : accepted p x s = .ok () t := by
  rw [runCommand, hb] at hn
  obtain ⟨u, hu⟩ | ⟨f, -⟩ := accepted_calm hT hd hx hc
  · rw [hu] at hn ⊢
    cases hn
    rfl
  · exact nomatch f

theorem accepted_of_runEngineCommand {x : Op Fault Payload} (hT : Tolerates p R D)
    (hd : ∀ s t, D s t → t.env.sched <:+ s.env.sched) (hx : Keeps (fun _ => True) R D x) (hc : Calm s) (hb : s.busy = false)
    (hn : runEngineCommand p i x s = .next t) : accepted p x s = .ok () t := by
  rw [runEngineCommand, hb] at hn
  obtain ⟨u, hu⟩ | ⟨f, u, hu⟩ := accepted_calm hT hd hx hc
  · rw [hu] at hn ⊢
    cases hn
    rfl
  · rw [hu] at hn
    cases hn

end

/-! ### `configure` -/

/-- Before `configure`: `CAL` = `c` is not valid. -/
structure Unconfigured (c : Cal) (s : State) : Prop where
  ss       : s.ss = .idle
  seq      : s.seq = .idle
  cal      : s.cal = c
  calValid : s.calValid = false

/-- What an error of `configure` leaves: no valid calibration, and `CAL` = `c` if it was an error of `load`. -/
structure ConfigureFailed (c : Cal) (k : ErrKind) (t : State) : Prop where
  ss       : t.ss = .idle
  calValid : t.calValid = false
  kind     : k = .calibrationReadError ∧ t.cal = c ∨ k = .transportError

/-- `SS` and `SEQ` are `Idle`. -/
def BothIdle (s : State) : Prop := s.ss = .idle ∧ s.seq = .idle

section
variable {φ α : Type} {p : Params} {c : Cal} {R D : State → State → Prop} {s t : State} {x : Op φ α} {a : α}

theorem bothIdle_of_ok (hss : Keeps (fun _ => True) SessionStands SessionStands x)
    (hseq : Keeps (fun _ => True) (BackToIdle R) D x) (hs : BothIdle s) (hx : x s = .ok a t) : BothIdle t :=
  ⟨(hss.of_ok trivial hx).ss.trans hs.1, (hseq.of_ok trivial hx).2 hs.2⟩

theorem raises_load : Raises (Unconfigured c) (ConfigureFailed c) (load p : Op φ Unit) := by
  refine raises_seq (Raises.surfaceAs fun s k t hs hx => ?_) fun _ => raises_update _
  have h := ((keepsRegisters_readBlock _ _).of_raise trivial hx).regs
  unfold SameRegs at h
  rw [h]
  exact ⟨hs.ss, hs.calValid, .inl ⟨rfl, hs.cal⟩⟩

theorem load_bothIdle (hs : BothIdle s) (hx : (load p : Op φ Unit) s = .ok () t) : BothIdle t :=
  bothIdle_of_ok (observes_sessionStands (p := p)).load
    (keeps_load configureRegs_measures.backToIdle (fun _ => ⟨.of_eq rfl rfl, id⟩) fun _ _ => ⟨.of_eq rfl rfl, id⟩) hs hx

theorem raises_commandWait (cmd : Byte) (us : Nat) :
    Raises BothIdle (ConfigureFailed c) ((issueAndWait p cmd us : Op φ Unit).onRaise clearCalValid) := by
  refine Raises.onRaise fun s k t ⟨hss, hseq⟩ hx => ?_
  have hstands := (keeps_issueAndWait observes_sessionStands.measures cmd us).of_raise (P := fun _ => True) trivial hx
  exact ⟨hstands.ss.trans hss, rfl, .inr (raises_issueAndWait cmd us s k t hseq hx)⟩

theorem commandWait_bothIdle (cmd : Byte) (us : Nat) (hs : BothIdle s)
    (hx : (issueAndWait p cmd us : Op φ Unit).onRaise clearCalValid s = .ok () t) : BothIdle t :=
  have M := (observes_sessionStands (p := p)).measures
  bothIdle_of_ok
    ((keeps_issueAndWait M cmd us).onRaise (g := clearCalValid) fun _ _ _ h =>
      h.trans (observes_sessionStands.silent (p := p) rfl rfl rfl))
    ((keeps_issueAndWait_idle configureRegs_measures cmd us).onRaise (g := clearCalValid) fun _ _ _ h =>
      ⟨h.1.trans configureRegs_carries (.of_eq rfl rfl), h.2⟩) hs hx

theorem raises_configure : Raises (Unconfigured c) (ConfigureFailed c) (configure p) := by
  refine raises_required (fun s hs => by simp [hs.ss]) ?_
  refine raises_bind (Q := BothIdle) raises_load (fun s _ t hs => load_bothIdle ⟨hs.ss, hs.seq⟩) fun _ => ?_
  refine raises_bind (raises_commandWait _ _) (fun s _ t => commandWait_bothIdle _ _) fun _ => ?_
  exact raises_seq (raises_commandWait _ _) fun _ => raises_seq (raises_update _) fun _ => raises_pure _

end

/-- Settles O43: `configure` fails in `load`, which has written nothing, or in a wait for a conversion, which ends with
`CAL_VALID` = 0. -/
theorem configureFailureLeavesIdle : Obligations.ConfigureFailureLeavesIdle := by
  intro u s t hc hb hss hseq hcal hn he
  obtain ⟨-, hframe, -⟩ := commandFrames s t hc hb
  have hregs := hframe u hseq hn
  obtain ⟨k, v, hx, ht⟩ := accepted_failed (accepted_of_runCommand configureRegs_measures.backToIdle
    (fun _ _ => WritesAtMost.sched) configureRegs_configure hc hb hn) he
  obtain ⟨hvss, hvcal, hk⟩ := raises_configure (setBusy true s) k v ⟨hss, hseq, rfl, hcal⟩ hx
  have howned : t.owned = s.owned := by rw [hregs]
  have hidle : t.seq = .idle := by rw [hregs]; exact hseq
  rw [ht] at howned hidle ⊢
  refine ⟨hvss, howned, hvcal, hidle, rfl, ?_⟩
  rcases hk with ⟨rfl, hvc⟩ | rfl
  · exact .inl ⟨rfl, hvc⟩
  · exact .inr rfl

/-! ### `read` -/

/-- `SEQ` is `Idle` and the calibration valid, as `read` needs it before each of its parts. -/
structure MayMeasure (s : State) : Prop where
  seq      : s.seq = .idle
  calValid : s.calValid = true

/-- What an error of `read` can be. -/
def IsReadError (k : ErrKind) (_ : State) : Prop :=
  k = .transportError ∨ k = .compensationDomainError ∨ k = .compensationOverflow

/-- What an error of `read` leaves. -/
structure ReadFailed (k : ErrKind) (t : State) : Prop where
  kind    : IsReadError k t
  utValid : t.utValid = false
  upValid : t.upValid = false
  b5Valid : t.b5Valid = false

theorem mayMeasure_of_ok {α : Type} {x : Op Fault α} {s t : State} {a : α}
    (h : Keeps (fun _ => True) (BackToIdle (WritesAtMost readRegs)) (WritesAtMost readRegs) x) (hs : MayMeasure s)
    (hx : x s = .ok a t) : MayMeasure t := by
  obtain ⟨hregs, hseq⟩ := h.of_ok trivial hx
  exact ⟨hseq hs.seq, (congrArg State.calValid hregs.regs).trans hs.calValid⟩

theorem raises_measureAndCompensate :
    Raises MayMeasure IsReadError (do
      let _ ← acquireRawTemperature Config.params
      let _ ← acquireRawPressure Config.params Config.params.ossSel
      engineRun Config.params : Op Fault Unit) := by
  refine raises_bind (raises_acquireRawTemperature.mono (fun _ => MayMeasure.seq) fun _ _ => .inl)
    (fun _ _ _ => mayMeasure_of_ok (keeps_acquireRawTemperature readRegs_acquiresT)) fun _ => ?_
  refine raises_bind ((raises_acquireRawPressure _).mono (fun _ => MayMeasure.seq) fun _ _ => .inl)
    (fun _ _ _ => mayMeasure_of_ok (keeps_acquireRawPressure readRegs_acquiresP _)) fun _ => ?_
  exact raises_engineRun.mono (fun _ => MayMeasure.calValid) fun _ _ => .inr

theorem raises_readCompensated :
    Raises (fun s => s.ss = .configured ∧ MayMeasure s) ReadFailed (readCompensated Config.params) := by
  refine raises_required (fun s hs => by simp [hs.1]) (raises_seq (Raises.always ?_) fun _ => raises_read _)
  exact raises_measureAndCompensate.mono (fun _ => And.right) fun k t hk => ⟨hk, rfl, rfl, rfl⟩

/-- Settles O51: every error of `read` passes the fall of the flags, and its frame has neither the session nor `CAL`. -/
theorem failedReadLeavesTheSession : Obligations.FailedReadLeavesTheSession := by
  intro u s t hc hb hseq hss hcal hn he
  obtain ⟨-, -, -, -, -, -, -, -, hframe⟩ := commandFrames s t hc hb
  have hregs := hframe u hseq hn
  obtain ⟨k, v, hx, ht⟩ := accepted_failed (accepted_of_runEngineCommand readRegs_measures.backToIdle
    (fun _ _ => WritesAtMost.sched) readRegs_readCompensated hc hb hn) he
  obtain ⟨hk, hut, hup, hb5⟩ := raises_readCompensated (setBusy true s) k v ⟨hss, hseq, hcal⟩ hx
  have hsession : t.ss = .configured ∧ t.owned = s.owned ∧ t.cal = s.cal ∧ t.calValid = true ∧ t.seq = .idle := by
    rw [hregs]
    exact ⟨hss, rfl, rfl, hcal, hseq⟩
  obtain ⟨htss, howned, htcal, hvalid, hidle⟩ := hsession
  refine ⟨htss, howned, htcal, hvalid, hidle, ?_⟩
  rw [ht]
  refine ⟨rfl, hut, hup, hb5, rfl, rfl, ?_⟩
  rcases hk with rfl | rfl | rfl
  · exact .inl rfl
  · exact .inr (.inl rfl)
  · exact .inr (.inr rfl)

end Sys2Proof.Machine
end

section
/-!
Commands that the block refuses (spec/60_exceptions.md R183, R185), the fresh session after `close` and `open` (R194), and
which errors and which data a command's response can carry (R181 to R191, R203).
-/

namespace Sys2Proof.Machine

/-! ### Refused before anything is done -/

section
variable {p : Params} {s : State} {i : Instr}

/-- A command whose operation raises before it has done anything: the response is all that happens. -/
theorem runCommand_refused {x : Op Empty Payload} {k : ErrKind} (hq : Quiet s) (hb : s.busy = false)
    (hx : x (setBusy true s) = .error (.raise k) (setBusy true s)) :
    runCommand p i x s = .next (respond (errorResponse k) s) := by
  rw [runCommand_raise hb hx hq, ← hb]
  rfl

theorem runEngineCommand_refused {x : Op Fault Payload} {k : ErrKind} (hq : Quiet s) (hb : s.busy = false)
    (hx : x (setBusy true s) = .error (.raise k) (setBusy true s)) :
    runEngineCommand p i x s = .next (respond (errorResponse k) s) := by
  rw [runEngineCommand_raise hb hx hq, ← hb]
  rfl

end

theorem be24_extract_op (op addr value : Byte) : (be24 op addr value).extractLsb' 16 8 = op := by
  apply BitVec.eq_of_toNat_eq
  have := op.isLt
  have := addr.isLt
  have := value.isLt
  simp only [BitVec.extractLsb'_toNat, be24_toNat, Nat.shiftRight_eq_div_pow]
  omega

/-- Settles O48: the operation raises at once, and a code outside 1 to 8 decodes to no other command. -/
theorem invalidCommandChangesNothing : Obligations.InvalidCommandChangesNothing := by
  refine ⟨fun op u s hq hb => runCommand_refused hq hb rfl, fun op addr value hop => ?_⟩
  have hcode : isCommandCode op = false := by
    simp only [isCommandCode, Bool.and_eq_false_iff, decide_eq_false_iff_not]
    omega
  rw [decodeWord, be24_extract_op]
  exact ⟨_, decodeCommand_of_not_code hcode _ _⟩

/-! ### A fresh session -/

/-- `close` ends the session from every state, whatever the power-down write is answered. -/
theorem exec_closeSession_ends (u : Half) {s : State} (hq : Quiet s) (hb : s.busy = false) :
    ∃ t, exec (.closeSession u) s = .next t ∧ Quiet t ∧ t.busy = false ∧ t.owned = false ∧ t.calValid = false := by
  obtain ⟨hlive, hclosed⟩ := shutdownAndCloseEndTheSession u s hq hb
  by_cases hs : s.ss = .closed
  · obtain ⟨t, hx, ht, henv⟩ := hclosed hs
    exact ⟨t, hx, henv.quiet hq, by rw [ht]; exact hb, by rw [ht], by rw [ht]⟩
  · obtain ⟨t, r, hx, -, -, ht, henv⟩ := hlive (.closeSession u) _ hs (.inr rfl) rfl
    exact ⟨t, hx, henv.quiet hq, by rw [ht]; exact hb, by rw [ht], by rw [ht]⟩

/-- Settles O57: `close` gives up the ownership, so `open` takes it. -/
theorem closeThenOpenRecovers : Obligations.CloseThenOpenRecovers := by
  intro u v s hq hb
  obtain ⟨t, hclose, htq, htb, howned, hcal⟩ := exec_closeSession_ends u hq hb
  obtain ⟨hopen, -⟩ := openTakesTheSession v t htq htb
  exact ⟨t, _, hclose, hopen howned, rfl, rfl, hcal, htb, rfl⟩

/-! ### The errors of each command -/

/-- The errors that an accepted command can be answered with (spec/60_exceptions.md R182 to R191), from every state, also one
that no run from reset reaches. -/
def commandErrors : Instr → List ErrKind
  | .openSession _ => [.sessionBusy]
  | .closeSession _ => [.transportError]
  | .invalid _ _ => [.invalidCommand]
  | .reset _ | .shutdown _ | .readRegisterRaw _ _ | .writeRegisterRaw _ _ => [.invalidStateTransition, .transportError]
  | .configure _ => [.invalidStateTransition, .calibrationReadError, .sensorBusy, .transportError]
  | .readCompensated _ => [.invalidStateTransition, .calibrationReadError, .sensorBusy, .transportError,
      .compensationDomainError, .compensationOverflow]
  | _ => []

section
variable {φ α β : Type} {p : Params} {P : State → Prop} {K : ErrKind → State → Prop} {s t : State}

/-- The operation raises no other errors than these. -/
abbrev RaisesOnly (l : List ErrKind) (x : Op φ α) : Prop := Raises (fun _ => True) (fun k _ => k ∈ l) x

theorem raises_raise {k : ErrKind} (h : ∀ s, K k s) : Raises P K (Op.raise k : Op φ α) := by
  intro s j t _ hx
  cases hx
  exact h s

theorem raises_require {c : State → Bool} {k : ErrKind} (h : ∀ s, K k s) : Raises P K (Op.require c k : Op φ Unit) := by
  intro s j t _ hx
  cases hc : c s with
  | true =>
    rw [require_true hc] at hx
    cases hx
  | false =>
    rw [require_false hc] at hx
    cases hx
    exact h s

theorem RaisesOnly.checked {l : List ErrKind} {c : State → Bool} {k : ErrKind} {f : Unit → Op φ α}
    (hf : RaisesOnly l (f ())) (hk : k ∈ l := by simp [commandErrors]) : RaisesOnly l (Op.require c k >>= f) :=
  raises_seq (raises_require fun _ => hk) fun _ => hf

theorem Raises.only_of_transport {l : List ErrKind} {x : Op φ α} (h : Raises (fun _ => True) IsTransport x)
    (hl : .transportError ∈ l := by simp [commandErrors]) : RaisesOnly l x :=
  h.mono (fun _ => id) fun k _ hk => by
    obtain rfl : k = .transportError := hk
    exact hl

/-- An operation of the sequencer: `SensorBusy` when it is not idle, else what it raises then. -/
theorem raisesOnly_sequenced {l : List ErrKind} {f : Unit → Op φ α}
    (h : Raises SequencerIdle IsTransport (requireSequencerIdle >>= f)) (hb : .sensorBusy ∈ l := by simp [commandErrors])
    (hl : .transportError ∈ l := by simp [commandErrors]) : RaisesOnly l (requireSequencerIdle >>= f) := by
  intro s k t _ hx
  by_cases hs : s.seq = .idle
  · obtain rfl : k = .transportError := h s k t hs hx
    exact hl
  · rw [bind_error (requireSequencerIdle_raise hs)] at hx
    cases hx
    exact hb

theorem raises_writeRegister (addr v : Byte) : Raises P IsTransport (writeRegister p addr v : Op φ Unit) :=
  raises_seq (raises_exchange _ _) raises_checkWrite

theorem raises_outcome {x : Op φ α} : Raises P K x.outcome := by
  intro s k t _ hx
  unfold Op.outcome at hx
  split at hx
  next => cases hx
  next => cases hx
  next hne _ =>
    cases hx
    exact absurd rfl (hne k)

/-! ### What an operation returns -/

/-- Every value the operation returns meets `A`. -/
def Returns (A : α → Prop) (x : Op φ α) : Prop := ∀ s a t, x s = .ok a t → A a

theorem returns_pure {A : α → Prop} {a : α} (h : A a) : Returns A (pure a : Op φ α) := by
  intro s b t hx
  cases hx
  exact h

theorem returns_read {A : α → Prop} {g : State → α} (h : ∀ s, A (g s)) : Returns A (Op.read g : Op φ α) := by
  intro s b t hx
  cases hx
  exact h s

theorem returns_raise {A : α → Prop} (k : ErrKind) : Returns A (Op.raise k : Op φ α) := fun _ _ _ hx => by cases hx

theorem returns_bind {A : β → Prop} {x : Op φ α} {f : α → Op φ β} (hf : ∀ a, Returns A (f a)) : Returns A (x >>= f) := by
  intro s b t hx
  rcases bind_cases x f s with ⟨a, u, -, hb⟩ | ⟨e, u, -, hb⟩
  · exact hf a u b t (hb ▸ hx)
  · rw [hb] at hx
    cases hx

/-- The error that an operation gives as its outcome is one it raises. -/
theorem returns_outcome {x : Op φ α} (h : Raises (fun _ => True) IsTransport x) :
    Returns (fun e => ∀ k, e = some k → k = .transportError) x.outcome := by
  intro s e t hx k hk
  unfold Op.outcome at hx
  split at hx
  next =>
    cases hx
    cases hk
  next hu =>
    cases hx
    cases hk
    exact h s _ _ trivial hu
  next => cases hx

/-- The bind of an operation whose value decides what the next can raise. -/
theorem raises_bind_returned {A : α → Prop} {x : Op φ α} {f : α → Op φ β} (hx : Raises P K x) (hA : Returns A x)
    (hf : ∀ a, A a → Raises (fun _ => True) K (f a)) : Raises P K (x >>= f) := by
  intro s k t hs h
  rcases bind_cases x f s with ⟨a, u, ha, hb⟩ | ⟨e, u, he, hb⟩
  · exact hf a (hA s a u ha) u k t trivial (hb ▸ h)
  · rw [hb] at h
    cases h
    exact hx s k t hs he

/-! ### The operations of the commands -/

/-- What a command may return: `read-register` a byte, `read` a pair, and no other command a value (spec/30_encoding.md R62). -/
inductive MayReturn : Instr → Payload → Prop where
  | unit {i : Instr} : MayReturn i .unit
  | byte {addr u b : Byte} : MayReturn (.readRegisterRaw addr u) (.byte b)
  | pair {u : Half} {t p : Word} : MayReturn (.readCompensated u) (.pair t p)

theorem raisesOnly_commandWait (cmd : Byte) (us : Nat) :
    RaisesOnly (commandErrors (.configure 0)) ((issueAndWait p cmd us : Op φ Unit).onRaise clearCalValid) :=
  Raises.onRaise (K := fun k _ => k ∈ commandErrors (.configure 0)) (raisesOnly_sequenced (raises_issueAndWait cmd us))

theorem raisesOnly_configure : RaisesOnly (commandErrors (.configure 0)) (configure p) := by
  have hload : RaisesOnly (commandErrors (.configure 0)) (load p : Op Empty Unit) :=
    raises_seq (Raises.surfaceAs fun _ _ _ _ _ => by simp [commandErrors]) fun _ => raises_update _
  refine RaisesOnly.checked (raises_seq hload fun _ => ?_)
  refine raises_seq (raisesOnly_commandWait _ _) fun _ => raises_seq (raisesOnly_commandWait _ _) fun _ => ?_
  exact raises_seq (raises_update _) fun _ => raises_pure _

theorem raises_endSession {e : Option ErrKind} (he : ∀ k, e = some k → k = .transportError) :
    Raises P IsTransport (endSession e) := by
  refine raises_seq (raises_update _) fun _ => ?_
  cases e with
  | none => exact raises_pure _
  | some k => exact raises_raise fun _ => he k rfl

/-- The end of `shutdown` and `close` raises the error of the power-down write and no other. -/
theorem raises_powerDown : Raises P IsTransport (writePowerDown p >>= endSession) := by
  refine raises_bind_returned (raises_seq (raises_update _) fun _ => raises_outcome) ?_ fun _ => raises_endSession
  exact returns_bind fun _ => returns_outcome (raises_writeRegister _ _)

theorem raises_closeSession : Raises P IsTransport (closeSession p) := by
  intro s k t hs hx
  by_cases hss : s.ss = .closed
  · rw [closeSession_closed hss] at hx
    cases hx
  · rw [closeSession_live hss] at hx
    exact raises_powerDown s k t hs hx

theorem raisesOnly_engineRun : RaisesOnly (commandErrors (.readCompensated 0)) (engineRun Config.params) := by
  refine raises_seq (RaisesOnly.checked (raises_seq (raises_assert _ _) fun _ => raises_update _)) fun _ => ?_
  refine Raises.mono (raises_seq raises_engineTemperature fun _ => raises_enginePressure) (fun _ => id) fun k _ hk => ?_
  rcases hk with rfl | rfl
  · decide
  · decide

theorem raisesOnly_readCompensated :
    RaisesOnly (commandErrors (.readCompensated 0)) (readCompensated Config.params) := by
  refine RaisesOnly.checked (raises_seq (Raises.always ?_) fun _ => raises_read _)
  refine raises_seq (raisesOnly_sequenced raises_acquireRawTemperature) fun _ => ?_
  exact raises_seq (raisesOnly_sequenced (raises_acquireRawPressure _)) fun _ => raisesOnly_engineRun

theorem returns_endSession {i : Instr} (e : Option ErrKind) : Returns (MayReturn i) (endSession e) := by
  refine returns_bind fun _ => ?_
  cases e with
  | none => exact returns_pure .unit
  | some k => exact returns_raise k

theorem returns_closeSession {i : Instr} : Returns (MayReturn i) (closeSession p) := by
  intro s a t hx
  by_cases hss : s.ss = .closed
  · rw [closeSession_closed hss] at hx
    cases hx
    exact .unit
  · rw [closeSession_live hss] at hx
    exact returns_bind returns_endSession s a t hx

/-! ### The response of a command -/

/-- A success with a value that meets `A`, or an error of the list and no value. -/
def Answers (A : Payload → Prop) (l : List ErrKind) (r : Response) : Prop :=
  (∃ a, A a ∧ r = successResponse a) ∨ ∃ k ∈ l, r = errorResponse k

theorem accepted_answers {A : Payload → Prop} {l : List ErrKind} {x : Op φ Payload} (hA : Returns A x)
    (hl : RaisesOnly l x) (h : accepted p x s = .ok () t) : Answers A l t.rsp := by
  rcases accepted_cases p x s with ⟨r, u, v, hx, -, hr⟩ | ⟨r, u, v, -, -, -, hr⟩ | ⟨e, u, -, hr⟩
  case inl =>
    rw [hr] at h
    cases h
    rcases settle_inv hx with ⟨a, ha, rfl⟩ | ⟨k, hk, rfl⟩
    · exact .inl ⟨a, hA _ a u ha, rfl⟩
    · exact .inr ⟨k, hl _ k u trivial hk, rfl⟩
  all_goals
    rw [hr] at h
    cases h

theorem runCommand_answers {A : Payload → Prop} {l : List ErrKind} {i : Instr} {x : Op Empty Payload}
    (hx : Keeps (fun _ => True) (Unanswered p) (Unanswered p) x) (hA : Returns A x) (hl : RaisesOnly l x) (hc : Calm s)
    (hb : s.busy = false) (hn : runCommand p i x s = .next t) : Answers A l t.rsp :=
  accepted_answers hA hl (accepted_of_runCommand observes_unanswered.computes.toTolerates (fun _ _ => Unanswered.sched)
    hx hc hb hn)

theorem runEngineCommand_answers {A : Payload → Prop} {l : List ErrKind} {i : Instr} {x : Op Fault Payload}
    (hx : Keeps (fun _ => True) (Unanswered p) (Unanswered p) x) (hA : Returns A x) (hl : RaisesOnly l x) (hc : Calm s)
    (hb : s.busy = false) (hn : runEngineCommand p i x s = .next t) : Answers A l t.rsp :=
  accepted_answers hA hl (accepted_of_runEngineCommand observes_unanswered.computes.toTolerates
    (fun _ _ => Unanswered.sched) hx hc hb hn)

/-- Every accepted command that no hardware reset drops answers with what it may return, or with one of its errors. -/
theorem exec_answers {i : Instr} (hi : isCommand i = true) (hc : Calm s) (hb : s.busy = false)
    (hn : exec i s = .next t) : Answers (MayReturn i) (commandErrors i) t.rsp := by
  have O := observes_unanswered (p := Config.params)
  have T := O.computes.toTolerates
  have hx : ∀ {w r} u, Unanswered Config.params u (afterExchange Config.params w r u) := O.exchange _ _
  cases i
  case configure =>
    refine runCommand_answers (keeps_configure T hx (keeps_issueAndWait O.measures) (fun _ _ => O.silent rfl rfl rfl)
      (fun _ => O.silent rfl rfl rfl) fun _ => .of_log [_] rfl) ?_ raisesOnly_configure hc hb hn
    exact returns_bind fun _ => returns_bind fun _ => returns_bind fun _ => returns_bind fun _ => returns_bind fun _ =>
      returns_pure .unit
  case shutdown =>
    exact runCommand_answers (keeps_shutdown T (fun _ => hx) (fun _ => .of_log [_] rfl) fun _ => .of_log [_] rfl)
      (returns_bind fun _ => returns_bind returns_endSession) (.checked raises_powerDown.only_of_transport) hc hb hn
  case reset =>
    exact runCommand_answers (keeps_resetSensor T (fun _ => hx) fun _ => .of_log [_] rfl)
      (returns_bind fun _ => returns_bind fun _ => returns_bind fun _ => returns_pure .unit)
      (.checked (raises_seq (raises_writeRegister _ _).only_of_transport fun _ =>
        raises_seq (raises_update _) fun _ => raises_pure _)) hc hb hn
  case readRegisterRaw =>
    exact runCommand_answers (keeps_readRegisterRaw T hx)
      (returns_bind fun _ => returns_bind fun _ => returns_pure .byte)
      (.checked (raises_seq (raises_readRegister _).only_of_transport fun _ => raises_pure _)) hc hb hn
  case writeRegisterRaw =>
    exact runCommand_answers (keeps_writeRegisterRaw T hx)
      (returns_bind fun _ => returns_bind fun _ => returns_pure .unit)
      (.checked (raises_seq (raises_writeRegister _ _).only_of_transport fun _ => raises_pure _)) hc hb hn
  case readCompensated =>
    exact runEngineCommand_answers O.readCompensated (returns_bind fun _ => returns_bind fun _ => returns_read fun _ => .pair)
      raisesOnly_readCompensated hc hb hn
  case openSession =>
    exact runCommand_answers (keeps_openSession T fun _ => .of_log [_] rfl)
      (returns_bind fun _ => returns_bind fun _ => returns_pure .unit)
      (.checked (raises_seq (raises_update _) fun _ => raises_pure _)) hc hb hn
  case closeSession =>
    exact runCommand_answers (keeps_closeSession T (fun _ => hx) (fun _ => .of_log [_] rfl) fun _ => .of_log [_] rfl)
      returns_closeSession raises_closeSession.only_of_transport hc hb hn
  case invalid =>
    exact runCommand_answers (keeps_invalidCommand T.refl) (returns_raise _) (raises_raise fun _ => by simp [commandErrors])
      hc hb hn
  all_goals cases hi

end

theorem errCode_le (k : ErrKind) : (errCode k).toNat ≤ 9 := by
  cases k <;> decide

theorem eq_bufferTooSmall_of_errCode {k : ErrKind} (h : errCode k = 3) : k = .bufferTooSmall := by
  cases k with
  | bufferTooSmall => rfl
  | _ => exact absurd h (by decide)

theorem eq_invalidStateTransition_of_errCode {k : ErrKind} (h : errCode k = 4) : k = .invalidStateTransition := by
  cases k with
  | invalidStateTransition => rfl
  | _ => exact absurd h (by decide)

/-- No command raises `BufferTooSmall` (spec/60_exceptions.md R184). -/
theorem bufferTooSmall_not_mem_commandErrors (i : Instr) : ErrKind.bufferTooSmall ∉ commandErrors i := by
  cases i <;> simp [commandErrors]

/-- Settles O54: the response is that of a success or of one of the command's errors. -/
theorem errorResponsesCarryNoData : Obligations.ErrorResponsesCarryNoData := by
  intro i s t hi hc hb hn
  obtain ⟨a, ha, hr⟩ | ⟨k, hk, hr⟩ := exec_answers hi hc hb hn
  · rw [hr]
    cases ha with
    | unit => simp [successResponse]
    | byte => simp [successResponse]
    | pair => simp [successResponse]
  · have hne : errCode k ≠ 3 := fun h =>
      bufferTooSmall_not_mem_commandErrors i (eq_bufferTooSmall_of_errCode h ▸ hk)
    rw [hr]
    exact ⟨errCode_le k, hne, fun _ => ⟨rfl, rfl, rfl⟩, fun h => absurd rfl h,
      fun h => h.elim (absurd rfl) (absurd rfl)⟩

/-- Settles O49: the state check is the first step of each command and raises, while neither `open` nor `close` has one. -/
theorem wrongStateIsRefusedBeforeAnyExchange : Obligations.WrongStateIsRefusedBeforeAnyExchange := by
  refine ⟨fun i s hq hb hi => ?refused, fun u s t hc hb hn => ?never⟩
  case refused =>
    obtain ⟨u, addr, value, ⟨rfl, hs⟩ | ⟨rfl, hs⟩ | ⟨rfl, hs⟩ | ⟨rfl, hs⟩ | ⟨rfl, hs⟩ | ⟨rfl, hs⟩⟩ := hi
    case inr.inr.inr.inr.inr => exact runEngineCommand_refused hq hb (bind_error (require_false (by simp [hs])))
    all_goals exact runCommand_refused hq hb (bind_error (require_false (by simp [hs])))
  case never =>
    obtain ⟨i, hi, hl, hx⟩ : ∃ i, isCommand i = true ∧ ErrKind.invalidStateTransition ∉ commandErrors i ∧
        exec i s = .next t := by
      rcases hn with hn | hn
      · exact ⟨_, rfl, by simp [commandErrors], hn⟩
      · exact ⟨_, rfl, by simp [commandErrors], hn⟩
    obtain ⟨a, -, hr⟩ | ⟨k, hk, hr⟩ := exec_answers hi hc hb hx
    · simp [hr]
    · rw [hr]
      exact fun h => hl (eq_invalidStateTransition_of_errCode h ▸ hk)

end Sys2Proof.Machine
end

section
/-!
The writes of the control register beside the sensor's conversion (spec/20_memory.md R52, R54, spec/70_reset_and_hazards.md
R215). With no conversion in progress a write falls inside none; a conversion command is followed by a wait for its whole
length, so that none is in progress again when the next write comes.
-/

namespace Sys2Proof.Machine

/-- Nothing is exchanged from `s` to `t`, and at least `k` ticks of a conversion pass. -/
structure Elapsed (k : Nat) (s t : State) : Prop where
  sched : t.env.sched <:+ s.env.sched
  mid   : t.env.sensor.midWrite = s.env.sensor.midWrite
  left  : t.env.sensor.left ≤ s.env.sensor.left - k
  log   : ∃ new, t.env.log = new ++ s.env.log ∧ exchangesOf new = []

/-- When no conversion is in progress at `s` and every write from `s` to `t` is accepted whole, none of these writes falls
inside a conversion, and of a conversion at most `n` ticks are left at `t`. -/
structure Spares (n : Nat) (s t : State) : Prop where
  sched : t.env.sched <:+ s.env.sched
  log   : ∃ new, t.env.log = new ++ s.env.log ∧
    ((∀ x ∈ exchangesOf new, isFullWrite x) → s.env.sensor.left = 0 →
      t.env.sensor.midWrite = s.env.sensor.midWrite ∧ t.env.sensor.left ≤ n)

/-- The same, however long a conversion is still in progress at `t`. -/
def SparesSoFar (s t : State) : Prop := ∃ n, Spares n s t

/-- With no conversion in progress, a write of `v` to `addr` leaves at most `n` ticks of one. -/
def LastsAtMost (p : Params) (addr v : Byte) (n : Nat) : Prop :=
  ∀ x : Sensor, x.left = 0 → (sensorWrite p addr v x).left ≤ n

section
variable {p : Params} {s t u : State} {k m n : Nat}

/-! ### Without an exchange -/

theorem Elapsed.of_env (h : t.env = s.env) : Elapsed 0 s t := by
  refine ⟨?_, ?_, ?_, [], ?_, rfl⟩ <;> simp [h]

/-- What writes an entry of the trace that is no exchange. -/
theorem Elapsed.of_event {e : Nat × Event} (h : t.env = { s.env with log := e :: s.env.log })
    (he : exchangesOf [e] = [] := by rfl) : Elapsed 0 s t := by
  refine ⟨?_, ?_, ?_, [e], ?_, he⟩ <;> simp [h]

theorem Elapsed.trans (h : Elapsed 0 s t) (g : Elapsed 0 t u) : Elapsed 0 s u := by
  obtain ⟨old, hold, hno⟩ := h.log
  obtain ⟨new, hnew, hnone⟩ := g.log
  exact ⟨g.sched.trans h.sched, g.mid.trans h.mid, g.left.trans h.left, new ++ old,
    by rw [hnew, hold, List.append_assoc], by rw [exchangesOf_append, hno, hnone]; rfl⟩

theorem Acted.elapsed (h : Acted p s t) (hk : t.env.sensor.left ≤ s.env.sensor.left - k) : Elapsed k s t := by
  obtain ⟨refused, hlog, -, -⟩ := h.log
  have hx := h.exchanges
  rw [hlog, exchangesOf_append, List.append_left_eq_self] at hx
  exact ⟨h.sched, h.mid, hk, refused, hlog, hx⟩

theorem Waited.elapsed (h : Waited p k s t) : Elapsed k s t :=
  have ha := h.acted.elapsed h.left.le
  ⟨ha.sched, ha.mid, ha.left, ha.log⟩

/-- A hardware reset leaves the sensor as it is. -/
theorem elapsed_hardwareReset (s : State) : Elapsed 0 s (hardwareReset (dropAct s)) :=
  ⟨List.tail_suffix _, rfl, le_rfl, [_], rfl, rfl⟩

theorem elapsed_tolerates : Tolerates p (Elapsed 0) (Elapsed 0) where
  refl _       := .of_env rfl
  trans _ _ _  := .trans
  acted _ _ ha := ha.elapsed ha.left
  weaken _ _   := id
  after _ _ _  := .trans

/-! ### With exchanges -/

theorem Spares.refl : Spares 0 s s := ⟨List.suffix_rfl, [], rfl, fun _ h => ⟨rfl, h.le⟩⟩

theorem Spares.mono (h : Spares m s t) (hn : m ≤ n) : Spares n s t :=
  have ⟨new, hlog, hnew⟩ := h.log
  ⟨h.sched, new, hlog, fun hfull h0 => (hnew hfull h0).imp_right hn.trans'⟩

/-- After an end without a conversion in progress the next part starts anew. -/
theorem Spares.trans (h : Spares 0 s t) (g : Spares n t u) : Spares n s u := by
  obtain ⟨old, hold, h'⟩ := h.log
  obtain ⟨new, hnew, g'⟩ := g.log
  refine ⟨g.sched.trans h.sched, new ++ old, by rw [hnew, hold, List.append_assoc], fun hfull h0 => ?_⟩
  rw [exchangesOf_append, List.forall_mem_append] at hfull
  obtain ⟨hmid, hleft⟩ := h' hfull.2 h0
  obtain ⟨gmid, gleft⟩ := g' hfull.1 (Nat.le_zero.mp hleft)
  exact ⟨gmid.trans hmid, gleft⟩

/-- Time that passes is taken off the conversion in progress. -/
theorem Spares.elapsed (h : Spares n s t) (g : Elapsed k t u) : Spares (n - k) s u := by
  obtain ⟨old, hold, h'⟩ := h.log
  obtain ⟨new, hnew, hnone⟩ := g.log
  refine ⟨g.sched.trans h.sched, new ++ old, by rw [hnew, hold, List.append_assoc], fun hfull h0 => ?_⟩
  rw [exchangesOf_append, hnone, List.nil_append] at hfull
  obtain ⟨hmid, hleft⟩ := h' hfull h0
  exact ⟨g.mid.trans hmid, g.left.trans (Nat.sub_le_sub_right hleft k)⟩

theorem Spares.extend (h : Spares n s t) (g : Elapsed 0 t u) : Spares n s u := h.elapsed g

theorem Elapsed.spares (h : Elapsed 0 s t) : Spares 0 s t := Spares.refl.extend h

theorem Spares.of_env (h : t.env = s.env) : Spares 0 s t := (Elapsed.of_env h).spares

theorem Spares.of_event {e : Nat × Event} (h : t.env = { s.env with log := e :: s.env.log })
    (he : exchangesOf [e] = [] := by rfl) : Spares 0 s t := (Elapsed.of_event h he).spares

theorem spares_computes : Computes p (Spares 0) SparesSoFar where
  refl _              := .refl
  trans _ _ _         := .trans
  acted _ _ ha        := (ha.elapsed ha.left).spares
  weaken _ _ h        := ⟨0, h⟩
  after _ _ _ h       := fun ⟨n, g⟩ => ⟨n, h.trans g⟩
  engine _ _ ht       := .of_env (by rw [ht])
  cstep _ _           := .of_env rfl

theorem spares_tolerates : Tolerates p (Spares 0) SparesSoFar := spares_computes.toTolerates

/-- A read leaves the sensor as it is. -/
theorem spares_read (addr : Byte) (r : Nat) (s : State) : Spares 0 s (afterExchange p [addr] r s) :=
  ⟨List.suffix_rfl, [_], rfl, fun _ h => ⟨rfl, h.le⟩⟩

theorem sensorWrite_midWrite (addr v : Byte) {x : Sensor} (h : x.left = 0) :
    (sensorWrite p addr v x).midWrite = x.midWrite := by
  unfold sensorWrite
  split
  · cases conversionOf p v <;> simp [h]
  · rfl

/-- A write, by what follows when it is accepted whole; of any other nothing is claimed. -/
theorem spares_write {addr v : Byte} (h : acceptsWrite (nextAnswer [addr, v] 0 s) → LastsAtMost p addr v n) :
    Spares n s (afterExchange p [addr, v] 0 s) := by
  refine ⟨List.suffix_rfl, [_], rfl, fun hfull h0 => ?_⟩
  have hw : acceptsWrite (nextAnswer [addr, v] 0 s) := hfull _ List.mem_cons_self rfl
  have hsensor : (afterExchange p [addr, v] 0 s).env.sensor = sensorWrite p addr v s.env.sensor := by
    obtain ⟨rb, hrb⟩ := hw
    simp [sensorAfter, hrb, writeTaken]
  rw [hsensor]
  exact ⟨sensorWrite_midWrite addr v h0, h hw _ h0⟩

theorem lastsAtMost_of_conversion {v : Byte} {k : Kind} (h : conversionOf p v = some (k, n)) :
    LastsAtMost p p.ctrlReg v n := fun x _ => by simp [sensorWrite, h]

theorem lastsAtMost_of_none {v : Byte} (h : conversionOf p v = none) : LastsAtMost p p.ctrlReg v 0 :=
  fun x hx => by simp [sensorWrite, h, hx]

theorem lastsAtMost_of_ne {addr : Byte} (v : Byte) (h : addr ≠ p.ctrlReg) : LastsAtMost p addr v 0 :=
  fun x hx => by simp [sensorWrite, h, hx]

theorem exists_lastsAtMost (p : Params) (v : Byte) : ∃ n, LastsAtMost p p.ctrlReg v n := by
  cases h : conversionOf p v with
  | none => exact ⟨0, lastsAtMost_of_none h⟩
  | some c => exact ⟨c.2, lastsAtMost_of_conversion h⟩

end

/-! ### Operations -/

/-- However the operation ends, its writes fell inside no conversion; unless hardware reset came, at most `n` ticks of one are
left. -/
abbrev LeavesAtMost {φ α : Type} (n : Nat) (x : Op φ α) : Prop := Keeps (fun _ => True) (Spares n) SparesSoFar x

section
variable {φ α β : Type} {p : Params} {s t u : State} {m n : Nat} {x : Op φ α} {f : α → Op φ β}

/-- A stop, seen from another state. -/
theorem Stopped.rebase {R R' D D' : State → State → Prop} {e : Stop φ} (hR : ∀ v, R t v → R' s v)
    (hD : ∀ v, D t v → D' s v) (h : Stopped R D t e u) : Stopped R' D' s e u := by
  cases e with
  | raise => exact hR _ h
  | fault => exact hD _ h
  | dropped =>
    obtain ⟨v, hv, hreset⟩ := h
    exact ⟨v, hD v hv, hreset⟩

theorem LeavesAtMost.mono (h : LeavesAtMost m x) (hn : m ≤ n) : LeavesAtMost n x :=
  Keeps.mono h (fun _ => id) (fun _ _ hs => hs.mono hn) fun _ _ => id

/-- What an operation without a conversion at its end is followed by. -/
theorem LeavesAtMost.bind (hx : LeavesAtMost 0 x) (hf : ∀ a, LeavesAtMost n (f a)) : LeavesAtMost n (x >>= f) := by
  intro s _
  rw [ends_bind]
  exact (hx s trivial).mono
    (fun a t ht => (hf a t trivial).mono (fun _ _ => ht.trans) fun _ _ =>
      Stopped.rebase (fun _ => ht.trans) fun _ ⟨m, hm⟩ => ⟨m, ht.trans hm⟩)
    fun _ _ => Stopped.rebase (fun _ hs => hs.mono (Nat.zero_le n)) fun _ => id

/-- An operation followed by what exchanges nothing. -/
theorem LeavesAtMost.thenElapsed (hx : LeavesAtMost n x)
    (hf : ∀ a, Keeps (fun _ => True) (Elapsed 0) (Elapsed 0) (f a)) : LeavesAtMost n (x >>= f) := by
  intro s _
  rw [ends_bind]
  exact (hx s trivial).mono
    (fun a t ht => (hf a t trivial).mono (fun _ _ => ht.extend) fun _ _ =>
      Stopped.rebase (fun _ => ht.extend) fun _ hv => ⟨n, ht.extend hv⟩)
    fun _ _ => id

theorem leavesAtMost_update {g : State → State} (h : ∀ s, Spares 0 s (g s)) : LeavesAtMost 0 (Op.update g : Op φ Unit) :=
  keeps_update fun s _ => h s

theorem leavesAtMost_setSequencer (y : SeqState) : LeavesAtMost 0 (Op.update (setSequencer y) : Op φ Unit) :=
  leavesAtMost_update fun _ => .of_event rfl

theorem leavesAtMost_require (c : State → Bool) (k : ErrKind) : LeavesAtMost 0 (Op.require c k : Op φ Unit) :=
  keeps_require (fun _ => .refl) c k

theorem leavesAtMost_read (g : State → α) : LeavesAtMost 0 (Op.read g : Op φ α) := keeps_read (fun _ => .refl) g

theorem leavesAtMost_pure (a : α) : LeavesAtMost 0 (pure a : Op φ α) := keeps_pure (fun _ => .refl) a

/-- A write that raises was not accepted whole. -/
theorem ends_writeRegister {addr v : Byte} (hv : LastsAtMost p addr v n) (s : State) :
    Ends (writeRegister p addr v : Op φ Unit) s (fun _ t => Spares n s t) (Stopped (Spares 0) SparesSoFar s) := by
  unfold writeRegister
  rcases moment_cases (φ := φ) p s with ⟨u, hu, ha⟩ | ⟨u, ha, hh, hr⟩
  · have hs : Spares 0 s u := (ha.elapsed ha.left).spares
    have hx : (frameWr1 p addr v : Op φ Answer) s = .ok (nextAnswer [addr, v] 0 u) (afterExchange p [addr, v] 0 u) :=
      bind_ok hu
    by_cases hw : acceptsWrite (nextAnswer [addr, v] 0 u)
    · rw [ends_ok ((bind_ok hx).trans (checkWrite_ok hw))]
      exact hs.trans (spares_write fun _ => hv)
    · rw [ends_error ((bind_ok hx).trans (checkWrite_fail hw))]
      exact hs.trans (spares_write fun h => absurd h hw)
  · have hx : (frameWr1 p addr v : Op φ Answer) s = .error .dropped (hardwareReset (dropAct u)) := bind_error hr
    rw [ends_error (bind_error hx)]
    exact ⟨u, ⟨0, (ha.elapsed ha.left).spares⟩, hh, rfl⟩

theorem leavesAtMost_writeRegister {addr v : Byte} (hv : LastsAtMost p addr v n) :
    LeavesAtMost n (writeRegister p addr v : Op φ Unit) := fun s _ =>
  (ends_writeRegister hv s).mono (fun _ _ => id) fun _ _ =>
    Stopped.rebase (fun _ hs => hs.mono (Nat.zero_le n)) fun _ => id

theorem leavesAtMost_readRegister (addr : Byte) : LeavesAtMost 0 (readRegister p addr : Op φ Byte) :=
  keeps_readRegister spares_tolerates (spares_read addr 1)

/-- A conversion command and a wait of at least its length: the conversion is over at the end. -/
theorem leavesAtMost_issue {cmd : Byte} {us : Nat} (hc : LastsAtMost p p.ctrlReg cmd (ticks p us)) :
    LeavesAtMost 0 (issue p cmd us : Op φ Unit) := by
  refine (leavesAtMost_setSequencer _).bind fun _ s _ => ?_
  rw [ends_bind]
  refine (ends_writeRegister hc s).mono (fun _ t ht => ?_) fun _ _ => id
  rw [ends_bind, ends_ok (update_apply _)]
  have hset : Elapsed 0 t (setTimer (ticks p us) (setSequencer .waiting t)) := .of_event rfl
  rcases wait_cases (φ := φ) p us (setSequencer .waiting t) with ⟨k, u, hu, hw, -, hk⟩ | ⟨k, u, hw, hh, hu⟩
  · rw [ends_ok hu]
    exact ((ht.extend hset).elapsed hw.elapsed).mono (by omega)
  · rw [ends_error hu]
    exact ⟨u, ⟨_, (ht.extend hset).elapsed hw.elapsed⟩, hh, rfl⟩

theorem leavesAtMost_captureResult : LeavesAtMost 0 (captureResult p : Op φ Unit) := by
  refine (leavesAtMost_setSequencer _).bind fun _ => (leavesAtMost_readRegister _).bind fun m => ?_
  refine LeavesAtMost.bind (leavesAtMost_update fun _ => .of_env rfl) fun _ => (leavesAtMost_readRegister _).bind fun l => ?_
  refine LeavesAtMost.bind (leavesAtMost_update fun _ => .of_env rfl) fun _ => (leavesAtMost_read _).bind fun kind => ?_
  cases kind with
  | temperature => exact leavesAtMost_pure ()
  | pressure => exact (leavesAtMost_readRegister _).bind fun x => leavesAtMost_update fun _ => .of_env rfl

theorem leavesAtMost_toIdle {x : Op φ Unit} (h : LeavesAtMost 0 x) : LeavesAtMost 0 (x.onRaise (setSequencer .idle)) :=
  h.onRaise fun _ _ _ ht => ht.extend (.of_event rfl)

theorem leavesAtMost_issueAndWait {cmd : Byte} {us : Nat} (hc : LastsAtMost p p.ctrlReg cmd (ticks p us)) :
    LeavesAtMost 0 (issueAndWait p cmd us : Op φ Unit) :=
  (leavesAtMost_require _ _).bind fun _ => (leavesAtMost_toIdle (leavesAtMost_issue hc)).bind fun _ =>
    leavesAtMost_setSequencer _

/-- What an acquisition does between the choice of its kind and its end. -/
theorem leavesAtMost_issueAndCapture {cmd : Byte} {us : Nat} (hc : LastsAtMost p p.ctrlReg cmd (ticks p us)) :
    LeavesAtMost 0 ((do issue p cmd us; captureResult p : Op φ Unit).onRaise (setSequencer .idle)) :=
  leavesAtMost_toIdle ((leavesAtMost_issue hc).bind fun _ => leavesAtMost_captureResult)

theorem lastsAtMost_cmdTemp : LastsAtMost p p.ctrlReg p.cmdTemp (ticks p p.tDelayUs) :=
  lastsAtMost_of_conversion (conversionOf_cmdTemp p)

theorem lastsAtMost_cmdPress (hp : p.Ok) (o : Level) : LastsAtMost p p.ctrlReg (p.cmdPress o) (ticks p (p.pDelayUs o)) :=
  lastsAtMost_of_conversion (conversionOf_cmdPress hp o)

theorem leavesAtMost_acquireRawTemperature : LeavesAtMost 0 (acquireRawTemperature p : Op φ Half) :=
  (leavesAtMost_require _ _).bind fun _ => LeavesAtMost.bind (leavesAtMost_update fun _ => .of_env rfl) fun _ =>
    (leavesAtMost_issueAndCapture lastsAtMost_cmdTemp).bind fun _ =>
      LeavesAtMost.bind (leavesAtMost_update fun _ => .of_event rfl) fun _ => leavesAtMost_read _

theorem leavesAtMost_acquireRawPressure (hp : p.Ok) (o : Level) :
    LeavesAtMost 0 (acquireRawPressure p o : Op φ Count20) :=
  (leavesAtMost_require _ _).bind fun _ => LeavesAtMost.bind (leavesAtMost_update fun _ => .of_env rfl) fun _ =>
    (leavesAtMost_issueAndCapture (lastsAtMost_cmdPress hp o)).bind fun _ =>
      LeavesAtMost.bind (leavesAtMost_update fun _ => .of_event rfl) fun _ => leavesAtMost_read _

/-! ### Commands -/

theorem leavesAtMost_configure (hp : p.Ok) : LeavesAtMost 0 (configure p) := by
  have wait : ∀ {cmd : Byte} {us : Nat}, LastsAtMost p p.ctrlReg cmd (ticks p us) →
      LeavesAtMost 0 ((issueAndWait p cmd us : Op Empty Unit).onRaise clearCalValid) :=
    fun hc => (leavesAtMost_issueAndWait hc).onRaise fun _ _ _ ht => ht.extend (.of_env rfl)
  have load : LeavesAtMost 0 (load p : Op Empty Unit) :=
    keeps_load spares_tolerates (spares_read _ _) fun _ _ => .of_env rfl
  refine (leavesAtMost_require _ _).bind fun _ => load.bind fun _ => (wait lastsAtMost_cmdTemp).bind fun _ => ?_
  refine (wait (lastsAtMost_cmdPress hp _)).bind fun _ => LeavesAtMost.bind ?_ fun _ => leavesAtMost_pure _
  exact leavesAtMost_update fun _ => .of_event rfl

theorem leavesAtMost_readCompensated (hp : p.Ok) : LeavesAtMost 0 (readCompensated p) :=
  keeps_readCompensated spares_tolerates leavesAtMost_acquireRawTemperature (leavesAtMost_acquireRawPressure hp _)
    (keeps_engineRun spares_computes) fun _ => .of_env rfl

theorem leavesAtMost_resetSensor (hv : LastsAtMost p p.ctrlReg p.softReset 0) : LeavesAtMost 0 (resetSensor p) :=
  (leavesAtMost_require _ _).bind fun _ => (leavesAtMost_writeRegister hv).bind fun _ =>
    LeavesAtMost.bind (leavesAtMost_update fun _ => .of_event rfl) fun _ => leavesAtMost_pure _

theorem leavesAtMost_writeRegisterRaw {addr v : Byte} (hv : LastsAtMost p addr v 0) :
    LeavesAtMost 0 (writeRegisterRaw p addr v) :=
  (leavesAtMost_require _ _).bind fun _ => (leavesAtMost_writeRegister hv).bind fun _ => leavesAtMost_pure _

theorem leavesAtMost_writePowerDown (hv : LastsAtMost p p.ctrlReg p.powerDown n) : LeavesAtMost n (writePowerDown p) :=
  LeavesAtMost.bind (leavesAtMost_update fun _ => .of_event rfl) fun _ =>
    (leavesAtMost_writeRegister hv).outcome

theorem LeavesAtMost.thenEndSession {x : Op Empty (Option ErrKind)} (hx : LeavesAtMost n x) :
    LeavesAtMost n (x >>= endSession) :=
  hx.thenElapsed fun e => keeps_endSession (elapsed_tolerates (p := Config.params)) (fun _ => .of_event rfl) e

theorem leavesAtMost_shutdown (hv : LastsAtMost p p.ctrlReg p.powerDown n) : LeavesAtMost n (shutdown p) :=
  (leavesAtMost_require _ _).bind fun _ => (leavesAtMost_writePowerDown hv).thenEndSession

theorem leavesAtMost_closeSession (hv : LastsAtMost p p.ctrlReg p.powerDown n) : LeavesAtMost n (closeSession p) := by
  refine (leavesAtMost_read _).bind fun live => ?_
  cases live with
  | true => exact (leavesAtMost_writePowerDown hv).thenEndSession
  | false => exact ((leavesAtMost_pure none).mono (Nat.zero_le n)).thenEndSession

/-! ### The whole of an accepted command -/

theorem LeavesAtMost.settle {x : Op φ Payload} (hx : LeavesAtMost n x) : LeavesAtMost n (settle x) := by
  intro s _
  have h := hx s trivial
  unfold Ends Machine.settle at *
  cases hr : x s with
  | ok a t => rw [hr] at h; exact h
  | error e t =>
    rw [hr] at h
    cases e <;> exact h

theorem LeavesAtMost.accepted {x : Op φ Payload} (hx : LeavesAtMost n x) : LeavesAtMost n (accepted p x) :=
  LeavesAtMost.bind (leavesAtMost_update fun _ => .of_env rfl) fun _ => hx.settle.thenElapsed fun _ =>
    keeps_seq (elapsed_tolerates (p := p)) (keeps_moment elapsed_tolerates) fun _ => keeps_update fun _ _ => .of_event rfl

/-- At the end of an operation, or as a hardware reset that was scheduled has left it. -/
def SparesOrReset (n : Nat) (s t : State) : Prop := Spares n s t ∨ ¬ Calm s ∧ SparesSoFar s t

theorem sparesOrReset_of_reset (hu : SparesSoFar s u) (hreset : u.env.sched.head? = some .hardwareReset) :
    SparesOrReset n s (hardwareReset (dropAct u)) := by
  obtain ⟨m, hm⟩ := hu
  exact .inr ⟨fun hc => hc (hm.sched.subset (List.mem_of_head? hreset)), m, hm.extend (elapsed_hardwareReset u)⟩

theorem runCommand_spares {i : Instr} {x : Op Empty Payload} (hx : LeavesAtMost n x) (hb : s.busy = false)
    (hn : runCommand p i x s = .next t) : SparesOrReset n s t := by
  have h := hx.accepted (p := p) s trivial
  unfold Ends at h
  simp only [runCommand, hb, Bool.false_eq_true, if_false, Host.Outcome.next.injEq] at hn
  subst hn
  cases hr : accepted p x s with
  | ok a u => rw [hr] at h; exact .inl h
  | error e u =>
    rw [hr] at h
    cases e with
    | raise k => exact .inl (h.extend (.of_env rfl))
    | fault f => exact nomatch f
    | dropped =>
      obtain ⟨v, hv, hreset, rfl⟩ := h
      exact sparesOrReset_of_reset hv hreset

theorem runEngineCommand_spares {i : Instr} {x : Op Fault Payload} (hx : LeavesAtMost 0 x) (hb : s.busy = false)
    (hn : runEngineCommand p i x s = .next t) : SparesOrReset 0 s t := by
  have hbusy : Spares 0 s (setBusy true s) := .of_env rfl
  obtain ⟨r, u, hu, rfl⟩ | ⟨u, ⟨m, hm⟩, hreset, rfl⟩ := runEngineCommand_keeps spares_tolerates hx trivial hb hn
  · exact .inl ((hbusy.trans hu).extend (.of_event rfl))
  · exact sparesOrReset_of_reset ⟨m, hbusy.trans hm⟩ hreset

theorem SparesOrReset.mono (h : SparesOrReset m s t) (hn : m ≤ n) : SparesOrReset n s t := h.imp_left fun hs => hs.mono hn

/-- Every host command but a raw write of the control register; `n` bounds what the power-down byte may start. -/
theorem exec_spares {i : Instr} (hi : isCommand i = true)
    (hraw : ∀ value, i ≠ .writeRegisterRaw Config.params.ctrlReg value) (hb : s.busy = false)
    (hn : (∃ u, i = .shutdown u ∨ i = .closeSession u) →
      LastsAtMost Config.params Config.params.ctrlReg Config.params.powerDown n)
    (hx : exec i s = .next t) : SparesOrReset n s t := by
  have hok := Config.params_ok
  have T := spares_tolerates (p := Config.params)
  have run : ∀ {x : Op Empty Payload}, LeavesAtMost 0 x → runCommand Config.params i x s = .next t → SparesOrReset n s t :=
    fun h0 hx => runCommand_spares (h0.mono (Nat.zero_le n)) hb hx
  cases i
  case configure => exact run (leavesAtMost_configure hok) hx
  case shutdown u => exact runCommand_spares (leavesAtMost_shutdown (hn ⟨u, .inl rfl⟩)) hb hx
  case reset => exact run (leavesAtMost_resetSensor (lastsAtMost_of_none rfl)) hx
  case readRegisterRaw => exact run (keeps_readRegisterRaw T (spares_read _ 1)) hx
  case writeRegisterRaw addr value =>
    exact run (leavesAtMost_writeRegisterRaw (lastsAtMost_of_ne value fun h => hraw value (h ▸ rfl))) hx
  case readCompensated => exact (runEngineCommand_spares (leavesAtMost_readCompensated hok) hb hx).mono (Nat.zero_le n)
  case openSession => exact run (keeps_openSession T fun _ => .of_event rfl) hx
  case closeSession u => exact runCommand_spares (leavesAtMost_closeSession (hn ⟨u, .inr rfl⟩)) hb hx
  case invalid => exact run (keeps_invalidCommand fun _ => .refl) hx
  all_goals cases hi

/-- What the relation says of a trace that is known. -/
theorem Spares.sensor {new : List (Nat × Event)} (h : Spares n s t) (hlog : t.env.log = new ++ s.env.log)
    (hfull : ∀ x ∈ exchangesOf new, isFullWrite x) (h0 : s.env.sensor.left = 0) :
    t.env.sensor.midWrite = s.env.sensor.midWrite ∧ t.env.sensor.left ≤ n := by
  obtain ⟨new', hlog', hnew⟩ := h.log
  obtain rfl : new' = new := List.append_cancel_right (hlog'.symm.trans hlog)
  exact hnew hfull h0

end

/-- Settles O59. Every write of a conversion command is followed by a wait for at least its conversion, so that none is in
progress at the next write; only the power-down byte has no write and no wait after it, and `n` bounds what it may start. -/
theorem noWriteInsideAConversion : Obligations.NoWriteInsideAConversion := by
  intro i s t new hi hraw hb _ h0 hx hlog hfull
  refine ⟨?mid, fun hc hpower => ?left⟩
  case mid =>
    obtain ⟨n, hn⟩ := exists_lastsAtMost Config.params Config.params.powerDown
    obtain h | ⟨-, m, h⟩ := exec_spares hi hraw hb (fun _ => hn) hx
    · exact (h.sensor hlog hfull h0).1
    · exact (h.sensor hlog hfull h0).1
  case left =>
    have hn : (∃ u, i = .shutdown u ∨ i = .closeSession u) →
        LastsAtMost Config.params Config.params.ctrlReg Config.params.powerDown 0 := fun ⟨u, hu⟩ =>
      hpower.elim lastsAtMost_of_none fun hne => absurd hu (not_or.mpr (hne u))
    obtain h | ⟨hnc, -⟩ := exec_spares hi hraw hb hn hx
    · exact Nat.le_zero.mp (h.sensor hlog hfull h0).2
    · exact absurd hc hnc

end Sys2Proof.Machine
end

section
/-!
A hardware reset with nothing to do, and one at a moment of a wait (spec/42_measurement.md R108, spec/70_reset_and_hazards.md
R210 to R212).
-/

namespace Sys2Proof.Machine

/-- What is still to happen outside. -/
def setSched (acts : List HostAct) (s : State) : State := { s with env := { s.env with sched := acts } }

section
variable {φ : Type} {p : Params} {s : State} {rest : List HostAct}

theorem dropAct_eq_setSched {act : HostAct} (hs : s.env.sched = act :: rest) : dropAct s = setSched rest s := by
  simp [dropAct, setSched, hs]

theorem idle_of_sched_hardwareReset (p : Params) (hs : s.env.sched = .hardwareReset :: rest) :
    idle p s = hardwareReset (setSched rest s) := by
  rw [idle, hs, ← dropAct_eq_setSched hs]

/-- A moment of a wait at which a hardware reset comes. -/
theorem waitMoment_hardwareReset (hs : s.env.sched = .hardwareReset :: rest) :
    (waitMoment p : Op φ Unit) s = .error .dropped (hardwareReset (setSched rest s)) := by
  rw [waitMoment, hs, runActs, dropAct_eq_setSched hs]

/-- A hardware reset that comes after `j` ticks of a wait drops it there. -/
theorem countDown_hardwareReset : ∀ {j fuel : Nat} {s : State}, j < s.dtimer → s.dtimer ≤ fuel →
    s.env.sched = List.replicate j .quiet ++ .hardwareReset :: rest →
    (countDown p fuel : Op φ Unit) s = .error .dropped (hardwareReset (setSched rest (elapse j s)))
  | _, 0, _, hj, hf, _ => absurd hj (by omega)
  | 0, k + 1, s, hj, _, hs => by
    rw [countDown_succ hj.ne', bind_error (waitMoment_hardwareReset hs), elapse_zero]
  | j + 1, k + 1, s, hj, hf, hs => by
    have hd : s.dtimer ≠ 0 := by omega
    have hleft : (runTimer 1 (dropAct s)).dtimer = s.dtimer - 1 := rfl
    have hworld : (setSched rest (elapse (j + 1) s)).env = (setSched rest (elapse j (runTimer 1 (dropAct s)))).env := by
      rw [Nat.add_comm, ← elapse_elapse]
      rfl
    rw [countDown_succ hd, bind_ok (waitMoment_end hs), update_bind, tick_eq_runTimer (s := dropAct s) hd,
      countDown_hardwareReset (j := j) (by omega) (by omega) (by simp [dropAct, runTimer, hs]), hardwareReset_congr hworld]

theorem wait_hardwareReset {us j : Nat} (hj : j < ticks p us)
    (hs : s.env.sched = List.replicate j .quiet ++ .hardwareReset :: rest) :
    (wait p us : Op φ Unit) s = .error .dropped (hardwareReset (setSched rest (elapse j s))) := by
  rw [wait, update_bind]
  exact countDown_hardwareReset (s := setTimer (ticks p us) s) hj le_rfl hs

end

/-- Settles O14, by induction on the ticks before the reset. -/
theorem hardwareResetCutsAWait : Obligations.HardwareResetCutsAWait :=
  fun _ _ _ _ hj hs => runInternal_dropped (bind_error (wait_hardwareReset hj hs))

/-- Settles O15: the step is the idle one, whose one act is the reset. -/
theorem hardwareResetBetweenCommands : Obligations.HardwareResetBetweenCommands := by
  intro s rest htodo hcstep hidle hs
  rw [step_of_nothing_to_do htodo hcstep hidle, idle_of_sched_hardwareReset _ hs, hardwareReset, record, setSched, ← htodo]

end Sys2Proof.Machine
end
